-- ==== Sys2Proof/Word.lean ====
section
/-! DEFINITION. The word types of the Zynium Herot. -/
namespace Sys2Proof

/-- An instruction word, a group-wide register, a virtual address (R5, R25). -/
abbrev Word := BitVec 64
/-- One lane of a lane register (R25). -/
abbrev Lane := BitVec 32
/-- One bit for each of the 32 lanes of a group (R25). -/
abbrev Mask := BitVec 32
/-- A byte of memory. -/
abbrev Byte := BitVec 8

/-- Finite maps as plain data: pairs with strictly rising keys. -/
abbrev Tbl (α : Type) := List (Nat × α)

end Sys2Proof
end

