-- ==== Sys2Proof/Syntax.lean ====
section
/-! DEFINITION. The syntax of the Zynium Herot: the operand shapes of the six word formats (R37), the
clause header (R31), the arguments of the device's own steps, and `Instr`, one constructor for each row
of the opcode table. A shape holds the raw fields of its word; what a field must hold is checked in
`Decode.lean`. -/
namespace Sys2Proof

/-- The V3 format (R37) without op and fn. Bits 3:0 are reserved and hold zero. -/
structure V3 where
  d : BitVec 8
  a : BitVec 8
  b : BitVec 8
  c : BitVec 8
  mask : BitVec 4
  neg : BitVec 1
  ty : BitVec 5
  rm : BitVec 3
  sat : BitVec 1
  deriving DecidableEq, Repr, Inhabited

/-- The VI format (R37) without op and fn. -/
structure VI where
  d : BitVec 8
  a : BitVec 8
  mask : BitVec 4
  imm : BitVec 32
  deriving DecidableEq, Repr, Inhabited

/-- The M format (R37) without op and fn. -/
structure M where
  data : BitVec 8
  lane : BitVec 8
  x : BitVec 3
  mask : BitVec 4
  size : BitVec 3
  hint : BitVec 2
  off : BitVec 24
  deriving DecidableEq, Repr, Inhabited

/-- The B format (R37) without op and fn. -/
structure B where
  mask : BitVec 4
  neg : BitVec 1
  gp : BitVec 3
  ngp : BitVec 1
  tok : BitVec 11
  disp : BitVec 32
  deriving DecidableEq, Repr, Inhabited

/-- The X format (R37) without op and fn. -/
structure X where
  f1 : BitVec 8
  f2 : BitVec 8
  f3 : BitVec 8
  tm : BitVec 4
  f5 : BitVec 8
  imm : BitVec 14
  deriving DecidableEq, Repr, Inhabited

/-- The S format (R37) without op and fn. -/
structure S where
  d : BitVec 6
  a : BitVec 6
  b : BitVec 6
  imm : BitVec 32
  deriving DecidableEq, Repr, Inhabited

/-- The clause header (R31) without OP and the reserved bits 31:0. -/
structure Hdr where
  cls : BitVec 4
  count : BitVec 4
  wld : BitVec 1
  wst : BitVec 1
  was : BitVec 1
  wmx : BitVec 1
  park : BitVec 1
  ns : BitVec 1
  price : BitVec 12
  deriving DecidableEq, Repr, Inhabited

/-- `nop` has two encodings: VI in a clause (R53), S on the Starter (R54). -/
inductive NopForm where
  | clause (f : VI)
  | starter (f : S)
  deriving DecidableEq, Repr, Inhabited

/-- A group: launch identifier, block index and group-in-block index (R364). -/
structure GKey where
  launch : Nat
  block : Nat
  gi : Nat
  deriving DecidableEq, Repr, Inhabited

/-- The two temperatures one cluster's sensors read at a clearing (R338). -/
structure Sample where
  tdram : BitVec 8
  tdie : BitVec 8
  deriving DecidableEq, Repr, Inhabited

/-- A firmware image slot as the ROM finds it (R400): its digest, whether each of its two signatures over the digest holds
against the fused key hashes, and its SVN. -/
structure FwImage where
  digest : BitVec 384
  ed25519 : Bool
  mldsa : Bool
  svn : BitVec 32
  deriving DecidableEq, Repr, Inhabited

/-- What host-die firmware writes at bring-up (R399), and what the ROM finds in the two image slots
(R400). -/
structure Firmware where
  slot0 : FwImage
  slot1 : FwImage
  ilim : List (BitVec 32)
  mktcfg : BitVec 32
  thcfg : BitVec 64
  errata : List (BitVec 64)
  errEnts : List (BitVec 32)
  rels : List (BitVec 64)
  dump : BitVec 64
  hostlim : BitVec 64
  portsUp : BitVec 12
  deriving DecidableEq, Repr, Inhabited

/-- An access from outside the chiplets: by a host processor to its memory or to device memory (R231),
or by a remote package to this package's physical map (R396). `op` is 0 read, 1 write, 2 to 12 the
atomic of fn `op - 2` (R220). -/
structure HostAccess where
  op : Nat
  pa : BitVec 52
  size : Nat
  val : BitVec 64
  cmp : BitVec 64
  deriving DecidableEq, Repr, Inhabited

/-- One constructor for each row of the opcode table: the encoded words of clauses, the S-format words
of Starter contexts, and the steps of the device. -/
inductive Instr where
  /-- `CLAUSE_HEADER`, R33. -/
  | clauseHeader (f : Hdr)
  /-- `VADD`, R156. -/
  | vadd (f : V3)
  /-- `VSUB`, R156. -/
  | vsub (f : V3)
  /-- `VMIN`, R156. -/
  | vmin (f : V3)
  /-- `VMAX`, R156. -/
  | vmax (f : V3)
  /-- `VABS`, R156. -/
  | vabs (f : V3)
  /-- `VNEG`, R156. -/
  | vneg (f : V3)
  /-- `VABSD`, R156. -/
  | vabsd (f : V3)
  /-- `VAVG`, R156. -/
  | vavg (f : V3)
  /-- `VAND`, R157. -/
  | vand (f : V3)
  /-- `VOR`, R157. -/
  | vor (f : V3)
  /-- `VXOR`, R157. -/
  | vxor (f : V3)
  /-- `VANDN`, R157. -/
  | vandn (f : V3)
  /-- `VNOT`, R157. -/
  | vnot (f : V3)
  /-- `VSHL`, R157. -/
  | vshl (f : V3)
  /-- `VSHR`, R157. -/
  | vshr (f : V3)
  /-- `VSRA`, R157. -/
  | vsra (f : V3)
  /-- `VROL`, R157. -/
  | vrol (f : V3)
  /-- `VBEXT`, R157. -/
  | vbext (f : V3)
  /-- `VBINS`, R157. -/
  | vbins (f : V3)
  /-- `VPOPC`, R157. -/
  | vpopc (f : V3)
  /-- `VCLZ`, R157. -/
  | vclz (f : V3)
  /-- `VBREV`, R157. -/
  | vbrev (f : V3)
  /-- `VPERM`, R157. -/
  | vperm (f : V3)
  /-- `VCEQ`, R158. -/
  | vceq (f : V3)
  /-- `VCNE`, R158. -/
  | vcne (f : V3)
  /-- `VCLT`, R158. -/
  | vclt (f : V3)
  /-- `VCLE`, R158. -/
  | vcle (f : V3)
  /-- `VCGT`, R158. -/
  | vcgt (f : V3)
  /-- `VCGE`, R158. -/
  | vcge (f : V3)
  /-- `VTEST`, R158. -/
  | vtest (f : V3)
  /-- `VMUL`, R159. -/
  | vmul (f : V3)
  /-- `VMULHI`, R159. -/
  | vmulhi (f : V3)
  /-- `VMAD`, R159. -/
  | vmad (f : V3)
  /-- `VMADHI`, R159. -/
  | vmadhi (f : V3)
  /-- `VMULW`, R159. -/
  | vmulw (f : V3)
  /-- `VMADW`, R159. -/
  | vmadw (f : V3)
  /-- `VDIV`, R159. -/
  | vdiv (f : V3)
  /-- `VREM`, R159. -/
  | vrem (f : V3)
  /-- `VDOT4`, R159. -/
  | vdot4 (f : V3)
  /-- `VADDI`, R160. -/
  | vaddi (f : VI)
  /-- `VANDI`, R160. -/
  | vandi (f : VI)
  /-- `VORI`, R160. -/
  | vori (f : VI)
  /-- `VXORI`, R160. -/
  | vxori (f : VI)
  /-- `VSHLI`, R160. -/
  | vshli (f : VI)
  /-- `VSHRI`, R160. -/
  | vshri (f : VI)
  /-- `VSRAI`, R160. -/
  | vsrai (f : VI)
  /-- `VMINI_I32`, R160. -/
  | vminiI32 (f : VI)
  /-- `VMAXI_I32`, R160. -/
  | vmaxiI32 (f : VI)
  /-- `VMINI_N32`, R160. -/
  | vminiN32 (f : VI)
  /-- `VMAXI_N32`, R160. -/
  | vmaxiN32 (f : VI)
  /-- `VMULI`, R160. -/
  | vmuli (f : VI)
  /-- `VMOVI`, R160. -/
  | vmovi (f : VI)
  /-- `VCEQI`, R160. -/
  | vceqi (f : VI)
  /-- `VCLTI_I32`, R160. -/
  | vcltiI32 (f : VI)
  /-- `VCLTI_N32`, R160. -/
  | vcltiN32 (f : VI)
  /-- `VCGTI_I32`, R160. -/
  | vcgtiI32 (f : VI)
  /-- `VCGTI_N32`, R160. -/
  | vcgtiN32 (f : VI)
  /-- `VFADD`, R162. -/
  | vfadd (f : V3)
  /-- `VFSUB`, R162. -/
  | vfsub (f : V3)
  /-- `VFMUL`, R162. -/
  | vfmul (f : V3)
  /-- `VFMA`, R162. -/
  | vfma (f : V3)
  /-- `VFMIN`, R163. -/
  | vfmin (f : V3)
  /-- `VFMAX`, R163. -/
  | vfmax (f : V3)
  /-- `VFABS`, R162. -/
  | vfabs (f : V3)
  /-- `VFNEG`, R162. -/
  | vfneg (f : V3)
  /-- `VFRND`, R162. -/
  | vfrnd (f : V3)
  /-- `VFCEQ`, R164. -/
  | vfceq (f : V3)
  /-- `VFCNE`, R164. -/
  | vfcne (f : V3)
  /-- `VFCLT`, R164. -/
  | vfclt (f : V3)
  /-- `VFCLE`, R164. -/
  | vfcle (f : V3)
  /-- `VFCGT`, R164. -/
  | vfcgt (f : V3)
  /-- `VFCGE`, R164. -/
  | vfcge (f : V3)
  /-- `VFCUN`, R164. -/
  | vfcun (f : V3)
  /-- `VFCLASS`, R164. -/
  | vfclass (f : V3)
  /-- `VCVT`, R150. -/
  | vcvt (src : BitVec 4) (f : V3)
  /-- `VPACK2`, R165. -/
  | vpack2 (f : V3)
  /-- `VPACK4`, R165. -/
  | vpack4 (f : V3)
  /-- `VPACK8`, R165. -/
  | vpack8 (f : V3)
  /-- `VUNPK`, R166. -/
  | vunpk (f : V3)
  /-- `VMXSCALE`, R167. -/
  | vmxscale (f : V3)
  /-- `VRCP`, R168. -/
  | vrcp (f : V3)
  /-- `VRSQ`, R168. -/
  | vrsq (f : V3)
  /-- `VSQRT`, R168. -/
  | vsqrt (f : V3)
  /-- `VEXP2`, R168. -/
  | vexp2 (f : V3)
  /-- `VLOG2`, R168. -/
  | vlog2 (f : V3)
  /-- `VSIN`, R168. -/
  | vsin (f : V3)
  /-- `VCOS`, R168. -/
  | vcos (f : V3)
  /-- `VTANH`, R168. -/
  | vtanh (f : V3)
  /-- `VSIGM`, R168. -/
  | vsigm (f : V3)
  /-- `VFDIV`, R168. -/
  | vfdiv (f : V3)
  /-- `VFADDI`, R169. -/
  | vfaddi (f : VI)
  /-- `VFMULI`, R169. -/
  | vfmuli (f : VI)
  /-- `VFMINI`, R169. -/
  | vfmini (f : VI)
  /-- `VFMAXI`, R169. -/
  | vfmaxi (f : VI)
  /-- `VFMOVI`, R169. -/
  | vfmovi (f : VI)
  /-- `VQXH`, R170. -/
  | vqxh (f : V3)
  /-- `VQXV`, R170. -/
  | vqxv (f : V3)
  /-- `VQXD`, R170. -/
  | vqxd (f : V3)
  /-- `VQBC`, R170. -/
  | vqbc (f : V3)
  /-- `VSHFL`, R170. -/
  | vshfl (f : V3)
  /-- `VSHUP`, R170. -/
  | vshup (f : V3)
  /-- `VSHDN`, R170. -/
  | vshdn (f : V3)
  /-- `VSHXOR`, R170. -/
  | vshxor (f : V3)
  /-- `VBCAST`, R170. -/
  | vbcast (f : V3)
  /-- `VSEL`, R170. -/
  | vsel (f : V3)
  /-- `MAND`, R171. -/
  | mand (f : V3)
  /-- `MOR`, R171. -/
  | mor (f : V3)
  /-- `MXOR`, R171. -/
  | mxor (f : V3)
  /-- `MANDN`, R171. -/
  | mandn (f : V3)
  /-- `MNOT`, R171. -/
  | mnot (f : V3)
  /-- `MMOV`, R171. -/
  | mmov (f : V3)
  /-- `MFROMV`, R171. -/
  | mfromv (f : V3)
  /-- `MTOV`, R171. -/
  | mtov (f : V3)
  /-- `MFROMG`, R171. -/
  | mfromg (f : V3)
  /-- `MTOG`, R171. -/
  | mtog (f : V3)
  /-- `MPOPC`, R171. -/
  | mpopc (f : V3)
  /-- `MFFS`, R171. -/
  | mffs (f : V3)
  /-- `GADD`, R172. -/
  | gadd (f : V3)
  /-- `GSUB`, R172. -/
  | gsub (f : V3)
  /-- `GAND`, R172. -/
  | gand (f : V3)
  /-- `GOR`, R172. -/
  | gor (f : V3)
  /-- `GXOR`, R172. -/
  | gxor (f : V3)
  /-- `GSHL`, R172. -/
  | gshl (f : V3)
  /-- `GSHR`, R172. -/
  | gshr (f : V3)
  /-- `GSRA`, R172. -/
  | gsra (f : V3)
  /-- `GMIN`, R172. -/
  | gmin (f : V3)
  /-- `GMAX`, R172. -/
  | gmax (f : V3)
  /-- `GMINN`, R172. -/
  | gminn (f : V3)
  /-- `GMAXN`, R172. -/
  | gmaxn (f : V3)
  /-- `GMOV`, R172. -/
  | gmov (f : V3)
  /-- `GSEL`, R172. -/
  | gsel (f : V3)
  /-- `GMUL`, R172. -/
  | gmul (f : V3)
  /-- `GMULHI`, R172. -/
  | gmulhi (f : V3)
  /-- `GDIV`, R172. -/
  | gdiv (f : V3)
  /-- `GDIVN`, R172. -/
  | gdivn (f : V3)
  /-- `GREM`, R172. -/
  | grem (f : V3)
  /-- `GREMN`, R172. -/
  | gremn (f : V3)
  /-- `GADDI`, R173. -/
  | gaddi (f : VI)
  /-- `GANDI`, R173. -/
  | gandi (f : VI)
  /-- `GORI`, R173. -/
  | gori (f : VI)
  /-- `GXORI`, R173. -/
  | gxori (f : VI)
  /-- `GSHLI`, R173. -/
  | gshli (f : VI)
  /-- `GSHRI`, R173. -/
  | gshri (f : VI)
  /-- `GSRAI`, R173. -/
  | gsrai (f : VI)
  /-- `GMINI`, R173. -/
  | gmini (f : VI)
  /-- `GMAXI`, R173. -/
  | gmaxi (f : VI)
  /-- `GMOVI`, R173. -/
  | gmovi (f : VI)
  /-- `GMOVHI`, R173. -/
  | gmovhi (f : VI)
  /-- `GMULI`, R173. -/
  | gmuli (f : VI)
  /-- `STARTER_GROUP_OP`, R175. -/
  | starterGroupOp (imm : BitVec 1) (fn : BitVec 8) (f : S)
  /-- `GCEQ`, R174. -/
  | gceq (f : V3)
  /-- `GCNE`, R174. -/
  | gcne (f : V3)
  /-- `GCLT`, R174. -/
  | gclt (f : V3)
  /-- `GCLE`, R174. -/
  | gcle (f : V3)
  /-- `GCLTN`, R174. -/
  | gcltn (f : V3)
  /-- `GCLEN`, R174. -/
  | gclen (f : V3)
  /-- `GPAND`, R174. -/
  | gpand (f : V3)
  /-- `GPOR`, R174. -/
  | gpor (f : V3)
  /-- `GPXOR`, R174. -/
  | gpxor (f : V3)
  /-- `GPNOT`, R174. -/
  | gpnot (f : V3)
  /-- `GPANY`, R174. -/
  | gpany (f : V3)
  /-- `GPALL`, R174. -/
  | gpall (f : V3)
  /-- `VTOG`, R176. -/
  | vtog (f : V3)
  /-- `GTOV`, R176. -/
  | gtov (f : V3)
  /-- `VREDADD`, R177. -/
  | vredadd (f : V3)
  /-- `VREDMIN`, R177. -/
  | vredmin (f : V3)
  /-- `VREDMAX`, R177. -/
  | vredmax (f : V3)
  /-- `VREDAND`, R177. -/
  | vredand (f : V3)
  /-- `VREDOR`, R177. -/
  | vredor (f : V3)
  /-- `VREDXOR`, R177. -/
  | vredxor (f : V3)
  /-- `VSCANADD`, R177. -/
  | vscanadd (f : V3)
  /-- `VFREDADD`, R178. -/
  | vfredadd (f : V3)
  /-- `VFREDMIN`, R178. -/
  | vfredmin (f : V3)
  /-- `VFREDMAX`, R178. -/
  | vfredmax (f : V3)
  /-- `VLD`, R105. -/
  | vld (f : M)
  /-- `VLDX`, R105. -/
  | vldx (f : M)
  /-- `VST`, R105. -/
  | vst (f : M)
  /-- `VSLD`, R105. -/
  | vsld (f : M)
  /-- `VSLDX`, R105. -/
  | vsldx (f : M)
  /-- `VSST`, R105. -/
  | vsst (f : M)
  /-- `VVLD`, R105. -/
  | vvld (f : M)
  /-- `VVLDX`, R105. -/
  | vvldx (f : M)
  /-- `VVST`, R105. -/
  | vvst (f : M)
  /-- `GLD`, R108. -/
  | gld (f : M)
  /-- `GST`, R108. -/
  | gst (f : M)
  /-- `GSLD`, R108. -/
  | gsld (f : M)
  /-- `GSST`, R108. -/
  | gsst (f : M)
  /-- `GVLD`, R108. -/
  | gvld (f : M)
  /-- `GVST`, R108. -/
  | gvst (f : M)
  /-- `XLAT`, R109. -/
  | xlat (f : M)
  /-- `XREL`, R110. -/
  | xrel (f : M)
  /-- `XGET`, R110. -/
  | xget (f : M)
  /-- `TLBINV`, R111. -/
  | tlbinv (f : M)
  /-- `TLB_INVALIDATION_COMPLETE`, R95. -/
  | tlbInvalidationComplete (ctx id : Nat)
  /-- `VPF`, R113. -/
  | vpf (f : M)
  /-- `GPF`, R113. -/
  | gpf (f : M)
  /-- `L1INV`, R114. -/
  | l1inv (f : M)
  /-- `LOAD_RETURN`, R107. -/
  | loadReturn (g : GKey) (id : Nat) (lanes : BitVec 32)
  /-- `STORE_PERFORM`, R107. -/
  | storePerform (g : GKey) (id : Nat) (lanes : BitVec 32)
  /-- `FAULT_QUEUE_POST`, R97. -/
  | faultQueuePost (ctx : Nat)
  /-- `CPY`, R117. -/
  | cpy (f : X)
  /-- `CPY2D`, R117. -/
  | cpy2d (f : X)
  /-- `CPYFILL`, R117. -/
  | cpyfill (f : X)
  /-- `CPYADD`, R117. -/
  | cpyadd (f : X)
  /-- `CPYXOR`, R117. -/
  | cpyxor (f : X)
  /-- `COPY_START`, R119. -/
  | copyStart (core id : Nat)
  /-- `COPY_PIECE_ARRIVAL`, R127. -/
  | copyPieceArrival (core id k : Nat)
  /-- `COPY_COMPLETE`, R122. -/
  | copyComplete (core id : Nat)
  /-- `BFENCE`, R123. -/
  | bfence (f : VI)
  /-- `BWAIT`, R123. -/
  | bwait (f : VI)
  /-- `BGET`, R123. -/
  | bget (f : VI)
  /-- `BCINIT`, R128. -/
  | bcinit (f : X)
  /-- `BCEXPECT`, R128. -/
  | bcexpect (f : X)
  /-- `BCARRIVE`, R128. -/
  | bcarrive (f : X)
  /-- `BCWAIT`, R128. -/
  | bcwait (f : X)
  /-- `BCTEST`, R128. -/
  | bctest (f : X)
  /-- `BC_EFFECT`, R128. -/
  | bcEffect (g : GKey)
  /-- `VMMA`, R187. -/
  | vmma (ty : BitVec 3) (sat : BitVec 1) (f : X)
  /-- `VMMAZ`, R187. -/
  | vmmaz (ty : BitVec 3) (sat : BitVec 1) (f : X)
  /-- `VOUTS`, R195. -/
  | vouts (f : X)
  /-- `TMSET`, R183. -/
  | tmset (f : X)
  /-- `TMCLR`, R183. -/
  | tmclr (f : X)
  /-- `TMGET`, R183. -/
  | tmget (f : X)
  /-- `LATCH_MATCH`, R188. -/
  | latchMatch (core tm : Nat)
  /-- `LATCH_TOKENS_TAKEN`, R188. -/
  | latchTokensTaken (core tm : Nat)
  /-- `MATRIX_OP_COMPLETE`, R189. -/
  | matrixOpComplete (core id : Nat)
  /-- `VAADD`, R220. -/
  | vaadd (f : X)
  /-- `VAAND`, R220. -/
  | vaand (f : X)
  /-- `VAOR`, R220. -/
  | vaor (f : X)
  /-- `VAXOR`, R220. -/
  | vaxor (f : X)
  /-- `VAMIN`, R220. -/
  | vamin (f : X)
  /-- `VAMAX`, R220. -/
  | vamax (f : X)
  /-- `VAMINN`, R220. -/
  | vaminn (f : X)
  /-- `VAMAXN`, R220. -/
  | vamaxn (f : X)
  /-- `VAXCHG`, R220. -/
  | vaxchg (f : X)
  /-- `VACAS`, R220. -/
  | vacas (f : X)
  /-- `VAFADD`, R220. -/
  | vafadd (f : X)
  /-- `ATOMIC_PERFORM`, R222. -/
  | atomicPerform (g : GKey)
  /-- `VRADD`, R224. -/
  | vradd (f : X)
  /-- `VRAND`, R224. -/
  | vrand (f : X)
  /-- `VROR`, R224. -/
  | vror (f : X)
  /-- `VRXOR`, R224. -/
  | vrxor (f : X)
  /-- `VRMIN`, R224. -/
  | vrmin (f : X)
  /-- `VRMAX`, R224. -/
  | vrmax (f : X)
  /-- `VRMINN`, R224. -/
  | vrminn (f : X)
  /-- `VRMAXN`, R224. -/
  | vrmaxn (f : X)
  /-- `VRFADD`, R226. -/
  | vrfadd (f : X)
  /-- `VRADD_ARV`, R227. -/
  | vraddArv (f : X)
  /-- `VRAND_ARV`, R227. -/
  | vrandArv (f : X)
  /-- `VROR_ARV`, R227. -/
  | vrorArv (f : X)
  /-- `VRXOR_ARV`, R227. -/
  | vrxorArv (f : X)
  /-- `VRMIN_ARV`, R227. -/
  | vrminArv (f : X)
  /-- `VRMAX_ARV`, R227. -/
  | vrmaxArv (f : X)
  /-- `VRMINN_ARV`, R227. -/
  | vrminnArv (f : X)
  /-- `VRMAXN_ARV`, R227. -/
  | vrmaxnArv (f : X)
  /-- `VRFADD_ARV`, R227. -/
  | vrfaddArv (f : X)
  /-- `TXBEGIN`, R233. -/
  | txbegin (f : VI)
  /-- `TXEND`, R235. -/
  | txend (f : VI)
  /-- `TXABORT`, R234. -/
  | txabort (f : VI)
  /-- `TXSTAT`, R237. -/
  | txstat (f : VI)
  /-- `WAITW`, R238. -/
  | waitw (f : X)
  /-- `MONITOR_WAKE`, R238. -/
  | monitorWake (g : GKey)
  /-- `BARBLK`, R240. -/
  | barblk (f : X)
  /-- `BARGNG`, R240. -/
  | bargng (f : X)
  /-- `BARRIER_ARRIVAL`, R240. -/
  | barrierArrival (g : GKey)
  /-- `HARP`, R201. -/
  | harp (f : X)
  /-- `HARP_PASS_START`, R203. -/
  | harpPassStart (cl : Nat)
  /-- `HARP_TILE_PURCHASE`, R212. -/
  | harpTilePurchase (cl : Nat)
  /-- `HARP_ROW_COMPLETE`, R210. -/
  | harpRowComplete (cl v : Nat)
  /-- `HARP_PASS_COMPLETE`, R203. -/
  | harpPassComplete (cl : Nat)
  /-- `BRA`, R269. -/
  | bra (f : B)
  /-- `BRAU`, R269. -/
  | brau (f : B)
  /-- `JOIN`, R270. -/
  | join (f : B)
  /-- `BREAK`, R271. -/
  | brk (f : B)
  /-- `CONT`, R271. -/
  | cont (f : B)
  /-- `CALL`, R272. -/
  | call (f : B)
  /-- `RET`, R272. -/
  | ret (f : B)
  /-- `EXIT`, R273. -/
  | exit (f : B)
  /-- `TMARK`, R369. -/
  | tmark (f : VI)
  /-- `GFENCE_REL`, R250. -/
  | gfenceRel (f : VI)
  /-- `GFENCE_ACQ`, R251. -/
  | gfenceAcq (f : VI)
  /-- `GFENCE_ACQREL`, R250. -/
  | gfenceAcqrel (f : VI)
  /-- `TRAP`, R369. -/
  | trap (f : VI)
  /-- `YIELD`, R369. -/
  | yield (f : VI)
  /-- `DBGBRK`, R369. -/
  | dbgbrk (f : VI)
  /-- `NOP`, R53. -/
  | nop (f : NopForm)
  /-- `VSR`, R179. -/
  | vsr (f : VI)
  /-- `GSR`, R179. -/
  | gsr (f : VI)
  /-- `GSW`, R179. -/
  | gsw (f : VI)
  /-- `SRSEED`, R146. -/
  | srseed (f : VI)
  /-- `AFFCNT`, R363. -/
  | affcnt (f : VI)
  /-- `AFFPOP`, R363. -/
  | affpop (f : VI)
  /-- `AFFPOP_PERFORM`, R363. -/
  | affpopPerform (g : GKey)
  /-- `AFFWAIT`, R363. -/
  | affwait (f : VI)
  /-- `TKPOOL`, R343. -/
  | tkpool (f : VI)
  /-- `TKSTAT`, R343. -/
  | tkstat (f : VI)
  /-- `LD8`, R282. -/
  | ld8 (f : S)
  /-- `LD16`, R282. -/
  | ld16 (f : S)
  /-- `LD32`, R282. -/
  | ld32 (f : S)
  /-- `LD64`, R282. -/
  | ld64 (f : S)
  /-- `LDX8`, R282. -/
  | ldx8 (f : S)
  /-- `LDX16`, R282. -/
  | ldx16 (f : S)
  /-- `LDX32`, R282. -/
  | ldx32 (f : S)
  /-- `ST8`, R282. -/
  | st8 (f : S)
  /-- `ST16`, R282. -/
  | st16 (f : S)
  /-- `ST32`, R282. -/
  | st32 (f : S)
  /-- `ST64`, R282. -/
  | st64 (f : S)
  /-- `BEQ`, R282. -/
  | beq (f : S)
  /-- `BNE`, R282. -/
  | bne (f : S)
  /-- `BLT`, R282. -/
  | blt (f : S)
  /-- `BLTN`, R282. -/
  | bltn (f : S)
  /-- `BGE`, R282. -/
  | bge (f : S)
  /-- `BGEN`, R282. -/
  | bgen (f : S)
  /-- `JAL`, R282. -/
  | jal (f : S)
  /-- `JALR`, R282. -/
  | jalr (f : S)
  /-- `FENCE`, R282. -/
  | fence (f : S)
  /-- `CSRR`, R283. -/
  | csrr (f : S)
  /-- `CSRW`, R283. -/
  | csrw (f : S)
  /-- `STR_END`, R292. -/
  | strEnd (f : S)
  /-- `EMIT`, R287. -/
  | emit (f : S)
  /-- `EMITM`, R287. -/
  | emitm (f : S)
  /-- `PATCH`, R289. -/
  | patch (f : S)
  /-- `SEGOPEN`, R286. -/
  | segopen (f : S)
  /-- `SEGSTRM`, R286. -/
  | segstrm (f : S)
  /-- `SEAL`, R290. -/
  | seal (f : S)
  /-- `SEGFREE`, R292. -/
  | segfree (f : S)
  /-- `CCFIND`, R295. -/
  | ccfind (f : S)
  /-- `CCPUT`, R295. -/
  | ccput (f : S)
  /-- `LAUNCH`, R297. -/
  | launch (f : S)
  /-- `GREPLAY`, R298. -/
  | greplay (f : S)
  /-- `RELEASE`, R291. -/
  | release (f : S)
  /-- `EMIT_DEADLOCK`, R296. -/
  | emitDeadlock (cl j : Nat)
  /-- `STR_LPORT`, R304. -/
  | strLport (ctx : Nat) (val : BitVec 64)
  /-- `LAUNCH_ACCEPT`, R307. -/
  | launchAccept (ctx : Nat)
  /-- `BLOCK_PULL`, R310. -/
  | blockPull (core : Nat)
  /-- `EVICTION`, R323. -/
  | eviction (core ctx : Nat)
  /-- `LAUNCH_COMPLETE`, R308. -/
  | launchComplete (launch : Nat)
  /-- `TASK_COMMIT`, R246. -/
  | taskCommit (g : GKey)
  /-- `GROUP_TRAP`, R371. -/
  | groupTrap (g : GKey)
  /-- `GANG_KILL`, R385. -/
  | gangKill (g : GKey)
  /-- `FATAL_ERROR`, R389. -/
  | fatalError (cause : Nat)
  /-- `TOKEN_RETURN`, R34. -/
  | tokenReturn (cl id : Nat)
  /-- `STATION_VISIT`, R326. -/
  | stationVisit (cl : Nat)
  /-- `RESERVATION`, R327. -/
  | reservation (cl st req : Nat)
  /-- `RESERVATION_COMPLETE`, R327. -/
  | reservationComplete (cl : Nat)
  /-- `POOL_CHANGE`, R329. -/
  | poolChange (cl : Nat)
  /-- `MARKET_CLEARING`, R330. -/
  | marketClearing (temps : List Sample)
  /-- `BLOCK_MIGRATION`, R341. -/
  | blockMigration (cl : Nat)
  /-- `REGULATOR_PHASE_LOSS`, R336. -/
  | regulatorPhaseLoss (ch phase : Nat)
  /-- `DROOP_START`, R337. -/
  | droopStart (cl : Nat)
  /-- `DROOP_END`, R337. -/
  | droopEnd (cl cycles : Nat)
  /-- `LINK_FLIT_RETRY`, R396. -/
  | linkFlitRetry (port : Nat)
  /-- `LINK_PORT_DOWN`, R396. -/
  | linkPortDown (port : Nat)
  /-- `HEAT_DECAY`, R345. -/
  | heatDecay (core : Nat)
  /-- `SCRUB_SWEEP`, R387. -/
  | scrubSweep (ch level : Nat)
  /-- `FORCED_CUT`, R377. -/
  | forcedCut (ctx core : Nat)
  /-- `SAMPLING_TIMEOUT`, R346. -/
  | samplingTimeout (cl slot : Nat)
  /-- `AFFINAGE_SEARCH`, R348. -/
  | affinageSearch (cl slot : Nat)
  /-- `SHADOW_RUN`, R351. -/
  | shadowRun (core : Nat)
  /-- `AUDIT_RUN`, R354. -/
  | auditRun (core : Nat)
  /-- `AUDIT_OVERDUE`, R355. -/
  | auditOverdue (core : Nat)
  /-- `POWER_ON_RESET`, R399. -/
  | powerOnReset (fw : Firmware)
  /-- `XLT_REPLAY_RETRY`, R97. -/
  | xltReplayRetry (ctx : Nat) (val : BitVec 64)
  /-- `XLT_REPLAY_FAIL`, R97. -/
  | xltReplayFail (ctx : Nat) (val : BitVec 64)
  /-- `PREQ_SET`, R376. -/
  | preqSet (ctx : Nat)
  /-- `PREQ_CLEAR`, R376. -/
  | preqClear (ctx : Nat)
  /-- `TSK_CTL_FORCE`, R377. -/
  | tskCtlForce (ctx : Nat)
  /-- `TSK_WHEY_GO`, R367. -/
  | tskWheyGo (ctx : Nat)
  /-- `TSK_WHEY_FAIL`, R367. -/
  | tskWheyFail (ctx : Nat)
  /-- `TSK_RESUME_RESUME`, R375. -/
  | tskResumeResume (ctx : Nat) (val : BitVec 64)
  /-- `TSK_RESUME_END_GROUP`, R375. -/
  | tskResumeEndGroup (ctx : Nat) (val : BitVec 64)
  /-- `TSK_RESUME_END_LAUNCH`, R375. -/
  | tskResumeEndLaunch (ctx : Nat) (val : BitVec 64)
  /-- `RIND_TAKE_CONTINUE`, R381. -/
  | rindTakeContinue (ctx : Nat)
  /-- `RIND_TAKE_STAY`, R381. -/
  | rindTakeStay (ctx : Nat)
  /-- `RIND_RESTORE`, R381. -/
  | rindRestore (ctx : Nat)
  /-- `STR_FCTL_ABORT`, R299. -/
  | strFctlAbort (cl j : Nat)
  /-- `STR_FCTL_RESUME`, R299. -/
  | strFctlResume (cl j : Nat)
  /-- `HD_INV`, R395. -/
  | hdInv (val : BitVec 64)
  /-- `HD_ATTEST`, R401. -/
  | hdAttest (val : BitVec 64)
  /-- `VLT_CFG`, R80. -/
  | vltCfg (cl : Nat) (val : BitVec 64)
  /-- `AFF_CFG`, R362. -/
  | affCfg (cl : Nat) (val : BitVec 64)
  /-- `MKT_ILIM`, R331. -/
  | mktIlim (ch : Nat) (val : BitVec 64)
  /-- `MKT_CFG`, R331. -/
  | mktCfg (val : BitVec 64)
  /-- `ERRATA_MASK`, R302. -/
  | errataMask (ch : Nat) (val : BitVec 64)
  /-- `REGISTER_WRITE`, R6. -/
  | registerWrite (fw : Bool) (off : Nat) (val : BitVec 64)
  /-- `GENERATOR_FAULT`, R58. -/
  | generatorFault (cl j : Nat)
  /-- `HOST_MEMORY_ACCESS`, R231. -/
  | hostMemoryAccess (a : HostAccess)
  /-- `REMOTE_PACKAGE_ACCESS`, R217. -/
  | remotePackageAccess (a : HostAccess)
  /-- `REMOTE_ACKNOWLEDGEMENT`, R397. -/
  | remoteAcknowledgement (g : GKey)
  deriving DecidableEq, Repr, Inhabited

end Sys2Proof
end

