-- ==== Sys2Proof/Config.lean ====
section
/-! DEFINITION. What one Zynium Herot fixes and what the spec leaves open. A free value is an opaque
constant without a body: nothing in Lean can evaluate it, so a statement about it holds whatever it is. -/
namespace Sys2Proof

/-- An event that the table of operations does not name as a step of its own and that no rule lets
software cause: the caches' own evictions (R225, R229, R247, R92) and errors of storage elements (R382).
A schedule may hold it. `soft` errors name a structure by its level in R382. -/
inductive Upset where
  /-- L1 evicts the update-only lines of one 256-byte line (R225, event 4). -/
  | evictU (core line : Nat)
  /-- L1 evicts a local-atomic line (R229). -/
  | evictLA (core line : Nat)
  /-- A core's hardware prefetcher, or a cluster's Starter, prefetches at an address of a context (R100). -/
  | prefetch (core ctx : Nat) (va : BitVec 64)
  | strPrefetch (cl ctx : Nat) (va : BitVec 64)
  /-- A corrected error of a level at a place (R382, R387). -/
  | corrected (ch level : Nat) (wher : BitVec 64) (syn : BitVec 16)
  /-- One that the word reads which a group issues now (R383). -/
  | correctedAt (g : GKey) (level n : Nat) (syn : BitVec 16)
  /-- A sector of L1 holds an uncorrectable error (R382, level 4). -/
  | l1Sector (core sec : Nat)
  /-- An entry of a group's queue, or of a fabric queue of a chiplet, fails parity that many times in a row (R382,
  level 7). -/
  | queue (g : GKey) (q fails : Nat)
  | fabric (ch q fails : Nat)
  /-- A byte of physical memory, scratch or vault becomes poisoned (R382, levels 2, 5 and 6). -/
  | poisonMem (key : Nat)
  | poisonScr (key : Nat)
  | poisonVlt (key : Nat)
  /-- A lane register holds an uncorrectable error (R382, level 0). -/
  | laneReg (g : GKey) (r : Nat)
  /-- Level 1 state of a group holds an uncorrectable error (R382). -/
  | groupState (g : GKey)
  /-- A Vat word holds an uncorrectable error (R382, level 3). -/
  | vatWord (core desc pos : Nat)
  /-- A version line fails its tag check (R366). -/
  | versionLine (g : GKey)
  /-- An element of a matrix operand register holds an uncorrectable error, in a layer's operation on an edge of a cluster's
  Harp pass: one of the layer's inputs, or past them one of its weights (R216). -/
  | harpOperand (cl edge layer i : Nat)
  /-- A Starter register holds an uncorrectable error (R384). -/
  | starterReg (cl j : Nat)
  deriving DecidableEq, Repr, Inhabited

/-- What one step of the machine may be. Every act but `issue`, `word` and `starter` is a step of the
device that the spec leaves to time or to the outside world. -/
inductive Act where
  /-- The pipe of group `g` gives the turn to its slot (R274, R318): a clause header is selected. -/
  | issue (g : GKey) (slot : Nat)
  /-- The next word of the clause that group `g` is issuing (R33). -/
  | word (g : GKey)
  /-- Starter context `j` of cluster `cl` executes its next word (R280). -/
  | starter (cl j : Nat)
  /-- A step of the device, one of the event rows of the table. -/
  | event (i : Instr)
  /-- A held DEV store of a committed task reaches the register window (R99, R393). -/
  | regWrite (off : Nat) (val : BitVec 64)
  /-- A held DEV store of a committed task is performed at its place (R99). -/
  | devWrite (key n : Nat) (val : BitVec 128)
  | upset (u : Upset)
  deriving DecidableEq, Repr, Inhabited

namespace Config

/-- The order of the device's steps, which the spec leaves open: the act of step `n` when the state's
agenda is empty. Log entry 3. -/
opaque schedule : Nat → Act

/-- Free values: `free n k` is the `k`-th value that step `n` draws. Log entry 1. -/
opaque free : Nat → Nat → BitVec 64

/-- The bounded functions of R168 inside their bounds: function number, type code and input bits give the
result's bits. R168 fixes one function and gives no more than its bound. Log entry 12. -/
opaque approx : Nat → Nat → BitVec 32 → BitVec 32

/-- Version lines that a whey area of 2^(WSIZE+16) bytes holds: its layout is not architectural (R366). -/
opaque wheyLines : Nat → Nat

/-- Where a saved group's image lies in the save area, among the places free for it (R378): launch, block and group give
a number. -/
opaque saveAddr : Nat → Nat → Nat → BitVec 64

/-- How the Herot lays out the sections of a rind (R379): what is saved and the section's number give the bytes that stand
before the section's group images. -/
opaque rindLayout (α : Type) : α → Nat → List (BitVec 8)
/-- What the Herot finds in a rind's bytes that it has not written itself (R381). Log entry 13. -/
opaque rindRead (α : Type) : List (BitVec 8) → Option α

/-- The 64-bit hash of a clause's header and words in the heat table (R345). -/
opaque heatHash : List Word → BitVec 64

/-- The candidate clause the sequencer forms for an original clause (R348, R349): its header, and its words, each with the
place in the original of the word that it comes of. The order in which it forms candidates is not defined. Log
entry 20. -/
opaque candidate : List Word → Nat → Word × List (Nat × Word)

/-- Whether the rewrite checker shows two clauses equal within 4,096 steps (R350). -/
opaque proves : List Word → List Word → Bool

/-- The SVN that the ROM asks of a firmware image at least, fused at manufacture (R400). -/
opaque fusedSvn : BitVec 32

/-- The part's identity keys (R401): the SHA-256 of both public keys, and what the two algorithms sign a message with, 64
and 3,309 bytes by offset. A signature of the second may differ from one step to another. -/
opaque keyHash : BitVec 256
opaque edSign : List (BitVec 8) → Nat → BitVec 8
opaque mlSign : Nat → List (BitVec 8) → Nat → BitVec 8

/-- How a dump is laid out (R389, R399): its header from cause, failing unit and the length written, and a section from its
number and what it holds. -/
opaque dumpHeader : Nat → Nat → Nat → List (BitVec 8)
opaque dumpSection : Nat → List (BitVec 8) → List (BitVec 8)

/-- The ordering code of the part (R1): 0 the bare package, 1 the liquid-cooled module. -/
opaque orderCode : Nat

end Config
end Sys2Proof
end

