-- ==== Sys2Proof/Machine/State.lean ====
section
/-! DEFINITION. The state of the machine as plain data: every piece of state the spec names, each record
beside the value it has at reset (or where its owner starts). Sizes that the spec fixes and that no
instruction adds or masks are natural numbers. Finite families (contexts, clusters, cores, chiplets) are
tables in which an absent member stands in its reset state. -/
namespace Sys2Proof.Machine
open Sys2Proof

/-- Tables of bit vectors in which an absent key reads 0 and no entry is 0. -/
abbrev Store (w : Nat) := Tbl (BitVec w)

/-! ## A group's registers and control state -/

/-- A translation register (R93). -/
structure XReg where
  p : BitVec 52
  b : BitVec 64
  l : BitVec 32
  w : Bool
  sa : Bool
  dev : Bool
  rnode : BitVec 8
  tag : BitVec 64
  /-- The key of the page-table entry that gave the translation, whose D bit a store sets (R91). -/
  leaf : Nat
  deriving DecidableEq, Repr, Inhabited

/-- The registers of R25 and the special registers a group owns (R28). Lane registers are keyed by
32 · register + lane; feedback registers by lane (R145). -/
structure Regs where
  v : Store 32
  g : Store 64
  m : Store 32
  gp : Store 1
  x : Tbl XReg
  fb : Store 32
  fpflags : BitVec 6
  srseed : BitVec 64
  mxflags : BitVec 1
  deriving DecidableEq, Repr, Inhabited

/-- A register that an instruction writes. -/
inductive Dest where
  | v (r : Nat)
  | g (r : Nat)
  | m (r : Nat)
  | gp (r : Nat)
  /-- Flags ORed into `$fpflags` (R148). -/
  | flags
  /-- `$fpflags` written by `gsw` (R149). -/
  | fpflags
  | srseed
  | mxflags
  /-- A team register of the group's core, which takes its new team in that cycle (R183). -/
  | tm (r : Nat)
  deriving DecidableEq, Repr, Inhabited

/-- A synchronous result that has not been written yet (R35): for a lane register one value for each
lane of `lanes`, for a mask the bits of `lanes`. -/
structure Pend where
  dest : Dest
  lanes : Mask
  vals : List (BitVec 64)
  due : Nat
  deriving DecidableEq, Repr, Inhabited

/-- A path in a program-counter slot or on the divergence stack (R265, R276). -/
structure Path where
  pc : Nat
  m : Mask
  t : BitVec 11
  deriving DecidableEq, Repr, Inhabited

/-- A reconvergence record (R265). -/
structure Rec where
  tok : BitVec 11
  call : Bool
  exp : Mask
  arr : Mask
  pt : BitVec 11
  cont : Option Nat
  /-- Lanes that have left by `break`, `ret`, `exit` or a kill of lanes, whose accesses a closing orders too (R253, R278). -/
  left : Mask
  deriving DecidableEq, Repr, Inhabited

/-- Control state (R265): two slots, EXITED, the record table, the stack depth, and the stack entries the
Herot holds until their task commits (R277). -/
structure Ctl where
  slot0 : Option Path
  slot1 : Option Path
  exited : Mask
  recs : List Rec
  depth : Nat
  held : Tbl Path
  /-- The slot that issued the group's previous clause (R274). -/
  last : Nat
  deriving DecidableEq, Repr, Inhabited

/-! ## What a group has issued and not finished -/

/-- One byte range in memory: a key of `State.mem`, of a block's scratch, or of the vaults. -/
inductive Loc where
  | mem (key : Nat)
  | scr (key : Nat)
  | vlt (key : Nat)
  deriving DecidableEq, Repr, Inhabited

/-- Page attributes that change the path of an access (R99). -/
structure Attr where
  w : Bool
  sa : Bool
  dev : Bool
  rnode : BitVec 8
  deriving DecidableEq, Repr, Inhabited

/-- One lane's access after its checks (R103): its place, its virtual page, and the value it stores. -/
structure Acc where
  lane : Nat
  loc : Loc
  addr : BitVec 64
  attr : Attr
  val : BitVec 128
  deriving DecidableEq, Repr, Inhabited

/-- What a memory operation does with each access. -/
inductive MemKind where
  | load (sext : Bool)
  | store
  /-- The reduction of a member (R223), applied at its array. -/
  | red (member : Nat) (bar : Option Loc)
  /-- `gld` and its kind: one value into a `g` register (R108). -/
  | gload
  /-- The address translation of `xlat` (R109) and the copy of `xget` (R110). -/
  | xlat (n : Nat) (v : XReg)
  | word (v : BitVec 64)
  /-- `bctest` (R128): word 0 or word 1 of a barrier. -/
  | gword
  /-- The lanes' read of a register by an asynchronous instruction with nothing to access. -/
  | maskVal (v : Mask)
  /-- `txstat` (R237): each lane's outcome, read as it returns. -/
  | txstat
  /-- A `tlbinv` that has not completed (R111). -/
  | inval (id : Nat)
  deriving DecidableEq, Repr, Inhabited

/-- A load or store in flight, in issue order (R107). `accs` holds the lanes that have not performed;
`write` the lanes whose result is written (helper lanes discard it, R104). -/
structure MemOp where
  id : Nat
  kind : MemKind
  dest : Nat
  size : Nat
  hint : BitVec 2
  accs : List Acc
  write : Mask
  tseq : BitVec 32
  /-- Where the operation stands in the group's ordering of its accesses (R252), and the step that issued it. -/
  ep : Nat
  issued : Nat
  /-- The live lanes of the path that issued it (R253). -/
  path : Mask
  /-- The transaction of the access and its transactional lanes (R233). -/
  tx : Option (Nat × Mask)
  deriving DecidableEq, Repr, Inhabited

/-- A value-returning atomic (R218 to R222). -/
structure Atomic where
  id : Nat
  fn : Nat
  size : Nat
  scope : Nat
  dest : Nat
  /-- Lane, place, operand and compare value, in ascending lane order. -/
  accs : List (Acc × BitVec 64)
  /-- Its place in the group's ordering (R252): behind the boundary that it is. -/
  ep : Nat
  /-- The lanes whose old value is written, and the step that issued it. -/
  write : Mask
  issued : Nat
  deriving DecidableEq, Repr, Inhabited

/-- An effect that waits for the commit of the task its boundary word closed (R365). -/
inductive Eff where
  | atomic (a : Atomic)
  /-- Byte-count operations, with the task that their clause closed. -/
  | bcInit (t : BitVec 32) (l : Loc)
  | bcPost (t : BitVec 32) (l : Loc) (c : Nat)
  | bcArrive (t : BitVec 32) (l : Loc) (n : Nat)
  | bar (gang : Bool) (idx slot phase : Nat)
  | affpop (d id : Nat)
  | push (depth : Nat) (p : Path)
  deriving DecidableEq, Repr, Inhabited

/-- A held global reduction (R224): member, size code, scope, and the access with its operand. -/
structure Red where
  member : Nat
  size : Nat
  scope : Nat
  acc : Acc
  bar : Option Loc
  deriving DecidableEq, Repr, Inhabited

/-- The remote part of a committed task (R397): bytes, and reductions applied after them. -/
structure Remote where
  ver : Tbl Byte
  reds : List Red
  deriving DecidableEq, Repr, Inhabited

/-- A condition on the group's next clause. `word` is the index of the word that set it in its report. -/
inductive Hold where
  | bwait (cls : Nat) (t : Int)
  | bcwait (l : Loc) (p : BitVec 16)
  | waitw (a : Acc) (size : Nat) (exp : BitVec 64)
  | affwait
  /-- A release `gfence` (R250): wide when it also waits for the commit of `tseq`. -/
  | rel (wide : Option (BitVec 32)) (sys : Bool)
  /-- An acquire `gfence` (R251). -/
  | acq (wide : Bool)
  /-- COMMITHOLD (R368): the audits of task `tseq`. -/
  | commitHold (tseq : BitVec 32)
  /-- An atomic of `.sys` scope, a release that reaches a remote package (R397): the writes of task `tseq` and before. -/
  | ack (tseq : BitVec 32)
  deriving DecidableEq, Repr, Inhabited

/-- A Vat word with its provenance side-band (R288) and whether it holds an uncorrectable error. -/
structure VatWord where
  w : Word
  prov : BitVec 64
  bad : Bool
  deriving DecidableEq, Repr, Inhabited

/-- Where a word stands, and the active and the helper lanes at it: what a trap report says of it (R373, R374). -/
structure WordAt where
  w : Word
  prov : BitVec 64
  pos : Nat
  seg : Nat
  act : Mask
  help : Mask
  deriving DecidableEq, Repr, Inhabited

/-- A hold with the word that placed it and the step that issued it: words issued later are not ordered by it (R249). -/
structure HoldAt where
  h : Hold
  at_ : WordAt
  num : Nat
  deriving DecidableEq, Repr, Inhabited

/-- A per-lane record of a trap report (R374). -/
structure LaneRec where
  addr : BitVec 64
  kind : BitVec 8
  cause : BitVec 8
  hcode : BitVec 8
  flags : BitVec 8
  deriving DecidableEq, Repr, Inhabited

/-- What a trap report says beside the group's boundary state (R373). -/
structure TrapInfo where
  cause : BitVec 8
  kill : Bool
  brk : Bool
  async : Bool
  code : BitVec 16
  word : WordAt
  lanes : Tbl LaneRec
  deriving DecidableEq, Repr, Inhabited

/-- Aborts and sets of one lane of a transaction (R233, R234). -/
structure TxLane where
  lane : Nat
  /-- Aligned 8-byte words read, each with the committed values that loads read. -/
  reads : Tbl (List (BitVec 64))
  /-- Bytes held. -/
  writes : Tbl Byte
  /-- Cause and `txabort` code, once aborted. -/
  abort : Option (BitVec 16)
  deriving DecidableEq, Repr, Inhabited

/-- An open transaction (R233). -/
structure Tx where
  id : Nat
  depth : Nat
  lanes : List TxLane
  deriving DecidableEq, Repr, Inhabited

/-- A pending outlier list (R195): count and the list register. -/
structure Outl where
  count : Nat
  reg : Nat
  deriving DecidableEq, Repr, Inhabited

/-- The boundary state of a task (R365): what a cut-back returns to (R370). -/
structure Snap where
  ctl : Ctl
  fpflags : BitVec 6
  srseed : BitVec 64
  fb : Store 32
  closed : Tbl Nat
  /-- For each team register the group belongs to: its arrival count and pending outlier list (R199). -/
  teams : Tbl (Nat × Option Outl)
  marks : List (BitVec 32)
  holds : List HoldAt
  slotHolds : Tbl (List (Bool × Nat × Nat))
  /-- The lanes of the transaction that opens at this boundary, and the one that stands open there (R233). -/
  tx : Option Mask
  txOpen : Option Tx
  /-- Operations that the group had issued: a later one has no smaller number. -/
  nextId : Nat
  /-- Low mark of a group in a streaming segment (R293). -/
  q : Nat
  /-- The cycle of the closed task's latest write to `$fpflags`, if that was still to come at the boundary (R147). -/
  flagDue : Option Nat
  deriving DecidableEq, Repr, Inhabited

/-- A task (R364 to R366) that has not committed. -/
structure Task where
  tseq : BitVec 32
  closed : Bool
  /-- The version: bytes by memory key. -/
  ver : Tbl Byte
  /-- The 4 KiB virtual pages the version wrote (R359). -/
  pages : Tbl Unit
  reds : List Red
  /-- Held DEV stores in issue order (R99). -/
  devs : List (Acc × Nat)
  effs : List Eff
  /-- The transaction that `txend` closed, resolved at the task's commit, the mask register that
  receives its aborted lanes (R235), and the step that issued the `txend`. -/
  txend : Option (Tx × Nat × Nat)
  marks : List (BitVec 32)
  /-- Whether a word other than `bwait`, `bcwait`, `waitw` or `nop` has issued since the boundary (R376). -/
  used : Bool
  /-- Whether the task stored to scratch or vault, and whether it issued an asynchronous operation (R359). -/
  scrFlag : Bool
  asyncFlag : Bool
  /-- Saved once it commits: `yield`, or the polite request (R369, R376). -/
  save : Bool
  snap : Snap
  deriving DecidableEq, Repr, Inhabited

/-- An order among a group's accesses (R252, R253): those issued before step `pre` by a path with a lane of `m` come before
those issued from step `post` on by one with a lane of `n`. -/
structure Order where
  pre : Nat
  post : Nat
  m : Mask
  n : Mask
  deriving DecidableEq, Repr, Inhabited

/-- What the header and words of a clause hold, as R33, R57 and R344 read them: the first fault with the index of
its word (0 the header), the sum of prices, the lane registers that the words name, their copies and passes,
whether a word is a boundary wherever it stands, or opens or ends a transaction, and what Affinage reads of it:
eligible, its live-ins and the registers it writes. -/
structure Verdict where
  bad : Option (BitVec 8 × Nat)
  /-- The first word that the errata mask disables. -/
  errata : Option Nat
  prices : List Nat
  writes : List Nat
  copies : Nat
  harps : Nat
  boundary : Bool
  txb : Bool
  txe : Bool
  eligible : Bool
  liveV : List Nat
  liveG : List Nat
  liveM : List Nat
  liveP : List Nat
  outV : List Nat
  outG : List Nat
  outM : List Nat
  outP : List Nat
  /-- Registers that the words read or write (R318). -/
  touchV : List Nat
  touchG : List Nat
  touchM : List Nat
  touchP : List Nat
  touchS : List Nat
  touchT : List Nat
  deriving DecidableEq, Repr, Inhabited

/-- The clause a group is issuing (R33): position, header, words with their place, the word to issue
next, the issuing slot and its masks as the clause was selected, and whether it closes the task. -/
structure Issuing where
  slot : Nat
  pos : Nat
  hdr : Hdr
  head : WordAt
  words : List WordAt
  verdict : Verdict
  k : Nat
  m : Mask
  act : Mask
  start : Nat
  boundary : Bool
  /-- The word the control instruction has acted: the next header is not taken (R268). -/
  moved : Bool
  halted : Bool
  /-- The substitution that issues in place of the original (R352), and the capture of its inputs. -/
  subst : Option Nat
  /-- The unfinished lanes of word `k` when it is retried after a replayable fault (R97). -/
  retry : Option Mask
  /-- Word `k` has aborted the transaction it stands in, and its lanes perform outside of it; and the operations of its
  lanes that performed before it was known to (R234). -/
  outside : Bool
  txOps : List Nat
  deriving DecidableEq, Repr, Inhabited

/-- An asynchronous operation of a batch class (R122). -/
structure BatchOp where
  cls : Nat
  batch : Nat
  id : Nat
  deriving DecidableEq, Repr, Inhabited

/-- A deferred trap (R120, R198, R213): the batch class and batch of its operation, and the report. -/
structure Deferred where
  cls : Nat
  batch : Nat
  trap : TrapInfo
  deriving DecidableEq, Repr, Inhabited

/-- Scheduling state of a group (R318 to R322). -/
structure Sched where
  pipe : Nat
  slot : Nat
  placed : Nat
  u : Nat
  waited : Nat
  taken : BitVec 32
  deriving DecidableEq, Repr, Inhabited

/-- A lane that has not performed: its address, the page it misses (none where it misses space in the whey area),
and whether it stores. -/
structure ParkLane where
  addr : BitVec 64
  page : Option Nat
  st : Bool
  deriving DecidableEq, Repr, Inhabited

/-- Why a group does not issue: a replayable page fault (R97) or a full whey area (R367), the word, its
unfinished lanes, and the records of helper lanes whose store it suppressed (R374). -/
structure Park where
  word : WordAt
  lanes : Tbl ParkLane
  helpers : Tbl LaneRec
  deriving DecidableEq, Repr, Inhabited

/-- A Harp pass record (R204). -/
structure HRec where
  ebase : BitVec 64
  rbase : BitVec 64
  sbase : BitVec 64
  dbase : BitVec 64
  xbase : BitVec 64
  obase : BitVec 64
  baraddr : BitVec 64
  nvert : BitVec 32
  spitch : BitVec 32
  dpitch : BitVec 32
  xpitch : BitVec 32
  opitch : BitVec 32
  fs : BitVec 16
  fd : BitVec 16
  fe : BitVec 16
  ctl : BitVec 16
  resv : Bool
  layers : List (BitVec 64 × BitVec 64 × BitVec 16 × BitVec 8)
  deriving DecidableEq, Repr, Inhabited

/-- An accepted pass (R201 to R215). -/
structure Pass where
  id : Nat
  key : GKey
  /-- The issuing context (R205), and the core that its group stands on (R209). -/
  ctx : Nat
  core : Nat
  recAddr : BitVec 64
  first : Nat
  count : Nat
  waits : Option (BitVec 32)
  started : Bool
  rec_ : Option HRec
  /-- Vertices whose rows have performed and whose arrivals are posted, and tile purchases made (R212). -/
  rows : Tbl Unit
  bought : Nat
  /-- One above the highest vertex that the engine has begun, 0 before the first (R215). -/
  begun : Nat
  /-- Damaged elements of the matrix operand registers that the pass uses: edge, layer and element (R216). -/
  lost : List (Nat × Nat × Nat)
  /-- Edges of elements taken as zero at the vertex where the pass waits for a page (R216). -/
  damaged : List Nat
  flags : BitVec 6
  halted : Bool
  /-- Its gang has been killed: it ends at the next vertex boundary (R215, R385). -/
  dying : Bool
  /-- A page the engine waits for, and the vertex it stands at (R214). -/
  wait : Option (Nat × Nat)
  word : WordAt
  deriving DecidableEq, Repr, Inhabited

/-- A group: resident, stopped or saved. -/
structure Group where
  regs : Regs
  pend : List Pend
  clk : Nat
  ctl : Ctl
  issuing : Option Issuing
  /-- Open task last; earlier ones are closed and not committed. -/
  tasks : List Task
  memq : List MemOp
  /-- Effects of committed tasks that have not been applied (R365). -/
  effq : List Eff
  closed : Tbl Nat
  ops : List BatchOp
  holds : List HoldAt
  slotHolds : Tbl (List (Bool × Nat × Nat))
  deferred : List Deferred
  trap : Option TrapInfo
  /-- The cut-back of the trap is complete and its report waits for space (R371). -/
  reportDue : Bool
  stopped : Option Nat
  /-- Physical address of its image while it is saved (R378). -/
  image : Nat
  /-- What the report of a stopped group says, as its image repeats it (R380). -/
  told : Option TrapInfo
  park : Option Park
  parkFlag : Bool
  tx : Option Tx
  txPend : Option Mask
  txStat : Store 16
  marks : List (BitVec 32)
  audits : List (Nat × BitVec 32)
  saved : Bool
  saveWanted : Bool
  ended : Bool
  sched : Sched
  /-- Lane registers with an uncorrectable error, and level 1 state with one (R382). -/
  badRegs : Tbl Unit
  badState : Bool
  /-- Consumed errors that the kill of the gang will log: level, and address or number (R384, R387). -/
  errs : List (Nat × Nat)
  badVersion : Bool
  linkDown : Bool
  /-- Remote writes of committed tasks that have not taken effect at the remote home, in commit order
  (R397). -/
  remote : List Remote
  nextId : Nat
  /-- Boundaries that the group has passed (R252): the place of its next access; and the orders that waits and joins
  have placed among its accesses. -/
  epoch : Nat
  orders : List Order
  /-- Low mark Q of a group in a streaming segment (R293). -/
  q : Nat
  /-- Harp resume points of a saved group (R215). -/
  passes : List Pass
  deriving DecidableEq, Repr, Inhabited

/-! ## Blocks, gangs and launches -/

/-- A block or gang barrier (R240): the current phase and the groups that have arrived, and those whose
second slot has arrived for the next phase (R241). -/
structure Bar where
  phase : Nat
  arrived : List Nat
  next : List Nat
  deriving DecidableEq, Repr, Inhabited

/-- What a group that has ended leaves to be applied (R365, R397): effects of its committed tasks, and their remote
writes. -/
structure Tail where
  key : GKey
  core : Nat
  effq : List Eff
  remote : List Remote
  /-- Remote writes of it were lost with a port: its gang is to be killed (R397). -/
  lost : Bool
  deriving DecidableEq, Repr, Inhabited

inductive BlockSt where
  /-- Claimed by a core and not released (R310). -/
  | held
  | live
  | saved
  | ended
  deriving DecidableEq, Repr, Inhabited

/-- A team register (R182), for each member its arrivals that have not been taken. -/
structure Arrival where
  member : Nat
  num : Nat
  fn : BitVec 8
  c : Nat
  a : Nat
  b : Nat
  sc : Nat
  outl : Option Outl
  id : Nat
  word : WordAt
  deriving DecidableEq, Repr, Inhabited

structure Team where
  list : BitVec 35
  launch : Nat
  block : Nat
  broken : Bool
  ac : Tbl Nat
  rc : Nat
  outl : Tbl Outl
  held : List Arrival
  /-- Operation RC + 1 is matched and waits for tokens. -/
  matched : Bool
  deriving DecidableEq, Repr, Inhabited

structure Block where
  st : BlockSt
  core : Nat
  /-- Segment descriptor, once released. -/
  seg : Nat
  /-- Pipe and slot number, 0 to 95, of each group in index order (R309). -/
  slots : List (Nat × Nat)
  placed : Nat
  /-- The chiplet's reference time when the block came to its core (R341). -/
  residence : Nat
  bars : Tbl Bar
  /-- Team registers while the block is saved (R199). -/
  teams : Tbl Team
  deriving DecidableEq, Repr, Inhabited

structure Gang where
  bars : Tbl Bar
  relaunches : Nat
  deriving DecidableEq, Repr, Inhabited

/-- The launch record (R305, R306). -/
structure LRec where
  gentry : BitVec 64
  imgbase : BitVec 64
  tmplbase : BitVec 64
  imghash : BitVec 64
  consthash : BitVec 64
  srseed : BitVec 64
  blocks : BitVec 32
  shape : BitVec 32
  policy : BitVec 32
  resv : BitVec 32
  args : List (BitVec 64)
  deriving DecidableEq, Repr, Inhabited

structure Launch where
  ctx : Nat
  home : Nat
  rec_ : LRec
  addr : BitVec 64
  order : Nat
  next : Nat
  returns : List Nat
  ended : Option Nat
  /-- A child's record is checked when its first block is placed (R307). -/
  checked : Bool
  /-- The graph object's key, the replay's number, its slot and the record's index (R316). -/
  replay : Option (Nat × Nat × Nat × Nat)
  deriving DecidableEq, Repr, Inhabited

/-- A queued replay of a graph object (R298, R316): its number, its slot, its copy's address and the
next record. -/
structure Replay where
  seq : Nat
  slot : Nat
  nrec : Nat
  rbase : BitVec 64
  slotAddr : BitVec 64
  ctx : Nat
  home : Nat
  next : Nat
  deriving DecidableEq, Repr, Inhabited

/-! ## Cores -/

/-- A queued copy (R115 to R121). -/
structure Copy where
  id : Nat
  key : GKey
  /-- The issuing context. -/
  ctx : Nat
  fn : Nat
  dst : BitVec 64
  src : BitVec 64
  count : Nat
  nrow : Nat
  dpitch : Nat
  spitch : Nat
  opts : BitVec 14
  bar : Option Loc
  /-- The task whose commit the copy waits for (R119), or the last task closed before it (R118). -/
  waits : Option (BitVec 32)
  started : Bool
  /-- Source bytes copied aside, row by row, when the ranges overlap (R121), each with its poison (R384). -/
  aside : Tbl (List (Byte × Bool))
  /-- For each piece the bytes written; one more than its length once its arrival is posted (R127). -/
  pieces : Tbl Nat
  stopped : Bool
  /-- The address whose page the engine waits for (R120). -/
  wait : Option (BitVec 64)
  word : WordAt
  deriving DecidableEq, Repr, Inhabited

/-- An update-only line's partials for one member and size (R225), keyed by element address. -/
structure ULine where
  member : Nat
  size : Nat
  parts : Tbl (BitVec 64)
  deriving DecidableEq, Repr, Inhabited

/-- A local-atomic line (R229): the line's bytes as the home gave them, by offset, and the elements that atomics
have changed, by address with size code and current value. -/
structure LALine where
  fill : Store 8
  elems : Tbl (Nat × BitVec 64)
  deriving DecidableEq, Repr, Inhabited

/-- A matrix operation whose tokens are taken (R188, R189). -/
structure MxOp where
  tm : Nat
  launch : Nat
  block : Nat
  list : BitVec 35
  num : Nat
  arrs : List Arrival
  /-- It has executed, and the flags of each arrival; its results stand among its members' pending ones (R190). -/
  ran : Bool
  flags : List (BitVec 6)
  deriving DecidableEq, Repr, Inhabited

/-- What waits for a core's matrix unit, in the order of its tokens: a team's operation, or a tile operation of a Harp
pass, with its number (R212). -/
inductive MxWork where
  | team (o : MxOp)
  | tile (key : GKey) (pass n : Nat)
  deriving DecidableEq, Repr, Inhabited

structure HeatEnt where
  hash : BitVec 64
  count : BitVec 16
  tried : Bool
  deriving DecidableEq, Repr, Inhabited

/-- Inputs of one execution of a clause (R347): live-ins and masks, and what it wrote. -/
structure Exec where
  v : Tbl (List (BitVec 32))
  g : Tbl (BitVec 64)
  m : Tbl (BitVec 32)
  gp : Tbl Bool
  act : Mask
  help : Mask
  out : Tbl (List (BitVec 64))
  flags : BitVec 6
  deriving DecidableEq, Repr, Inhabited

/-- A guard queue entry (R351, R354): the substitution slot, the captured execution, the group and task. -/
structure GuardEnt where
  slot : Nat
  audit : Bool
  ex : Exec
  key : GKey
  tseq : BitVec 32
  id : Nat
  deriving DecidableEq, Repr, Inhabited

/-- A cached translation (R92): context, the mapping unit's start, bytes and physical start, attributes, and the
key of the leaf entry it came from. -/
structure Tlb where
  ctx : Nat
  va : BitVec 64
  size : Nat
  pa : BitVec 52
  attr : Attr
  x : Bool
  leaf : Nat
  /-- A is known to be set in that entry (R91); a prefetch sets no A (R100). -/
  acc : Bool
  deriving DecidableEq, Repr, Inhabited

structure Core where
  tms : Tbl Team
  /-- What a team register held before the latest `tmset` or `tmclr`, and the cycle at which that one's result is written
  (R35, R183). -/
  tmOld : Tbl (Option Team × Nat)
  copies : List Copy
  matched : List MxWork
  l1 : Tbl (Store 8)
  /-- Bytes of those sectors that came poisoned (R384), and lines marked for eviction first (R113). -/
  l1bad : Tbl Unit
  evictFirst : Tbl Unit
  /-- First-level TLB (R92). -/
  tlb : List Tlb
  /-- Sectors whose data has not returned: the miss-status entries taken (R85). -/
  misses : Tbl Unit
  /-- A load that waits for a free entry: its group, its operation, the step that issued it and the sector (R85). -/
  stalled : Option (GKey × Nat × Nat × Nat)
  ulines : Tbl (List ULine)
  la : Tbl LALine
  heat : Tbl HeatEnt
  guard : List GuardEnt
  cycles : Nat
  /-- Strict barrel pointer of each pipe (R319). -/
  turns : Tbl Nat
  /-- Substitution slots' issue counts on this core (R347). -/
  issues : Tbl Nat
  deriving DecidableEq, Repr, Inhabited

/-! ## Clusters -/

inductive SegKind where
  | static
  | stream
  deriving DecidableEq, Repr, Inhabited

/-- A segment descriptor (R284 to R293): words by 16384 · core + position. -/
structure Desc where
  gen : BitVec 16
  used : Bool
  kind : SegKind
  mask : BitVec 8
  offset : Nat
  len : Nat
  e : Nat
  sealed : Bool
  owner : Option Nat
  refs : Nat
  words : Tbl VatWord
  /-- Positions written since E last reached them, for the unselected cores (R287). -/
  written : Tbl Unit
  deriving DecidableEq, Repr, Inhabited

structure CCEnt where
  imghash : BitVec 64
  consthash : BitVec 64
  errata : BitVec 64
  sel : BitVec 64
  mask : BitVec 8
  desc : Nat
  found : Nat
  deriving DecidableEq, Repr, Inhabited

/-- A Starter context (R279 to R283, R299, R303). -/
structure SCtx where
  launch : Option Nat
  s : Store 64
  pc : BitVec 64
  emitser : BitVec 32
  dlcyc : BitVec 32
  /-- References held: a count for each descriptor. -/
  refs : Tbl Nat
  /-- For each open unsealed static segment, oldest first, the registers and PC before its `segopen` (R303). -/
  snaps : List (Nat × Store 64 × BitVec 64)
  /-- Words that the `emitm` at the PC has emitted while it stalls (R287, R294). -/
  part : Nat
  stopped : Bool
  fvalid : Bool
  kind : BitVec 8
  sub : BitVec 8
  cause : BitVec 8
  fcore : BitVec 3
  fpos : BitVec 14
  fpc : BitVec 64
  faddr : BitVec 64
  /-- The address whose page the context waits for (R97), and whether it is saved (R303). -/
  wait : Option Nat
  saved : Bool
  bad : Bool
  deriving DecidableEq, Repr, Inhabited

inductive SubSt where
  | free
  | sampling
  | search
  | ripening
  | mature
  | culled
  deriving DecidableEq, Repr, Inhabited

/-- The recorded range of one live-in (R353): negative seen, non-negative seen, MAXB. -/
structure Env where
  neg : Bool
  pos : Bool
  maxb : Nat
  folded : Option (BitVec 64)
  deriving DecidableEq, Repr, Inhabited

/-- A substitution slot (R346 to R354). `agree` counts the samples that a candidate of the search has passed (R349), and
the agreeing executions of one that ripens (R351). -/
structure SubSlot where
  st : SubSt
  launch : Nat
  orig : List Word
  samples : List Exec
  cand : List Word
  /-- Live-ins that the candidate folds (R348): lane registers and `g` registers. -/
  folds : List (Bool × Nat)
  /-- The cheapest candidate that has agreed with every sample, with its folds (R349). -/
  kept : List Word
  keptFolds : List (Bool × Nat)
  /-- The rewrite checker has shown the kept candidate equal to the original (R350). -/
  keptProved : Bool
  proved : Bool
  agree : Nat
  envV : Tbl Env
  envG : Tbl Env
  execs : Nat
  serial : BitVec 24
  deriving DecidableEq, Repr, Inhabited

/-- A reservation (R327): station, requester, amount, earmarked so far, whether it has completed. -/
structure Resv where
  st : Nat
  req : Nat
  amount : Nat
  got : Nat
  complete : Bool
  deriving DecidableEq, Repr, Inhabited

/-- Tokens held until an activity window ends (R325). -/
structure Held where
  id : Nat
  st : Nat
  amount : Nat
  affinage : Bool
  /-- Taken by ballast (R334); with `affinage`, ballast given to Affinage work that has not run yet. -/
  ballast : Bool
  deriving DecidableEq, Repr, Inhabited

/-- The priced clause that an issue stage waits to issue (R326, R343): its group's number and position, the step since
when it waits. -/
structure Stage where
  group : Nat
  pos : Nat
  since : Nat
  /-- Its pipe issues another clause and takes nothing now. -/
  busy : Bool
  deriving DecidableEq, Repr, Inhabited

/-- The token ring (R325 to R329). -/
structure Ring where
  pool : Nat
  newPool : Nat
  /-- Where the last clearing found the cycle counts of the cluster's cores and of the cluster: one revolution later
  `newPool` applies (R330). -/
  since : List Nat
  bundle : Nat
  pos : Nat
  buckets : Tbl Nat
  resvs : List Resv
  held : List Held
  retire : Nat
  /-- Visits at which a requester starved, keyed by 32 · station + requester. -/
  starved : Tbl Nat
  /-- Tokens taken and starved for, by launch, in this interval (R332), and the held-token sum. -/
  demand : Tbl Nat
  heldSum : Nat
  /-- Visits at which `heldSum` was added to since the last clearing. -/
  samples : Nat
  floor : Nat
  nextId : Nat
  /-- What each requester of a station waits for as the ring last looked (R326), by 32 · station + requester: amount
  and launch. -/
  want : Tbl (Nat × Nat)
  stages : Tbl Stage
  /-- Visits at which each waiting priced clause has starved (R343): its group's number, its position, the visits. -/
  shorts : List (Nat × Nat × Nat)
  /-- Stations whose core had a turn that no ready group could use, with the prices of the Affinage work waiting there
  (R328, R334). -/
  spare : Tbl (List Nat)
  deriving DecidableEq, Repr, Inhabited

/-- Sensors, allowance and droop of a cluster (R337 to R341). -/
structure Thermal where
  tdram : BitVec 8
  tdie : BitVec 8
  rf2x : Bool
  hot : Bool
  allow : Nat
  strcyc : BitVec 32
  events : BitVec 32
  stretched : Bool
  /-- The cluster's cycle count as the stretch began (R337). -/
  since : Nat
  /-- A block has been sent away since the last clearing (R341). -/
  sent : Bool
  deriving DecidableEq, Repr, Inhabited

structure Cluster where
  vltCtx : BitVec 8
  vltScr : BitVec 3
  ripen : BitVec 16
  hot : BitVec 16
  dlate : BitVec 16
  affEn : Bool
  auddrop : BitVec 16
  culls : BitVec 16
  serial : BitVec 24
  slots : Tbl SubSlot
  sctx : Tbl SCtx
  descs : Tbl Desc
  cc : Tbl CCEnt
  ccFound : Nat
  /-- The child queue (R297): launch identifiers. -/
  children : List Nat
  /-- Launches whose blocks the cluster pulled while no Starter context was free (R279). -/
  unbound : List Nat
  harp : List Pass
  ring : Ring
  therm : Thermal
  cycles : Nat
  /-- The Starter context that follows the one whose word executed last (R280). -/
  strTurn : Nat
  deriving DecidableEq, Repr, Inhabited

/-! ## Chiplets, contexts and the package -/

structure RelLog where
  lbase : BitVec 40
  lsize : BitVec 4
  scrub : BitVec 6
  uecnt : BitVec 16
  cecnt : BitVec 16
  tail : BitVec 16
  head : BitVec 16
  deriving DecidableEq, Repr, Inhabited

structure Chiplet where
  errata : BitVec 64
  entries : Store 32
  rels : Tbl RelLog
  base : BitVec 16
  ilim : BitVec 16
  loss : Bool
  phok : BitVec 8
  powered : Bool
  off : Bool
  reftime : Nat
  tlb : List Tlb
  /-- Non-leaf entries the walker caches (R92): context, level, address bits above the level, entry. -/
  wcache : List (Nat × Nat × Nat × BitVec 64)
  /-- Launches the chiplet has stopped pulling (R302). -/
  stops : Tbl Unit
  deriving DecidableEq, Repr, Inhabited

/-- An invalidation that has not completed (R95): range, and the host's or the group's. -/
structure Inval where
  id : Nat
  va : BitVec 64
  size : Nat
  host : Bool
  deriving DecidableEq, Repr, Inhabited

/-- A mark-log entry that the Herot holds allocated (R358). -/
structure MarkEnt where
  idx : Nat
  key : GKey
  sub : BitVec 32
  committed : Bool
  recalled : Bool
  /-- Commit sequence number of the run's first task. -/
  first : BitVec 64
  deriving DecidableEq, Repr, Inhabited

structure Ctx where
  lport : List (BitVec 64)
  /-- The record at the head of the port waits for its page (R307). -/
  lwait : Bool
  errv : Bool
  err : BitVec 7
  lastid : BitVec 24
  errid : BitVec 24
  done : BitVec 16
  root : BitVec 40
  en : Bool
  gen : BitVec 64
  fqBase : BitVec 40
  fqSize : BitVec 4
  fqOvf : Bool
  fqHead : BitVec 16
  fqTail : BitVec 16
  /-- Pages posted and not answered, and pages that wait for a place, with their access kinds. -/
  posted : Tbl (BitVec 3)
  waiting : List (Nat × BitVec 3 × BitVec 32 × BitVec 24)
  precyc : BitVec 32
  vquota : BitVec 16
  rlmax : BitVec 4
  dbgen : Bool
  preq : Bool
  /-- Cycle counts of the cores at the standing pre-emption request (R377). -/
  preqAt : Tbl Nat
  /-- Cores at which a forced cut is due (false) or has begun (true) and not finished (R377). -/
  cut : Tbl Bool
  wbase : BitVec 36
  wsize : BitVec 5
  full : Bool
  tqBase : BitVec 35
  tqFull : Bool
  tqTail : BitVec 8
  tqHead : BitVec 8
  /-- Reports of killed gangs that wait for space (R385). -/
  lateReports : List (List Byte)
  sbase : BitVec 36
  ssize : BitVec 5
  rbase : BitVec 40
  result : BitVec 4
  busy : Bool
  rindGen : BitVec 64
  rqBase : BitVec 37
  rqOvf : Bool
  lost : BitVec 16
  rqTail : BitVec 9
  rqHead : BitVec 9
  mlBase : BitVec 40
  mlSize : BitVec 4
  mlen : Bool
  int_ : BitVec 5
  cseq : BitVec 64
  marks : List MarkEnt
  invals : List Inval
  /-- Reports of stopped groups, by report index modulo 128 (R375). -/
  reports : Tbl GKey
  /-- The operation of TSK_RIND in progress (R381), 4 more where PREQ stood before it; 8 once a take stays saved. -/
  rindOp : Nat
  deriving DecidableEq, Repr, Inhabited

/-- What a rind of a context holds (R379): the Herot lays its sections out, so the model keeps them as data. Starter
contexts are keyed by 4 · cluster + context, segments by 32 · cluster + descriptor, substitution slots by 16 · cluster +
slot. -/
structure Rind where
  ctx : Nat
  gen : BitVec 64
  groups : Tbl Group
  blocks : Tbl Block
  gangs : Tbl Gang
  launches : Tbl Launch
  graphs : Tbl (List Replay)
  scr : Store 8
  vlt : Store 8
  poisonScr : Tbl Unit
  poisonVlt : Tbl Unit
  vcfg : Tbl (BitVec 8 × BitVec 3)
  sctx : Tbl SCtx
  descs : Tbl Desc
  subs : Tbl SubSlot
  marks : List MarkEnt
  rqTail : BitVec 9
  rqHead : BitVec 9
  /-- The rind as it was written. -/
  bytes : List Byte
  deriving DecidableEq, Repr, Inhabited

structure Market where
  rdn : BitVec 16
  tkw : BitVec 8
  phloss : Bool
  choff : Bool
  allhot : Bool
  hotcap : Nat
  epoch : BitVec 64
  dieoff : BitVec 8
  thot : BitVec 8
  astep : BitVec 8
  drsl : BitVec 8
  diesl : BitVec 8
  dieknee : BitVec 8
  deriving DecidableEq, Repr, Inhabited

structure HostDie where
  intstat : BitVec 6
  inten : BitVec 6
  inv : BitVec 64
  svn : BitVec 32
  /-- SHA-384 of the running firmware (R401). -/
  digest : BitVec 384
  state : BitVec 4
  dbase : BitVec 36
  dsize : BitVec 5
  down : BitVec 12
  up : BitVec 12
  abase : BitVec 40
  ago : Bool
  hostlim : BitVec 32
  routes : Store 12
  fails : Tbl Nat
  /-- The value the latest host or remote access returned. -/
  data : BitVec 64
  deriving DecidableEq, Repr, Inhabited

/-- The agent whose word runs. -/
inductive Agent where
  | grp (key : GKey)
  | str (cl j : Nat)
  deriving DecidableEq, Repr, Inhabited

/-- The whole machine. Keys: memory by 2^52 · RNODE + physical address; scratch by 2^18 · block key +
offset; vaults by vault address; groups, blocks and gangs by their keys; cores by 8 · cluster + core;
clusters by 24 · chiplet + cluster. -/
structure State where
  mem : Store 8
  scr : Store 8
  vlt : Store 8
  groups : Tbl Group
  /-- In the order in which the groups ended. -/
  tails : List Tail
  blocks : Tbl Block
  gangs : Tbl Gang
  launches : Tbl Launch
  graphs : Tbl (List Replay)
  cores : Tbl Core
  clusters : Tbl Cluster
  chiplets : Tbl Chiplet
  ctxs : Tbl Ctx
  rinds : List Rind
  market : Market
  host : HostDie
  /-- Poisoned bytes (R384), by the keys of the three memories. -/
  poisonMem : Tbl Unit
  poisonScr : Tbl Unit
  poisonVlt : Tbl Unit
  launchCtr : BitVec 24
  acceptCtr : Nat
  placeCtr : Nat
  fatal : Option Nat
  /-- The model's own fields (log entries 1 and 3): steps taken, the schedule, the issuing agent. -/
  now : Nat
  agenda : List Act
  cur : Option Agent
  deriving DecidableEq, Repr, Inhabited

/-! ## Reset -/

def XReg.start (gen : BitVec 64) : XReg :=
  { p := 0, b := 0, l := 0, w := false, sa := false, dev := false, rnode := 0, tag := gen, leaf := 0 }

/-- The Market's registers at reset (R331, R335, R338, R339). -/
def Market.reset : Market :=
  { rdn := 64, tkw := 16, phloss := false, choff := false, allhot := false,
    hotcap := 4095, epoch := 0, dieoff := 20, thot := 85, astep := 16, drsl := 16, diesl := 8,
    dieknee := 95 }

def HostDie.reset : HostDie :=
  { intstat := 0, inten := 0, inv := 0, svn := 0, digest := 0, state := 0, dbase := 0, dsize := 0, down := 0,
    up := 0, abase := 0, ago := false, hostlim := 0, routes := [], fails := [], data := 0 }

/-- R304, R98, R368, R374, R378, R381, R360, R394. -/
def Ctx.reset : Ctx :=
  { lport := [], lwait := false, errv := false, err := 0, lastid := 0, errid := 0, done := 0, root := 0, en := false,
    gen := 0, fqBase := 0, fqSize := 0, fqOvf := false, fqHead := 0, fqTail := 0, posted := [],
    waiting := [], precyc := 65536, vquota := 8192, rlmax := 3, dbgen := false, preq := false, preqAt := [], cut := [],
    wbase := 0, wsize := 0, full := false, tqBase := 0, tqFull := false, tqTail := 0, tqHead := 0, lateReports := [],
    sbase := 0, ssize := 0, rbase := 0, result := 0, busy := false, rindGen := 0, rqBase := 0,
    rqOvf := false, lost := 0, rqTail := 0, rqHead := 0, mlBase := 0, mlSize := 0, mlen := false,
    int_ := 0, cseq := 0, marks := [], invals := [], reports := [], rindOp := 0 }

def RelLog.reset : RelLog :=
  { lbase := 0, lsize := 0, scrub := 0, uecnt := 0, cecnt := 0, tail := 0, head := 0 }

/-- R331, R336, R387. -/
def Chiplet.reset : Chiplet :=
  { errata := 0, entries := [], rels := [], base := 200, ilim := 1100, loss := false, phok := 0xFF,
    powered := false, off := false, reftime := 0, tlb := [], wcache := [], stops := [] }

def Ring.reset : Ring :=
  { pool := 0, newPool := 0, since := [], bundle := 0, pos := 0, buckets := [], resvs := [], held := [], retire := 0,
    starved := [], demand := [], heldSum := 0, samples := 0, floor := 0, nextId := 0, want := [], stages := [], shorts := [], spare := [] }

/-- `$thermal` reads its reset value before the first clearing (R330, R338). -/
def Thermal.reset : Thermal :=
  { tdram := 0, tdie := 0, rf2x := false, hot := false, allow := 4095, strcyc := 0, events := 0,
    stretched := false, since := 0, sent := false }

def SubSlot.reset : SubSlot :=
  { st := .free, launch := 0, orig := [], samples := [], cand := [], folds := [], kept := [], keptFolds := [], keptProved := false,
    proved := false, agree := 0,
    envV := [], envG := [], execs := 0, serial := 0 }

/-- R279, R283, R299. -/
def SCtx.reset : SCtx :=
  { launch := none, s := [], pc := 0, emitser := 0, dlcyc := 65536, refs := [], snaps := [], part := 0,
    stopped := false, fvalid := false, kind := 0, sub := 0, cause := 0, fcore := 0, fpos := 0,
    fpc := 0, faddr := 0, wait := none, saved := false, bad := false }

def Desc.reset : Desc :=
  { gen := 0, used := false, kind := .static, mask := 0, offset := 0, len := 0, e := 0, sealed := false,
    owner := none, refs := 0, words := [], written := [] }

/-- R79, R362. -/
def Cluster.reset : Cluster :=
  { vltCtx := 0, vltScr := 0, ripen := 4096, hot := 1024, dlate := 4096, affEn := true, auddrop := 0,
    culls := 0, serial := 0, slots := [], sctx := [], descs := [], cc := [], ccFound := 0, children := [], unbound := [],
    harp := [], ring := Ring.reset, therm := Thermal.reset, cycles := 0, strTurn := 0 }

def Core.reset : Core :=
  { tms := [], tmOld := [], copies := [], matched := [], l1 := [], l1bad := [], evictFirst := [], tlb := [], misses := [], stalled := none, ulines := [], la := [],
    heat := [], guard := [], cycles := 0, turns := [], issues := [] }

def Bar.reset : Bar := { phase := 0, arrived := [], next := [] }

/-- The machine right after reset (R399): no launch, no group, memory with nothing listed, every control
register at the value its field map gives. -/
def State.reset : State :=
  { mem := [], scr := [], vlt := [], groups := [], tails := [], blocks := [], gangs := [], launches := [],
    graphs := [], cores := [], clusters := [], chiplets := [], ctxs := [], rinds := [],
    market := Market.reset, host := HostDie.reset, poisonMem := [], poisonScr := [], poisonVlt := [],
    launchCtr := 0, acceptCtr := 0, placeCtr := 0, fatal := none, now := 0, agenda := [], cur := none }

/-! ## How a step ends other than in a next state -/

/-- Faults of the model. -/
inductive Fault where
  /-- Raised by every meaning of an encoded word when no agent is issuing: `exec` was asked for a word
  that no group and no Starter context has selected. The machine's own step never asks it. Safe. -/
  | noIssuer
  deriving DecidableEq, Repr

/-- Refusals of the model. -/
inductive Refusal where
  /-- Raised by `exec` for an instruction that has no meaning yet. Safe. -/
  | notModelled (mnemonic : String)
  deriving DecidableEq, Repr

end Sys2Proof.Machine
end

