-- ==== Sys2Proof/Machine/Bits.lean ====
section
/-! DEFINITION. Helpers that every later file uses: tables and stores as sorted lists, integer types and
their ranges (R130, R131), bytes in little-endian order (R5), lane lists. -/
namespace Sys2Proof
open Sys2Proof

/-! ## Tables -/

variable {α : Type}

/-- The value at key `k`, if it is listed. -/
def Tbl.find (t : Tbl α) (k : Nat) : Option α :=
  match t with
  | [] => none
  | (j, v) :: r => if k = j then some v else Tbl.find r k

/-- `t` with `v` at key `k`, keys kept rising. -/
def Tbl.set (t : Tbl α) (k : Nat) (v : α) : Tbl α :=
  match t with
  | [] => [(k, v)]
  | (j, u) :: r =>
    if k < j then (k, v) :: (j, u) :: r else if k = j then (k, v) :: r else (j, u) :: Tbl.set r k v

/-- `t` without key `k`. -/
def Tbl.del (t : Tbl α) (k : Nat) : Tbl α :=
  match t with
  | [] => []
  | (j, v) :: r => if k = j then r else (j, v) :: Tbl.del r k

def Tbl.has (t : Tbl α) (k : Nat) : Bool := (Tbl.find t k).isSome

/-- Keys strictly rising. -/
def Tbl.sorted (t : Tbl α) : Bool :=
  match t with
  | [] => true
  | (j, _) :: r => r.all (fun p => decide (j < p.1)) && Tbl.sorted r

namespace Machine

/-! ## Stores -/

/-- An unlisted key reads 0 (log entry 2). -/
def Store.read {w : Nat} (t : Store w) (k : Nat) : BitVec w := (Tbl.find t k).getD 0
/-- Writing 0 removes the entry, so that equal contents are equal lists. -/
def Store.write {w : Nat} (t : Store w) (k : Nat) (v : BitVec w) : Store w :=
  if v = 0 then Tbl.del t k else Tbl.set t k v
/-- The canonical form: keys strictly rising and no entry equal to what an unlisted key reads as. -/
def Store.wf {w : Nat} (t : Store w) : Bool := Tbl.sorted t && t.all (fun p => p.2 != 0)

/-- `n` bytes from key `k` on, the lowest first (R5). -/
def Store.bytes (t : Store 8) (k n : Nat) : List Byte := (List.range n).map (fun i => Store.read t (k + i))
/-- Writes bytes from key `k` on. -/
def Store.putBytes (t : Store 8) (k : Nat) (bs : List Byte) : Store 8 :=
  match bs with
  | [] => t
  | b :: r => Store.putBytes (Store.write t k b) (k + 1) r

/-- Little-endian value of bytes (R5). -/
def leNat (bs : List Byte) : Nat :=
  match bs with
  | [] => 0
  | b :: r => b.toNat + 256 * leNat r
/-- The low `n` bytes of a number, the lowest first. -/
def natLE (n : Nat) (x : Nat) : List Byte :=
  match n with
  | 0 => []
  | n + 1 => BitVec.ofNat 8 x :: natLE n (x / 256)
def le {w : Nat} (n : Nat) (x : BitVec w) : List Byte := natLE n x.toNat

/-! ## Lanes -/

/-- The lanes of a mask in ascending order. -/
def lanesOf (m : Mask) : List Nat := (List.range 32).filter (fun l => m.getLsbD l)
/-- The mask of a list of lanes. -/
def maskOf (ls : List Nat) : Mask := ls.foldl (fun m l => m ||| ((1 : Mask) <<< l)) 0
def laneBit (l : Nat) : Mask := (1 : Mask) <<< l
/-- A mask from a condition on lanes. -/
def maskBy (p : Nat → Bool) : Mask := maskOf ((List.range 32).filter p)

/-! ## Integer types (R39, R131) -/

/-- Width in bits of a type code (R39). -/
def tyWidth (ty : Nat) : Nat :=
  match ty with
  | 0 => 8 | 1 => 16 | 2 => 32 | 3 => 64 | 4 => 8 | 5 => 16 | 6 => 32 | 7 => 64
  | 8 => 16 | 9 => 16 | 10 => 32 | 13 => 4 | _ => 8
def tySigned (ty : Nat) : Bool := ty < 4
def minOf (ty : Nat) : Int := if tySigned ty then -(2 ^ (tyWidth ty - 1)) else 0
def maxOf (ty : Nat) : Int := if tySigned ty then 2 ^ (tyWidth ty - 1) - 1 else 2 ^ tyWidth ty - 1
def clampI (x lo hi : Int) : Int := if x < lo then lo else if hi < x then hi else x

/-- The low bits of a register read as an integer type (R130). -/
def readInt (ty : Nat) (raw : BitVec 64) : Int :=
  let n : Int := (raw.toNat % 2 ^ tyWidth ty : Nat)
  if tySigned ty && 2 ^ (tyWidth ty - 1) ≤ n then n - 2 ^ tyWidth ty else n

/-- The register contents of an integer result: wrapped to the width, then sign- or zero-extended to 32 bits
(R130, R131); 64-bit types fill the pair. -/
def writeInt (ty : Nat) (x : Int) : BitVec 64 :=
  let w := tyWidth ty
  let n : Int := x % 2 ^ w
  let e := if tySigned ty && 2 ^ (w - 1) ≤ n then n - 2 ^ w else n
  if w = 64 then BitVec.ofInt 64 n else (BitVec.ofInt 32 e).setWidth 64

/-- A result with or without saturation, and whether the clamp changed it (R131). -/
def fitInt (ty : Nat) (sat : Bool) (x : Int) : BitVec 64 × Bool :=
  if sat then (writeInt ty (clampI x (minOf ty) (maxOf ty)), clampI x (minOf ty) (maxOf ty) != x)
  else (writeInt ty x, false)

/-- The w-bit pattern as a natural number. -/
def readNat (ty : Nat) (raw : BitVec 64) : Nat := raw.toNat % 2 ^ tyWidth ty

/-- A result that is a bit pattern of the type's width, written under R130. -/
def writeNat (ty : Nat) (n : Nat) : BitVec 64 := writeInt ty (n : Int)

/-- Number of significant bits. -/
def bitLen (n : Nat) : Nat := if n = 0 then 0 else Nat.log2 n + 1

end Machine
end Sys2Proof
end

