-- ==== Sys2Proof/Machine/Fp.lean ====
section
/-! DEFINITION. Number formats and rounding (R130 to R151): values of every floating format as exact dyadic
numbers, one rounding function for the formats of R132, one for TS8, and the conversions. -/
namespace Sys2Proof.Machine
open Sys2Proof

/-! ## Formats -/

/-- Mantissa bits, exponent bits and bias of a floating type code (R132). -/
def fM (ty : Nat) : Nat :=
  match ty with
  | 8 => 10 | 9 => 7 | 10 => 23 | 11 => 3 | 12 => 2 | _ => 1
def fE (ty : Nat) : Nat :=
  match ty with
  | 8 => 5 | 9 => 8 | 10 => 8 | 11 => 4 | 12 => 5 | _ => 2
def fBias (ty : Nat) : Int :=
  match ty with
  | 8 => 15 | 9 => 127 | 10 => 127 | 11 => 7 | 12 => 15 | _ => 1
/-- Exponent of the smallest subnormal. -/
def fQ (ty : Nat) : Int := 1 - fBias ty - fM ty
/-- Bits of the largest finite magnitude (R132, R134). -/
def fMaxBits (ty : Nat) : Nat :=
  match ty with
  | 8 => 0x7BFF | 9 => 0x7F7F | 10 => 0x7F7FFFFF | 11 => 0x7E | 12 => 0x7B | _ => 7
def fSignBit (ty : Nat) : Nat := 2 ^ (fM ty + fE ty)
/-- The canonical NaN (R134, R135); `e2m1` and TS8 have none and take +0 (R141, R143). -/
def fNaN (ty : Nat) : Nat :=
  match ty with
  | 8 => 0x7E00 | 9 => 0x7FC0 | 10 => 0x7FC00000 | 11 => 0x7F | 12 => 0x7E | _ => 0
def fInf (ty : Nat) : Nat :=
  match ty with
  | 8 => 0x7C00 | 9 => 0x7F80 | 10 => 0x7F800000 | 12 => 0x7C | _ => 0

/-- A floating value: a NaN, signalling or quiet, an infinity, or ± m · 2^e exactly. -/
inductive FVal where
  | nan (signalling : Bool)
  | inf (neg : Bool)
  | fin (neg : Bool) (m : Nat) (e : Int)
  deriving DecidableEq, Repr

/-- One TS8 term in units of 2^-6 (R139). -/
def ts8Term (s k : Nat) : Int := if k = 0 then 0 else if s = 1 then -(2 ^ (7 - k)) else 2 ^ (7 - k)
def ts8Units (b : Nat) : Int := ts8Term (b / 128 % 2) (b / 16 % 8) + ts8Term (b / 8 % 2) (b % 8)

/-- What the bits of a type stand for (R132 to R136, R139). -/
def fDecode (ty : Nat) (raw : Nat) : FVal :=
  if ty = 14 then
    let u := ts8Units (raw % 256)
    .fin (u < 0) u.natAbs (-6)
  else if ty = 15 then
    if raw % 256 = 255 then .nan false else .fin false 1 ((raw % 256 : Nat) - 127)
  else
    let m := raw % 2 ^ fM ty
    let e := raw / 2 ^ fM ty % 2 ^ fE ty
    let neg := decide (raw / fSignBit ty % 2 = 1)
    let top := decide (e = 2 ^ fE ty - 1)
    if top && (ty ≤ 10 || ty = 12) then
      if m = 0 then .inf neg else .nan (ty ≤ 10 && m < 2 ^ (fM ty - 1))
    else if ty = 11 && top && m = 7 then .nan false
    else if e = 0 then .fin neg m (fQ ty)
    else .fin neg (2 ^ fM ty + m) (fQ ty + (e - 1 : Nat))

def fIsNaN : FVal → Bool
  | .nan _ => true
  | _ => false
def fIsSNaN : FVal → Bool
  | .nan s => s
  | _ => false
def fNeg : FVal → Bool
  | .nan _ => false
  | .inf n => n
  | .fin n _ _ => n

/-! ## Flags (R148) -/

abbrev Flags := BitVec 6
def flInvalid : Flags := 1
def flDivZero : Flags := 2
def flOverflow : Flags := 4
def flUnderflow : Flags := 8
def flInexact : Flags := 16
def flIntSat : Flags := 32
def flagIf (b : Bool) (f : Flags) : Flags := if b then f else 0

/-! ## Rounding (R142 to R145) -/

/-- An exact magnitude m · 2^e, or one strictly between m · 2^e and (m + 1) · 2^e when `sticky`. -/
structure Mag where
  m : Nat
  e : Int
  sticky : Bool
  deriving DecidableEq, Repr

/-- Whether a magnitude with quotient `q` and remainder `rem` of `span` is rounded away from zero: mode of R40,
sign, the 24 bits U of the feedback register (R145). -/
def roundUp (rm : Nat) (neg : Bool) (u : Nat) (q rem span : Nat) (sticky : Bool) : Bool :=
  let exact := rem == 0 && !sticky
  match rm with
  | 0 => span < 2 * rem || (2 * rem == span && (sticky || q % 2 == 1))
  | 1 => false
  | 2 => neg && !exact
  | 3 => !neg && !exact
  | 4 => span ≤ 2 * rem
  | _ => 2 ^ 24 ≤ rem * 2 ^ 24 / span + u

/-- Rounds a magnitude to a multiple of 2^E: the multiple and whether it is exact. -/
def roundAt (rm : Nat) (neg : Bool) (u : Nat) (x : Mag) (E : Int) : Nat × Bool :=
  let sh := E - x.e
  if sh ≤ 0 then
    let q := x.m * 2 ^ (-sh).toNat
    (if roundUp rm neg u q 0 1 x.sticky then q + 1 else q, !x.sticky)
  else
    let span := 2 ^ sh.toNat
    let q := x.m / span
    let rem := x.m % span
    (if roundUp rm neg u q rem span x.sticky then q + 1 else q, rem == 0 && !x.sticky)

/-- Whether q · 2^E exceeds the magnitude m · 2^e. -/
def magLt (m : Nat) (e : Int) (q : Nat) (E : Int) : Bool :=
  let b := min e E
  decide (m * 2 ^ (e - b).toNat < q * 2 ^ (E - b).toNat)

/-- The result of a value beyond the largest finite magnitude, or of an infinity that R144 names. -/
def overflowBits (ty rm : Nat) (sat neg : Bool) : Nat :=
  let s := if neg then fSignBit ty else 0
  let big := s + fMaxBits ty
  let inf := if ty = 11 then s + 0x7F else s + fInf ty
  if ty = 13 then big
  else if sat then big
  else
    match rm with
    | 1 => big
    | 2 => if neg then inf else big
    | 3 => if neg then big else inf
    | _ => inf

/-- Rounds ± a magnitude to a type of R132: bits and flags (R142 to R144, R148). A tie in `e2m1` goes to the
even code in `.rna` too (R143). -/
def fRound (ty rm : Nat) (sat : Bool) (u : Nat) (neg : Bool) (x : Mag) : Nat × Flags :=
  let s := if neg then fSignBit ty else 0
  if x.m = 0 && !x.sticky then (s, 0)
  else
    let rm' := if ty = 13 && rm = 4 then 0 else rm
    let E := max (x.e + (bitLen x.m : Int) - (fM ty + 1 : Nat)) (fQ ty)
    let (q, exact) := roundAt rm' neg u x E
    let top := match fDecode ty (fMaxBits ty) with
      | .fin _ m e => magLt m e q E
      | _ => false
    if top then (overflowBits ty rm sat neg, flOverflow ||| flInexact)
    else
      let tiny := decide (E = fQ ty) && decide (q < 2 ^ fM ty) && q != 0
      (s + ((E - fQ ty).toNat * 2 ^ fM ty + q), flagIf (!exact) flInexact ||| flagIf (tiny && !exact) flUnderflow)

/-! ## TS8 (R139 to R141) -/

/-- The canonical code of a non-negative value in units of 2^-6, if it is a TS8 value (R140). -/
def ts8Code (n : Nat) : Option Nat :=
  let ks := (List.range 7).map (· + 1)
  let one := ks.find? (fun k => n == 2 ^ (7 - k))
  if n = 0 then some 0
  else
    match one with
    | some k => some (16 * k)
    | none =>
      match (ks.flatMap (fun a => ks.map (fun b => (a, b)))).find?
          (fun p => decide (p.1 ≤ p.2) && n == 2 ^ (7 - p.1) + 2 ^ (7 - p.2)) with
      | some (a, b) => some (16 * a + b)
      | none =>
        match (ks.flatMap (fun a => ks.map (fun b => (a, b)))).find?
            (fun p => decide (p.1 + 3 ≤ p.2) && n + 2 ^ (7 - p.2) == 2 ^ (7 - p.1)) with
        | some (a, b) => some (16 * a + 8 + b)
        | none => none

/-- Non-zero terms of a canonical code. -/
def ts8Terms (n : Nat) : Nat :=
  match ts8Code n with
  | some c => (if c / 16 % 8 = 0 then 0 else 1) + (if c % 8 = 0 then 0 else 1)
  | none => 0

/-- The code of ± n units: both sign bits are flipped for a negative value, and the sign of an absent second
term stays 0 (R140). -/
def ts8Signed (neg : Bool) (n : Nat) : Nat :=
  match ts8Code n with
  | some c => if neg && n != 0 then (if c % 8 = 0 then c + 128 else (c + 128) - 16 * (c / 8 % 2) + 8) else c
  | none => 0

/-- Rounds ± m · 2^e to TS8 (R141). -/
def ts8Round (rm u : Nat) (neg : Bool) (m : Nat) (e : Int) : Nat × Flags :=
  let k := (-(e + 6)).toNat
  let n := m * 2 ^ (e + 6).toNat
  let d := 2 ^ k
  if 128 * d < n then (ts8Signed neg 128, flOverflow ||| flInexact)
  else
    let fl := n / d
    let lo := ((List.range (fl + 1)).reverse.find? (fun x => (ts8Code x).isSome)).getD 0
    if lo * d = n then (ts8Signed neg lo, 0)
    else
      let hi := ((List.range 129).find? (fun x => lo < x && (ts8Code x).isSome)).getD 128
      let rem := n - lo * d
      let sp := (hi - lo) * d
      let up :=
        match rm with
        | 1 => false
        | 2 => neg
        | 3 => !neg
        | 5 => decide (2 ^ 24 ≤ rem * 2 ^ 24 / sp + u)
        | _ => sp < 2 * rem || (2 * rem == sp && decide (ts8Terms hi < ts8Terms lo))
      (ts8Signed neg (if up then hi else lo), flInexact)

/-! ## Conversions (R150, R151) -/

/-- A floating value converted to a floating type, as `vcvt` and the packs do. -/
def cvtF (dst rm : Nat) (sat : Bool) (u : Nat) (x : FVal) : Nat × Flags :=
  match x with
  | .nan s =>
    if dst = 13 || dst = 14 then (0, flInvalid) else (fNaN dst, flagIf s flInvalid)
  | .inf neg =>
    if dst = 14 then (ts8Signed neg 128, flInexact)
    else if dst = 11 || dst = 13 || sat then
      let b := overflowBits dst rm sat neg
      (b, if fIsNaN (fDecode dst b) then flInvalid
        else match fDecode dst b with
          | .inf _ => 0
          | _ => flInexact)
    else ((if neg then fSignBit dst else 0) + fInf dst, 0)
  | .fin neg m e => if dst = 14 then ts8Round rm u neg m e else fRound dst rm sat u neg ⟨m, e, false⟩

/-- A floating value converted to an integer type: always clamped (R151). -/
def cvtFI (dst rm u : Nat) (x : FVal) : BitVec 64 × Flags :=
  match x with
  | .nan _ => (0, flInvalid)
  | .inf neg => (writeInt dst (if neg then minOf dst else maxOf dst), flInvalid)
  | .fin neg m e =>
    let (q, exact) := roundAt rm neg u ⟨m, e, false⟩ 0
    let v : Int := if neg then -(q : Int) else q
    let c := clampI v (minOf dst) (maxOf dst)
    (writeInt dst c, if c != v then flInvalid else flagIf (!exact) flInexact)

/-- An integer converted to a floating type (R151). -/
def cvtIF (dst rm : Nat) (sat : Bool) (u : Nat) (x : Int) : Nat × Flags :=
  fRound dst rm sat u (decide (x < 0)) ⟨x.natAbs, 0, false⟩

/-- `vcvt` of one element: source and destination codes, mode, saturate bit, U (R150, R151). -/
def cvt (src dst rm : Nat) (sat : Bool) (u : Nat) (raw : BitVec 64) : BitVec 64 × Flags :=
  if src < 8 then
    if dst < 8 then
      let (v, c) := fitInt dst sat (readInt src raw)
      (v, flagIf c flIntSat)
    else
      let (b, f) := cvtIF dst rm sat u (readInt src raw)
      (BitVec.ofNat 64 b, f)
  else
    let x := fDecode src (raw.toNat % 2 ^ 32)
    if dst < 8 then cvtFI dst rm u x
    else
      let (b, f) := cvtF dst rm sat u x
      (BitVec.ofNat 64 b, f)

/-! ## Arithmetic (R161) -/

/-- An exact value m · 2^e with m an integer. -/
structure Dy where
  m : Int
  e : Int
  deriving DecidableEq, Repr

def dyAdd (a b : Dy) : Dy :=
  let e := min a.e b.e
  ⟨a.m * 2 ^ (a.e - e).toNat + b.m * 2 ^ (b.e - e).toNat, e⟩
def dyMul (a b : Dy) : Dy := ⟨a.m * b.m, a.e + b.e⟩
def dyOf (neg : Bool) (m : Nat) (e : Int) : Dy := ⟨if neg then -(m : Int) else m, e⟩

/-- One addend of a sum: a value, or a NaN; zeros keep their sign. -/
def fMulV (a b : FVal) : FVal × Flags :=
  match a, b with
  | .nan s, y => (.nan false, flagIf (s || fIsSNaN y) flInvalid)
  | x, .nan s => (.nan false, flagIf (s || fIsSNaN x) flInvalid)
  | .inf n, .inf k => (.inf (n != k), 0)
  | .inf n, .fin k m _ => if m = 0 then (.nan false, flInvalid) else (.inf (n != k), 0)
  | .fin n m _, .inf k => if m = 0 then (.nan false, flInvalid) else (.inf (n != k), 0)
  | .fin n m e, .fin k p f => (.fin (n != k) (m * p) (e + f), 0)

/-- The exact sum of addends (R161, R178, R191, R192): NaN if one is NaN or both infinities stand; a zero sum is −0 when
every addend is a −0, and otherwise +0, or −0 in `.rd` (`rd`). The flag is invalid, also for +∞ and −∞ beside a quiet NaN
(DESIGN CHOICE, log entry 80). -/
def fSum (rd : Bool) (xs : List FVal) : FVal × Flags :=
  let snan := xs.any fIsSNaN
  let nan := xs.any fIsNaN
  let pinf := xs.any (fun x => x == .inf false)
  let ninf := xs.any (fun x => x == .inf true)
  if nan then (.nan false, flagIf (snan || (pinf && ninf)) flInvalid)
  else if pinf && ninf then (.nan false, flInvalid)
  else if pinf then (.inf false, 0)
  else if ninf then (.inf true, 0)
  else
    let s : Dy := xs.foldl (fun a x => match x with
      | .fin n m e => dyAdd a (dyOf n m e)
      | _ => a) ⟨0, 0⟩
    if s.m = 0 then
      let allNeg := xs.all (fun x => match x with
        | .fin n m _ => n && m == 0
        | _ => false)
      let allPos := xs.all (fun x => match x with
        | .fin n m _ => !n && m == 0
        | _ => false)
      (.fin ((allNeg && !xs.isEmpty) || (rd && !allPos)) 0 0, 0)
    else (.fin (decide (s.m < 0)) s.m.natAbs s.e, 0)

/-- Rounds an arithmetic result to its type (R161): a NaN is canonical, an infinity stays (R144). -/
def fOut (ty rm u : Nat) (x : FVal) : Nat × Flags :=
  match x with
  | .nan _ => (fNaN ty, 0)
  | .inf n => ((if n then fSignBit ty else 0) + fInf ty, 0)
  | .fin n m e => fRound ty rm false u n ⟨m, e, false⟩

def fNegV : FVal → FVal
  | .nan s => .nan s
  | .inf n => .inf (!n)
  | .fin n m e => .fin (!n) m e

/-- A quiet copy: the addend of a NaN whose flag has been raised. -/
def fAdd (ty rm u : Nat) (a b : FVal) : Nat × Flags :=
  let (s, f) := fSum (rm == 2) [a, b]
  let (r, g) := fOut ty rm u s
  (r, f ||| g)
def fMul (ty rm u : Nat) (a b : FVal) : Nat × Flags :=
  let (s, f) := fMulV a b
  let (r, g) := fOut ty rm u s
  (r, f ||| g)
def fFma (ty rm u : Nat) (a b c : FVal) : Nat × Flags :=
  let (p, f) := fMulV a b
  let (s, h) := fSum (rm == 2) [p, c]
  let (r, g) := fOut ty rm u s
  (r, f ||| h ||| g)

/-- Quotient of magnitudes to 64 bits and more, with a sticky bit. -/
def divMag (m : Nat) (e : Int) (p : Nat) (f : Int) : Mag :=
  let k := 80 + bitLen p
  ⟨m * 2 ^ k / p, e - f - k, m * 2 ^ k % p != 0⟩

/-- a / b, correctly rounded (R168). -/
def fDiv (ty rm u : Nat) (a b : FVal) : Nat × Flags :=
  let s (n : Bool) := if n then fSignBit ty else 0
  match a, b with
  | .nan x, y => (fNaN ty, flagIf (x || fIsSNaN y) flInvalid)
  | x, .nan y => (fNaN ty, flagIf (y || fIsSNaN x) flInvalid)
  | .inf _, .inf _ => (fNaN ty, flInvalid)
  | .inf n, .fin k _ _ => (s (n != k) + fInf ty, 0)
  | .fin n _ _, .inf k => (s (n != k), 0)
  | .fin n m e, .fin k p f =>
    if p = 0 then (if m = 0 then (fNaN ty, flInvalid) else (s (n != k) + fInf ty, flDivZero))
    else if m = 0 then (s (n != k), 0)
    else fRound ty rm false u (n != k) (divMag m e p f)

/-- Integer square root by bits, from bit `n - 1` down. -/
def isqrtGo (n : Nat) (x r : Nat) : Nat :=
  match n with
  | 0 => r
  | n + 1 => if (r + 2 ^ n) * (r + 2 ^ n) ≤ x then isqrtGo n x (r + 2 ^ n) else isqrtGo n x r
def isqrt (x : Nat) : Nat := isqrtGo (bitLen x / 2 + 1) x 0

/-- Square root of a magnitude to 80 bits and more. -/
def sqrtMag (m : Nat) (e : Int) : Mag :=
  let k : Nat := if (e % 2 = 0) then 160 else 161
  let r := isqrt (m * 2 ^ k)
  ⟨r, (e - k) / 2, r * r != m * 2 ^ k⟩

def fSqrt (ty rm u : Nat) (a : FVal) : Nat × Flags :=
  match a with
  | .nan s => (fNaN ty, flagIf s flInvalid)
  | .inf n => if n then (fNaN ty, flInvalid) else (fInf ty, 0)
  | .fin n m e =>
    if m = 0 then ((if n then fSignBit ty else 0), 0)
    else if n then (fNaN ty, flInvalid)
    else fRound ty rm false u false (sqrtMag m e)

/-- `vfrnd`: rounded to an integral value (R162). -/
def fRint (ty rm u : Nat) (a : FVal) : Nat × Flags :=
  match a with
  | .nan s => (fNaN ty, flagIf s flInvalid)
  | .inf n => ((if n then fSignBit ty else 0) + fInf ty, 0)
  | .fin n m e =>
    let (q, _) := roundAt rm n u ⟨m, e, false⟩ 0
    let r := if 0 ≤ e then (m, e) else (q, 0)
    ((fRound ty 0 false 0 n ⟨r.1, r.2, false⟩).1, 0)

/-! ## Comparison (R163, R164) -/

/-- Order of two numbers: −1, 0 or 1 by the sign of a − b, with −0 = +0. -/
def fCmp (a b : FVal) : Int :=
  match a, b with
  | .inf n, .inf k => if n = k then 0 else if n then -1 else 1
  | .inf n, _ => if n then -1 else 1
  | _, .inf k => if k then 1 else -1
  | .fin n m e, .fin k p f => (dyAdd (dyOf n m e) (dyOf (!k) p f)).m.sign
  | _, _ => 0

/-- −0 below +0 (R163). -/
def fLess (a b : FVal) : Bool :=
  let c := fCmp a b
  c < 0 || (c == 0 && fNeg a && !fNeg b)

/-- `vfmin` and `vfmax` on bits of a type (R163). -/
def fMinMax (isMax : Bool) (ty : Nat) (x y : Nat) : Nat × Flags :=
  let a := fDecode ty x
  let b := fDecode ty y
  let sn := fIsSNaN a || fIsSNaN b
  let w := 2 ^ tyWidth ty
  if sn || (fIsNaN a && fIsNaN b) then (fNaN ty, flagIf sn flInvalid)
  else if fIsNaN a then (y % w, 0)
  else if fIsNaN b then (x % w, 0)
  else if isMax then (if fLess a b then y % w else x % w, 0) else (if fLess b a then y % w else x % w, 0)

/-- The compares of R164 by function number: the bit and the flags. -/
def fCompare (fn : Nat) (a b : FVal) : Bool × Flags :=
  let nan := fIsNaN a || fIsNaN b
  let sn := fIsSNaN a || fIsSNaN b
  let c := fCmp a b
  match fn with
  | 0 => (!nan && c == 0, flagIf sn flInvalid)
  | 1 => (nan || c != 0, flagIf sn flInvalid)
  | 2 => (!nan && decide (c < 0), flagIf nan flInvalid)
  | 3 => (!nan && decide (c ≤ 0), flagIf nan flInvalid)
  | 4 => (!nan && decide (0 < c), flagIf nan flInvalid)
  | 5 => (!nan && decide (0 ≤ c), flagIf nan flInvalid)
  | _ => (nan, flagIf sn flInvalid)

/-- `vfclass` (R164): one bit. -/
def fClass (ty : Nat) (raw : Nat) : Nat :=
  match fDecode ty raw with
  | .nan s => if s then 256 else 512
  | .inf n => if n then 1 else 128
  | .fin n m _ =>
    if m = 0 then (if n then 8 else 16)
    else if m < 2 ^ fM ty then (if n then 4 else 32)
    else (if n then 2 else 64)

/-! ## The feedback register (R145, R146) -/

def fbStep (s : BitVec 32) : BitVec 32 :=
  if s.getLsbD 0 then (s >>> 1) ^^^ 0x80200003 else s >>> 1
/-- U of R145. -/
def fbU (s : BitVec 32) : Nat := s.toNat / 256
/-- The seed of lane index `l` (R146). -/
def fbSeed (seed : BitVec 64) (l : Nat) : BitVec 32 :=
  let t := (seed.extractLsb' 0 32) ^^^ (seed.extractLsb' 32 32) ^^^ BitVec.ofNat 32 ((l + 1) * 0x9E3779B9)
  if t = 0 then 1 else t

/-! ## Block scales (R138) -/

/-- The scale of values a[0..31] and whether one of them is a signalling NaN. -/
def mxScale (xs : List FVal) : Nat × Flags :=
  let bad := xs.any (fun x => match x with
    | .fin _ _ _ => false
    | _ => true)
  let fl := flagIf (xs.any fIsSNaN) flInvalid
  if bad then (255, fl)
  else
    let logs := xs.filterMap (fun x => match x with
      | .fin _ m e => if m = 0 then none else some ((Nat.log2 m : Int) + e)
      | _ => none)
    match logs with
    | [] => (127, fl)
    | l :: r => ((clampI (r.foldl max l - 2 + 127) 0 254).toNat, fl)

end Sys2Proof.Machine
end

