-- ==== Sys2Proof/Machine/Bounded.lean ====
section
/-! DEFINITION. The special functions of R168: their exact values in fixed point, far finer than the bounds that R168
gives, and the free function of the input brought inside those bounds. -/
namespace Sys2Proof.Machine
open Sys2Proof

/-! ## Fixed point, in units of 2^-256 -/

def fixOne : Nat := 2 ^ 256
def fixMul (a b : Nat) : Nat := a * b / 2 ^ 256
/-- ln 2, pi / 2 and log2 e. -/
def fixLn2 : Nat := 0xb17217f7d1cf79abc9e3b39803f2f6af40f343267298b62d8a0d175b8baafa2b
def fixHalfPi : Nat := 0x1921fb54442d18469898cc51701b839a252049c1114cf98e804177d4c76273644
def fixLog2E : Nat := 0x171547652b82fe1777d0ffda0d23a7d11d6aef551bad2b4b1164a2cd9a3426491

/-- The series of e^t for t below 1 from its `n`-th term inwards: 1 + t/1 · (1 + t/2 · (1 + …)). -/
def fixExp (n t acc : Nat) : Nat :=
  match n with
  | 0 => acc
  | n + 1 => fixExp n t (fixOne + fixMul t acc / (n + 1))

/-- 2^f for f below 1. -/
def fixExp2 (f : Nat) : Nat := fixExp 64 (fixMul f fixLn2) fixOne

/-- The series of cos t (`odd` 0) or of sin t / t (`odd` 1) from the square of t, which is at most (pi/2)^2. -/
def fixTrig (odd n t2 acc : Nat) : Nat :=
  match n with
  | 0 => acc
  | n + 1 => fixTrig odd n t2 (fixOne - fixMul t2 acc / ((2 * n + 1 + odd) * (2 * n + 2 + odd)))

def fixSin (t : Nat) : Nat := fixMul t (fixTrig 1 36 (fixMul t t) fixOne)
def fixCos (t : Nat) : Nat := fixTrig 0 36 (fixMul t t) fixOne

/-- The next `n` fraction bits of log2 y for y in [1, 2), behind those in `acc`. -/
def fixLog2 (n y acc : Nat) : Nat :=
  match n with
  | 0 => acc
  | n + 1 =>
    let z := fixMul y y
    if 2 * fixOne ≤ z then fixLog2 n (z / 2) (2 * acc + 1) else fixLog2 n z (2 * acc)

/-- e^-y. -/
def fixExpNeg (y : Nat) : Nat :=
  let z := fixMul y fixLog2E
  let i := z / fixOne
  if 600 ≤ i then 0 else fixExp2 (fixOne - z % fixOne) / 2 ^ (i + 1)

/-- m · 2^e, cut to a unit. -/
def fixOf (m : Nat) (e : Int) : Nat := if 0 ≤ e + 256 then m * 2 ^ (e + 256).toNat else m / 2 ^ (-(e + 256)).toNat

/-! ## A result within a bound -/

/-- One of the results within `n` ulps of an exact value, chosen by the free function: the magnitudes from `n - 1` below
the truncated one to `n` above it, or from `n` below when it is exact, and none below 0. Beyond the largest number it is
infinite. An ulp is the step from one representable number to the next (DESIGN CHOICE, log entry 115). -/
def nearby (fn ty n : Nat) (raw : Nat) (neg : Bool) (x : Mag) : Nat :=
  let (t, f) := fRound ty 1 false 0 false x
  let c := (Config.approx fn ty (BitVec.ofNat 32 raw)).toNat
  let r := if f &&& flInexact = 0 then t + c % (2 * n + 1) - n else t + c % (2 * n) - (n - 1)
  (if neg then fSignBit ty else 0) + (if f &&& flOverflow = 0 then min r (fInf ty) else fInf ty)

/-- A result within an absolute error of 2^-`b` of an exact value, ± `x` units of 2^-256: the free function's where it is
one, else the nearest. -/
def within (fn ty b : Nat) (raw : Nat) (neg : Bool) (x : Nat) : Nat :=
  let c := (Config.approx fn ty (BitVec.ofNat 32 raw)).toNat % 2 ^ tyWidth ty
  let v : Int := if neg then -(x : Int) else x
  let ok := match fDecode ty c with
    | .fin k m e => decide (((if k then -(fixOf m e : Int) else fixOf m e) - v).natAbs ≤ 2 ^ (256 - b))
    | _ => false
  if ok then c else (fRound ty 0 false 0 neg ⟨x, -256, true⟩).1

/-- A bounded function's result: within an absolute error for `f32`, within one ulp for the other types. The exact value
lies above 0, below 1, and below `top`, also where fixed point cannot tell it from them. -/
def bounded (fn ty b : Nat) (raw : Nat) (neg : Bool) (x top : Nat) : Nat :=
  let y := max 1 (min x (min fixOne top - 1))
  if ty = 10 then within fn ty b raw neg y else nearby fn ty 1 raw neg ⟨y, -256, true⟩

/-- A result with the sign that a zero is to have (R168). -/
def zeroSigned (ty : Nat) (neg : Bool) (r : Nat) : Nat :=
  if r % fSignBit ty = 0 then (if neg then fSignBit ty else 0) else r

/-- The quarter turns of a finite value, modulo 4, if it is a multiple of a quarter turn (R168). -/
def quarters (n : Bool) (m : Nat) (e : Int) : Option Nat :=
  let k := -(e + 2)
  if k ≤ 0 then some ((if n then 4 - m * 2 ^ (-k).toNat % 4 else m * 2 ^ (-k).toNat) % 4)
  else if m % 2 ^ k.toNat = 0 then
    let q := m / 2 ^ k.toNat
    some ((if n then 4 - q % 4 else q) % 4)
  else none

def fOne (ty : Nat) : Nat := (fRound ty 0 false 0 false ⟨1, 0, false⟩).1
def fHalf (ty : Nat) : Nat := (fRound ty 0 false 0 false ⟨1, -1, false⟩).1

/-! ## The functions (R168) -/

/-- 2^x for x = ± m · 2^e. -/
def exp2Mag (n : Bool) (m : Nat) (e : Int) : Mag :=
  let x := fixOf m e
  let f := if n then (fixOne - x % fixOne) % fixOne else x % fixOne
  let i : Int := if n then -(((x + fixOne - 1) / fixOne : Nat) : Int) else ((x / fixOne : Nat) : Int)
  ⟨fixExp2 f, max (-1000) (min 1000 i) - 256, f != 0⟩

/-- log2 x for x = m · 2^e above 0: its sign and its magnitude in units of 2^-128, and whether it is exact. -/
def log2Of (m : Nat) (e : Int) : Bool × Nat × Bool :=
  let k := Nat.log2 m
  let f := fixLog2 128 (m * 2 ^ (256 - k)) 0
  let l : Int := ((k : Int) + e) * 2 ^ 128 + f
  (decide (l < 0), l.natAbs, f == 0)

/-- sin (`k` 0) or cos (`k` 1) of 2·pi·x for x = m · 2^e: sign and magnitude. -/
def turnOf (k m : Nat) (e : Int) : Bool × Nat :=
  let x := 4 * (fixOf m e % fixOne)
  let q := (x / fixOne + k) % 4
  let t := fixMul (x % fixOne) fixHalfPi
  (decide (2 ≤ q), if q % 2 = 0 then fixSin t else fixCos t)

/-- The bounded functions by function number of 0x0B: the special inputs of R168's table, the exact quarter turns, and
otherwise a free function of the input inside its bound (log entry 12). -/
def fSpecial (fn ty : Nat) (raw : Nat) : Nat × Flags :=
  let s := fSignBit ty
  let sg (n : Bool) := if n then s else 0
  let w := raw % 2 ^ tyWidth ty
  let ulps := if ty = 10 then 2 else 1
  match fDecode ty raw with
  | .nan q => (fNaN ty, flagIf q flInvalid)
  | .inf n =>
    match fn with
    | 0 => (sg n, 0)
    | 1 => if n then (fNaN ty, flInvalid) else (0, 0)
    | 3 => (if n then 0 else fInf ty, 0)
    | 4 => if n then (fNaN ty, flInvalid) else (fInf ty, 0)
    | 5 => (fNaN ty, flInvalid)
    | 6 => (fNaN ty, flInvalid)
    | 7 => (sg n + fOne ty, 0)
    | _ => (if n then 0 else fOne ty, 0)
  | .fin n m e =>
    match fn with
    | 0 => if m = 0 then (sg n + fInf ty, flDivZero) else (nearby 0 ty 1 w n (divMag 1 0 m e), 0)
    | 1 =>
      if m = 0 then (sg n + fInf ty, flDivZero)
      else if n then (fNaN ty, flInvalid)
      else
        let r := sqrtMag m e
        (nearby 1 ty ulps w false (divMag 1 0 r.m r.e), 0)
    | 3 => if m = 0 then (fOne ty, 0) else (nearby 3 ty ulps w false (exp2Mag n m e), 0)
    | 4 =>
      if m = 0 then (s + fInf ty, flDivZero)
      else if n then (fNaN ty, flInvalid)
      else
        let (k, l, exact) := log2Of m e
        if ty = 10 && decide (l ≤ 2 ^ 128) then (within 4 ty 22 w k (l * 2 ^ 128), 0)
        else (nearby 4 ty ulps w k ⟨l, -128, !exact⟩, 0)
    | 5 =>
      match quarters n m e with
      | some 1 => (fOne ty, 0)
      | some 3 => (s + fOne ty, 0)
      | some _ => (sg n, 0)
      | none =>
        let (k, v) := turnOf 0 m e
        (zeroSigned ty n (bounded 5 ty 22 w (k != n) v fixOne), 0)
    | 6 =>
      match quarters n m e with
      | some 0 => (fOne ty, 0)
      | some 2 => (s + fOne ty, 0)
      | some _ => (0, 0)
      | none =>
        let (k, v) := turnOf 1 m e
        (zeroSigned ty false (bounded 6 ty 22 w k v fixOne), 0)
    | 7 =>
      if m = 0 then (sg n, 0)
      else
        let u := fixExpNeg (2 * fixOf m e)
        (bounded 7 ty 21 w n ((fixOne - u) * fixOne / (fixOne + u)) (fixOf m e), 0)
    | _ =>
      if m = 0 then (fHalf ty, 0)
      else
        let u := fixExpNeg (fixOf m e)
        (bounded 8 ty 22 w false ((if n then u else fixOne) * fixOne / (fixOne + u)) fixOne, 0)

end Sys2Proof.Machine
end

