-- ==== Sys2Proof/Decode.lean ====
section
/-! DEFINITION. Decoding: from 64 bits to an instruction or a named rejection (R37 to R58), and the encoder
written from the same tables. `Instr.sig` is the opcode map of R46 to R55: for each encoded row its opcode,
function, accepted types, operand kinds, price and latency. -/
namespace Sys2Proof

/-! ## Fields and formats (R37) -/

/-- Bits `lo + n - 1 : lo` of a word. -/
def bits (w : Word) (lo n : Nat) : BitVec n := w.extractLsb' lo n

def opOf (w : Word) : BitVec 6 := bits w 58 6
/-- The function field of V3, X and S words. -/
def fn8Of (w : Word) : BitVec 8 := bits w 50 8
/-- The function field of VI, M and B words. -/
def fn6Of (w : Word) : BitVec 6 := bits w 52 6

def unpackV3 (w : Word) : V3 :=
  { d := bits w 42 8, a := bits w 34 8, b := bits w 26 8, c := bits w 18 8, mask := bits w 14 4,
    neg := bits w 13 1, ty := bits w 8 5, rm := bits w 5 3, sat := bits w 4 1 }
def packV3 (op : BitVec 6) (fn : BitVec 8) (f : V3) : Word :=
  op ++ fn ++ f.d ++ f.a ++ f.b ++ f.c ++ f.mask ++ f.neg ++ f.ty ++ f.rm ++ f.sat ++ (0 : BitVec 4)

def unpackVI (w : Word) : VI := { d := bits w 44 8, a := bits w 36 8, mask := bits w 32 4, imm := bits w 0 32 }
def packVI (op fn : BitVec 6) (f : VI) : Word := op ++ fn ++ f.d ++ f.a ++ f.mask ++ f.imm

def unpackM (w : Word) : M :=
  { data := bits w 44 8, lane := bits w 36 8, x := bits w 33 3, mask := bits w 29 4, size := bits w 26 3,
    hint := bits w 24 2, off := bits w 0 24 }
def packM (op fn : BitVec 6) (f : M) : Word :=
  op ++ fn ++ f.data ++ f.lane ++ f.x ++ f.mask ++ f.size ++ f.hint ++ f.off

def unpackB (w : Word) : B :=
  { mask := bits w 48 4, neg := bits w 47 1, gp := bits w 44 3, ngp := bits w 43 1, tok := bits w 32 11,
    disp := bits w 0 32 }
def packB (op fn : BitVec 6) (f : B) : Word :=
  op ++ fn ++ f.mask ++ f.neg ++ f.gp ++ f.ngp ++ f.tok ++ f.disp

def unpackX (w : Word) : X :=
  { f1 := bits w 42 8, f2 := bits w 34 8, f3 := bits w 26 8, tm := bits w 22 4, f5 := bits w 14 8,
    imm := bits w 0 14 }
def packX (op : BitVec 6) (fn : BitVec 8) (f : X) : Word :=
  op ++ fn ++ f.f1 ++ f.f2 ++ f.f3 ++ f.tm ++ f.f5 ++ f.imm

def unpackS (w : Word) : S := { d := bits w 44 6, a := bits w 38 6, b := bits w 32 6, imm := bits w 0 32 }
def packS (op : BitVec 6) (fn : BitVec 8) (f : S) : Word := op ++ fn ++ f.d ++ f.a ++ f.b ++ f.imm

/-- The clause header (R31). -/
def unpackHdr (w : Word) : Hdr :=
  { cls := bits w 54 4, count := bits w 50 4, wld := bits w 49 1, wst := bits w 48 1, was := bits w 47 1,
    wmx := bits w 46 1, park := bits w 45 1, ns := bits w 44 1, price := bits w 32 12 }
def packHdr (f : Hdr) : Word :=
  (0x3E : BitVec 6) ++ f.cls ++ f.count ++ f.wld ++ f.wst ++ f.was ++ f.wmx ++ f.park ++ f.ns ++ f.price ++
    (0 : BitVec 32)

/-! ## The opcode map -/

/-- How an instruction is predicated: by a lane mask (R43), by a group predicate (R42), or not. -/
inductive Pred where
  | lane | grp | none
  deriving DecidableEq, Repr

/-- What an operand field holds: nothing, a lane register of the type's width, one lane register, an even
pair, four or eight registers, a mask, a `g` register, a group predicate, or a literal up to `n`. -/
inductive Opd where
  | z | v | v1 | v2 | v4 | v8 | m | g | p | lit (n : Nat) | any
  deriving DecidableEq, Repr

/-- What the rounding field may hold: only 0, 0 to 4, or 0 to 5 (R40). -/
inductive Rnd where
  | zero | upto4 | upto5
  deriving DecidableEq, Repr

/-- What imm32 may hold: anything, or a field of the low `n` bits. -/
inductive Imm where
  | any | u (n : Nat) | special
  deriving DecidableEq, Repr

/-- One row of the map. `types` has bit c set when type code c is accepted, 0 when the row takes no type.
Prices and latencies in brackets are the second ones. -/
structure Sig where
  op : BitVec 6
  fn : BitVec 8
  types : BitVec 16 := 0
  pred : Pred := .none
  d : Opd := .z
  a : Opd := .z
  b : Opd := .z
  c : Opd := .z
  rm : Rnd := .zero
  sat : Bool := false
  imm : Imm := .any
  price : Nat := 0
  price2 : Nat := 0
  lat : Nat := 0
  lat2 : Nat := 0
  rs : Bool := false
  deriving DecidableEq, Repr

def tyI : BitVec 16 := 0x00FF
def tyL : BitVec 16 := 0x00C0
def tyF : BitVec 16 := 0x0700
def tyW : BitVec 16 := 0x0044
def tyD4 : BitVec 16 := 0x0011
def tyN32 : BitVec 16 := 0x0040

def Sig.v3 (op : BitVec 6) (fn : BitVec 8) (types : BitVec 16) (pred : Pred) (d a b c : Opd) (rm : Rnd)
    (sat : Bool) (price price2 lat lat2 : Nat) (rs : Bool) : Sig :=
  { op, fn, types, pred, d, a, b, c, rm, sat, price, price2, lat, lat2, rs }
def Sig.vi (op : BitVec 6) (fn : BitVec 8) (pred : Pred) (d a : Opd) (imm : Imm) (price lat : Nat) : Sig :=
  { op, fn, pred, d, a, imm, price, price2 := price, lat, lat2 := lat }
/-- Rows of the M, B, X and S formats: opcode, function, price and latency. -/
def Sig.raw (op : BitVec 6) (fn : BitVec 8) (price lat : Nat) : Sig :=
  { op, fn, d := .any, a := .any, b := .any, c := .any, price, price2 := price, lat, lat2 := lat }

/-- The fields of an instruction's word; `ev` for a step of the device, which no word encodes. -/
inductive Body where
  | v3 (f : V3) | vi (f : VI) | m (f : M) | b (f : B) | x (f : X) | s (f : S) | hdr (f : Hdr) | ev
  deriving DecidableEq, Repr

/-- The map of R46 to R55. `affcnt` has the latency 2 of R363, though R51 gives its opcode none (DEDUCED, log entry
110). -/
def Instr.sig : Instr → Sig
  | .clauseHeader _ => .raw 0x3E 0x00 0 0
  | .vadd _ => .v3 0x01 0x00 tyI .lane .v .v .v .z .zero true 0 0 2 2 false
  | .vsub _ => .v3 0x01 0x01 tyI .lane .v .v .v .z .zero true 0 0 2 2 false
  | .vmin _ => .v3 0x01 0x02 tyI .lane .v .v .v .z .zero false 0 0 2 2 false
  | .vmax _ => .v3 0x01 0x03 tyI .lane .v .v .v .z .zero false 0 0 2 2 false
  | .vabs _ => .v3 0x01 0x04 tyI .lane .v .v .z .z .zero true 0 0 2 2 false
  | .vneg _ => .v3 0x01 0x05 tyI .lane .v .v .z .z .zero true 0 0 2 2 false
  | .vabsd _ => .v3 0x01 0x06 tyI .lane .v .v .v .z .zero true 0 0 2 2 false
  | .vavg _ => .v3 0x01 0x07 tyI .lane .v .v .v .z .zero false 0 0 2 2 false
  | .vand _ => .v3 0x02 0x00 tyL .lane .v .v .v .z .zero false 0 0 2 2 false
  | .vor _ => .v3 0x02 0x01 tyL .lane .v .v .v .z .zero false 0 0 2 2 false
  | .vxor _ => .v3 0x02 0x02 tyL .lane .v .v .v .z .zero false 0 0 2 2 false
  | .vandn _ => .v3 0x02 0x03 tyL .lane .v .v .v .z .zero false 0 0 2 2 false
  | .vnot _ => .v3 0x02 0x04 tyL .lane .v .v .z .z .zero false 0 0 2 2 false
  | .vshl _ => .v3 0x02 0x05 tyI .lane .v .v .v1 .z .zero false 1 1 2 2 false
  | .vshr _ => .v3 0x02 0x06 tyI .lane .v .v .v1 .z .zero false 1 1 2 2 false
  | .vsra _ => .v3 0x02 0x07 tyI .lane .v .v .v1 .z .zero false 1 1 2 2 false
  | .vrol _ => .v3 0x02 0x08 tyI .lane .v .v .v1 .z .zero false 1 1 2 2 false
  | .vbext _ => .v3 0x02 0x09 tyL .lane .v .v .v1 .z .zero false 1 1 2 2 false
  | .vbins _ => .v3 0x02 0x0A tyL .lane .v .v .v1 .v .zero false 1 1 2 2 false
  | .vpopc _ => .v3 0x02 0x0B tyL .lane .v1 .v .z .z .zero false 1 1 2 2 false
  | .vclz _ => .v3 0x02 0x0C tyL .lane .v1 .v .z .z .zero false 1 1 2 2 false
  | .vbrev _ => .v3 0x02 0x0D tyL .lane .v .v .z .z .zero false 1 1 2 2 false
  | .vperm _ => .v3 0x02 0x0E tyN32 .lane .v .v .v .v .zero false 1 1 2 2 false
  | .vceq _ => .v3 0x03 0x00 tyI .lane .m .v .v .z .zero false 0 0 2 2 false
  | .vcne _ => .v3 0x03 0x01 tyI .lane .m .v .v .z .zero false 0 0 2 2 false
  | .vclt _ => .v3 0x03 0x02 tyI .lane .m .v .v .z .zero false 0 0 2 2 false
  | .vcle _ => .v3 0x03 0x03 tyI .lane .m .v .v .z .zero false 0 0 2 2 false
  | .vcgt _ => .v3 0x03 0x04 tyI .lane .m .v .v .z .zero false 0 0 2 2 false
  | .vcge _ => .v3 0x03 0x05 tyI .lane .m .v .v .z .zero false 0 0 2 2 false
  | .vtest _ => .v3 0x03 0x06 tyI .lane .m .v .v .z .zero false 0 0 2 2 false
  | .vmul _ => .v3 0x04 0x00 tyI .lane .v .v .v .z .zero true 2 4 4 6 false
  | .vmulhi _ => .v3 0x04 0x01 tyI .lane .v .v .v .z .zero false 2 4 4 6 false
  | .vmad _ => .v3 0x04 0x02 tyI .lane .v .v .v .v .zero true 2 4 4 6 false
  | .vmadhi _ => .v3 0x04 0x03 tyI .lane .v .v .v .v .zero false 2 4 4 6 false
  | .vmulw _ => .v3 0x04 0x04 tyW .lane .v2 .v .v .z .zero false 4 4 6 6 false
  | .vmadw _ => .v3 0x04 0x05 tyW .lane .v2 .v .v .v2 .zero false 4 4 6 6 false
  | .vdiv _ => .v3 0x04 0x06 tyI .lane .v .v .v .z .zero false 6 8 20 36 false
  | .vrem _ => .v3 0x04 0x07 tyI .lane .v .v .v .z .zero false 6 8 20 36 false
  | .vdot4 _ => .v3 0x04 0x08 tyD4 .lane .v1 .v1 .v1 .v1 .zero true 2 2 4 4 false
  | .vaddi _ => .vi 0x05 0x00 .lane .v1 .v1 .any 0 2
  | .vandi _ => .vi 0x05 0x01 .lane .v1 .v1 .any 0 2
  | .vori _ => .vi 0x05 0x02 .lane .v1 .v1 .any 0 2
  | .vxori _ => .vi 0x05 0x03 .lane .v1 .v1 .any 0 2
  | .vshli _ => .vi 0x05 0x04 .lane .v1 .v1 (.u 5) 1 2
  | .vshri _ => .vi 0x05 0x05 .lane .v1 .v1 (.u 5) 1 2
  | .vsrai _ => .vi 0x05 0x06 .lane .v1 .v1 (.u 5) 1 2
  | .vminiI32 _ => .vi 0x05 0x07 .lane .v1 .v1 .any 0 2
  | .vmaxiI32 _ => .vi 0x05 0x08 .lane .v1 .v1 .any 0 2
  | .vminiN32 _ => .vi 0x05 0x09 .lane .v1 .v1 .any 0 2
  | .vmaxiN32 _ => .vi 0x05 0x0A .lane .v1 .v1 .any 0 2
  | .vmuli _ => .vi 0x05 0x0B .lane .v1 .v1 .any 2 4
  | .vmovi _ => .vi 0x05 0x0C .lane .v1 .z .any 0 2
  | .vceqi _ => .vi 0x05 0x0D .lane .m .v1 .any 0 2
  | .vcltiI32 _ => .vi 0x05 0x0E .lane .m .v1 .any 0 2
  | .vcltiN32 _ => .vi 0x05 0x0F .lane .m .v1 .any 0 2
  | .vcgtiI32 _ => .vi 0x05 0x10 .lane .m .v1 .any 0 2
  | .vcgtiN32 _ => .vi 0x05 0x11 .lane .m .v1 .any 0 2
  | .vfadd _ => .v3 0x08 0x00 tyF .lane .v .v .v .z .upto5 false 2 1 4 4 false
  | .vfsub _ => .v3 0x08 0x01 tyF .lane .v .v .v .z .upto5 false 2 1 4 4 false
  | .vfmul _ => .v3 0x08 0x02 tyF .lane .v .v .v .z .upto5 false 2 1 4 4 false
  | .vfma _ => .v3 0x08 0x03 tyF .lane .v .v .v .v .upto5 false 3 2 4 4 false
  | .vfmin _ => .v3 0x08 0x04 tyF .lane .v .v .v .z .zero false 1 1 2 2 false
  | .vfmax _ => .v3 0x08 0x05 tyF .lane .v .v .v .z .zero false 1 1 2 2 false
  | .vfabs _ => .v3 0x08 0x06 tyF .lane .v .v .z .z .zero false 0 0 2 2 false
  | .vfneg _ => .v3 0x08 0x07 tyF .lane .v .v .z .z .zero false 0 0 2 2 false
  | .vfrnd _ => .v3 0x08 0x08 tyF .lane .v .v .z .z .upto5 false 1 1 4 4 false
  | .vfceq _ => .v3 0x09 0x00 tyF .lane .m .v .v .z .zero false 1 1 2 2 false
  | .vfcne _ => .v3 0x09 0x01 tyF .lane .m .v .v .z .zero false 1 1 2 2 false
  | .vfclt _ => .v3 0x09 0x02 tyF .lane .m .v .v .z .zero false 1 1 2 2 false
  | .vfcle _ => .v3 0x09 0x03 tyF .lane .m .v .v .z .zero false 1 1 2 2 false
  | .vfcgt _ => .v3 0x09 0x04 tyF .lane .m .v .v .z .zero false 1 1 2 2 false
  | .vfcge _ => .v3 0x09 0x05 tyF .lane .m .v .v .z .zero false 1 1 2 2 false
  | .vfcun _ => .v3 0x09 0x06 tyF .lane .m .v .v .z .zero false 1 1 2 2 false
  | .vfclass _ => .v3 0x09 0x07 tyF .lane .v .v .z .z .zero false 1 1 2 2 false
  | .vcvt src _ => .v3 0x0A (src.setWidth 8) 0xFFFF .lane .any .any .z .z .upto5 true 1 1 4 4 true
  | .vpack2 _ => .v3 0x0A 0x10 0x0300 .lane .v1 .v1 .v1 .z .upto5 true 1 1 4 4 true
  | .vpack4 _ => .v3 0x0A 0x11 0x5811 .lane .v1 .v4 .z .z .upto5 true 1 1 4 4 true
  | .vpack8 _ => .v3 0x0A 0x12 0x2000 .lane .v1 .v8 .z .z .upto5 false 1 1 4 4 true
  | .vunpk _ => .v3 0x0A 0x13 0xFB11 .lane .v1 .v1 .z .any .zero false 1 1 4 4 false
  | .vmxscale _ => .v3 0x0A 0x14 0x8000 .lane .v1 .v1 .z .z .zero false 2 2 8 8 false
  | .vrcp _ => .v3 0x0B 0x00 tyF .lane .v .v .z .z .zero false 4 4 8 8 false
  | .vrsq _ => .v3 0x0B 0x01 tyF .lane .v .v .z .z .zero false 4 4 8 8 false
  | .vsqrt _ => .v3 0x0B 0x02 tyF .lane .v .v .z .z .upto5 false 4 4 8 8 false
  | .vexp2 _ => .v3 0x0B 0x03 tyF .lane .v .v .z .z .zero false 4 4 8 8 false
  | .vlog2 _ => .v3 0x0B 0x04 tyF .lane .v .v .z .z .zero false 4 4 8 8 false
  | .vsin _ => .v3 0x0B 0x05 tyF .lane .v .v .z .z .zero false 4 4 8 8 false
  | .vcos _ => .v3 0x0B 0x06 tyF .lane .v .v .z .z .zero false 4 4 8 8 false
  | .vtanh _ => .v3 0x0B 0x07 tyF .lane .v .v .z .z .zero false 4 4 8 8 false
  | .vsigm _ => .v3 0x0B 0x08 tyF .lane .v .v .z .z .zero false 4 4 8 8 false
  | .vfdiv _ => .v3 0x0B 0x09 tyF .lane .v .v .v .z .upto5 false 6 6 12 12 false
  | .vfaddi _ => .vi 0x0C 0x00 .lane .v1 .v1 .any 2 4
  | .vfmuli _ => .vi 0x0C 0x01 .lane .v1 .v1 .any 2 4
  | .vfmini _ => .vi 0x0C 0x02 .lane .v1 .v1 .any 1 2
  | .vfmaxi _ => .vi 0x0C 0x03 .lane .v1 .v1 .any 1 2
  | .vfmovi _ => .vi 0x0C 0x04 .lane .v1 .z .any 0 2
  | .vqxh _ => .v3 0x10 0x00 0 .lane .v1 .v1 .z .z .zero false 1 1 4 4 false
  | .vqxv _ => .v3 0x10 0x01 0 .lane .v1 .v1 .z .z .zero false 1 1 4 4 false
  | .vqxd _ => .v3 0x10 0x02 0 .lane .v1 .v1 .z .z .zero false 1 1 4 4 false
  | .vqbc _ => .v3 0x10 0x03 0 .lane .v1 .v1 .z (.lit 3) .zero false 1 1 4 4 false
  | .vshfl _ => .v3 0x10 0x04 0 .lane .v1 .v1 .v1 .z .zero false 1 1 4 4 false
  | .vshup _ => .v3 0x10 0x05 0 .lane .v1 .v1 .z (.lit 31) .zero false 1 1 4 4 false
  | .vshdn _ => .v3 0x10 0x06 0 .lane .v1 .v1 .z (.lit 31) .zero false 1 1 4 4 false
  | .vshxor _ => .v3 0x10 0x07 0 .lane .v1 .v1 .z (.lit 31) .zero false 1 1 4 4 false
  | .vbcast _ => .v3 0x10 0x08 0 .lane .v1 .v1 .z (.lit 31) .zero false 1 1 4 4 false
  | .vsel _ => .v3 0x10 0x09 tyL .lane .v .v .v .m .zero false 0 0 2 2 false
  | .mand _ => .v3 0x11 0x00 0 .grp .m .m .m .z .zero false 0 0 2 2 false
  | .mor _ => .v3 0x11 0x01 0 .grp .m .m .m .z .zero false 0 0 2 2 false
  | .mxor _ => .v3 0x11 0x02 0 .grp .m .m .m .z .zero false 0 0 2 2 false
  | .mandn _ => .v3 0x11 0x03 0 .grp .m .m .m .z .zero false 0 0 2 2 false
  | .mnot _ => .v3 0x11 0x04 0 .grp .m .m .z .z .zero false 0 0 2 2 false
  | .mmov _ => .v3 0x11 0x05 0 .grp .m .m .z .z .zero false 0 0 2 2 false
  | .mfromv _ => .v3 0x11 0x06 0 .grp .m .v1 .z .z .zero false 0 0 2 2 false
  | .mtov _ => .v3 0x11 0x07 0 .grp .v1 .m .z .z .zero false 0 0 2 2 false
  | .mfromg _ => .v3 0x11 0x08 0 .grp .m .g .z .z .zero false 0 0 2 2 false
  | .mtog _ => .v3 0x11 0x09 0 .grp .g .m .z .z .zero false 0 0 2 2 false
  | .mpopc _ => .v3 0x11 0x0A 0 .grp .g .m .z .z .zero false 0 0 2 2 false
  | .mffs _ => .v3 0x11 0x0B 0 .grp .g .m .z .z .zero false 0 0 2 2 false
  | .gadd _ => .v3 0x12 0x00 0 .grp .g .g .g .z .zero false 0 0 2 2 false
  | .gsub _ => .v3 0x12 0x01 0 .grp .g .g .g .z .zero false 0 0 2 2 false
  | .gand _ => .v3 0x12 0x02 0 .grp .g .g .g .z .zero false 0 0 2 2 false
  | .gor _ => .v3 0x12 0x03 0 .grp .g .g .g .z .zero false 0 0 2 2 false
  | .gxor _ => .v3 0x12 0x04 0 .grp .g .g .g .z .zero false 0 0 2 2 false
  | .gshl _ => .v3 0x12 0x05 0 .grp .g .g .g .z .zero false 0 0 2 2 false
  | .gshr _ => .v3 0x12 0x06 0 .grp .g .g .g .z .zero false 0 0 2 2 false
  | .gsra _ => .v3 0x12 0x07 0 .grp .g .g .g .z .zero false 0 0 2 2 false
  | .gmin _ => .v3 0x12 0x08 0 .grp .g .g .g .z .zero false 0 0 2 2 false
  | .gmax _ => .v3 0x12 0x09 0 .grp .g .g .g .z .zero false 0 0 2 2 false
  | .gminn _ => .v3 0x12 0x0A 0 .grp .g .g .g .z .zero false 0 0 2 2 false
  | .gmaxn _ => .v3 0x12 0x0B 0 .grp .g .g .g .z .zero false 0 0 2 2 false
  | .gmov _ => .v3 0x12 0x0C 0 .grp .g .g .z .z .zero false 0 0 2 2 false
  | .gsel _ => .v3 0x12 0x0D 0 .grp .g .g .g .z .zero false 0 0 2 2 false
  | .gmul _ => .v3 0x12 0x0E 0 .grp .g .g .g .z .zero false 0 0 4 4 false
  | .gmulhi _ => .v3 0x12 0x0F 0 .grp .g .g .g .z .zero false 0 0 4 4 false
  | .gdiv _ => .v3 0x12 0x10 0 .grp .g .g .g .z .zero false 0 0 20 20 false
  | .gdivn _ => .v3 0x12 0x11 0 .grp .g .g .g .z .zero false 0 0 20 20 false
  | .grem _ => .v3 0x12 0x12 0 .grp .g .g .g .z .zero false 0 0 20 20 false
  | .gremn _ => .v3 0x12 0x13 0 .grp .g .g .g .z .zero false 0 0 20 20 false
  | .gaddi _ => .vi 0x13 0x00 .grp .g .g .any 0 2
  | .gandi _ => .vi 0x13 0x01 .grp .g .g .any 0 2
  | .gori _ => .vi 0x13 0x02 .grp .g .g .any 0 2
  | .gxori _ => .vi 0x13 0x03 .grp .g .g .any 0 2
  | .gshli _ => .vi 0x13 0x04 .grp .g .g (.u 6) 0 2
  | .gshri _ => .vi 0x13 0x05 .grp .g .g (.u 6) 0 2
  | .gsrai _ => .vi 0x13 0x06 .grp .g .g (.u 6) 0 2
  | .gmini _ => .vi 0x13 0x07 .grp .g .g .any 0 2
  | .gmaxi _ => .vi 0x13 0x08 .grp .g .g .any 0 2
  | .gmovi _ => .vi 0x13 0x09 .grp .g .z .any 0 2
  | .gmovhi _ => .vi 0x13 0x0A .grp .g .z .any 0 2
  | .gmuli _ => .vi 0x13 0x0B .grp .g .g .any 0 4
  | .starterGroupOp imm fn _ => .raw (if imm = 0 then 0x12 else 0x13) fn 0 0
  | .gceq _ => .v3 0x14 0x00 0 .grp .p .g .g .z .zero false 0 0 2 2 false
  | .gcne _ => .v3 0x14 0x01 0 .grp .p .g .g .z .zero false 0 0 2 2 false
  | .gclt _ => .v3 0x14 0x02 0 .grp .p .g .g .z .zero false 0 0 2 2 false
  | .gcle _ => .v3 0x14 0x03 0 .grp .p .g .g .z .zero false 0 0 2 2 false
  | .gcltn _ => .v3 0x14 0x04 0 .grp .p .g .g .z .zero false 0 0 2 2 false
  | .gclen _ => .v3 0x14 0x05 0 .grp .p .g .g .z .zero false 0 0 2 2 false
  | .gpand _ => .v3 0x14 0x06 0 .grp .p .p .p .z .zero false 0 0 2 2 false
  | .gpor _ => .v3 0x14 0x07 0 .grp .p .p .p .z .zero false 0 0 2 2 false
  | .gpxor _ => .v3 0x14 0x08 0 .grp .p .p .p .z .zero false 0 0 2 2 false
  | .gpnot _ => .v3 0x14 0x09 0 .grp .p .p .z .z .zero false 0 0 2 2 false
  | .gpany _ => .v3 0x14 0x0A 0 .grp .p .m .z .z .zero false 0 0 2 2 false
  | .gpall _ => .v3 0x14 0x0B 0 .grp .p .m .z .z .zero false 0 0 2 2 false
  | .vtog _ => .v3 0x15 0x00 0 .none .g .v1 .z (.lit 31) .zero false 0 0 2 2 false
  | .gtov _ => .v3 0x15 0x01 0 .lane .v1 .g .z (.lit 1) .zero false 0 0 2 2 false
  | .vredadd _ => .v3 0x15 0x02 tyI .lane .g .v .z .z .zero true 1 1 6 6 false
  | .vredmin _ => .v3 0x15 0x03 tyI .lane .g .v .z .z .zero false 1 1 6 6 false
  | .vredmax _ => .v3 0x15 0x04 tyI .lane .g .v .z .z .zero false 1 1 6 6 false
  | .vredand _ => .v3 0x15 0x05 tyI .lane .g .v .z .z .zero false 1 1 6 6 false
  | .vredor _ => .v3 0x15 0x06 tyI .lane .g .v .z .z .zero false 1 1 6 6 false
  | .vredxor _ => .v3 0x15 0x07 tyI .lane .g .v .z .z .zero false 1 1 6 6 false
  | .vscanadd _ => .v3 0x15 0x08 tyI .lane .v .v .z .z .zero true 1 1 6 6 false
  | .vfredadd _ => .v3 0x15 0x09 tyF .lane .g .v .z .z .upto4 false 2 2 8 8 false
  | .vfredmin _ => .v3 0x15 0x0A tyF .lane .g .v .z .z .zero false 2 2 8 8 false
  | .vfredmax _ => .v3 0x15 0x0B tyF .lane .g .v .z .z .zero false 2 2 8 8 false
  | .vld _ => .raw 0x18 0x00 0 0
  | .vldx _ => .raw 0x18 0x01 0 0
  | .vst _ => .raw 0x19 0x00 0 0
  | .vsld _ => .raw 0x1A 0x00 0 0
  | .vsldx _ => .raw 0x1A 0x01 0 0
  | .vsst _ => .raw 0x1A 0x02 0 0
  | .vvld _ => .raw 0x1A 0x03 0 0
  | .vvldx _ => .raw 0x1A 0x04 0 0
  | .vvst _ => .raw 0x1A 0x05 0 0
  | .gld _ => .raw 0x1B 0x00 0 0
  | .gst _ => .raw 0x1B 0x01 0 0
  | .gsld _ => .raw 0x1B 0x02 0 0
  | .gsst _ => .raw 0x1B 0x03 0 0
  | .gvld _ => .raw 0x1B 0x04 0 0
  | .gvst _ => .raw 0x1B 0x05 0 0
  | .xlat _ => .raw 0x1C 0x00 0 0
  | .xrel _ => .raw 0x1C 0x01 0 0
  | .xget _ => .raw 0x1C 0x02 0 0
  | .tlbinv _ => .raw 0x1C 0x03 0 0
  | .tlbInvalidationComplete _ _ => .raw 0 0 0 0
  | .vpf _ => .raw 0x1D 0x00 0 0
  | .gpf _ => .raw 0x1D 0x01 0 0
  | .l1inv _ => .raw 0x1D 0x02 0 0
  | .loadReturn _ _ _ => .raw 0 0 0 0
  | .storePerform _ _ _ => .raw 0 0 0 0
  | .faultQueuePost _ => .raw 0 0 0 0
  | .cpy _ => .raw 0x20 0x00 3 0
  | .cpy2d _ => .raw 0x20 0x01 3 0
  | .cpyfill _ => .raw 0x20 0x02 3 0
  | .cpyadd _ => .raw 0x20 0x03 3 0
  | .cpyxor _ => .raw 0x20 0x04 3 0
  | .copyStart _ _ => .raw 0 0 0 0
  | .copyPieceArrival _ _ _ => .raw 0 0 0 0
  | .copyComplete _ _ => .raw 0 0 0 0
  | .bfence _ => .vi 0x21 0x00 .none .any .any .any 0 2
  | .bwait _ => .vi 0x21 0x01 .none .any .any .any 0 2
  | .bget _ => .vi 0x21 0x02 .none .any .any .any 0 2
  | .bcinit _ => .raw 0x22 0x00 0 0
  | .bcexpect _ => .raw 0x22 0x01 0 0
  | .bcarrive _ => .raw 0x22 0x02 0 0
  | .bcwait _ => .raw 0x22 0x03 0 0
  | .bctest _ => .raw 0x22 0x04 0 0
  | .bcEffect _ => .raw 0 0 0 0
  | .vmma ty sat _ => .raw 0x24 ((0 : BitVec 2) ++ (0 : BitVec 1) ++ sat ++ (0 : BitVec 1) ++ ty) 0 0
  | .vmmaz ty sat _ => .raw 0x24 ((0 : BitVec 2) ++ (1 : BitVec 1) ++ sat ++ (0 : BitVec 1) ++ ty) 0 0
  | .vouts _ => .raw 0x25 0x00 0 0
  | .tmset _ => .raw 0x26 0x00 0 2
  | .tmclr _ => .raw 0x26 0x01 0 2
  | .tmget _ => .raw 0x26 0x02 0 2
  | .latchMatch _ _ => .raw 0 0 0 0
  | .latchTokensTaken _ _ => .raw 0 0 0 0
  | .matrixOpComplete _ _ => .raw 0 0 0 0
  | .vaadd _ => .raw 0x28 0x00 1 0
  | .vaand _ => .raw 0x28 0x01 1 0
  | .vaor _ => .raw 0x28 0x02 1 0
  | .vaxor _ => .raw 0x28 0x03 1 0
  | .vamin _ => .raw 0x28 0x04 1 0
  | .vamax _ => .raw 0x28 0x05 1 0
  | .vaminn _ => .raw 0x28 0x06 1 0
  | .vamaxn _ => .raw 0x28 0x07 1 0
  | .vaxchg _ => .raw 0x28 0x08 1 0
  | .vacas _ => .raw 0x28 0x09 1 0
  | .vafadd _ => .raw 0x28 0x0A 1 0
  | .atomicPerform _ => .raw 0 0 0 0
  | .vradd _ => .raw 0x29 0x00 1 0
  | .vrand _ => .raw 0x29 0x01 1 0
  | .vror _ => .raw 0x29 0x02 1 0
  | .vrxor _ => .raw 0x29 0x03 1 0
  | .vrmin _ => .raw 0x29 0x04 1 0
  | .vrmax _ => .raw 0x29 0x05 1 0
  | .vrminn _ => .raw 0x29 0x06 1 0
  | .vrmaxn _ => .raw 0x29 0x07 1 0
  | .vrfadd _ => .raw 0x29 0x08 1 0
  | .vraddArv _ => .raw 0x29 0x20 1 0
  | .vrandArv _ => .raw 0x29 0x21 1 0
  | .vrorArv _ => .raw 0x29 0x22 1 0
  | .vrxorArv _ => .raw 0x29 0x23 1 0
  | .vrminArv _ => .raw 0x29 0x24 1 0
  | .vrmaxArv _ => .raw 0x29 0x25 1 0
  | .vrminnArv _ => .raw 0x29 0x26 1 0
  | .vrmaxnArv _ => .raw 0x29 0x27 1 0
  | .vrfaddArv _ => .raw 0x29 0x28 1 0
  | .txbegin _ => .vi 0x2A 0x00 .lane .z .z (.u 0) 0 2
  | .txend _ => .vi 0x2A 0x01 .none .m .z (.u 0) 1 2
  | .txabort _ => .vi 0x2A 0x02 .lane .z .z (.u 8) 0 2
  | .txstat _ => .vi 0x2A 0x03 .lane .v1 .z (.u 0) 0 2
  | .waitw _ => .raw 0x2B 0x00 0 0
  | .monitorWake _ => .raw 0 0 0 0
  | .barblk _ => .raw 0x2B 0x01 0 0
  | .bargng _ => .raw 0x2B 0x02 0 0
  | .barrierArrival _ => .raw 0 0 0 0
  | .harp _ => .raw 0x2C 0x00 2 0
  | .harpPassStart _ => .raw 0 0 0 0
  | .harpTilePurchase _ => .raw 0 0 0 0
  | .harpRowComplete _ _ => .raw 0 0 0 0
  | .harpPassComplete _ => .raw 0 0 0 0
  | .bra _ => .raw 0x30 0x00 0 0
  | .brau _ => .raw 0x30 0x01 0 0
  | .join _ => .raw 0x30 0x02 0 0
  | .brk _ => .raw 0x30 0x03 0 0
  | .cont _ => .raw 0x30 0x04 0 0
  | .call _ => .raw 0x30 0x05 0 0
  | .ret _ => .raw 0x30 0x06 0 0
  | .exit _ => .raw 0x30 0x07 0 0
  | .tmark _ => .vi 0x31 0x00 .none .z .z .any 0 2
  | .gfenceRel _ => .vi 0x31 0x00 .none .z .z .any 0 2
  | .gfenceAcq _ => .vi 0x31 0x00 .none .z .z .any 0 2
  | .gfenceAcqrel _ => .vi 0x31 0x00 .none .z .z .any 0 2
  | .trap _ => .vi 0x32 0x00 .lane .z .z (.u 16) 0 2
  | .yield _ => .vi 0x32 0x01 .none .z .z (.u 0) 0 2
  | .dbgbrk _ => .vi 0x32 0x02 .lane .z .z (.u 16) 0 2
  | .nop _ => .vi 0x32 0x03 .none .z .z (.u 0) 0 0
  | .vsr _ => .vi 0x33 0x00 .lane .any .z .special 0 2
  | .gsr _ => .vi 0x33 0x01 .grp .g .z .special 0 2
  | .gsw _ => .vi 0x33 0x02 .grp .z .g .special 0 2
  | .srseed _ => .vi 0x33 0x02 .grp .z .g .special 0 2
  | .affcnt _ => .vi 0x34 0x00 .grp .g .z (.u 2) 0 2
  | .affpop _ => .vi 0x34 0x01 .grp .any .z (.u 0) 0 0
  | .affpopPerform _ => .raw 0 0 0 0
  | .affwait _ => .vi 0x34 0x02 .grp .z .z (.u 0) 0 0
  | .tkpool _ => .vi 0x35 0x00 .grp .g .z (.u 0) 0 2
  | .tkstat _ => .vi 0x35 0x01 .grp .g .z (.u 0) 0 2
  | .ld8 _ => .raw 0x38 0x00 0 0
  | .ld16 _ => .raw 0x38 0x01 0 0
  | .ld32 _ => .raw 0x38 0x02 0 0
  | .ld64 _ => .raw 0x38 0x03 0 0
  | .ldx8 _ => .raw 0x38 0x04 0 0
  | .ldx16 _ => .raw 0x38 0x05 0 0
  | .ldx32 _ => .raw 0x38 0x06 0 0
  | .st8 _ => .raw 0x38 0x08 0 0
  | .st16 _ => .raw 0x38 0x09 0 0
  | .st32 _ => .raw 0x38 0x0A 0 0
  | .st64 _ => .raw 0x38 0x0B 0 0
  | .beq _ => .raw 0x38 0x10 0 0
  | .bne _ => .raw 0x38 0x11 0 0
  | .blt _ => .raw 0x38 0x12 0 0
  | .bltn _ => .raw 0x38 0x13 0 0
  | .bge _ => .raw 0x38 0x14 0 0
  | .bgen _ => .raw 0x38 0x15 0 0
  | .jal _ => .raw 0x38 0x16 0 0
  | .jalr _ => .raw 0x38 0x17 0 0
  | .fence _ => .raw 0x38 0x18 0 0
  | .csrr _ => .raw 0x38 0x19 0 0
  | .csrw _ => .raw 0x38 0x1A 0 0
  | .strEnd _ => .raw 0x38 0x1A 0 0
  | .emit _ => .raw 0x39 0x00 0 0
  | .emitm _ => .raw 0x39 0x01 0 0
  | .patch _ => .raw 0x39 0x02 0 0
  | .segopen _ => .raw 0x3A 0x00 0 0
  | .segstrm _ => .raw 0x3A 0x01 0 0
  | .seal _ => .raw 0x3A 0x02 0 0
  | .segfree _ => .raw 0x3A 0x03 0 0
  | .ccfind _ => .raw 0x3A 0x04 0 0
  | .ccput _ => .raw 0x3A 0x05 0 0
  | .launch _ => .raw 0x3B 0x00 0 0
  | .greplay _ => .raw 0x3B 0x01 0 0
  | .release _ => .raw 0x3B 0x02 0 0
  | .emitDeadlock _ _ => .raw 0 0 0 0
  | .strLport _ _ => .raw 0 0 0 0
  | .launchAccept _ => .raw 0 0 0 0
  | .blockPull _ => .raw 0 0 0 0
  | .eviction _ _ => .raw 0 0 0 0
  | .launchComplete _ => .raw 0 0 0 0
  | .taskCommit _ => .raw 0 0 0 0
  | .groupTrap _ => .raw 0 0 0 0
  | .gangKill _ => .raw 0 0 0 0
  | .fatalError _ => .raw 0 0 0 0
  | .tokenReturn _ _ => .raw 0 0 0 0
  | .stationVisit _ => .raw 0 0 0 0
  | .reservation _ _ _ => .raw 0 0 0 0
  | .reservationComplete _ => .raw 0 0 0 0
  | .poolChange _ => .raw 0 0 0 0
  | .marketClearing _ => .raw 0 0 0 0
  | .blockMigration _ => .raw 0 0 0 0
  | .regulatorPhaseLoss _ _ => .raw 0 0 0 0
  | .droopStart _ => .raw 0 0 0 0
  | .droopEnd _ _ => .raw 0 0 0 0
  | .linkFlitRetry _ => .raw 0 0 0 0
  | .linkPortDown _ => .raw 0 0 0 0
  | .heatDecay _ => .raw 0 0 0 0
  | .scrubSweep _ _ => .raw 0 0 0 0
  | .forcedCut _ _ => .raw 0 0 0 0
  | .samplingTimeout _ _ => .raw 0 0 0 0
  | .affinageSearch _ _ => .raw 0 0 0 0
  | .shadowRun _ => .raw 0 0 0 0
  | .auditRun _ => .raw 0 0 0 0
  | .auditOverdue _ => .raw 0 0 0 0
  | .powerOnReset _ => .raw 0 0 0 0
  | .xltReplayRetry _ _ => .raw 0 0 0 0
  | .xltReplayFail _ _ => .raw 0 0 0 0
  | .preqSet _ => .raw 0 0 0 0
  | .preqClear _ => .raw 0 0 0 0
  | .tskCtlForce _ => .raw 0 0 0 0
  | .tskWheyGo _ => .raw 0 0 0 0
  | .tskWheyFail _ => .raw 0 0 0 0
  | .tskResumeResume _ _ => .raw 0 0 0 0
  | .tskResumeEndGroup _ _ => .raw 0 0 0 0
  | .tskResumeEndLaunch _ _ => .raw 0 0 0 0
  | .rindTakeContinue _ => .raw 0 0 0 0
  | .rindTakeStay _ => .raw 0 0 0 0
  | .rindRestore _ => .raw 0 0 0 0
  | .strFctlAbort _ _ => .raw 0 0 0 0
  | .strFctlResume _ _ => .raw 0 0 0 0
  | .hdInv _ => .raw 0 0 0 0
  | .hdAttest _ => .raw 0 0 0 0
  | .vltCfg _ _ => .raw 0 0 0 0
  | .affCfg _ _ => .raw 0 0 0 0
  | .mktIlim _ _ => .raw 0 0 0 0
  | .mktCfg _ => .raw 0 0 0 0
  | .errataMask _ _ => .raw 0 0 0 0
  | .registerWrite _ _ _ => .raw 0 0 0 0
  | .generatorFault _ _ => .raw 0 0 0 0
  | .hostMemoryAccess _ => .raw 0 0 0 0
  | .remotePackageAccess _ => .raw 0 0 0 0
  | .remoteAcknowledgement _ => .raw 0 0 0 0

def Instr.body : Instr → Body
  | .clauseHeader f => .hdr f
  | .vadd f => .v3 f
  | .vsub f => .v3 f
  | .vmin f => .v3 f
  | .vmax f => .v3 f
  | .vabs f => .v3 f
  | .vneg f => .v3 f
  | .vabsd f => .v3 f
  | .vavg f => .v3 f
  | .vand f => .v3 f
  | .vor f => .v3 f
  | .vxor f => .v3 f
  | .vandn f => .v3 f
  | .vnot f => .v3 f
  | .vshl f => .v3 f
  | .vshr f => .v3 f
  | .vsra f => .v3 f
  | .vrol f => .v3 f
  | .vbext f => .v3 f
  | .vbins f => .v3 f
  | .vpopc f => .v3 f
  | .vclz f => .v3 f
  | .vbrev f => .v3 f
  | .vperm f => .v3 f
  | .vceq f => .v3 f
  | .vcne f => .v3 f
  | .vclt f => .v3 f
  | .vcle f => .v3 f
  | .vcgt f => .v3 f
  | .vcge f => .v3 f
  | .vtest f => .v3 f
  | .vmul f => .v3 f
  | .vmulhi f => .v3 f
  | .vmad f => .v3 f
  | .vmadhi f => .v3 f
  | .vmulw f => .v3 f
  | .vmadw f => .v3 f
  | .vdiv f => .v3 f
  | .vrem f => .v3 f
  | .vdot4 f => .v3 f
  | .vaddi f => .vi f
  | .vandi f => .vi f
  | .vori f => .vi f
  | .vxori f => .vi f
  | .vshli f => .vi f
  | .vshri f => .vi f
  | .vsrai f => .vi f
  | .vminiI32 f => .vi f
  | .vmaxiI32 f => .vi f
  | .vminiN32 f => .vi f
  | .vmaxiN32 f => .vi f
  | .vmuli f => .vi f
  | .vmovi f => .vi f
  | .vceqi f => .vi f
  | .vcltiI32 f => .vi f
  | .vcltiN32 f => .vi f
  | .vcgtiI32 f => .vi f
  | .vcgtiN32 f => .vi f
  | .vfadd f => .v3 f
  | .vfsub f => .v3 f
  | .vfmul f => .v3 f
  | .vfma f => .v3 f
  | .vfmin f => .v3 f
  | .vfmax f => .v3 f
  | .vfabs f => .v3 f
  | .vfneg f => .v3 f
  | .vfrnd f => .v3 f
  | .vfceq f => .v3 f
  | .vfcne f => .v3 f
  | .vfclt f => .v3 f
  | .vfcle f => .v3 f
  | .vfcgt f => .v3 f
  | .vfcge f => .v3 f
  | .vfcun f => .v3 f
  | .vfclass f => .v3 f
  | .vcvt _ f => .v3 f
  | .vpack2 f => .v3 f
  | .vpack4 f => .v3 f
  | .vpack8 f => .v3 f
  | .vunpk f => .v3 f
  | .vmxscale f => .v3 f
  | .vrcp f => .v3 f
  | .vrsq f => .v3 f
  | .vsqrt f => .v3 f
  | .vexp2 f => .v3 f
  | .vlog2 f => .v3 f
  | .vsin f => .v3 f
  | .vcos f => .v3 f
  | .vtanh f => .v3 f
  | .vsigm f => .v3 f
  | .vfdiv f => .v3 f
  | .vfaddi f => .vi f
  | .vfmuli f => .vi f
  | .vfmini f => .vi f
  | .vfmaxi f => .vi f
  | .vfmovi f => .vi f
  | .vqxh f => .v3 f
  | .vqxv f => .v3 f
  | .vqxd f => .v3 f
  | .vqbc f => .v3 f
  | .vshfl f => .v3 f
  | .vshup f => .v3 f
  | .vshdn f => .v3 f
  | .vshxor f => .v3 f
  | .vbcast f => .v3 f
  | .vsel f => .v3 f
  | .mand f => .v3 f
  | .mor f => .v3 f
  | .mxor f => .v3 f
  | .mandn f => .v3 f
  | .mnot f => .v3 f
  | .mmov f => .v3 f
  | .mfromv f => .v3 f
  | .mtov f => .v3 f
  | .mfromg f => .v3 f
  | .mtog f => .v3 f
  | .mpopc f => .v3 f
  | .mffs f => .v3 f
  | .gadd f => .v3 f
  | .gsub f => .v3 f
  | .gand f => .v3 f
  | .gor f => .v3 f
  | .gxor f => .v3 f
  | .gshl f => .v3 f
  | .gshr f => .v3 f
  | .gsra f => .v3 f
  | .gmin f => .v3 f
  | .gmax f => .v3 f
  | .gminn f => .v3 f
  | .gmaxn f => .v3 f
  | .gmov f => .v3 f
  | .gsel f => .v3 f
  | .gmul f => .v3 f
  | .gmulhi f => .v3 f
  | .gdiv f => .v3 f
  | .gdivn f => .v3 f
  | .grem f => .v3 f
  | .gremn f => .v3 f
  | .gaddi f => .vi f
  | .gandi f => .vi f
  | .gori f => .vi f
  | .gxori f => .vi f
  | .gshli f => .vi f
  | .gshri f => .vi f
  | .gsrai f => .vi f
  | .gmini f => .vi f
  | .gmaxi f => .vi f
  | .gmovi f => .vi f
  | .gmovhi f => .vi f
  | .gmuli f => .vi f
  | .starterGroupOp _ _ f => .s f
  | .gceq f => .v3 f
  | .gcne f => .v3 f
  | .gclt f => .v3 f
  | .gcle f => .v3 f
  | .gcltn f => .v3 f
  | .gclen f => .v3 f
  | .gpand f => .v3 f
  | .gpor f => .v3 f
  | .gpxor f => .v3 f
  | .gpnot f => .v3 f
  | .gpany f => .v3 f
  | .gpall f => .v3 f
  | .vtog f => .v3 f
  | .gtov f => .v3 f
  | .vredadd f => .v3 f
  | .vredmin f => .v3 f
  | .vredmax f => .v3 f
  | .vredand f => .v3 f
  | .vredor f => .v3 f
  | .vredxor f => .v3 f
  | .vscanadd f => .v3 f
  | .vfredadd f => .v3 f
  | .vfredmin f => .v3 f
  | .vfredmax f => .v3 f
  | .vld f => .m f
  | .vldx f => .m f
  | .vst f => .m f
  | .vsld f => .m f
  | .vsldx f => .m f
  | .vsst f => .m f
  | .vvld f => .m f
  | .vvldx f => .m f
  | .vvst f => .m f
  | .gld f => .m f
  | .gst f => .m f
  | .gsld f => .m f
  | .gsst f => .m f
  | .gvld f => .m f
  | .gvst f => .m f
  | .xlat f => .m f
  | .xrel f => .m f
  | .xget f => .m f
  | .tlbinv f => .m f
  | .tlbInvalidationComplete _ _ => .ev
  | .vpf f => .m f
  | .gpf f => .m f
  | .l1inv f => .m f
  | .loadReturn _ _ _ => .ev
  | .storePerform _ _ _ => .ev
  | .faultQueuePost _ => .ev
  | .cpy f => .x f
  | .cpy2d f => .x f
  | .cpyfill f => .x f
  | .cpyadd f => .x f
  | .cpyxor f => .x f
  | .copyStart _ _ => .ev
  | .copyPieceArrival _ _ _ => .ev
  | .copyComplete _ _ => .ev
  | .bfence f => .vi f
  | .bwait f => .vi f
  | .bget f => .vi f
  | .bcinit f => .x f
  | .bcexpect f => .x f
  | .bcarrive f => .x f
  | .bcwait f => .x f
  | .bctest f => .x f
  | .bcEffect _ => .ev
  | .vmma _ _ f => .x f
  | .vmmaz _ _ f => .x f
  | .vouts f => .x f
  | .tmset f => .x f
  | .tmclr f => .x f
  | .tmget f => .x f
  | .latchMatch _ _ => .ev
  | .latchTokensTaken _ _ => .ev
  | .matrixOpComplete _ _ => .ev
  | .vaadd f => .x f
  | .vaand f => .x f
  | .vaor f => .x f
  | .vaxor f => .x f
  | .vamin f => .x f
  | .vamax f => .x f
  | .vaminn f => .x f
  | .vamaxn f => .x f
  | .vaxchg f => .x f
  | .vacas f => .x f
  | .vafadd f => .x f
  | .atomicPerform _ => .ev
  | .vradd f => .x f
  | .vrand f => .x f
  | .vror f => .x f
  | .vrxor f => .x f
  | .vrmin f => .x f
  | .vrmax f => .x f
  | .vrminn f => .x f
  | .vrmaxn f => .x f
  | .vrfadd f => .x f
  | .vraddArv f => .x f
  | .vrandArv f => .x f
  | .vrorArv f => .x f
  | .vrxorArv f => .x f
  | .vrminArv f => .x f
  | .vrmaxArv f => .x f
  | .vrminnArv f => .x f
  | .vrmaxnArv f => .x f
  | .vrfaddArv f => .x f
  | .txbegin f => .vi f
  | .txend f => .vi f
  | .txabort f => .vi f
  | .txstat f => .vi f
  | .waitw f => .x f
  | .monitorWake _ => .ev
  | .barblk f => .x f
  | .bargng f => .x f
  | .barrierArrival _ => .ev
  | .harp f => .x f
  | .harpPassStart _ => .ev
  | .harpTilePurchase _ => .ev
  | .harpRowComplete _ _ => .ev
  | .harpPassComplete _ => .ev
  | .bra f => .b f
  | .brau f => .b f
  | .join f => .b f
  | .brk f => .b f
  | .cont f => .b f
  | .call f => .b f
  | .ret f => .b f
  | .exit f => .b f
  | .tmark f => .vi f
  | .gfenceRel f => .vi f
  | .gfenceAcq f => .vi f
  | .gfenceAcqrel f => .vi f
  | .trap f => .vi f
  | .yield f => .vi f
  | .dbgbrk f => .vi f
  | .nop (.clause f) => .vi f
  | .nop (.starter f) => .s f
  | .vsr f => .vi f
  | .gsr f => .vi f
  | .gsw f => .vi f
  | .srseed f => .vi f
  | .affcnt f => .vi f
  | .affpop f => .vi f
  | .affpopPerform _ => .ev
  | .affwait f => .vi f
  | .tkpool f => .vi f
  | .tkstat f => .vi f
  | .ld8 f => .s f
  | .ld16 f => .s f
  | .ld32 f => .s f
  | .ld64 f => .s f
  | .ldx8 f => .s f
  | .ldx16 f => .s f
  | .ldx32 f => .s f
  | .st8 f => .s f
  | .st16 f => .s f
  | .st32 f => .s f
  | .st64 f => .s f
  | .beq f => .s f
  | .bne f => .s f
  | .blt f => .s f
  | .bltn f => .s f
  | .bge f => .s f
  | .bgen f => .s f
  | .jal f => .s f
  | .jalr f => .s f
  | .fence f => .s f
  | .csrr f => .s f
  | .csrw f => .s f
  | .strEnd f => .s f
  | .emit f => .s f
  | .emitm f => .s f
  | .patch f => .s f
  | .segopen f => .s f
  | .segstrm f => .s f
  | .seal f => .s f
  | .segfree f => .s f
  | .ccfind f => .s f
  | .ccput f => .s f
  | .launch f => .s f
  | .greplay f => .s f
  | .release f => .s f
  | .emitDeadlock _ _ => .ev
  | .strLport _ _ => .ev
  | .launchAccept _ => .ev
  | .blockPull _ => .ev
  | .eviction _ _ => .ev
  | .launchComplete _ => .ev
  | .taskCommit _ => .ev
  | .groupTrap _ => .ev
  | .gangKill _ => .ev
  | .fatalError _ => .ev
  | .tokenReturn _ _ => .ev
  | .stationVisit _ => .ev
  | .reservation _ _ _ => .ev
  | .reservationComplete _ => .ev
  | .poolChange _ => .ev
  | .marketClearing _ => .ev
  | .blockMigration _ => .ev
  | .regulatorPhaseLoss _ _ => .ev
  | .droopStart _ => .ev
  | .droopEnd _ _ => .ev
  | .linkFlitRetry _ => .ev
  | .linkPortDown _ => .ev
  | .heatDecay _ => .ev
  | .scrubSweep _ _ => .ev
  | .forcedCut _ _ => .ev
  | .samplingTimeout _ _ => .ev
  | .affinageSearch _ _ => .ev
  | .shadowRun _ => .ev
  | .auditRun _ => .ev
  | .auditOverdue _ => .ev
  | .powerOnReset _ => .ev
  | .xltReplayRetry _ _ => .ev
  | .xltReplayFail _ _ => .ev
  | .preqSet _ => .ev
  | .preqClear _ => .ev
  | .tskCtlForce _ => .ev
  | .tskWheyGo _ => .ev
  | .tskWheyFail _ => .ev
  | .tskResumeResume _ _ => .ev
  | .tskResumeEndGroup _ _ => .ev
  | .tskResumeEndLaunch _ _ => .ev
  | .rindTakeContinue _ => .ev
  | .rindTakeStay _ => .ev
  | .rindRestore _ => .ev
  | .strFctlAbort _ _ => .ev
  | .strFctlResume _ _ => .ev
  | .hdInv _ => .ev
  | .hdAttest _ => .ev
  | .vltCfg _ _ => .ev
  | .affCfg _ _ => .ev
  | .mktIlim _ _ => .ev
  | .mktCfg _ => .ev
  | .errataMask _ _ => .ev
  | .registerWrite _ _ _ => .ev
  | .generatorFault _ _ => .ev
  | .hostMemoryAccess _ => .ev
  | .remotePackageAccess _ => .ev
  | .remoteAcknowledgement _ => .ev

/-! ## Rejections (R56, R57) -/

/-- Why 64 bits are no instruction at their position. -/
inductive Reject where
  | illegalZero | illegalOpcode | reservedField
  deriving DecidableEq, Repr

def is64 (ty : BitVec 5) : Bool := ty == 3 || ty == 7
/-- The types to which a figure in brackets applies (R45): 64-bit integers, `f16` and `bf16`. -/
def bracket (ty : BitVec 5) : Bool := is64 ty || ty == 8 || ty == 9

/-- Whether a special-register number names a register (R28). -/
def specialOk (n : BitVec 12) : Bool := n.toNat ≤ 0x11
def specialRW (n : BitVec 12) : Bool := n == 0x00C || n == 0x00D || n == 0x011
/-- The special registers of 64 bits (R28). -/
def special64 (n : BitVec 12) : Bool := n == 6 || n == 7 || n == 0x00D || n == 0x00F || n == 0x010
/-- Whether a number names a register of a Starter context (R283). -/
def csrOk (n : BitVec 12) : Bool :=
  n.toNat ≤ 0x0E || (0x20 ≤ n.toNat && n.toNat ≤ 0x27) || (0x40 ≤ n.toNat && n.toNat ≤ 0x7F)

def immNum (imm : BitVec 32) : BitVec 12 := imm.extractLsb' 0 12
/-- Whether every bit of imm32 above the low `n` is zero. -/
def immBelow (imm : BitVec 32) (n : Nat) : Bool := imm.toNat < 2 ^ n

/-- Whether `vcvt` has the pair source, destination (R150). -/
def cvtPair (src dst : Nat) : Bool :=
  let int (t : Nat) := decide (t ≤ 7)
  let fl (t : Nat) := decide (8 ≤ t ∧ t ≤ 10)
  let narrow (t : Nat) := decide (11 ≤ t ∧ t ≤ 13)
  (int src && int dst && src != dst) || (int src && fl dst) || (fl src && int dst) ||
    (fl src && fl dst && src != dst) || (fl src && narrow dst) ||
    ((narrow src || src == 14) && fl dst) || (src == 15 && dst == 10)

/-- Whether the pair accepts the saturate bit (R150). -/
def cvtSat (src dst : Nat) : Bool :=
  if src ≤ 7 then dst ≤ 9 else src ≤ 10 && (dst == 8 || dst == 9 || dst == 11 || dst == 12)

/-- Scope, size and space of an atomic or reduction (R44). -/
def X.scope (f : X) : Nat := (f.f5.extractLsb' 5 3).toNat
def X.asize (f : X) : Nat := (f.f5.extractLsb' 2 3).toNat
def X.space (f : X) : Nat := (f.f5.extractLsb' 0 2).toNat

/-- Input type index of a matrix word is an integer type (R184). -/
def mxInt (ty : BitVec 3) : Bool := ty == 4 || ty == 5
def mxScaled (ty : BitVec 3) : Bool := ty == 6 || ty == 7

/-- Bits of a special-register or control-register word that make it illegal, not reserved (R51, R283). -/
def Instr.illegal (i : Instr) : Bool :=
  match i with
  | .vcvt src f => f.ty.toNat < 16 && !cvtPair src.toNat f.ty.toNat
  | .vmma ty sat _ => sat == 1 && !mxInt ty
  | .vmmaz ty sat _ => sat == 1 && !mxInt ty
  | .vldx f => f.size == 3 || f.size == 4
  | .vsldx f => f.size == 3 || f.size == 4
  | .vvldx f => f.size == 3 || f.size == 4
  | .vafadd f => f.asize == 3
  | .vrfadd f => f.asize == 3
  | .vrfaddArv f => f.asize == 3
  | .gsr f => immNum f.imm == 0
  | .gsw f => (specialOk (immNum f.imm) && !specialRW (immNum f.imm)) || immNum f.imm == 0x00D
  | .srseed f => immNum f.imm != 0x00D
  | .strEnd f => immNum f.imm != 0x00D
  | .csrw f => csrOk (immNum f.imm) && immNum f.imm != 0x00E
  | .starterGroupOp imm fn _ => if imm == 0 then 0x13 < fn.toNat else 0x0B < fn.toNat
  | i =>
    match i.body with
    | .v3 f => i.sig.types != 0 && f.ty.toNat < 16 && !i.sig.types.getLsbD f.ty.toNat
    | _ => false

/-- Whether an operand field breaks its kind (R27, R38, R42, R48). -/
def Opd.bad (o : Opd) (ty : BitVec 5) (x : BitVec 8) : Bool :=
  match o with
  | .z => x != 0
  | .v => is64 ty && x.toNat % 2 != 0
  | .v1 => false
  | .v2 => x.toNat % 2 != 0
  | .v4 => x.toNat % 4 != 0
  | .v8 => x.toNat % 8 != 0
  | .m => 16 ≤ x.toNat
  | .g => 64 ≤ x.toNat
  | .p => 8 ≤ x.toNat
  | .lit n => n < x.toNat
  | .any => false

def Rnd.bad (r : Rnd) (x : BitVec 3) : Bool :=
  match r with
  | .zero => x != 0
  | .upto4 => 4 < x.toNat
  | .upto5 => 5 < x.toNat

def Imm.bad (r : Imm) (x : BitVec 32) : Bool :=
  match r with
  | .any => false
  | .u n => !immBelow x n
  | .special => !immBelow x 12 || !specialOk (immNum x)

/-- V3 words: R38, R39, R40, R42. -/
def V3.reserved (s : Sig) (f : V3) : Bool :=
  s.d.bad f.ty f.d || s.a.bad f.ty f.a || s.b.bad f.ty f.b || s.c.bad f.ty f.c || s.rm.bad f.rm ||
    (!s.sat && f.sat != 0) || (s.types == 0 && f.ty != 0) || 16 ≤ f.ty.toNat ||
    (match s.pred with
      | .lane => false
      | .grp => f.mask.getLsbD 3
      | .none => f.mask != 0 || f.neg != 0)

def VI.reserved (s : Sig) (f : VI) : Bool :=
  s.d.bad 0 f.d || s.a.bad 0 f.a || s.imm.bad f.imm || (s.pred == .none && f.mask != 0)

def g8 (x : BitVec 8) : Bool := 64 ≤ x.toNat
def s6 (x : BitVec 6) : Bool := 32 ≤ x.toNat
/-- Registers that a lane access of a size code moves (R105). -/
def sizeRegs (size : Nat) : Nat := if size = 3 then 2 else if size = 4 then 4 else 1

/-- Lane loads and stores (R41, R49, R102): `local_` for scratch and vault. -/
def M.reservedLane (local_ : Bool) (f : M) : Bool :=
  4 < f.size.toNat || f.data.toNat % sizeRegs f.size.toNat != 0 || (local_ && (f.x != 0 || f.hint != 0))
/-- Group-wide loads and stores (R108). -/
def M.reservedGrp (hintOk : Bool) (f : M) : Bool :=
  3 < f.size.toNat || g8 f.data || g8 f.lane || f.x != 0 || (!hintOk && f.hint != 0)

/-- Copies (R115): the fields of `cpy2d`, `cpyfill` and the adding copies differ in ETY, SSP and F5. -/
def X.reservedCopy (fn : Nat) (f : X) : Bool :=
  let n := f.imm.toNat
  let dsp := n % 4
  let ssp := n / 4 % 4
  let ety := n / 16 % 8
  let arv := n / 512 % 2
  let bsp := n / 1024 % 2
  g8 f.f1 || g8 f.f2 || g8 f.f3 || g8 f.f5 || f.tm != 0 || 2048 ≤ n || dsp == 3 || ssp == 3 ||
    (if fn = 2 then 3 < ety || ssp != 0 else if fn = 3 then 4 < ety else ety != 0) ||
    (bsp == 1 && arv == 0) ||
    (if fn = 1 then f.f5 == 0 || f.f5.toNat % 2 != 0 else arv == 0 && f.f5 != 0)

/-- Byte-count barriers (R128). -/
def X.reservedBar (res cnt : Bool) (f : X) : Bool :=
  (if res then g8 f.f1 else f.f1 != 0) || g8 f.f2 || (if cnt then g8 f.f3 else f.f3 != 0) || f.tm != 0 ||
    f.f5 != 0 || (if res then 4 ≤ f.imm.toNat else 2 ≤ f.imm.toNat)

def overlaps (a n b k : Nat) : Bool := decide (a < b + k ∧ b < a + n)
/-- Registers of A and of B for an input type index (R184). -/
def mxA (ty : BitVec 3) : Nat := if ty = 7 then 16 else 8
def mxB (ty : BitVec 3) : Nat := if ty = 7 then 32 else 16

/-- Matrix words (R185). -/
def X.reservedMx (ty : BitVec 3) (f : X) : Bool :=
  let c := f.f1.toNat
  let a := f.f2.toNat
  let b := f.f3.toNat
  let s := f.f5.toNat
  c % 8 != 0 || a % 8 != 0 || b % 8 != 0 || f.imm != 0 ||
    (if mxScaled ty then s % 2 != 0 || overlaps c 16 s 2 else s != 0) ||
    overlaps c 16 a (mxA ty) || overlaps c 16 b (mxB ty)

/-- Atomics and reductions (R44, R219, R223): `f3` says what F3 names. -/
def X.reservedAtom (f3 : Opd) (f : X) : Bool :=
  5 < f.scope || (f.asize != 2 && f.asize != 3) || f.space == 3 || f.tm.getLsbD 3 ||
    (f.space != 0 && f.tm != 0) || (f.asize == 3 && f.f1.toNat % 2 != 0) ||
    (match f3 with
      | .v => f.asize == 3 && f.f3.toNat % 2 != 0
      | .g => g8 f.f3
      | _ => f.f3 != 0)

/-- Control words (R267): which condition fields are used, the lowest token, whether a displacement is. -/
def B.reserved (lane gp : Bool) (lo hi : Nat) (disp : Bool) (f : B) : Bool :=
  (!lane && (f.mask != 0 || f.neg != 0)) || (!gp && (f.gp != 0 || f.ngp != 0)) ||
    f.tok.toNat < lo || hi < f.tok.toNat || (!disp && f.disp != 0)

/-- S words (R54, R282, R285): which of d, a and b are used, and the imm32 the row allows. -/
def S.reserved (d a b : Bool) (imm : Bool) (f : S) : Bool :=
  (if d then s6 f.d else f.d != 0) || (if a then s6 f.a else f.a != 0) ||
    (if b then s6 f.b else f.b != 0) || imm

/-- Function numbers of 0x12 and 0x13 and the fields they read (R172, R173). -/
def S.reservedGroup (imm : BitVec 1) (fn : BitVec 8) (f : S) : Bool :=
  if imm = 0 then f.reserved true true (fn != 0x0C) (f.imm != 0)
  else f.reserved true (fn != 0x09 && fn != 0x0A) false
    (decide (4 ≤ fn.toNat ∧ fn.toNat ≤ 6) && !immBelow f.imm 6)

/-- `tmark` and `gfence` (R249): KIND is the constructor, SCOPE the low three bits. -/
def VI.reservedFence (kind : Nat) (f : VI) : Bool :=
  f.d != 0 || f.a != 0 || f.mask != 0 || f.imm.toNat / 8 != kind || 5 < f.imm.toNat % 8 ||
    (kind == 0 && f.imm.toNat % 8 != 0)

/-- Whether a field of the word is reserved, unused and non-zero, or out of its range (R38 to R44). -/
def Instr.reserved (i : Instr) : Bool :=
  match i with
  | .vcvt src f =>
    let s64 := src == 3 || src == 7
    16 ≤ f.ty.toNat || f.b != 0 || f.c != 0 || 5 < f.rm.toNat || (s64 && f.a.toNat % 2 != 0) ||
      (is64 f.ty && f.d.toNat % 2 != 0) || (f.sat != 0 && !cvtSat src.toNat f.ty.toNat)
  | .vpack4 f =>
    f.reserved i.sig || ((f.ty == 0 || f.ty == 4) && f.rm != 0) || (f.ty == 14 && f.sat != 0)
  | .vunpk f =>
    f.reserved i.sig ||
      (if f.ty == 8 || f.ty == 9 then 1 < f.c.toNat else if f.ty == 13 then 7 < f.c.toNat else 3 < f.c.toNat)
  | .vld f => f.reservedLane false
  | .vldx f => f.reservedLane false
  | .vst f => f.reservedLane false
  | .vsld f => f.reservedLane true
  | .vsldx f => f.reservedLane true
  | .vsst f => f.reservedLane true
  | .vvld f => f.reservedLane true
  | .vvldx f => f.reservedLane true
  | .vvst f => f.reservedLane true
  | .gld f => f.reservedGrp true
  | .gst f => f.reservedGrp true
  | .gsld f => f.reservedGrp false
  | .gsst f => f.reservedGrp false
  | .gvld f => f.reservedGrp false
  | .gvst f => f.reservedGrp false
  | .xlat f => f.data != 0 || g8 f.lane || f.mask != 0 || f.size != 0 || f.hint != 0
  | .xrel f => f.data != 0 || f.lane != 0 || f.mask != 0 || f.size != 0 || f.hint != 0 || f.off != 0
  | .xget f => g8 f.data || f.lane != 0 || f.mask != 0 || 3 < f.size.toNat || f.hint != 0 || f.off != 0
  | .tlbinv f =>
    g8 f.data || g8 f.lane || f.x != 0 || f.mask != 0 || f.size != 0 || f.hint != 0 || f.off != 0
  | .vpf f => f.data != 0 || 4 < f.size.toNat
  | .gpf f => f.data != 0 || g8 f.lane || f.x != 0 || f.mask != 0 || f.size != 0
  | .l1inv f =>
    f.data != 0 || f.lane != 0 || f.x != 0 || f.mask != 0 || f.size != 0 || f.hint != 0 || f.off != 0
  | .cpy f => f.reservedCopy 0
  | .cpy2d f => f.reservedCopy 1
  | .cpyfill f => f.reservedCopy 2
  | .cpyadd f => f.reservedCopy 3
  | .cpyxor f => f.reservedCopy 4
  | .bfence f => g8 f.d || f.a != 0 || f.mask != 0 || 3 ≤ f.imm.toNat
  | .bwait f =>
    f.d != 0 || g8 f.a || f.mask != 0 || f.imm.toNat % 4 == 3 ||
      (if f.a = 0 then !immBelow f.imm 10 else !immBelow f.imm 2)
  | .bget f => g8 f.d || f.a != 0 || f.mask != 0 || f.imm.toNat % 4 == 3 || !immBelow f.imm 3
  | .bcinit f => f.reservedBar false false
  | .bcexpect f => f.reservedBar false true
  | .bcarrive f => f.reservedBar false true
  | .bcwait f => f.reservedBar false true
  | .bctest f => f.reservedBar true false
  | .vmma ty _ f => f.reservedMx ty
  | .vmmaz ty _ f => f.reservedMx ty
  | .vouts f => g8 f.f2 || f.f3 != 0 || f.f5 != 0 || f.imm != 0
  | .tmset f => f.f1 != 0 || g8 f.f2 || f.f3 != 0 || f.f5 != 0 || f.imm != 0
  | .tmclr f => f.f1 != 0 || f.f2 != 0 || f.f3 != 0 || f.f5 != 0 || f.imm != 0
  | .tmget f => g8 f.f1 || f.f2 != 0 || f.f3 != 0 || f.f5 != 0 || f.imm != 0
  | .vacas f => f.reservedAtom .v
  | .vaadd f => f.reservedAtom .z
  | .vaand f => f.reservedAtom .z
  | .vaor f => f.reservedAtom .z
  | .vaxor f => f.reservedAtom .z
  | .vamin f => f.reservedAtom .z
  | .vamax f => f.reservedAtom .z
  | .vaminn f => f.reservedAtom .z
  | .vamaxn f => f.reservedAtom .z
  | .vaxchg f => f.reservedAtom .z
  | .vafadd f => f.reservedAtom .z
  | .vradd f => f.reservedAtom .z
  | .vrand f => f.reservedAtom .z
  | .vror f => f.reservedAtom .z
  | .vrxor f => f.reservedAtom .z
  | .vrmin f => f.reservedAtom .z
  | .vrmax f => f.reservedAtom .z
  | .vrminn f => f.reservedAtom .z
  | .vrmaxn f => f.reservedAtom .z
  | .vrfadd f => f.reservedAtom .z
  | .vraddArv f => f.reservedAtom .g
  | .vrandArv f => f.reservedAtom .g
  | .vrorArv f => f.reservedAtom .g
  | .vrxorArv f => f.reservedAtom .g
  | .vrminArv f => f.reservedAtom .g
  | .vrmaxArv f => f.reservedAtom .g
  | .vrminnArv f => f.reservedAtom .g
  | .vrmaxnArv f => f.reservedAtom .g
  | .vrfaddArv f => f.reservedAtom .g
  | .waitw f =>
    f.f1 != 0 || g8 f.f2 || g8 f.f3 || f.tm != 0 || f.f5 != 0 || (f.imm != 2 && f.imm != 3)
  | .barblk f => f.f1 != 0 || f.f2 != 0 || f.f3 != 0 || f.tm != 0 || f.f5 != 0 || 16 ≤ f.imm.toNat
  | .bargng f => f.f1 != 0 || f.f2 != 0 || f.f3 != 0 || f.tm != 0 || f.f5 != 0 || 16 ≤ f.imm.toNat
  | .harp f => g8 f.f1 || g8 f.f2 || g8 f.f3 || f.tm != 0 || f.f5 != 0 || f.imm != 0
  | .bra f => f.reserved true true 1 2047 true
  | .brau f => f.reserved false true 0 2047 true
  | .join f => f.reserved false false 1 2047 false
  | .brk f => f.reserved true true 1 2047 true
  | .cont f => f.reserved true true 1 2047 true
  | .call f => f.reserved false true 1 2047 true
  | .ret f => f.reserved true true 1 2047 false
  | .exit f => f.reserved true true 0 0 false
  | .tmark f => f.reservedFence 0
  | .gfenceRel f => f.reservedFence 1
  | .gfenceAcq f => f.reservedFence 2
  | .gfenceAcqrel f => f.reservedFence 3
  | .nop (.clause f) => f.d != 0 || f.a != 0 || f.mask != 0 || f.imm != 0
  | .nop (.starter f) => f.d != 0 || f.a != 0 || f.b != 0 || f.imm != 0
  | .vsr f =>
    f.a != 0 || !immBelow f.imm 12 || !specialOk (immNum f.imm) ||
      (special64 (immNum f.imm) && f.d.toNat % 2 != 0)
  | .affpop f => f.reserved i.sig || (f.d != 16 && f.d != 32 && f.d != 48)
  | .ld8 f => f.reserved true true false false
  | .ld16 f => f.reserved true true false false
  | .ld32 f => f.reserved true true false false
  | .ld64 f => f.reserved true true false false
  | .ldx8 f => f.reserved true true false false
  | .ldx16 f => f.reserved true true false false
  | .ldx32 f => f.reserved true true false false
  | .st8 f => f.reserved false true true false
  | .st16 f => f.reserved false true true false
  | .st32 f => f.reserved false true true false
  | .st64 f => f.reserved false true true false
  | .beq f => f.reserved false true true false
  | .bne f => f.reserved false true true false
  | .blt f => f.reserved false true true false
  | .bltn f => f.reserved false true true false
  | .bge f => f.reserved false true true false
  | .bgen f => f.reserved false true true false
  | .jal f => f.reserved true false false false
  | .jalr f => f.reserved true true false false
  | .fence f => f.reserved false false false (f.imm != 0)
  | .csrr f => f.reserved true false false (!immBelow f.imm 12 || !csrOk (immNum f.imm))
  | .csrw f => f.reserved false true false (!immBelow f.imm 12 || !csrOk (immNum f.imm))
  | .strEnd f => f.reserved false true false (!immBelow f.imm 12)
  | .emit f => f.reserved false true true (!immBelow f.imm 9)
  | .emitm f => f.reserved false true true (f.imm.toNat / 256 % 256 != 0 || !immBelow f.imm 24)
  | .patch f => f.reserved true true true false
  | .segopen f => f.reserved true true true (f.imm != 0)
  | .segstrm f => f.reserved true true true (f.imm != 0)
  | .seal f => f.reserved false true false (f.imm != 0)
  | .segfree f => f.reserved false true false (f.imm != 0)
  | .ccfind f => f.reserved true true true (f.imm != 0)
  | .ccput f => f.reserved false true true (f.imm != 0)
  | .launch f => f.reserved true true false (f.imm != 0)
  | .greplay f => f.reserved true true true (256 < f.imm.toNat)
  | .release f => f.reserved true true true (!immBelow f.imm 8)
  | .starterGroupOp imm fn f => f.reservedGroup imm fn
  | .clauseHeader f => 8 < f.cls.toNat && f.cls.toNat != 15
  | i =>
    match i.body with
    | .v3 f => f.reserved i.sig
    | .vi f => f.reserved i.sig
    | _ => false

/-- Why a term of `Instr` is no word of its position: illegal before reserved (R57). -/
def Instr.check (i : Instr) : Option Reject :=
  if i.illegal then some .illegalOpcode else if i.reserved then some .reservedField else none

/-! ## Constructors by opcode and function

Lean runs no constructor with fields past the 245th of an inductive, and `Instr` has 390: what builds an
`Instr` is marked noncomputable. The kernel evaluates it all the same. -/
noncomputable section

def mkV3_01 (fn : Nat) (f : V3) : Option Instr :=
  match fn with
  | 0 => some (.vadd f)
  | 1 => some (.vsub f)
  | 2 => some (.vmin f)
  | 3 => some (.vmax f)
  | 4 => some (.vabs f)
  | 5 => some (.vneg f)
  | 6 => some (.vabsd f)
  | 7 => some (.vavg f)
  | _ => none

def mkV3_02 (fn : Nat) (f : V3) : Option Instr :=
  match fn with
  | 0 => some (.vand f)
  | 1 => some (.vor f)
  | 2 => some (.vxor f)
  | 3 => some (.vandn f)
  | 4 => some (.vnot f)
  | 5 => some (.vshl f)
  | 6 => some (.vshr f)
  | 7 => some (.vsra f)
  | 8 => some (.vrol f)
  | 9 => some (.vbext f)
  | 10 => some (.vbins f)
  | 11 => some (.vpopc f)
  | 12 => some (.vclz f)
  | 13 => some (.vbrev f)
  | 14 => some (.vperm f)
  | _ => none

def mkV3_03 (fn : Nat) (f : V3) : Option Instr :=
  match fn with
  | 0 => some (.vceq f)
  | 1 => some (.vcne f)
  | 2 => some (.vclt f)
  | 3 => some (.vcle f)
  | 4 => some (.vcgt f)
  | 5 => some (.vcge f)
  | 6 => some (.vtest f)
  | _ => none

def mkV3_04 (fn : Nat) (f : V3) : Option Instr :=
  match fn with
  | 0 => some (.vmul f)
  | 1 => some (.vmulhi f)
  | 2 => some (.vmad f)
  | 3 => some (.vmadhi f)
  | 4 => some (.vmulw f)
  | 5 => some (.vmadw f)
  | 6 => some (.vdiv f)
  | 7 => some (.vrem f)
  | 8 => some (.vdot4 f)
  | _ => none

def mkVI_05 (fn : Nat) (f : VI) : Option Instr :=
  match fn with
  | 0 => some (.vaddi f)
  | 1 => some (.vandi f)
  | 2 => some (.vori f)
  | 3 => some (.vxori f)
  | 4 => some (.vshli f)
  | 5 => some (.vshri f)
  | 6 => some (.vsrai f)
  | 7 => some (.vminiI32 f)
  | 8 => some (.vmaxiI32 f)
  | 9 => some (.vminiN32 f)
  | 10 => some (.vmaxiN32 f)
  | 11 => some (.vmuli f)
  | 12 => some (.vmovi f)
  | 13 => some (.vceqi f)
  | 14 => some (.vcltiI32 f)
  | 15 => some (.vcltiN32 f)
  | 16 => some (.vcgtiI32 f)
  | 17 => some (.vcgtiN32 f)
  | _ => none

def mkV3_08 (fn : Nat) (f : V3) : Option Instr :=
  match fn with
  | 0 => some (.vfadd f)
  | 1 => some (.vfsub f)
  | 2 => some (.vfmul f)
  | 3 => some (.vfma f)
  | 4 => some (.vfmin f)
  | 5 => some (.vfmax f)
  | 6 => some (.vfabs f)
  | 7 => some (.vfneg f)
  | 8 => some (.vfrnd f)
  | _ => none

def mkV3_09 (fn : Nat) (f : V3) : Option Instr :=
  match fn with
  | 0 => some (.vfceq f)
  | 1 => some (.vfcne f)
  | 2 => some (.vfclt f)
  | 3 => some (.vfcle f)
  | 4 => some (.vfcgt f)
  | 5 => some (.vfcge f)
  | 6 => some (.vfcun f)
  | 7 => some (.vfclass f)
  | _ => none

def mkV3_0A (fn : Nat) (f : V3) : Option Instr :=
  match fn with
  | 0 => some (.vcvt 0 f)
  | 1 => some (.vcvt 1 f)
  | 2 => some (.vcvt 2 f)
  | 3 => some (.vcvt 3 f)
  | 4 => some (.vcvt 4 f)
  | 5 => some (.vcvt 5 f)
  | 6 => some (.vcvt 6 f)
  | 7 => some (.vcvt 7 f)
  | 8 => some (.vcvt 8 f)
  | 9 => some (.vcvt 9 f)
  | 10 => some (.vcvt 10 f)
  | 11 => some (.vcvt 11 f)
  | 12 => some (.vcvt 12 f)
  | 13 => some (.vcvt 13 f)
  | 14 => some (.vcvt 14 f)
  | 15 => some (.vcvt 15 f)
  | 16 => some (.vpack2 f)
  | 17 => some (.vpack4 f)
  | 18 => some (.vpack8 f)
  | 19 => some (.vunpk f)
  | 20 => some (.vmxscale f)
  | _ => none

def mkV3_0B (fn : Nat) (f : V3) : Option Instr :=
  match fn with
  | 0 => some (.vrcp f)
  | 1 => some (.vrsq f)
  | 2 => some (.vsqrt f)
  | 3 => some (.vexp2 f)
  | 4 => some (.vlog2 f)
  | 5 => some (.vsin f)
  | 6 => some (.vcos f)
  | 7 => some (.vtanh f)
  | 8 => some (.vsigm f)
  | 9 => some (.vfdiv f)
  | _ => none

def mkVI_0C (fn : Nat) (f : VI) : Option Instr :=
  match fn with
  | 0 => some (.vfaddi f)
  | 1 => some (.vfmuli f)
  | 2 => some (.vfmini f)
  | 3 => some (.vfmaxi f)
  | 4 => some (.vfmovi f)
  | _ => none

def mkV3_10 (fn : Nat) (f : V3) : Option Instr :=
  match fn with
  | 0 => some (.vqxh f)
  | 1 => some (.vqxv f)
  | 2 => some (.vqxd f)
  | 3 => some (.vqbc f)
  | 4 => some (.vshfl f)
  | 5 => some (.vshup f)
  | 6 => some (.vshdn f)
  | 7 => some (.vshxor f)
  | 8 => some (.vbcast f)
  | 9 => some (.vsel f)
  | _ => none

def mkV3_11 (fn : Nat) (f : V3) : Option Instr :=
  match fn with
  | 0 => some (.mand f)
  | 1 => some (.mor f)
  | 2 => some (.mxor f)
  | 3 => some (.mandn f)
  | 4 => some (.mnot f)
  | 5 => some (.mmov f)
  | 6 => some (.mfromv f)
  | 7 => some (.mtov f)
  | 8 => some (.mfromg f)
  | 9 => some (.mtog f)
  | 10 => some (.mpopc f)
  | 11 => some (.mffs f)
  | _ => none

def mkV3_12 (fn : Nat) (f : V3) : Option Instr :=
  match fn with
  | 0 => some (.gadd f)
  | 1 => some (.gsub f)
  | 2 => some (.gand f)
  | 3 => some (.gor f)
  | 4 => some (.gxor f)
  | 5 => some (.gshl f)
  | 6 => some (.gshr f)
  | 7 => some (.gsra f)
  | 8 => some (.gmin f)
  | 9 => some (.gmax f)
  | 10 => some (.gminn f)
  | 11 => some (.gmaxn f)
  | 12 => some (.gmov f)
  | 13 => some (.gsel f)
  | 14 => some (.gmul f)
  | 15 => some (.gmulhi f)
  | 16 => some (.gdiv f)
  | 17 => some (.gdivn f)
  | 18 => some (.grem f)
  | 19 => some (.gremn f)
  | _ => none

def mkVI_13 (fn : Nat) (f : VI) : Option Instr :=
  match fn with
  | 0 => some (.gaddi f)
  | 1 => some (.gandi f)
  | 2 => some (.gori f)
  | 3 => some (.gxori f)
  | 4 => some (.gshli f)
  | 5 => some (.gshri f)
  | 6 => some (.gsrai f)
  | 7 => some (.gmini f)
  | 8 => some (.gmaxi f)
  | 9 => some (.gmovi f)
  | 10 => some (.gmovhi f)
  | 11 => some (.gmuli f)
  | _ => none

def mkV3_14 (fn : Nat) (f : V3) : Option Instr :=
  match fn with
  | 0 => some (.gceq f)
  | 1 => some (.gcne f)
  | 2 => some (.gclt f)
  | 3 => some (.gcle f)
  | 4 => some (.gcltn f)
  | 5 => some (.gclen f)
  | 6 => some (.gpand f)
  | 7 => some (.gpor f)
  | 8 => some (.gpxor f)
  | 9 => some (.gpnot f)
  | 10 => some (.gpany f)
  | 11 => some (.gpall f)
  | _ => none

def mkV3_15 (fn : Nat) (f : V3) : Option Instr :=
  match fn with
  | 0 => some (.vtog f)
  | 1 => some (.gtov f)
  | 2 => some (.vredadd f)
  | 3 => some (.vredmin f)
  | 4 => some (.vredmax f)
  | 5 => some (.vredand f)
  | 6 => some (.vredor f)
  | 7 => some (.vredxor f)
  | 8 => some (.vscanadd f)
  | 9 => some (.vfredadd f)
  | 10 => some (.vfredmin f)
  | 11 => some (.vfredmax f)
  | _ => none

def mkM_18 (fn : Nat) (f : M) : Option Instr :=
  match fn with
  | 0 => some (.vld f)
  | 1 => some (.vldx f)
  | _ => none

def mkM_19 (fn : Nat) (f : M) : Option Instr :=
  match fn with
  | 0 => some (.vst f)
  | _ => none

def mkM_1A (fn : Nat) (f : M) : Option Instr :=
  match fn with
  | 0 => some (.vsld f)
  | 1 => some (.vsldx f)
  | 2 => some (.vsst f)
  | 3 => some (.vvld f)
  | 4 => some (.vvldx f)
  | 5 => some (.vvst f)
  | _ => none

def mkM_1B (fn : Nat) (f : M) : Option Instr :=
  match fn with
  | 0 => some (.gld f)
  | 1 => some (.gst f)
  | 2 => some (.gsld f)
  | 3 => some (.gsst f)
  | 4 => some (.gvld f)
  | 5 => some (.gvst f)
  | _ => none

def mkM_1C (fn : Nat) (f : M) : Option Instr :=
  match fn with
  | 0 => some (.xlat f)
  | 1 => some (.xrel f)
  | 2 => some (.xget f)
  | 3 => some (.tlbinv f)
  | _ => none

def mkM_1D (fn : Nat) (f : M) : Option Instr :=
  match fn with
  | 0 => some (.vpf f)
  | 1 => some (.gpf f)
  | 2 => some (.l1inv f)
  | _ => none

def mkX_20 (fn : Nat) (f : X) : Option Instr :=
  match fn with
  | 0 => some (.cpy f)
  | 1 => some (.cpy2d f)
  | 2 => some (.cpyfill f)
  | 3 => some (.cpyadd f)
  | 4 => some (.cpyxor f)
  | _ => none

def mkVI_21 (fn : Nat) (f : VI) : Option Instr :=
  match fn with
  | 0 => some (.bfence f)
  | 1 => some (.bwait f)
  | 2 => some (.bget f)
  | _ => none

def mkX_22 (fn : Nat) (f : X) : Option Instr :=
  match fn with
  | 0 => some (.bcinit f)
  | 1 => some (.bcexpect f)
  | 2 => some (.bcarrive f)
  | 3 => some (.bcwait f)
  | 4 => some (.bctest f)
  | _ => none

def mkX_25 (fn : Nat) (f : X) : Option Instr :=
  match fn with
  | 0 => some (.vouts f)
  | _ => none

def mkX_26 (fn : Nat) (f : X) : Option Instr :=
  match fn with
  | 0 => some (.tmset f)
  | 1 => some (.tmclr f)
  | 2 => some (.tmget f)
  | _ => none

def mkX_28 (fn : Nat) (f : X) : Option Instr :=
  match fn with
  | 0 => some (.vaadd f)
  | 1 => some (.vaand f)
  | 2 => some (.vaor f)
  | 3 => some (.vaxor f)
  | 4 => some (.vamin f)
  | 5 => some (.vamax f)
  | 6 => some (.vaminn f)
  | 7 => some (.vamaxn f)
  | 8 => some (.vaxchg f)
  | 9 => some (.vacas f)
  | 10 => some (.vafadd f)
  | _ => none

def mkX_29 (fn : Nat) (f : X) : Option Instr :=
  match fn with
  | 0 => some (.vradd f)
  | 1 => some (.vrand f)
  | 2 => some (.vror f)
  | 3 => some (.vrxor f)
  | 4 => some (.vrmin f)
  | 5 => some (.vrmax f)
  | 6 => some (.vrminn f)
  | 7 => some (.vrmaxn f)
  | 8 => some (.vrfadd f)
  | 32 => some (.vraddArv f)
  | 33 => some (.vrandArv f)
  | 34 => some (.vrorArv f)
  | 35 => some (.vrxorArv f)
  | 36 => some (.vrminArv f)
  | 37 => some (.vrmaxArv f)
  | 38 => some (.vrminnArv f)
  | 39 => some (.vrmaxnArv f)
  | 40 => some (.vrfaddArv f)
  | _ => none

def mkVI_2A (fn : Nat) (f : VI) : Option Instr :=
  match fn with
  | 0 => some (.txbegin f)
  | 1 => some (.txend f)
  | 2 => some (.txabort f)
  | 3 => some (.txstat f)
  | _ => none

def mkX_2B (fn : Nat) (f : X) : Option Instr :=
  match fn with
  | 0 => some (.waitw f)
  | 1 => some (.barblk f)
  | 2 => some (.bargng f)
  | _ => none

def mkX_2C (fn : Nat) (f : X) : Option Instr :=
  match fn with
  | 0 => some (.harp f)
  | _ => none

def mkB_30 (fn : Nat) (f : B) : Option Instr :=
  match fn with
  | 0 => some (.bra f)
  | 1 => some (.brau f)
  | 2 => some (.join f)
  | 3 => some (.brk f)
  | 4 => some (.cont f)
  | 5 => some (.call f)
  | 6 => some (.ret f)
  | 7 => some (.exit f)
  | _ => none

def mkVI_32 (fn : Nat) (f : VI) : Option Instr :=
  match fn with
  | 0 => some (.trap f)
  | 1 => some (.yield f)
  | 2 => some (.dbgbrk f)
  | 3 => some (.nop (.clause f))
  | _ => none

def mkVI_33 (fn : Nat) (f : VI) : Option Instr :=
  match fn with
  | 0 => some (.vsr f)
  | 1 => some (.gsr f)
  | 2 => if immNum f.imm = 0x00D then some (.srseed f) else some (.gsw f)
  | _ => none

def mkVI_34 (fn : Nat) (f : VI) : Option Instr :=
  match fn with
  | 0 => some (.affcnt f)
  | 1 => some (.affpop f)
  | 2 => some (.affwait f)
  | _ => none

def mkVI_35 (fn : Nat) (f : VI) : Option Instr :=
  match fn with
  | 0 => some (.tkpool f)
  | 1 => some (.tkstat f)
  | _ => none

def mkS_38 (fn : Nat) (f : S) : Option Instr :=
  match fn with
  | 0 => some (.ld8 f)
  | 1 => some (.ld16 f)
  | 2 => some (.ld32 f)
  | 3 => some (.ld64 f)
  | 4 => some (.ldx8 f)
  | 5 => some (.ldx16 f)
  | 6 => some (.ldx32 f)
  | 8 => some (.st8 f)
  | 9 => some (.st16 f)
  | 10 => some (.st32 f)
  | 11 => some (.st64 f)
  | 16 => some (.beq f)
  | 17 => some (.bne f)
  | 18 => some (.blt f)
  | 19 => some (.bltn f)
  | 20 => some (.bge f)
  | 21 => some (.bgen f)
  | 22 => some (.jal f)
  | 23 => some (.jalr f)
  | 24 => some (.fence f)
  | 25 => some (.csrr f)
  | 26 => if immNum f.imm = 0x00D then some (.strEnd f) else some (.csrw f)
  | _ => none

def mkS_39 (fn : Nat) (f : S) : Option Instr :=
  match fn with
  | 0 => some (.emit f)
  | 1 => some (.emitm f)
  | 2 => some (.patch f)
  | _ => none

def mkS_3A (fn : Nat) (f : S) : Option Instr :=
  match fn with
  | 0 => some (.segopen f)
  | 1 => some (.segstrm f)
  | 2 => some (.seal f)
  | 3 => some (.segfree f)
  | 4 => some (.ccfind f)
  | 5 => some (.ccput f)
  | _ => none

def mkS_3B (fn : Nat) (f : S) : Option Instr :=
  match fn with
  | 0 => some (.launch f)
  | 1 => some (.greplay f)
  | 2 => some (.release f)
  | _ => none

/-- Matrix words: fn bits 7:6 and 3 are zero, bit 5 the taken-as-zero accumulator, bit 4 `.sat` (R184). -/
def mkX_24 (fn : BitVec 8) (f : X) : Option Instr :=
  if fn.extractLsb' 6 2 = 0 ∧ fn.getLsbD 3 = false then
    if fn.getLsbD 5 then some (.vmmaz (fn.extractLsb' 0 3) (fn.extractLsb' 4 1) f)
    else some (.vmma (fn.extractLsb' 0 3) (fn.extractLsb' 4 1) f)
  else none

/-- `tmark` and `gfence` share op 0x31; imm32 bits 4:3 give the kind (R249). -/
def mkVI_31 (fn : Nat) (f : VI) : Option Instr :=
  match fn with
  | 0 =>
    match (f.imm.extractLsb' 3 2).toNat with
    | 0 => some (.tmark f)
    | 1 => some (.gfenceRel f)
    | 2 => some (.gfenceAcq f)
    | _ => some (.gfenceAcqrel f)
  | _ => none

/-- The constructor that op and fn of a clause word name (R45 to R51). -/
def mkClause (w : Word) : Option Instr :=
  match (opOf w).toNat with
  | 0x01 => mkV3_01 (fn8Of w).toNat (unpackV3 w)
  | 0x02 => mkV3_02 (fn8Of w).toNat (unpackV3 w)
  | 0x03 => mkV3_03 (fn8Of w).toNat (unpackV3 w)
  | 0x04 => mkV3_04 (fn8Of w).toNat (unpackV3 w)
  | 0x05 => mkVI_05 (fn6Of w).toNat (unpackVI w)
  | 0x08 => mkV3_08 (fn8Of w).toNat (unpackV3 w)
  | 0x09 => mkV3_09 (fn8Of w).toNat (unpackV3 w)
  | 0x0A => mkV3_0A (fn8Of w).toNat (unpackV3 w)
  | 0x0B => mkV3_0B (fn8Of w).toNat (unpackV3 w)
  | 0x0C => mkVI_0C (fn6Of w).toNat (unpackVI w)
  | 0x10 => mkV3_10 (fn8Of w).toNat (unpackV3 w)
  | 0x11 => mkV3_11 (fn8Of w).toNat (unpackV3 w)
  | 0x12 => mkV3_12 (fn8Of w).toNat (unpackV3 w)
  | 0x13 => mkVI_13 (fn6Of w).toNat (unpackVI w)
  | 0x14 => mkV3_14 (fn8Of w).toNat (unpackV3 w)
  | 0x15 => mkV3_15 (fn8Of w).toNat (unpackV3 w)
  | 0x18 => mkM_18 (fn6Of w).toNat (unpackM w)
  | 0x19 => mkM_19 (fn6Of w).toNat (unpackM w)
  | 0x1A => mkM_1A (fn6Of w).toNat (unpackM w)
  | 0x1B => mkM_1B (fn6Of w).toNat (unpackM w)
  | 0x1C => mkM_1C (fn6Of w).toNat (unpackM w)
  | 0x1D => mkM_1D (fn6Of w).toNat (unpackM w)
  | 0x20 => mkX_20 (fn8Of w).toNat (unpackX w)
  | 0x21 => mkVI_21 (fn6Of w).toNat (unpackVI w)
  | 0x22 => mkX_22 (fn8Of w).toNat (unpackX w)
  | 0x24 => mkX_24 (fn8Of w) (unpackX w)
  | 0x25 => mkX_25 (fn8Of w).toNat (unpackX w)
  | 0x26 => mkX_26 (fn8Of w).toNat (unpackX w)
  | 0x28 => mkX_28 (fn8Of w).toNat (unpackX w)
  | 0x29 => mkX_29 (fn8Of w).toNat (unpackX w)
  | 0x2A => mkVI_2A (fn6Of w).toNat (unpackVI w)
  | 0x2B => mkX_2B (fn8Of w).toNat (unpackX w)
  | 0x2C => mkX_2C (fn8Of w).toNat (unpackX w)
  | 0x30 => mkB_30 (fn6Of w).toNat (unpackB w)
  | 0x31 => mkVI_31 (fn6Of w).toNat (unpackVI w)
  | 0x32 => mkVI_32 (fn6Of w).toNat (unpackVI w)
  | 0x33 => mkVI_33 (fn6Of w).toNat (unpackVI w)
  | 0x34 => mkVI_34 (fn6Of w).toNat (unpackVI w)
  | 0x35 => mkVI_35 (fn6Of w).toNat (unpackVI w)
  | _ => none

/-- The constructor that op and fn of a Starter word name (R54, R55). -/
def mkStarter (w : Word) : Option Instr :=
  match (opOf w).toNat with
  | 0x12 => some (.starterGroupOp 0 (fn8Of w) (unpackS w))
  | 0x13 => some (.starterGroupOp 1 (fn8Of w) (unpackS w))
  | 0x32 => if fn8Of w = 0x03 then some (.nop (.starter (unpackS w))) else none
  | 0x38 => mkS_38 (fn8Of w).toNat (unpackS w)
  | 0x39 => mkS_39 (fn8Of w).toNat (unpackS w)
  | 0x3A => mkS_3A (fn8Of w).toNat (unpackS w)
  | 0x3B => mkS_3B (fn8Of w).toNat (unpackS w)
  | _ => none

/-! ## The decoders -/

/-- The reserved bits of a format that no shape holds: V3 bits 3:0, header bits 31:0, and the bits of an S
word are all in its shape. -/
def padBad (i : Instr) (w : Word) : Bool :=
  match i.body with
  | .v3 _ => bits w 0 4 != 0
  | .hdr _ => bits w 0 32 != 0
  | _ => false

def finish (i : Option Instr) (w : Word) : Except Reject Instr :=
  match i with
  | none => .error .illegalOpcode
  | some i =>
    if i.illegal then .error .illegalOpcode
    else if padBad i w || i.reserved then .error .reservedField
    else .ok i

/-- An instruction word of a clause (R56). -/
def decodeWord (w : Word) : Except Reject Instr :=
  if w = 0 then .error .illegalZero else finish (mkClause w) w

/-- A word at a header position (R56, R57). -/
def decodeHeader (w : Word) : Except Reject Instr :=
  if w = 0 then .error .illegalZero
  else if opOf w = 0x3E then finish (some (.clauseHeader (unpackHdr w))) w else .error .illegalOpcode

/-- A word that a Starter context fetches (R54, R58). -/
def decodeStarter (w : Word) : Except Reject Instr :=
  if w = 0 then .error .illegalZero else finish (mkStarter w) w

/-- Whether a word can only be the Starter's: op 0x38 to 0x3B (R55). -/
def starterOnly (w : Word) : Bool := decide (0x38 ≤ (opOf w).toNat ∧ (opOf w).toNat ≤ 0x3B)

/-- A word at the position its opcode gives it: header, Starter or clause. -/
def decode (w : Word) : Except Reject Instr :=
  if opOf w = 0x3E then decodeHeader w else if starterOnly w then decodeStarter w else decodeWord w

/-- The decoder's answer for an instruction word given as a number. Every word is 64 bits. -/
def decodeTableWord (nbits w : Nat) : Option Instr :=
  if 64 < nbits then none else (decode (BitVec.ofNat 64 w)).toOption

end

/-! ## The encoder -/

/-- The word of an instruction, from the map and the formats; a step of the device has none and gives 0. -/
def encode (i : Instr) : Word :=
  match i.body with
  | .v3 f => packV3 i.sig.op i.sig.fn f
  | .vi f => packVI i.sig.op (i.sig.fn.setWidth 6) f
  | .m f => packM i.sig.op (i.sig.fn.setWidth 6) f
  | .b f => packB i.sig.op (i.sig.fn.setWidth 6) f
  | .x f => packX i.sig.op i.sig.fn f
  | .s f => packS i.sig.op i.sig.fn f
  | .hdr f => packHdr f
  | .ev => 0

/-! ## What the map says of a legal instruction -/

/-- Engine class of a major opcode (R32). -/
def classOf (op : BitVec 6) : Nat :=
  let n := op.toNat
  if n ≤ 5 || n = 0x10 then 0 else if n ≤ 0x0C then 1
  else if 0x18 ≤ n && n ≤ 0x1D then 2 else if 0x20 ≤ n && n ≤ 0x22 then 3
  else if 0x24 ≤ n && n ≤ 0x26 then 4 else if 0x28 ≤ n && n ≤ 0x2B then 5
  else if 0x30 ≤ n && n ≤ 0x32 then 6 else if n = 0x2C then 7 else 8

def Instr.isNop : Instr → Bool
  | .nop _ => true
  | _ => false

/-- Price of an instruction (R34, R46 to R52): from opcode, function, type, size and rounding. -/
def Instr.price (i : Instr) : Nat :=
  match i.body with
  | .v3 f =>
    (if bracket f.ty then i.sig.price2 else i.sig.price) + (if i.sig.rs && f.rm == 5 then 1 else 0)
  | .m f =>
    if 0x18 ≤ i.sig.op.toNat && i.sig.op.toNat ≤ 0x1A then
      (if f.size = 3 then 2 else if f.size = 4 then 4 else 0)
    else 0
  | .vi _ => i.sig.price
  | .x _ => i.sig.price
  | _ => 0

/-- Latency of a synchronous result (R35, R46 to R51). -/
def Instr.latency (i : Instr) : Nat :=
  match i.body with
  | .v3 f => if bracket f.ty then i.sig.lat2 else i.sig.lat
  | _ => i.sig.lat

/-- The lane registers an operand field names. -/
def Opd.regs (o : Opd) (ty : BitVec 5) (x : BitVec 8) : List Nat :=
  let span (n : Nat) := (List.range n).map (x.toNat + ·)
  match o with
  | .v => span (if is64 ty then 2 else 1)
  | .v1 => span 1
  | .v2 => span 2
  | .v4 => span 4
  | .v8 => span 8
  | _ => []

def span (x : BitVec 8) (n : Nat) : List Nat := (List.range n).map (x.toNat + ·)

/-- Lane registers an instruction writes. -/
def Instr.vWrites (i : Instr) : List Nat :=
  match i with
  | .vcvt _ f => span f.d (if is64 f.ty then 2 else 1)
  | .vsr f => span f.d (if special64 (immNum f.imm) then 2 else 1)
  | .txstat f => span f.d 1
  | .vmma _ _ f => span f.f1 16
  | .vmmaz _ _ f => span f.f1 16
  | i =>
    match i.body with
    | .v3 f => i.sig.d.regs f.ty f.d
    | .vi f => i.sig.d.regs 0 f.d
    | .m f =>
      if i.sig.op = 0x18 || (i.sig.op = 0x1A && i.sig.fn.toNat % 3 < 2) then
        span f.data (sizeRegs f.size.toNat)
      else []
    | .x f => if i.sig.op = 0x28 then span f.f1 (if f.asize = 3 then 2 else 1) else []
    | _ => []

/-- Lane registers an instruction reads. -/
def Instr.vReads (i : Instr) : List Nat :=
  match i with
  | .vcvt src f => span f.a (if src == 3 || src == 7 then 2 else 1)
  | .vmma ty _ f =>
    span f.f1 16 ++ span f.f2 (mxA ty) ++ span f.f3 (mxB ty) ++ (if mxScaled ty then span f.f5 2 else [])
  | .vmmaz ty _ f =>
    span f.f2 (mxA ty) ++ span f.f3 (mxB ty) ++ (if mxScaled ty then span f.f5 2 else [])
  | .vouts f => span f.f1 1
  | .gpf _ => []
  | i =>
    match i.body with
    | .v3 f => i.sig.a.regs f.ty f.a ++ i.sig.b.regs f.ty f.b ++ i.sig.c.regs f.ty f.c
    | .vi f => i.sig.a.regs 0 f.a
    | .m f =>
      if i.sig.op = 0x1D then span f.lane 1
      else if 0x18 ≤ i.sig.op.toNat && i.sig.op.toNat ≤ 0x1A then
        span f.lane 1 ++
          (if i.sig.op = 0x19 || (i.sig.op = 0x1A && i.sig.fn.toNat % 3 = 2) then
            span f.data (sizeRegs f.size.toNat) else [])
      else []
    | .x f =>
      if i.sig.op = 0x28 || i.sig.op = 0x29 then
        let n := if f.asize = 3 then 2 else 1
        span f.f2 1 ++ span f.f1 n ++ (if i.sig.op = 0x28 && i.sig.fn = 9 then span f.f3 n else [])
      else []
    | _ => []

/-- Registers of one file that an operand field of kind `k` names. -/
def Opd.names (o k : Opd) (x : BitVec 8) : List Nat := if o = k then [x.toNat] else []

/-- The `g` registers that an instruction reads or writes. -/
def Instr.gNames (i : Instr) : List Nat :=
  let op := i.sig.op.toNat
  match i with
  | .affpop f => span f.d 16
  | i =>
    match i.body with
    | .v3 f => i.sig.d.names .g f.d ++ i.sig.a.names .g f.a ++ i.sig.b.names .g f.b ++ i.sig.c.names .g f.c
    | .vi f => if op = 0x21 then [f.d.toNat, f.a.toNat] else i.sig.d.names .g f.d ++ i.sig.a.names .g f.a
    | .m f =>
      if op = 0x1B || op = 0x1C then [f.data.toNat, f.lane.toNat]
      else if op = 0x1D && i.sig.fn = 1 then [f.lane.toNat] else []
    | .x f =>
      if op = 0x24 || op = 0x28 then []
      else if op = 0x25 then [f.f2.toNat, f.f3.toNat]
      else if op = 0x29 then [f.f3.toNat]
      else if op = 0x20 && i.sig.fn = 1 then [f.f1.toNat, f.f2.toNat, f.f3.toNat, f.f5.toNat, f.f5.toNat + 1]
      else [f.f1.toNat, f.f2.toNat, f.f3.toNat, f.f5.toNat]
    | _ => []

/-- The special registers that an instruction reads or writes by name (R28). -/
def Instr.sNames (i : Instr) : List Nat :=
  match i with
  | .vsr f => [(immNum f.imm).toNat]
  | .gsr f => [(immNum f.imm).toNat]
  | .gsw f => [(immNum f.imm).toNat]
  | .srseed f => [(immNum f.imm).toNat]
  | _ => []

/-- The team registers that an instruction reads or writes (R183, R187). -/
def Instr.tNames (i : Instr) : List Nat :=
  match i.body with
  | .x f => if 0x24 ≤ i.sig.op.toNat && i.sig.op.toNat ≤ 0x26 then [f.tm.toNat] else []
  | _ => []

/-- The mask registers that an instruction reads or writes. -/
def Instr.mNames (i : Instr) : List Nat :=
  let op := i.sig.op.toNat
  let lane (p : Pred) (mask : BitVec 4) : List Nat := if p = .lane then [mask.toNat] else []
  match i.body with
  | .v3 f =>
    lane i.sig.pred f.mask ++ i.sig.d.names .m f.d ++ i.sig.a.names .m f.a ++ i.sig.b.names .m f.b ++ i.sig.c.names .m f.c
  | .vi f => lane i.sig.pred f.mask ++ i.sig.d.names .m f.d ++ i.sig.a.names .m f.a
  | .m f => if op ≤ 0x1A || (op = 0x1D && i.sig.fn = 0) then [f.mask.toNat] else []
  | .b f => [f.mask.toNat]
  | _ => []

/-- The group predicates that an instruction reads or writes. -/
def Instr.pNames (i : Instr) : List Nat :=
  let op := i.sig.op.toNat
  let grp (p : Pred) (mask : BitVec 4) : List Nat := if p = .grp then [mask.toNat % 8] else []
  match i.body with
  | .v3 f =>
    grp i.sig.pred f.mask ++ i.sig.d.names .p f.d ++ i.sig.a.names .p f.a ++ i.sig.b.names .p f.b ++ i.sig.c.names .p f.c
  | .vi f => grp i.sig.pred f.mask ++ i.sig.d.names .p f.d ++ i.sig.a.names .p f.a
  | .m f => if op = 0x1B || (op = 0x1D && i.sig.fn = 1) then [f.mask.toNat % 8] else []
  | .b f => [f.gp.toNat]
  | _ => []

/-- Whether the instruction names a lane register at or above 8·G (R26). -/
def Instr.outOfRange (i : Instr) (granules : Nat) : Bool :=
  (i.vWrites ++ i.vReads).any (fun r => 8 * granules ≤ r)

/-- Words that launches with PROTECT set reject beside the ordinary checks (R388). -/
def Instr.protectReject (i : Instr) : Option Reject :=
  let op := i.sig.op.toNat
  if (0x24 ≤ op && op ≤ 0x26) || op = 0x2C then some .illegalOpcode
  else
    match i with
    | .vshup f => if 15 < f.c.toNat then some .reservedField else none
    | .vshdn f => if 15 < f.c.toNat then some .reservedField else none
    | .vshxor f => if 15 < f.c.toNat then some .reservedField else none
    | .vbcast f => if 15 < f.c.toNat then some .reservedField else none
    | _ => none

/-- Whether the instruction makes its clause a boundary clause wherever it stands (R365); `exit`, `txbegin`,
`txend`, pushes and a predicated `affpop` are decided as they execute. -/
def Instr.isBoundary (i : Instr) : Bool :=
  match i with
  | .tmark _ => true
  | .yield _ => true
  | .gfenceRel f => 2 ≤ f.imm.toNat % 8
  | .gfenceAcqrel f => 2 ≤ f.imm.toNat % 8
  | .barblk _ => true
  | .bargng _ => true
  | .bcinit _ => true
  | .bcexpect _ => true
  | .bcarrive _ => true
  | .cpyadd _ => true
  | .cpyxor _ => true
  | .cpy f => f.imm.getLsbD 9
  | .cpy2d f => f.imm.getLsbD 9
  | .cpyfill f => f.imm.getLsbD 9
  | .harp _ => true
  | .affpop f => f.mask = 0
  | i => i.sig.op = 0x28

end Sys2Proof
end

