-- ==== Sys2Proof/Machine/Alu.lean ====
section
/-! DEFINITION. What each integer instruction computes from the raw contents of its operands (R156 to R160,
R172, R173): values only, no state. -/
namespace Sys2Proof.Machine
open Sys2Proof

/-! ## Lane integer arithmetic (R156) -/

/-- The exact results of major opcode 0x01 by function number. -/
def addExact (fn : Nat) (a b : Int) : Int :=
  match fn with
  | 0 => a + b
  | 1 => a - b
  | 2 => min a b
  | 3 => max a b
  | 4 => |a|
  | 5 => -a
  | 6 => |a - b|
  | _ => (a + b + 1) / 2

/-! ## Logic, shifts and bitfields (R157) -/

def logicNat (fn : Nat) (w a b : Nat) : Nat :=
  match fn with
  | 0 => a &&& b
  | 1 => a ||| b
  | 2 => a ^^^ b
  | 3 => a &&& (2 ^ w - 1 - b)
  | _ => 2 ^ w - 1 - a

def shlNat (w a n : Nat) : Nat := if w ≤ n then 0 else a * 2 ^ n % 2 ^ w
def shrNat (w a n : Nat) : Nat := if w ≤ n then 0 else a / 2 ^ n
/-- The pattern shifted right and filled with bit w − 1. -/
def sraNat (w a n : Nat) : Nat :=
  let top := decide (2 ^ (w - 1) ≤ a)
  let k := min n w
  if top then 2 ^ w - 2 ^ (w - k) + a / 2 ^ k else a / 2 ^ k
def rolNat (w a n : Nat) : Nat :=
  let k := n % w
  (a * 2 ^ k + a / 2 ^ (w - k)) % 2 ^ w

/-- Position p and capped length k of a bitfield control (R157); length 0 when p lies at or beyond w. -/
def fieldOf (w ctl : Nat) : Nat × Nat :=
  let p := ctl % 256
  if w ≤ p then (0, 0) else (p, min (ctl / 256 % 256) (w - p))
def bextNat (w a ctl : Nat) : Nat :=
  let (p, k) := fieldOf w ctl
  a / 2 ^ p % 2 ^ k
def binsNat (w a ctl c : Nat) : Nat :=
  let (p, k) := fieldOf w ctl
  c - (c / 2 ^ p % 2 ^ k) * 2 ^ p + (a % 2 ^ k) * 2 ^ p

def popcNat (n : Nat) : Nat := ((List.range 64).filter (fun i => n.testBit i)).length
def clzNat (w n : Nat) : Nat := w - bitLen n
def brevNat (w n : Nat) : Nat := (List.range w).foldl (fun r i => if n.testBit i then r + 2 ^ (w - 1 - i) else r) 0

/-- Byte permute (R157). -/
def permNat (a b c : Nat) : Nat :=
  (List.range 4).foldl (fun r i =>
    let sel := b / 2 ^ (4 * i) % 16
    let src := if sel % 8 < 4 then a / 256 ^ (sel % 8) % 256 else c / 256 ^ (sel % 8 - 4) % 256
    if 8 ≤ sel then r else r + src * 256 ^ i) 0

/-! ## Compares (R158) -/

/-- `vceq` to `vcge` and `vtest` by function number. -/
def cmpInt (fn : Nat) (a b : Int) (x y : Nat) : Bool :=
  match fn with
  | 0 => a == b
  | 1 => a != b
  | 2 => decide (a < b)
  | 3 => decide (a ≤ b)
  | 4 => decide (b < a)
  | 5 => decide (b ≤ a)
  | _ => (x &&& y) != 0

/-! ## Multiply and divide (R159) -/

/-- Quotient and remainder of a type, truncated toward zero; by zero the quotient is all ones and the remainder
is a; the most negative number by −1 gives itself and 0. -/
def divInt (ty : Nat) (a b : Int) : Int × Int :=
  if b = 0 then (if tySigned ty then -1 else 2 ^ tyWidth ty - 1, a)
  else if tySigned ty && a == minOf ty && b == -1 then (minOf ty, 0)
  else (Int.tdiv a b, a - Int.tdiv a b * b)

/-- floor(x / 2^w). -/
def hiInt (ty : Nat) (x : Int) : Int := x / 2 ^ tyWidth ty

/-- Byte i of a register read as `i8` or `n8`. -/
def byteInt (ty : Nat) (raw : BitVec 64) (i : Nat) : Int := readInt ty (raw >>> (8 * i))
def dot4 (ty : Nat) (a b : BitVec 64) (c : Int) : Int :=
  (List.range 4).foldl (fun s i => s + byteInt ty a i * byteInt ty b i) c

/-! ## Group-wide arithmetic (R172, R173) on 64 bits -/

/-- Functions 0x00 to 0x13 of 0x12 on a and b; `d` is the old destination for `gsel`. -/
def gArith (fn : Nat) (a b d : BitVec 64) : BitVec 64 :=
  match fn with
  | 0 => a + b
  | 1 => a - b
  | 2 => a &&& b
  | 3 => a ||| b
  | 4 => a ^^^ b
  | 5 => BitVec.ofNat 64 (shlNat 64 a.toNat b.toNat)
  | 6 => BitVec.ofNat 64 (shrNat 64 a.toNat b.toNat)
  | 7 => BitVec.ofNat 64 (sraNat 64 a.toNat b.toNat)
  | 8 => if a.toInt ≤ b.toInt then a else b
  | 9 => if a.toInt ≤ b.toInt then b else a
  | 10 => if a.toNat ≤ b.toNat then a else b
  | 11 => if a.toNat ≤ b.toNat then b else a
  | 12 => a
  | 13 => if b.getLsbD 0 then a else d
  | 14 => a * b
  | 15 => BitVec.ofInt 64 (a.toInt * b.toInt / 2 ^ 64)
  | 16 => BitVec.ofInt 64 (divInt 3 a.toInt b.toInt).1
  | 17 => BitVec.ofInt 64 (divInt 7 a.toNat b.toNat).1
  | 18 => BitVec.ofInt 64 (divInt 3 a.toInt b.toInt).2
  | _ => BitVec.ofInt 64 (divInt 7 a.toNat b.toNat).2

/-- Functions 0x00 to 0x0B of 0x13 on a and imm32. -/
def gImm (fn : Nat) (a d : BitVec 64) (imm : BitVec 32) : BitVec 64 :=
  let i := imm.signExtend 64
  match fn with
  | 0 => a + i
  | 1 => a &&& i
  | 2 => a ||| i
  | 3 => a ^^^ i
  | 4 => gArith 5 a (imm.setWidth 64) 0
  | 5 => gArith 6 a (imm.setWidth 64) 0
  | 6 => gArith 7 a (imm.setWidth 64) 0
  | 7 => gArith 8 a i 0
  | 8 => gArith 9 a i 0
  | 9 => i
  | 10 => imm ++ d.extractLsb' 0 32
  | _ => a * i

/-- `gceq` to `gclen` by function number (R174). -/
def gCompare (fn : Nat) (a b : BitVec 64) : Bool :=
  match fn with
  | 0 => a == b
  | 1 => a != b
  | 2 => decide (a.toInt < b.toInt)
  | 3 => decide (a.toInt ≤ b.toInt)
  | 4 => decide (a.toNat < b.toNat)
  | _ => decide (a.toNat ≤ b.toNat)

/-! ## Atomic members (R220) on values of `w` bits -/

/-- The new value: member by the function number of 0x28; `c` is the compare value of `vacas`. -/
def atomNew (fn w : Nat) (old d c : Nat) : Nat :=
  let s (x : Nat) : Int := if 2 ^ (w - 1) ≤ x then (x : Int) - 2 ^ w else x
  match fn with
  | 0 => (old + d) % 2 ^ w
  | 1 => old &&& d
  | 2 => old ||| d
  | 3 => old ^^^ d
  | 4 => if s old ≤ s d then old else d
  | 5 => if s old ≤ s d then d else old
  | 6 => min old d
  | 7 => max old d
  | 8 => d
  | 9 => if old = c then d else old
  | _ => (fAdd 10 0 0 (fDecode 10 old) (fDecode 10 d)).1

/-- The member of a reduction as a function number of 0x28: `vrfadd` is `vafadd` (R223). -/
def redFn (member : Nat) : Nat := if member = 8 then 10 else member

/-- Identity of a member (R225). -/
def redIdentity (member w : Nat) : Nat :=
  match member with
  | 1 => 2 ^ w - 1
  | 4 => 2 ^ (w - 1) - 1
  | 5 => 2 ^ (w - 1)
  | 6 => 2 ^ w - 1
  | 8 => 2 ^ 31
  | _ => 0

end Sys2Proof.Machine
end

