-- ==== Sys2Proof/Machine/Ops.lean ====
section
/-! DEFINITION. The operations over the state that the meanings share: the homes of every record and
register, fields of launch records, pending results (R35), tasks and their boundary state (R364 to R370),
interrupts (R394), and the two exceptions of the part, a group's trap (R371) and a Starter's level-1 fault
(R299), with the return from each. -/
namespace Sys2Proof.Machine
open Sys2Proof

/-- One of a list of numbers, by a free number. -/
def pickOne (n : Nat) (xs : List Nat) : Option Nat := xs[n % max xs.length 1]?

/-! ## Keys -/

def bkeyOf (launch block : Nat) : Nat := launch * 2 ^ 32 + block
def GKey.bkey (k : GKey) : Nat := bkeyOf k.launch k.block
def GKey.num (k : GKey) : Nat := GKey.bkey k * 32 + k.gi
/-- The key of memory byte `pa` of package `rnode`. -/
def memKey (rnode : BitVec 8) (pa : BitVec 52) : Nat := rnode.toNat * 2 ^ 52 + pa.toNat
def scrKey (bkey off : Nat) : Nat := bkey * 2 ^ 18 + off
def clusterOf (core : Nat) : Nat := core / 8
def chipletOfCl (cl : Nat) : Nat := cl / 24
def chipletOf (core : Nat) : Nat := core / 192

/-! ## Records of the state: an absent member stands in its reset state -/

def State.core (s : State) (c : Nat) : Core := (Tbl.find s.cores c).getD Core.reset
def State.setCore (s : State) (c : Nat) (x : Core) : State := { s with cores := Tbl.set s.cores c x }
def State.cluster (s : State) (c : Nat) : Cluster := (Tbl.find s.clusters c).getD Cluster.reset
def State.setCluster (s : State) (c : Nat) (x : Cluster) : State :=
  { s with clusters := Tbl.set s.clusters c x }
def State.chiplet (s : State) (c : Nat) : Chiplet := (Tbl.find s.chiplets c).getD Chiplet.reset
def State.setChiplet (s : State) (c : Nat) (x : Chiplet) : State :=
  { s with chiplets := Tbl.set s.chiplets c x }
def State.ctx (s : State) (c : Nat) : Ctx := (Tbl.find s.ctxs c).getD Ctx.reset
def State.setCtx (s : State) (c : Nat) (x : Ctx) : State := { s with ctxs := Tbl.set s.ctxs c x }
def State.group (s : State) (k : GKey) : Option Group := Tbl.find s.groups (GKey.num k)
def State.setGroup (s : State) (k : GKey) (g : Group) : State :=
  { s with groups := Tbl.set s.groups (GKey.num k) g }
def State.modGroup (s : State) (k : GKey) (f : Group → Group) : State :=
  match s.group k with
  | some g => s.setGroup k (f g)
  | none => s
def State.block (s : State) (b : Nat) : Option Block := Tbl.find s.blocks b
def State.setBlock (s : State) (b : Nat) (x : Block) : State := { s with blocks := Tbl.set s.blocks b x }
def State.launch (s : State) (l : Nat) : Option Launch := Tbl.find s.launches l
def State.setLaunch (s : State) (l : Nat) (x : Launch) : State :=
  { s with launches := Tbl.set s.launches l x }

def Cluster.starter (c : Cluster) (j : Nat) : SCtx := (Tbl.find c.sctx j).getD SCtx.reset
def Cluster.desc (c : Cluster) (d : Nat) : Desc := (Tbl.find c.descs d).getD Desc.reset
def Cluster.slot (c : Cluster) (i : Nat) : SubSlot := (Tbl.find c.slots i).getD SubSlot.reset
def State.starter (s : State) (cl j : Nat) : SCtx := (s.cluster cl).starter j
def State.setStarter (s : State) (cl j : Nat) (x : SCtx) : State :=
  let c := s.cluster cl
  s.setCluster cl { c with sctx := Tbl.set c.sctx j x }
def State.desc (s : State) (cl d : Nat) : Desc := (s.cluster cl).desc d
def State.setDesc (s : State) (cl d : Nat) (x : Desc) : State :=
  let c := s.cluster cl
  s.setCluster cl { c with descs := Tbl.set c.descs d x }

/-! ## The launch record (R305, R306) -/

def lrecEmpty : LRec :=
  { gentry := 0, imgbase := 0, tmplbase := 0, imghash := 0, consthash := 0, srseed := 0, blocks := 0,
    shape := 0, policy := 0, resv := 0, args := [] }
def LRec.dstk (r : LRec) : Nat := (r.shape.extractLsb' 24 8).toNat
def LRec.scrBytes (r : LRec) : Nat := (r.shape.extractLsb' 20 4).toNat * 32768
def LRec.gang (r : LRec) : Nat := (r.shape.extractLsb' 17 3).toNat + 1
def LRec.groups (r : LRec) : Nat := (r.shape.extractLsb' 5 5).toNat + 1
def LRec.gran (r : LRec) : Nat := (r.shape.extractLsb' 0 5).toNat + 1
def LRec.cover (r : LRec) : Nat := (r.policy.extractLsb' 24 8).toNat
def LRec.protect (r : LRec) : Bool := r.policy.getLsbD 12
def LRec.relaunch (r : LRec) : Bool := r.policy.getLsbD 11
def LRec.commitHold (r : LRec) : Bool := r.policy.getLsbD 10
/-- PROTECT with AFF = 2 is treated as AFF = 1 (R344, R391). -/
def LRec.aff (r : LRec) : Nat :=
  let a := (r.policy.extractLsb' 8 2).toNat
  if r.protect && a = 2 then 1 else a
def LRec.strict (r : LRec) : Bool := r.policy.getLsbD 4
def LRec.prio (r : LRec) : Nat := (r.policy.extractLsb' 0 3).toNat

def State.lrec (s : State) (l : Nat) : LRec :=
  match s.launch l with
  | some x => x.rec_
  | none => lrecEmpty
def State.lctx (s : State) (l : Nat) : Nat :=
  match s.launch l with
  | some x => x.ctx
  | none => 0
/-- The core that holds a group's block. -/
def State.coreOf (s : State) (k : GKey) : Nat :=
  match s.block (GKey.bkey k) with
  | some b => b.core
  | none => 0
def State.protect (s : State) (k : GKey) : Bool := (s.lrec k.launch).protect
/-- The first block of the gang that holds a block, and the gang's key (R310). -/
def State.gangNo (s : State) (launch block : Nat) : Nat := block / (s.lrec launch).gang
def State.gangKey (s : State) (k : GKey) : Nat := bkeyOf k.launch (s.gangNo k.launch k.block)
/-- The blocks of a gang (R310). -/
def State.gangBlocks (s : State) (launch n : Nat) : List Nat :=
  let r := s.lrec launch
  ((List.range r.gang).map (fun j => r.gang * n + j)).filter (fun b => decide (b < r.blocks.toNat))
/-- The groups of a block that the state holds. -/
def State.blockGroups (s : State) (launch block : Nat) : List GKey :=
  ((List.range 32).map (fun i => GKey.mk launch block i)).filter (fun k => (s.group k).isSome)
/-- Every group's key. -/
def State.keys (s : State) : List GKey :=
  s.groups.map (fun p => GKey.mk (p.1 / 32 / 2 ^ 32) (p.1 / 32 % 2 ^ 32) (p.1 % 32))

/-! ## Special registers of a cluster and chiplet (R29, R338) -/

/-- The errata entries whose mask bit is set and which name an instruction (R301). -/
def Chiplet.activeErrata (c : Chiplet) : List (BitVec 32) :=
  ((List.range 64).filter (fun i => c.errata.getLsbD i)).map (fun i => Store.read c.entries i) |>.filter
    (fun e => e.getLsbD 20)

/-- `$features` (R29): DIS has bit c for each engine class an active entry names, DISS for a Starter-only
opcode. -/
def Chiplet.features (c : Chiplet) : BitVec 64 :=
  let es := c.activeErrata
  let op (e : BitVec 32) := (e.extractLsb' 0 6).toNat
  let st (e : BitVec 32) := decide (0x38 ≤ op e ∧ op e ≤ 0x3B)
  let diss := if es.any st then 2 ^ 47 else 0
  let dis := (List.range 9).foldl (fun a k =>
    if es.any (fun e => !st e && classOf (e.extractLsb' 0 6) == k) then a + 2 ^ (32 + k) else a) 0
  BitVec.ofNat 64 (diss + dis + 0xFC00 + 1)

/-- Whether an active entry names a word (R301): op, fn as the format holds it, and the type field. -/
def Chiplet.disables (c : Chiplet) (i : Instr) : Bool :=
  c.activeErrata.any (fun e =>
    e.extractLsb' 0 6 == i.sig.op &&
    e.extractLsb' 6 8 == i.sig.fn &&
    (e.getLsbD 19 ||
      (match i.body with
        | .v3 f => e.extractLsb' 14 5 == f.ty
        | _ => e.extractLsb' 14 5 == 0)))

/-- `$thermal` (R338). -/
def State.thermal (s : State) (cl : Nat) : BitVec 32 :=
  let t := (s.cluster cl).therm
  t.tdram ++ t.tdie ++ BitVec.ofBool t.rf2x ++ BitVec.ofBool t.hot ++ BitVec.ofBool s.market.allhot ++
    (0 : BitVec 1) ++ BitVec.ofNat 12 t.allow

/-! ## Interrupts (R394) -/

def State.ctxInt (s : State) (c bit : Nat) : State :=
  let x := s.ctx c
  s.setCtx c { x with int_ := x.int_ ||| ((1 : BitVec 5) <<< bit) }
def State.hostInt (s : State) (bit : Nat) : State :=
  { s with host := { s.host with intstat := s.host.intstat ||| ((1 : BitVec 6) <<< bit) } }

/-- ERRV set with a code (R307) about a launch identifier, or about none for a rejected record. -/
def State.launchErr (s : State) (c code : Nat) (id : Option Nat) : State :=
  let x := s.ctx c
  let e := match id with
    | some i => BitVec.ofNat 24 i
    | none => if x.errv then x.errid else x.lastid
  (s.setCtx c { x with errv := true, err := BitVec.ofNat 7 code, errid := e }).ctxInt c 4

/-! ## Pending results (R35) -/

/-- `p` inserted behind every result due no later: of two writes in one cycle the later instruction's stands. A
`gsw` to `$fpflags` stands before the flags raised in its cycle, which are ORed into it (R149). -/
def pendInsert (ps : List Pend) (p : Pend) : List Pend :=
  match ps with
  | [] => [p]
  | q :: r =>
    if q.due < p.due || (q.due == p.due && p.dest != .fpflags) then q :: pendInsert r p else p :: q :: r

def writeV (v : Store 32) (r : Nat) (lanes : Mask) (vals : List (BitVec 64)) : Store 32 :=
  (lanesOf lanes).foldl (fun t l => Store.write t (32 * r + l) ((vals.getD l 0).setWidth 32)) v

/-- Feedback registers as seeded (R146); with PROTECT both lanes of a pair take the visible index (R388). -/
def seedFb (protect : Bool) (seed : BitVec 64) : Store 32 :=
  (List.range 32).foldl (fun t l => Store.write t l (fbSeed seed (if protect then l / 2 else l))) []

/-- A result written to its register (R35): writes to `g0`, `m0` and `gp0` are discarded (R25). A mask keeps
the bits outside `lanes` (R153). -/
def Regs.land (protect : Bool) (rs : Regs) (p : Pend) : Regs :=
  let x := p.vals.getD 0 0
  match p.dest with
  | .v r => { rs with v := writeV rs.v r p.lanes p.vals }
  | .g r => if r = 0 then rs else { rs with g := Store.write rs.g r x }
  | .m r =>
    if r = 0 then rs
    else { rs with m := Store.write rs.m r ((Store.read rs.m r &&& ~~~p.lanes) ||| (x.setWidth 32 &&& p.lanes)) }
  | .gp r => if r = 0 then rs else { rs with gp := Store.write rs.gp r (x.setWidth 1) }
  | .flags => { rs with fpflags := rs.fpflags ||| x.setWidth 6 }
  | .fpflags => { rs with fpflags := x.setWidth 6 }
  | .srseed => { rs with srseed := x, fb := seedFb protect x }
  | .mxflags => { rs with mxflags := rs.mxflags &&& ~~~(x.setWidth 1) }
  | .tm _ => rs

/-- A lane register that results overwrite in every lane holds an error no more (R382). -/
def cleanRegs (bad : Tbl Unit) (ps : List Pend) : Tbl Unit :=
  bad.filter (fun r => !ps.any (fun p => p.dest == .v r.1 && p.lanes == ~~~0))

/-- A write of some lanes alone is merged with the register's other lanes; an uncorrectable error found there is
consumed (R155). -/
def Pend.merges (p : Pend) (bad : Tbl Unit) : Bool :=
  match p.dest with
  | .v r => Tbl.has bad r && p.lanes != 0 && p.lanes != ~~~0
  | _ => false
/-- The registers whose error such writes consume. -/
def mergesBad (bad : Tbl Unit) (ps : List Pend) : List Nat :=
  match ps with
  | [] => []
  | p :: r =>
    let rest := mergesBad (cleanRegs bad [p]) r
    match p.merges bad, p.dest with
    | true, .v n => n :: rest
    | _, _ => rest

/-- Uncorrectable errors are consumed: the gang is killed between clauses (R384, R385), and each is logged then (R387). -/
def Group.consume (g : Group) (es : List (Nat × Nat)) : Group :=
  { g with badState := g.badState || !es.isEmpty, errs := g.errs ++ es }

/-- Results are written to their registers, in order. -/
def Group.landAll (protect : Bool) (g : Group) (ps : List Pend) : Group :=
  { g.consume ((mergesBad g.badRegs ps).map (fun r => (0, r))) with
    regs := ps.foldl (Regs.land protect) g.regs
    badRegs := cleanRegs g.badRegs ps }

/-- Writes every pending result due at or before cycle `t`. -/
def Group.landUpTo (protect : Bool) (g : Group) (t : Nat) : Group :=
  { g.landAll protect (g.pend.filter (fun p => decide (p.due ≤ t))) with pend := g.pend.filter (fun p => decide (t < p.due)) }

/-- Writes the results whose cycle has passed, on the group's own count or its core's (R35). The core's never passes the
count of a group inside a clause (`State.countTo`). -/
def Group.landDue (protect : Bool) (cycles : Nat) (g : Group) : Group := g.landUpTo protect (max g.clk cycles)
/-- A group as an engine or a returning load finds it: the results whose cycle has passed are written, so that of two
writes of one register the later stands (R35). -/
def State.ripen (s : State) (k : GKey) : State := s.modGroup k (Group.landDue (s.protect k) (s.core (s.coreOf k)).cycles)

/-- Whether a pending result is of a register that a boundary state records (R147). -/
def Pend.recorded (p : Pend) : Bool :=
  match p.dest with
  | .flags => true
  | .fpflags => true
  | .srseed => true
  | _ => false

/-- Writes every pending result of a register that a cut-back leaves as it stands (R370). -/
def Group.landRegs (protect : Bool) (g : Group) : Group :=
  { g.landAll protect (g.pend.filter (fun p => !p.recorded)) with pend := g.pend.filter Pend.recorded }

/-- Flags that an engine raises in this cycle, for which every result due has been written: they are ORed into `$fpflags`
(R149) and into the boundary states that `p` picks, but into none whose closed task has a later write of `$fpflags` still
to come, which the record holds already (R147). -/
def Group.orFlags (g : Group) (p : Task → Bool) (fl : Flags) : Group :=
  let later (t : Task) : Bool := match t.snap.flagDue with
    | some d => g.pend.any (fun q => q.dest == .fpflags && q.due == d)
    | none => false
  { g with
    regs := { g.regs with fpflags := g.regs.fpflags ||| fl }
    tasks := g.tasks.map (fun (t : Task) =>
      if p t && !later t then { t with snap := { t.snap with fpflags := t.snap.fpflags ||| fl } } else t) }

/-- Adds a synchronous result of the word that issues now: written `lat` cycles later. -/
def Group.result (g : Group) (d : Dest) (lanes : Mask) (vals : List (BitVec 64)) (lat : Nat) : Group :=
  { g with pend := pendInsert g.pend ⟨d, lanes, vals, g.clk + lat⟩ }

/-- A read while a result is pending returns the old value or the new one; a free value decides (R35). -/
def choose (n k : Nat) (old new : BitVec 64) : BitVec 64 := if (Config.free n k).getLsbD 0 then new else old

/-- Lane register `r` in lane `l` as step `n` reads it. -/
def Group.readV (g : Group) (n r l : Nat) : BitVec 32 :=
  g.pend.foldl (fun old p =>
    match p.dest with
    | .v q =>
      if q = r && p.lanes.getLsbD l then
        (choose n (32 * r + l + 16384 * p.due) (old.setWidth 64) (p.vals.getD l 0)).setWidth 32
      else old
    | _ => old) (Store.read g.regs.v (32 * r + l))

/-- A 64-bit lane operand: the pair named by its even register (R27). -/
def Group.readPair (g : Group) (n r l : Nat) : BitVec 64 := g.readV n (r + 1) l ++ g.readV n r l

/-- Register `g r`; `g0` reads zero (R25). -/
def Group.readG (g : Group) (n r : Nat) : BitVec 64 :=
  if r = 0 then 0
  else g.pend.foldl (fun old p =>
    if p.dest = .g r then choose n (8192 + r + 16384 * p.due) old (p.vals.getD 0 0) else old)
    (Store.read g.regs.g r)

/-- Mask register `m r`; `m0` reads all ones. -/
def Group.readM (g : Group) (n r : Nat) : Mask :=
  if r = 0 then ~~~0
  else g.pend.foldl (fun old p =>
    if p.dest = .m r then
      maskBy (fun l =>
        if p.lanes.getLsbD l && (Config.free n (9000 + 32 * r + l + 16384 * p.due)).getLsbD 0 then
          (p.vals.getD 0 0).getLsbD l
        else old.getLsbD l)
    else old) (Store.read g.regs.m r)

/-- Group predicate `gp r`; `gp0` is true. -/
def Group.readGp (g : Group) (n r : Nat) : Bool :=
  if r = 0 then true
  else g.pend.foldl (fun old p =>
    if p.dest = .gp r then
      (if (Config.free n (8300 + r + 16384 * p.due)).getLsbD 0 then (p.vals.getD 0 0).getLsbD 0 else old)
    else old) ((Store.read g.regs.gp r).getLsbD 0)

/-! ## The word that a group issues -/

/-- A group's word as it issues: the state, the group, the clause and the word's place. -/
structure GW where
  s : State
  key : GKey
  g : Group
  iss : Issuing

/-- Puts the group back. -/
def GW.put (w : GW) (g : Group) : State := w.s.setGroup w.key g
def GW.n (w : GW) : Nat := w.s.now
def GW.protect (w : GW) : Bool := w.s.protect w.key
/-- Helper lanes of the issuing slot (R266): in the active mask and not live. -/
def GW.helpers (w : GW) : Mask := w.iss.act &&& ~~~w.iss.m
/-- A word of the clause with the lanes that are active at it. -/
def Issuing.seen (i : Issuing) (a : WordAt) : WordAt := { a with act := i.act, help := i.act &&& ~~~i.m }
/-- The word's place: what a trap report says of it. -/
def GW.at_ (w : GW) : WordAt := w.iss.seen (w.iss.words.getD w.iss.k ⟨0, 0, 0, 0, 0, 0⟩)
def GW.ctx (w : GW) : Nat := w.s.lctx w.key.launch
def GW.core (w : GW) : Nat := w.s.coreOf w.key
def GW.gran (w : GW) : Nat := (w.s.lrec w.key.launch).gran

/-- The effective mask of a lane instruction (R43). -/
def GW.eff (w : GW) (mask : BitVec 4) (neg : BitVec 1) : Mask :=
  let m := w.g.readM w.n mask.toNat
  w.iss.act &&& (if neg = 1 then ~~~m else m)

/-- The predicate of a group-wide instruction (R42): V3 bits 16:13, VI bits 35:32. -/
def GW.predV3 (w : GW) (f : V3) : Bool := w.g.readGp w.n (f.mask.extractLsb' 0 3).toNat != (f.neg == 1)
def GW.predBits (w : GW) (mask : BitVec 4) : Bool :=
  w.g.readGp w.n (mask.extractLsb' 0 3).toNat != mask.getLsbD 3

/-! ## Traps (R371 to R374) -/

namespace Cause
def illegalZero : BitVec 8 := 1
def illegalOpcode : BitVec 8 := 2
def reservedField : BitVec 8 := 3
def errataDisabled : BitVec 8 := 4
def starterFault : BitVec 8 := 5
def emitOverflow : BitVec 8 := 6
def emitDeadlock : BitVec 8 := 7
def sealInvalid : BitVec 8 := 8
def priceMismatch : BitVec 8 := 9
def segEnd : BitVec 8 := 10
def align : BitVec 8 := 11
def range : BitVec 8 := 12
def perm : BitVec 8 := 13
def eccUncorrected : BitVec 8 := 14
def shadowMismatch : BitVec 8 := 15
def divstackOverflow : BitVec 8 := 16
def teamBroken : BitVec 8 := 17
def barrierOverfill : BitVec 8 := 18
def software : BitVec 8 := 19
end Cause

def causeOf (r : Reject) : BitVec 8 :=
  match r with
  | .illegalZero => Cause.illegalZero
  | .illegalOpcode => Cause.illegalOpcode
  | .reservedField => Cause.reservedField

/-- The per-lane records of a report (R374) get their flags: active at the word, helper lane. -/
def WordAt.recs (a : WordAt) (rs : Tbl LaneRec) : Tbl LaneRec :=
  (List.range 32).filterMap (fun l =>
    let r := (Tbl.find rs l).getD ⟨0, 0, 0, 0, 0⟩
    let f := (if a.act.getLsbD l then 1 else 0) ||| (if a.help.getLsbD l then 2 else 0)
    let r := { r with flags := r.flags ||| f }
    if r = ⟨0, 0, 0, 0, 0⟩ then none else some (l, r))

/-- A trap of the whole word: no lane has a cause (R374). -/
def trapOf (cause : BitVec 8) (at_ : WordAt) : TrapInfo :=
  { cause, kill := false, brk := false, async := false, code := 0, word := at_, lanes := at_.recs [] }

/-! Memory fault kinds (R96). -/
namespace Kind
def noncanon : BitVec 8 := 1
def notmapped : BitVec 8 := 2
def write : BitVec 8 := 3
def malformed : BitVec 8 := 4
def unbacked : BitVec 8 := 5
def scratch : BitVec 8 := 6
def vault : BitVec 8 := 7
def vaultOwn : BitVec 8 := 8
def atomDev : BitVec 8 := 9
def noExec : BitVec 8 := 10
def wheyFull : BitVec 8 := 11
def linkDown : BitVec 8 := 12
end Kind

/-- The trap of a kind (R96). -/
def kindCause (k : BitVec 8) : BitVec 8 :=
  if k = Kind.noncanon || k = Kind.scratch || k = Kind.vault then Cause.range else Cause.perm

/-- Taking a trap: the group issues no further word, and the trap waits for its cut-back and report (GROUP_TRAP,
R371). A trap that already stands is kept. -/
def Group.raise (g : Group) (t : TrapInfo) : Group :=
  match g.trap with
  | some _ => g
  | none => { g with trap := some t, issuing := g.issuing.map (fun i => { i with halted := true }) }

def GW.trapWith (w : GW) (t : TrapInfo) : State := w.put (w.g.raise { t with lanes := t.word.recs t.lanes })
/-- A trap of the whole word (R374). -/
def GW.trap (w : GW) (cause : BitVec 8) : State := w.trapWith (trapOf cause w.at_)
/-- A trap of the whole word with a memory fault kind: the kind stands in lane 0's record, as R120 says, and no lane has a cause
or an address (R374). -/
def GW.trapKind (w : GW) (cause kind : BitVec 8) : State :=
  w.trapWith { trapOf cause w.at_ with lanes := [(0, ⟨0, kind, 0, 0, 0⟩)] }

/-- A group's word: `f` gives the next state. Without an issuing agent there is no step; a Starter context that
meets a word of another agent takes a level-1 fault (R56), given by `other`. -/
def asGroup (s : State) (other : State → Nat → Nat → State) (f : GW → State) :
    Host.Outcome State Fault Refusal :=
  match s.cur with
  | none => .fault .noIssuer
  | some (.str cl j) => .next (other s cl j)
  | some (.grp k) =>
    match s.group k with
    | none => .fault .noIssuer
    | some g =>
      match g.issuing with
      | none => .fault .noIssuer
      | some iss => .next (f ⟨s, k, g, iss⟩)

/-! ## Starter faults (R299) -/

/-- Taking a level-1 fault: the context stops with its registers as they stood, its fault registers are set, and
the host's Starter interrupt is raised (R299, R394). -/
def State.starterFault (s : State) (cl j : Nat) (cause sub kind : BitVec 8) (addr : BitVec 64)
    (core : BitVec 3) (pos : BitVec 14) : State :=
  let c := s.starter cl j
  (s.setStarter cl j
    { c with stopped := true, fvalid := true, cause, sub, kind, fcore := core, fpos := pos, fpc := c.pc,
             faddr := if sub = 1 || sub = 2 then addr else c.faddr }).hostInt 2

def State.starterReject (s : State) (cl j : Nat) (r : Reject) : State :=
  s.starterFault cl j (causeOf r) 0 0 0 0 0

/-! STARTER_FAULT sub-codes (R299). -/
namespace Sub
def memory : BitVec 8 := 1
def align : BitVec 8 := 2
def badseg : BitVec 8 := 3
def badarg : BitVec 8 := 4
def badpatch : BitVec 8 := 5
end Sub

/-- A group's word: a Starter context that meets it faults ILLEGAL_OPCODE (R56). -/
def grp (s : State) (f : GW → State) : Host.Outcome State Fault Refusal :=
  asGroup s (fun s cl j => s.starterReject cl j .illegalOpcode) f

/-- A Starter context's word as it executes (R280). -/
structure SW where
  s : State
  cl : Nat
  j : Nat
  c : SCtx

/-- A Starter word: a group that meets it traps ILLEGAL_OPCODE (R56). -/
def str (s : State) (f : SW → State) : Host.Outcome State Fault Refusal :=
  match s.cur with
  | none => .fault .noIssuer
  | some (.grp k) =>
    match s.group k with
    | none => .fault .noIssuer
    | some g =>
      match g.issuing with
      | none => .fault .noIssuer
      | some iss => .next ((GW.mk s k g iss).trap Cause.illegalOpcode)
  | some (.str cl j) => .next (f ⟨s, cl, j, s.starter cl j⟩)

/-! ## Tasks -/

/-- The open task, the last of the list. -/
def Group.openTask (g : Group) : Option Task := g.tasks.getLast?

/-- Changes the open task. -/
def modLast {α : Type} (f : α → α) : List α → List α
  | [] => []
  | [x] => [f x]
  | x :: y :: r => x :: modLast f (y :: r)
def Group.modOpen (g : Group) (f : Task → Task) : Group := { g with tasks := modLast f g.tasks }

def Group.tseq (g : Group) : BitVec 32 :=
  match g.openTask with
  | some t => t.tseq
  | none => 0

/-- Adds an effect that waits for the commit of the task this clause closes (R365). -/
def Group.addEff (g : Group) (e : Eff) : Group := g.modOpen (fun t => { t with effs := t.effs ++ [e] })

/-- The clause that issues closes the task (R365). -/
def Group.markBoundary (g : Group) : Group :=
  { g with issuing := g.issuing.map (fun i => { i with boundary := true }) }

/-- The cycle of the latest write to `$fpflags` that is still pending. -/
def Group.flagDue (g : Group) : Option Nat := ((g.pend.filter (fun p => p.dest == .fpflags)).getLast?).map Pend.due

/-- The boundary state of a group as it stands (R147, R199, R277, R365): flags with every result of the closed
task written. -/
def Group.snapshot (protect : Bool) (g : Group) (teams : Tbl (Nat × Option Outl)) : Snap :=
  let rs := g.pend.foldl (Regs.land protect) g.regs
  { ctl := g.ctl, fpflags := rs.fpflags, srseed := rs.srseed,
    fb := if g.pend.any (fun p => p.dest == .srseed) then rs.fb else g.regs.fb,
    closed := g.closed, teams, marks := g.marks, holds := g.holds, slotHolds := g.slotHolds,
    tx := g.txPend, txOpen := g.tx, nextId := g.nextId, q := g.q, flagDue := g.flagDue }

def Task.fresh (tseq : BitVec 32) (snap : Snap) : Task :=
  { tseq, closed := false, ver := [], pages := [], reds := [], devs := [], effs := [], txend := none,
    marks := snap.marks, used := false, scrFlag := false, asyncFlag := false, save := false, snap }

/-! ## Batches (R122) -/

def Group.closedOf (g : Group) (cls : Nat) : Nat := (Tbl.find g.closed cls).getD 0
/-- DONE: the highest n, not above CLOSED, with every operation of batches 1 to n complete. -/
def Group.doneOf (g : Group) (cls : Nat) : Nat :=
  let open_ := (g.ops.filter (fun o => o.cls == cls)).map BatchOp.batch
  open_.foldl (fun n b => min n (b - 1)) (g.closedOf cls)
/-- An asynchronous operation joins the open batch of its class. -/
def Group.joinBatch (g : Group) (cls id : Nat) : Group :=
  { g with ops := g.ops ++ [⟨cls, g.closedOf cls + 1, id⟩] }
def Group.completeOp (g : Group) (cls id : Nat) : Group :=
  { g with ops := g.ops.filter (fun o => !(o.cls == cls && o.id == id)) }
def Group.batchOf (g : Group) (cls id : Nat) : Nat :=
  match g.ops.find? (fun o => o.cls == cls && o.id == id) with
  | some o => o.batch
  | none => 0
def Group.fresh (g : Group) : Group × Nat := ({ g with nextId := g.nextId + 1 }, g.nextId)

/-- Paths of the group, and the masks of its slots (R265, R266). -/
def Ctl.slot (c : Ctl) (i : Nat) : Option Path := if i = 0 then c.slot0 else c.slot1
def Ctl.setSlot (c : Ctl) (i : Nat) (p : Option Path) : Ctl :=
  if i = 0 then { c with slot0 := p } else { c with slot1 := p }
/-- Helper lanes of a live mask: lanes in EXITED whose quad holds a live lane. With PROTECT a quad is four
visible lanes (R388). -/
def helpersOf (protect : Bool) (exited m : Mask) : Mask :=
  let q := if protect then 8 else 4
  maskBy (fun l => exited.getLsbD l && (List.range q).any (fun i => m.getLsbD (l / q * q + i)))

end Sys2Proof.Machine
end

