-- ==== Sys2Proof/Machine/Operands.lean ====
section
/-! DEFINITION. Operand forms (R27, R42, R43, R130, R152 to R154): how a word reads its operands lane by lane
and how its result reaches its destination. -/
namespace Sys2Proof.Machine
open Sys2Proof

/-- A lane operand of a type: one register, or the pair of a 64-bit type (R152). -/
def GW.opd (w : GW) (ty : BitVec 5) (r : BitVec 8) (l : Nat) : BitVec 64 :=
  if is64 ty then w.g.readPair w.n r.toNat l else (w.g.readV w.n r.toNat l).setWidth 64
/-- One lane register, whatever the type. -/
def GW.opd1 (w : GW) (r : BitVec 8) (l : Nat) : BitVec 64 := (w.g.readV w.n r.toNat l).setWidth 64
def GW.opdG (w : GW) (r : BitVec 8) : BitVec 64 := w.g.readG w.n r.toNat

/-- Thirty-two lane values from a function of the lane. -/
def byLane (f : Nat → BitVec 64) : List (BitVec 64) := (List.range 32).map f

/-- A lane result into register `r`, or into the pair when `wide`, in the lanes of `lanes` (R153). -/
def Group.resultV (g : Group) (r : BitVec 8) (wide : Bool) (lanes : Mask) (f : Nat → BitVec 64) (lat : Nat) :
    Group :=
  let g1 := g.result (.v r.toNat) lanes (byLane f) lat
  if wide then g1.result (.v (r.toNat + 1)) lanes (byLane (fun l => f l >>> 32)) lat else g1

def Group.resultG (g : Group) (r : BitVec 8) (x : BitVec 64) (lat : Nat) : Group := g.result (.g r.toNat) 0 [x] lat
def Group.resultGp (g : Group) (r : BitVec 8) (b : Bool) (lat : Nat) : Group :=
  g.result (.gp r.toNat) 0 [if b then 1 else 0] lat
/-- A mask result: the bits of `lanes` take those of `x` (R153). -/
def Group.resultM (g : Group) (r : BitVec 8) (lanes x : Mask) (lat : Nat) : Group :=
  g.result (.m r.toNat) lanes [x.setWidth 64] lat

/-- The lane a movement instruction reads for lane `l`: `f` is given the lane and the number of lanes, which are
visible lanes under PROTECT (R388). -/
def srcLane (protect : Bool) (f : Nat → Nat → Nat) (l : Nat) : Nat :=
  if protect then 2 * f (l / 2) 16 + l % 2 else f l 32

/-- Lanes that count once in a reduction: every lane, or the primary lane of each pair (R388). -/
def primary (protect : Bool) (m : Mask) : Mask := if protect then m &&& 0x55555555 else m

/-- Sixteen visible bits of a mask, and the mask whose pairs hold them (R388). -/
def compressMask (protect : Bool) (m : Mask) : BitVec 32 :=
  if protect then
    BitVec.ofNat 32 ((List.range 16).foldl (fun a i => if m.getLsbD (2 * i) then a + 2 ^ i else a) 0)
  else m
def spreadMask (protect : Bool) (x : BitVec 32) : Mask :=
  if protect then maskBy (fun l => x.getLsbD (l / 2)) else x

/-- Pairs whose two lanes disagree under PROTECT (R388), by primary lane. -/
def mismatches (protect : Bool) (lanes : Mask) (p : Nat → BitVec 64) : List Nat :=
  if protect then
    ((List.range 16).map (2 * ·)).filter (fun l =>
      (lanes.getLsbD l || lanes.getLsbD (l + 1)) &&
        (lanes.getLsbD l != lanes.getLsbD (l + 1) || p l != p (l + 1)))
  else []

/-- SHADOW_MISMATCH: every pair that disagreed carries the cause in its primary lane's record (R388). -/
def GW.trapShadow (w : GW) (ls : List Nat) : State :=
  w.trapWith { trapOf Cause.shadowMismatch w.at_ with
    lanes := ls.map (fun l => (l, ⟨0, 0, Cause.shadowMismatch, 0, 0⟩)) }

/-- Runs `k` unless two lanes of a pair disagree on `p` in `lanes` (R388). -/
def GW.compared (w : GW) (lanes : Mask) (p : Nat → BitVec 64) (k : State) : State :=
  match mismatches w.protect lanes p with
  | [] => k
  | ls => w.trapShadow ls

end Sys2Proof.Machine
end

