-- ==== Sys2Proof/Machine/Flags.lean ====
section
/-! DEFINITION. How instructions raise flags (R148, R149, R154) and step the feedback registers (R145), and the
three shapes of lane instruction built on them. -/
namespace Sys2Proof.Machine
open Sys2Proof

/-- Flags raised by the word, written with its result (R149). -/
def Group.raiseFlags (g : Group) (f : Flags) (lat : Nat) : Group :=
  if f = 0 then g else g.result .flags 0 [f.setWidth 64] lat

/-- The OR of a lane's flags over the lanes of a mask (R148). -/
def orFlags (lanes : Mask) (f : Nat → Flags) : Flags := (lanesOf lanes).foldl (fun a l => a ||| f l) 0

def Group.fb (g : Group) (l : Nat) : BitVec 32 := Store.read g.regs.fb l
/-- The feedback register after `n` steps. -/
def fbSteps (n : Nat) (x : BitVec 32) : BitVec 32 :=
  match n with
  | 0 => x
  | n + 1 => fbSteps n (fbStep x)
/-- U of element `i` of a lane (R145). -/
def Group.u (g : Group) (l i : Nat) : Nat := fbU (fbSteps i (g.fb l))
/-- The registers step once for each element in every lane of the effective mask, in the issue cycle (R145). -/
def Group.stepFb (g : Group) (rm : BitVec 3) (lanes : Mask) (elems : Nat) : Group :=
  if rm = 5 then
    { g with regs := { g.regs with
        fb := (lanesOf lanes).foldl (fun t l => Store.write t l (fbSteps elems (Store.read t l))) g.regs.fb } }
  else g

/-- A lane instruction: each lane of `eff` writes its value; lanes that are no helper lanes raise flags. -/
def GW.laneOp (w : GW) (d : BitVec 8) (wide : Bool) (eff : Mask) (lat : Nat) (f : Nat → BitVec 64 × Flags) :
    State :=
  let g := w.g.resultV d wide eff (fun l => if eff.getLsbD l then (f l).1 else 0) lat
  w.put (g.raiseFlags (orFlags (eff &&& ~~~w.helpers) (fun l => (f l).2)) lat)

/-- A lane instruction that rounds: `f` is given the lane and U (R145). -/
def GW.roundOp (w : GW) (d : BitVec 8) (wide : Bool) (eff : Mask) (lat : Nat) (rm : BitVec 3) (elems : Nat)
    (f : Nat → BitVec 64 × Flags) : State :=
  let g := w.g.resultV d wide eff (fun l => if eff.getLsbD l then (f l).1 else 0) lat
  let g := g.raiseFlags (orFlags (eff &&& ~~~w.helpers) (fun l => (f l).2)) lat
  w.put (g.stepFb rm eff elems)

/-- A compare: bit L of the mask is written in the lanes of `eff` (R153); under PROTECT both lanes of a pair are
compared (R388). -/
def GW.maskOp (w : GW) (d : BitVec 8) (eff : Mask) (lat : Nat) (f : Nat → Bool × Flags) : State :=
  w.compared eff (fun l => if (f l).1 then 1 else 0)
    (let g := w.g.resultM d eff (maskBy (fun l => eff.getLsbD l && (f l).1)) lat
     w.put (g.raiseFlags (orFlags (eff &&& ~~~w.helpers) (fun l => (f l).2)) lat))

/-- A group-wide instruction: a false predicate makes it a `nop` (R42). -/
def GW.grpOp (w : GW) (p : Bool) (k : State) : State := if p then k else w.s

end Sys2Proof.Machine
end

