-- ==== Sys2Proof/Machine/LaneInt.lean ====
section
/-! DEFINITION. Lane integer instructions, major opcodes 0x01 to 0x05 (R156 to R160). -/
namespace Sys2Proof.Machine
open Sys2Proof

abbrev Out := Host.Outcome State Fault Refusal

/-- Latency by type: the figure in brackets for 64-bit types (R45). -/
def latI (ty : BitVec 5) (a b : Nat) : Nat := if is64 ty then b else a

/-- A lane operand as an exact integer of the word's type. -/
def GW.int (w : GW) (f : V3) (r : BitVec 8) (l : Nat) : Int := readInt f.ty.toNat (w.opd f.ty r l)
/-- A lane operand as the bit pattern of the word's type. -/
def GW.nat (w : GW) (f : V3) (r : BitVec 8) (l : Nat) : Nat := readNat f.ty.toNat (w.opd f.ty r l)

/-- A result that wraps, or clamps with `.sat` and then raises bit 5 (R156). -/
def fitF (f : V3) (x : Int) : BitVec 64 × Flags :=
  let (v, c) := fitInt f.ty.toNat (f.sat == 1) x
  (v, flagIf c flIntSat)

/-! ## Arithmetic (R156) -/

def execAdd1 (fn : Nat) (f : V3) (s : State) : Out :=
  grp s fun w => w.laneOp f.d (is64 f.ty) (w.eff f.mask f.neg) 2 fun l =>
    fitF f (addExact fn (w.int f f.a l) (w.int f f.b l))

def execVadd (f : V3) (s : State) : Out := execAdd1 0 f s
def execVsub (f : V3) (s : State) : Out := execAdd1 1 f s
def execVmin (f : V3) (s : State) : Out := execAdd1 2 f s
def execVmax (f : V3) (s : State) : Out := execAdd1 3 f s
def execVabs (f : V3) (s : State) : Out := execAdd1 4 f s
def execVneg (f : V3) (s : State) : Out := execAdd1 5 f s
def execVabsd (f : V3) (s : State) : Out := execAdd1 6 f s
def execVavg (f : V3) (s : State) : Out := execAdd1 7 f s

/-! ## Logic, shifts, bitfields, byte permute (R157) -/

/-- A result that is a bit pattern of the type's width. -/
def execPat (f : V3) (s : State) (k : GW → Nat → Nat) : Out :=
  grp s fun w => w.laneOp f.d (is64 f.ty) (w.eff f.mask f.neg) 2 fun l => (writeNat f.ty.toNat (k w l), 0)
/-- A result of 32 bits whatever the type (R152). -/
def execPat32 (f : V3) (s : State) (k : GW → Nat → Nat) : Out :=
  grp s fun w => w.laneOp f.d false (w.eff f.mask f.neg) 2 fun l => (BitVec.ofNat 64 (k w l), 0)

/-- The width of the word's type. -/
def wOf (f : V3) : Nat := tyWidth f.ty.toNat

def execVand (f : V3) (s : State) : Out := execPat f s fun w l => logicNat 0 (wOf f) (w.nat f f.a l) (w.nat f f.b l)
def execVor (f : V3) (s : State) : Out := execPat f s fun w l => logicNat 1 (wOf f) (w.nat f f.a l) (w.nat f f.b l)
def execVxor (f : V3) (s : State) : Out := execPat f s fun w l => logicNat 2 (wOf f) (w.nat f f.a l) (w.nat f f.b l)
def execVandn (f : V3) (s : State) : Out := execPat f s fun w l => logicNat 3 (wOf f) (w.nat f f.a l) (w.nat f f.b l)
def execVnot (f : V3) (s : State) : Out := execPat f s fun w l => logicNat 4 (wOf f) (w.nat f f.a l) (w.nat f f.b l)
def execVshl (f : V3) (s : State) : Out := execPat f s fun w l => shlNat (wOf f) (w.nat f f.a l) (w.opd1 f.b l).toNat
def execVshr (f : V3) (s : State) : Out := execPat f s fun w l => shrNat (wOf f) (w.nat f f.a l) (w.opd1 f.b l).toNat
def execVsra (f : V3) (s : State) : Out := execPat f s fun w l => sraNat (wOf f) (w.nat f f.a l) (w.opd1 f.b l).toNat
def execVrol (f : V3) (s : State) : Out := execPat f s fun w l => rolNat (wOf f) (w.nat f f.a l) (w.opd1 f.b l).toNat
def execVbext (f : V3) (s : State) : Out :=
  execPat f s fun w l => bextNat (wOf f) (w.nat f f.a l) (w.opd1 f.b l).toNat
def execVbins (f : V3) (s : State) : Out :=
  execPat f s fun w l => binsNat (wOf f) (w.nat f f.a l) (w.opd1 f.b l).toNat (w.nat f f.c l)
def execVpopc (f : V3) (s : State) : Out := execPat32 f s fun w l => popcNat (w.nat f f.a l)
def execVclz (f : V3) (s : State) : Out := execPat32 f s fun w l => clzNat (wOf f) (w.nat f f.a l)
def execVbrev (f : V3) (s : State) : Out := execPat f s fun w l => brevNat (wOf f) (w.nat f f.a l)
def execVperm (f : V3) (s : State) : Out :=
  execPat32 f s fun w l => permNat (w.opd1 f.a l).toNat (w.opd1 f.b l).toNat (w.opd1 f.c l).toNat

/-! ## Compare to mask (R158) -/

def execCmp (fn : Nat) (f : V3) (s : State) : Out :=
  grp s fun w => w.maskOp f.d (w.eff f.mask f.neg) 2 fun l =>
    (cmpInt fn (w.int f f.a l) (w.int f f.b l) (w.nat f f.a l) (w.nat f f.b l), 0)

def execVceq (f : V3) (s : State) : Out := execCmp 0 f s
def execVcne (f : V3) (s : State) : Out := execCmp 1 f s
def execVclt (f : V3) (s : State) : Out := execCmp 2 f s
def execVcle (f : V3) (s : State) : Out := execCmp 3 f s
def execVcgt (f : V3) (s : State) : Out := execCmp 4 f s
def execVcge (f : V3) (s : State) : Out := execCmp 5 f s
def execVtest (f : V3) (s : State) : Out := execCmp 6 f s

/-! ## Multiply, divide, dot product (R159) -/

/-- `vmul` and `vmad`: the exact product and sum, wrapped or clamped. -/
def execMulAdd (f : V3) (s : State) (k : GW → Nat → Int) : Out :=
  grp s fun w => w.laneOp f.d (is64 f.ty) (w.eff f.mask f.neg) (latI f.ty 4 6) fun l => fitF f (k w l)
def execVmul (f : V3) (s : State) : Out := execMulAdd f s fun w l => w.int f f.a l * w.int f f.b l
def execVmad (f : V3) (s : State) : Out :=
  execMulAdd f s fun w l => w.int f f.a l * w.int f f.b l + w.int f f.c l
/-- `vmulhi` and `vmadhi`: they always fit. -/
def execMulHi (f : V3) (s : State) (k : GW → Nat → Int) : Out :=
  grp s fun w => w.laneOp f.d (is64 f.ty) (w.eff f.mask f.neg) (latI f.ty 4 6) fun l =>
    (writeInt f.ty.toNat (hiInt f.ty.toNat (k w l)), 0)
def execVmulhi (f : V3) (s : State) : Out := execMulHi f s fun w l => w.int f f.a l * w.int f f.b l
def execVmadhi (f : V3) (s : State) : Out :=
  execMulHi f s fun w l => w.int f f.a l * w.int f f.b l + w.int f f.c l
/-- `vmulw`: the exact product into the pair. -/
def execVmulw (f : V3) (s : State) : Out :=
  grp s fun w => w.laneOp f.d true (w.eff f.mask f.neg) 6 fun l =>
    (BitVec.ofInt 64 (w.int f f.a l * w.int f f.b l), 0)
/-- `vmadw`: c is a pair read as 64 bits; the sum is modulo 2^64, whatever its signedness. -/
def execVmadw (f : V3) (s : State) : Out :=
  grp s fun w => w.laneOp f.d true (w.eff f.mask f.neg) 6 fun l =>
    (BitVec.ofInt 64 (w.int f f.a l * w.int f f.b l + (w.g.readPair w.n f.c.toNat l).toNat), 0)
def execVdiv (f : V3) (s : State) : Out :=
  grp s fun w => w.laneOp f.d (is64 f.ty) (w.eff f.mask f.neg) (latI f.ty 20 36) fun l =>
    (writeInt f.ty.toNat (divInt f.ty.toNat (w.int f f.a l) (w.int f f.b l)).1, 0)
def execVrem (f : V3) (s : State) : Out :=
  grp s fun w => w.laneOp f.d (is64 f.ty) (w.eff f.mask f.neg) (latI f.ty 20 36) fun l =>
    (writeInt f.ty.toNat (divInt f.ty.toNat (w.int f f.a l) (w.int f f.b l)).2, 0)
/-- `vdot4`: c and d are `i32` for `i8` and `n32` for `n8`. -/
def execVdot4 (f : V3) (s : State) : Out :=
  grp s fun w => w.laneOp f.d false (w.eff f.mask f.neg) 4 fun l =>
    let t := f.ty.toNat + 2
    let (v, c) := fitInt t (f.sat == 1)
      (dot4 f.ty.toNat (w.opd1 f.a l) (w.opd1 f.b l) (readInt t (w.opd1 f.c l)))
    (v, flagIf c flIntSat)

/-! ## Immediate forms (R160): 32 bits, no flag -/

def execImm (lat : Nat) (f : VI) (s : State) (k : BitVec 32 → BitVec 32 → BitVec 32) : Out :=
  grp s fun w => w.laneOp f.d false (w.eff f.mask 0) lat fun l =>
    ((k (w.g.readV w.n f.a.toNat l) f.imm).setWidth 64, 0)
def execCmpImm (f : VI) (s : State) (k : BitVec 32 → BitVec 32 → Bool) : Out :=
  grp s fun w => w.maskOp f.d (w.eff f.mask 0) 2 fun l => (k (w.g.readV w.n f.a.toNat l) f.imm, 0)

def execVaddi (f : VI) (s : State) : Out := execImm 2 f s fun a i => a + i
def execVandi (f : VI) (s : State) : Out := execImm 2 f s fun a i => a &&& i
def execVori (f : VI) (s : State) : Out := execImm 2 f s fun a i => a ||| i
def execVxori (f : VI) (s : State) : Out := execImm 2 f s fun a i => a ^^^ i
def execVshli (f : VI) (s : State) : Out :=
  execImm 2 f s fun a i => BitVec.ofNat 32 (shlNat 32 a.toNat i.toNat)
def execVshri (f : VI) (s : State) : Out :=
  execImm 2 f s fun a i => BitVec.ofNat 32 (shrNat 32 a.toNat i.toNat)
def execVsrai (f : VI) (s : State) : Out :=
  execImm 2 f s fun a i => BitVec.ofNat 32 (sraNat 32 a.toNat i.toNat)
def execVminiI32 (f : VI) (s : State) : Out := execImm 2 f s fun a i => if a.toInt ≤ i.toInt then a else i
def execVmaxiI32 (f : VI) (s : State) : Out := execImm 2 f s fun a i => if a.toInt ≤ i.toInt then i else a
def execVminiN32 (f : VI) (s : State) : Out := execImm 2 f s fun a i => if a.toNat ≤ i.toNat then a else i
def execVmaxiN32 (f : VI) (s : State) : Out := execImm 2 f s fun a i => if a.toNat ≤ i.toNat then i else a
def execVmuli (f : VI) (s : State) : Out := execImm 4 f s fun a i => a * i
def execVmovi (f : VI) (s : State) : Out := execImm 2 f s fun _ i => i
def execVceqi (f : VI) (s : State) : Out := execCmpImm f s fun a i => a == i
def execVcltiI32 (f : VI) (s : State) : Out := execCmpImm f s fun a i => decide (a.toInt < i.toInt)
def execVcltiN32 (f : VI) (s : State) : Out := execCmpImm f s fun a i => decide (a.toNat < i.toNat)
def execVcgtiI32 (f : VI) (s : State) : Out := execCmpImm f s fun a i => decide (i.toInt < a.toInt)
def execVcgtiN32 (f : VI) (s : State) : Out := execCmpImm f s fun a i => decide (i.toNat < a.toNat)

end Sys2Proof.Machine
end

