-- ==== Sys2Proof/Machine/LaneFp.lean ====
section
/-! DEFINITION. Lane floating point, major opcodes 0x08 to 0x0C (R150, R151, R161 to R169). -/
namespace Sys2Proof.Machine
open Sys2Proof

/-- A lane operand as the bits of the word's floating type, and as its value. -/
def GW.fbits (w : GW) (f : V3) (r : BitVec 8) (l : Nat) : Nat := (w.opd1 r l).toNat % 2 ^ tyWidth f.ty.toNat
def GW.fval (w : GW) (f : V3) (r : BitVec 8) (l : Nat) : FVal := fDecode f.ty.toNat (w.fbits f r l)
def outF (r : Nat × Flags) : BitVec 64 × Flags := (BitVec.ofNat 64 r.1, r.2)

/-- A rounding operation: `k` is given the word, the lane and U (R145, R161). -/
def execRound (lat : Nat) (f : V3) (s : State) (k : GW → Nat → Nat → Nat × Flags) : Out :=
  grp s fun w => w.roundOp f.d false (w.eff f.mask f.neg) lat f.rm 1 fun l => outF (k w l (w.g.u l 0))
/-- An operation that does not round. -/
def execF (lat : Nat) (f : V3) (s : State) (k : GW → Nat → Nat × Flags) : Out :=
  grp s fun w => w.laneOp f.d false (w.eff f.mask f.neg) lat fun l => outF (k w l)

/-! ## Arithmetic (R161 to R163) -/

def execVfadd (f : V3) (s : State) : Out :=
  execRound 4 f s fun w l u => fAdd f.ty.toNat f.rm.toNat u (w.fval f f.a l) (w.fval f f.b l)
def execVfsub (f : V3) (s : State) : Out :=
  execRound 4 f s fun w l u => fAdd f.ty.toNat f.rm.toNat u (w.fval f f.a l) (fNegV (w.fval f f.b l))
def execVfmul (f : V3) (s : State) : Out :=
  execRound 4 f s fun w l u => fMul f.ty.toNat f.rm.toNat u (w.fval f f.a l) (w.fval f f.b l)
def execVfma (f : V3) (s : State) : Out :=
  execRound 4 f s fun w l u =>
    fFma f.ty.toNat f.rm.toNat u (w.fval f f.a l) (w.fval f f.b l) (w.fval f f.c l)
def execVfmin (f : V3) (s : State) : Out :=
  execF 2 f s fun w l => fMinMax false f.ty.toNat (w.fbits f f.a l) (w.fbits f f.b l)
def execVfmax (f : V3) (s : State) : Out :=
  execF 2 f s fun w l => fMinMax true f.ty.toNat (w.fbits f f.a l) (w.fbits f f.b l)
/-- Bit operations: no flag, payloads pass (R162). -/
def execVfabs (f : V3) (s : State) : Out :=
  execF 2 f s fun w l => (w.fbits f f.a l % fSignBit f.ty.toNat, 0)
def execVfneg (f : V3) (s : State) : Out :=
  execF 2 f s fun w l => (w.fbits f f.a l ^^^ fSignBit f.ty.toNat, 0)
def execVfrnd (f : V3) (s : State) : Out :=
  execRound 4 f s fun w l u => fRint f.ty.toNat f.rm.toNat u (w.fval f f.a l)

/-! ## Compare and classify (R164) -/

def execFcmp (fn : Nat) (f : V3) (s : State) : Out :=
  grp s fun w => w.maskOp f.d (w.eff f.mask f.neg) 2 fun l => fCompare fn (w.fval f f.a l) (w.fval f f.b l)

def execVfceq (f : V3) (s : State) : Out := execFcmp 0 f s
def execVfcne (f : V3) (s : State) : Out := execFcmp 1 f s
def execVfclt (f : V3) (s : State) : Out := execFcmp 2 f s
def execVfcle (f : V3) (s : State) : Out := execFcmp 3 f s
def execVfcgt (f : V3) (s : State) : Out := execFcmp 4 f s
def execVfcge (f : V3) (s : State) : Out := execFcmp 5 f s
def execVfcun (f : V3) (s : State) : Out := execFcmp 6 f s
def execVfclass (f : V3) (s : State) : Out :=
  execF 2 f s fun w l => (fClass f.ty.toNat (w.fbits f f.a l), 0)

/-! ## Conversions, packs, unpack and block scale (R150, R151, R165 to R167) -/

def execVcvt (src : BitVec 4) (f : V3) (s : State) : Out :=
  grp s fun w => w.roundOp f.d (is64 f.ty) (w.eff f.mask f.neg) 4 f.rm 1 fun l =>
    let a := if src == 3 || src == 7 then w.g.readPair w.n f.a.toNat l else w.opd1 f.a l
    cvt src.toNat f.ty.toNat f.rm.toNat (f.sat == 1) (w.g.u l 0) a

/-- Elements of `width` bits packed from low to high, and the OR of their flags. -/
def packElems (width : Nat) (xs : List (BitVec 64 × Flags)) : BitVec 64 × Flags :=
  match xs with
  | [] => (0, 0)
  | (v, f) :: r =>
    let (u, g) := packElems width r
    (BitVec.ofNat 64 (v.toNat % 2 ^ width + 2 ^ width * u.toNat), f ||| g)

/-- A pack of `n` elements (R165): element i converts the source `k i`, in ascending order of i. -/
def execPack (n width src : Nat) (f : V3) (s : State) (k : GW → Nat → Nat → BitVec 64) : Out :=
  grp s fun w => w.roundOp f.d false (w.eff f.mask f.neg) 4 f.rm n fun l =>
    packElems width ((List.range n).map fun i =>
      cvt src f.ty.toNat f.rm.toNat (f.sat == 1) (w.g.u l i) (k w l i))

def execVpack2 (f : V3) (s : State) : Out :=
  execPack 2 16 10 f s fun w l i => w.opd1 (if i = 0 then f.a else f.b) l
/-- `i8` elements take `i32` sources and `n8` elements `n32` sources (R165). -/
def execVpack4 (f : V3) (s : State) : Out :=
  execPack 4 8 (if f.ty = 0 then 2 else if f.ty = 4 then 6 else 10) f s fun w l i =>
    (w.g.readV w.n (f.a.toNat + i) l).setWidth 64
def execVpack8 (f : V3) (s : State) : Out :=
  execPack 8 4 10 f s fun w l i => (w.g.readV w.n (f.a.toNat + i) l).setWidth 64

/-- Element c of a word, widened (R166): integers to 32 bits, the rest to f32, exact. -/
def unpackElem (ty c : Nat) (raw : BitVec 64) : BitVec 64 × Flags :=
  let x := raw >>> (tyWidth ty * c)
  if ty = 0 || ty = 4 then (writeInt ty (readInt ty x), 0)
  else outF (cvtF 10 0 false 0 (fDecode ty (x.toNat % 2 ^ tyWidth ty)))
def execVunpk (f : V3) (s : State) : Out :=
  grp s fun w => w.laneOp f.d false (w.eff f.mask f.neg) 4 fun l => unpackElem f.ty.toNat f.c.toNat (w.opd1 f.a l)

/-- One scale for the whole group from the lanes of the effective mask that are no helper lanes (R167). -/
def execVmxscale (f : V3) (s : State) : Out :=
  grp s fun w =>
    let eff := w.eff f.mask f.neg
    let (x, fl) := mxScale ((lanesOf (eff &&& ~~~w.helpers)).map fun l => fDecode 10 (w.opd1 f.a l).toNat)
    w.put ((w.g.resultV f.d false eff (fun _ => BitVec.ofNat 64 x) 8).raiseFlags fl 8)

/-! ## Special functions (R168) -/

def execSpecial (fn : Nat) (f : V3) (s : State) : Out :=
  execF 8 f s fun w l => fSpecial fn f.ty.toNat (w.fbits f f.a l)

def execVrcp (f : V3) (s : State) : Out := execSpecial 0 f s
def execVrsq (f : V3) (s : State) : Out := execSpecial 1 f s
def execVexp2 (f : V3) (s : State) : Out := execSpecial 3 f s
def execVlog2 (f : V3) (s : State) : Out := execSpecial 4 f s
def execVsin (f : V3) (s : State) : Out := execSpecial 5 f s
def execVcos (f : V3) (s : State) : Out := execSpecial 6 f s
def execVtanh (f : V3) (s : State) : Out := execSpecial 7 f s
def execVsigm (f : V3) (s : State) : Out := execSpecial 8 f s
def execVsqrt (f : V3) (s : State) : Out :=
  execRound 8 f s fun w l u => fSqrt f.ty.toNat f.rm.toNat u (w.fval f f.a l)
def execVfdiv (f : V3) (s : State) : Out :=
  execRound 12 f s fun w l u => fDiv f.ty.toNat f.rm.toNat u (w.fval f f.a l) (w.fval f f.b l)

/-! ## Floating immediates (R169) -/

def execFImm (lat : Nat) (f : VI) (s : State) (k : Nat → Nat → Nat × Flags) : Out :=
  grp s fun w => w.laneOp f.d false (w.eff f.mask 0) lat fun l => outF (k (w.opd1 f.a l).toNat f.imm.toNat)
def execVfaddi (f : VI) (s : State) : Out := execFImm 4 f s fun a i => fAdd 10 0 0 (fDecode 10 a) (fDecode 10 i)
def execVfmuli (f : VI) (s : State) : Out := execFImm 4 f s fun a i => fMul 10 0 0 (fDecode 10 a) (fDecode 10 i)
def execVfmini (f : VI) (s : State) : Out := execFImm 2 f s fun a i => fMinMax false 10 a i
def execVfmaxi (f : VI) (s : State) : Out := execFImm 2 f s fun a i => fMinMax true 10 a i
def execVfmovi (f : VI) (s : State) : Out := execFImm 2 f s fun _ i => (i, 0)

end Sys2Proof.Machine
end

