-- ==== Sys2Proof/Machine/LaneMove.lean ====
section
/-! DEFINITION. Lane movement, masks, group-wide arithmetic, and transfers between lanes and the group: major
opcodes 0x10 to 0x15 (R170 to R178). -/
namespace Sys2Proof.Machine
open Sys2Proof

/-! ## Quads and lane movement (R170) -/

/-- Lane L receives the 32 bits of v[A] from the lane `k` names, whatever that lane's mask state. -/
def execMove (f : V3) (s : State) (k : GW → Nat → Nat → Nat) : Out :=
  grp s fun w => w.laneOp f.d false (w.eff f.mask f.neg) 4 fun l =>
    (w.opd1 f.a (srcLane w.protect (fun i n => k w i n) l), 0)
def execVqxh (f : V3) (s : State) : Out := execMove f s fun _ i _ => i ^^^ 1
def execVqxv (f : V3) (s : State) : Out := execMove f s fun _ i _ => i ^^^ 2
def execVqxd (f : V3) (s : State) : Out := execMove f s fun _ i _ => i ^^^ 3
def execVqbc (f : V3) (s : State) : Out := execMove f s fun _ i _ => i / 4 * 4 + f.c.toNat
/-- `vshfl`: the index is bits 4:0 of b in the reading lane, a visible lane under PROTECT (R388). -/
def execVshfl (f : V3) (s : State) : Out :=
  grp s fun w => w.laneOp f.d false (w.eff f.mask f.neg) 4 fun l =>
    let i := (w.opd1 f.b l).toNat
    (w.opd1 f.a (if w.protect then 2 * (i % 16) + l % 2 else i % 32), 0)
def execVshup (f : V3) (s : State) : Out := execMove f s fun _ i _ => if i < f.c.toNat then i else i - f.c.toNat
def execVshdn (f : V3) (s : State) : Out := execMove f s fun _ i n => if n ≤ i + f.c.toNat then i else i + f.c.toNat
def execVshxor (f : V3) (s : State) : Out := execMove f s fun _ i _ => i ^^^ f.c.toNat
def execVbcast (f : V3) (s : State) : Out := execMove f s fun _ _ _ => f.c.toNat
def execVsel (f : V3) (s : State) : Out :=
  grp s fun w =>
    let m := w.g.readM w.n f.c.toNat
    w.laneOp f.d (is64 f.ty) (w.eff f.mask f.neg) 2 fun l =>
      (if m.getLsbD l then w.opd f.ty f.a l else w.opd f.ty f.b l, 0)

/-! ## Masks (R171) -/

/-- A mask result over all 32 bits, under a group predicate. -/
def execMask (f : V3) (s : State) (k : GW → Mask) : Out :=
  grp s fun w => w.grpOp (w.predV3 f)
    (w.compared (~~~0) (fun l => if (k w).getLsbD l then 1 else 0) (w.put (w.g.resultM f.d (~~~0) (k w) 2)))
def GW.mreg (w : GW) (r : BitVec 8) : Mask := w.g.readM w.n r.toNat
def execMand (f : V3) (s : State) : Out := execMask f s fun w => w.mreg f.a &&& w.mreg f.b
def execMor (f : V3) (s : State) : Out := execMask f s fun w => w.mreg f.a ||| w.mreg f.b
def execMxor (f : V3) (s : State) : Out := execMask f s fun w => w.mreg f.a ^^^ w.mreg f.b
def execMandn (f : V3) (s : State) : Out := execMask f s fun w => w.mreg f.a &&& ~~~w.mreg f.b
def execMnot (f : V3) (s : State) : Out := execMask f s fun w => ~~~w.mreg f.a
def execMmov (f : V3) (s : State) : Out := execMask f s fun w => w.mreg f.a
/-- `mfromv`: bit L of the slot's active lanes says whether v[A][L] is not zero. -/
def execMfromv (f : V3) (s : State) : Out :=
  grp s fun w => w.grpOp (w.predV3 f) (w.maskOp f.d w.iss.act 2 fun l => (w.opd1 f.a l != 0, 0))
def execMtov (f : V3) (s : State) : Out :=
  grp s fun w => w.grpOp (w.predV3 f)
    (w.laneOp f.d false w.iss.act 2 fun l => (if (w.mreg f.a).getLsbD l then 1 else 0, 0))
def execMfromg (f : V3) (s : State) : Out :=
  execMask f s fun w => spreadMask w.protect ((w.opdG f.a).setWidth 32)

/-- A `g` result under a group predicate. -/
def execGOp (lat : Nat) (f : V3) (s : State) (k : GW → BitVec 64) : Out :=
  grp s fun w => w.grpOp (w.predV3 f) (w.put (w.g.resultG f.d (k w) lat))
/-- `mtog`, `mpopc` and `mffs` read all 32 bits, a helper's among them (R171; DESIGN CHOICE, log entry 81). -/
def execMtog (f : V3) (s : State) : Out :=
  execGOp 2 f s fun w => (compressMask w.protect (w.mreg f.a)).setWidth 64
def execMpopc (f : V3) (s : State) : Out :=
  execGOp 2 f s fun w => BitVec.ofNat 64 (popcNat (compressMask w.protect (w.mreg f.a)).toNat)
/-- Index of the lowest set bit, or 32 if none. -/
def ffsNat (x : BitVec 32) : Nat := ((List.range 32).find? fun i => x.getLsbD i).getD 32
def execMffs (f : V3) (s : State) : Out :=
  execGOp 2 f s fun w => BitVec.ofNat 64 (ffsNat (compressMask w.protect (w.mreg f.a)))

/-! ## Group-wide arithmetic (R172, R173) -/

def execG (fn lat : Nat) (f : V3) (s : State) : Out :=
  execGOp lat f s fun w => gArith fn (w.opdG f.a) (w.opdG f.b) (w.opdG f.d)
def execGadd (f : V3) (s : State) : Out := execG 0 2 f s
def execGsub (f : V3) (s : State) : Out := execG 1 2 f s
def execGand (f : V3) (s : State) : Out := execG 2 2 f s
def execGor (f : V3) (s : State) : Out := execG 3 2 f s
def execGxor (f : V3) (s : State) : Out := execG 4 2 f s
def execGshl (f : V3) (s : State) : Out := execG 5 2 f s
def execGshr (f : V3) (s : State) : Out := execG 6 2 f s
def execGsra (f : V3) (s : State) : Out := execG 7 2 f s
def execGmin (f : V3) (s : State) : Out := execG 8 2 f s
def execGmax (f : V3) (s : State) : Out := execG 9 2 f s
def execGminn (f : V3) (s : State) : Out := execG 10 2 f s
def execGmaxn (f : V3) (s : State) : Out := execG 11 2 f s
def execGmov (f : V3) (s : State) : Out := execG 12 2 f s
/-- `gsel`: a if b[0] = 1; otherwise d is kept and nothing is written. -/
def execGsel (f : V3) (s : State) : Out :=
  grp s fun w => w.grpOp (w.predV3 f && (w.opdG f.b).getLsbD 0) (w.put (w.g.resultG f.d (w.opdG f.a) 2))
def execGmul (f : V3) (s : State) : Out := execG 14 4 f s
def execGmulhi (f : V3) (s : State) : Out := execG 15 4 f s
def execGdiv (f : V3) (s : State) : Out := execG 16 20 f s
def execGdivn (f : V3) (s : State) : Out := execG 17 20 f s
def execGrem (f : V3) (s : State) : Out := execG 18 20 f s
def execGremn (f : V3) (s : State) : Out := execG 19 20 f s

def execGI (fn lat : Nat) (f : VI) (s : State) : Out :=
  grp s fun w => w.grpOp (w.predBits f.mask) (w.put (w.g.resultG f.d (gImm fn (w.opdG f.a) (w.opdG f.d) f.imm) lat))
def execGaddi (f : VI) (s : State) : Out := execGI 0 2 f s
def execGandi (f : VI) (s : State) : Out := execGI 1 2 f s
def execGori (f : VI) (s : State) : Out := execGI 2 2 f s
def execGxori (f : VI) (s : State) : Out := execGI 3 2 f s
def execGshli (f : VI) (s : State) : Out := execGI 4 2 f s
def execGshri (f : VI) (s : State) : Out := execGI 5 2 f s
def execGsrai (f : VI) (s : State) : Out := execGI 6 2 f s
def execGmini (f : VI) (s : State) : Out := execGI 7 2 f s
def execGmaxi (f : VI) (s : State) : Out := execGI 8 2 f s
def execGmovi (f : VI) (s : State) : Out := execGI 9 2 f s
def execGmovhi (f : VI) (s : State) : Out := execGI 10 2 f s
def execGmuli (f : VI) (s : State) : Out := execGI 11 4 f s

/-! ## Predicates (R174) -/

def execGP (f : V3) (s : State) (k : GW → Bool) : Out :=
  grp s fun w => w.grpOp (w.predV3 f) (w.put (w.g.resultGp f.d (k w) 2))
def GW.gpreg (w : GW) (r : BitVec 8) : Bool := w.g.readGp w.n r.toNat
def execGceq (f : V3) (s : State) : Out := execGP f s fun w => gCompare 0 (w.opdG f.a) (w.opdG f.b)
def execGcne (f : V3) (s : State) : Out := execGP f s fun w => gCompare 1 (w.opdG f.a) (w.opdG f.b)
def execGclt (f : V3) (s : State) : Out := execGP f s fun w => gCompare 2 (w.opdG f.a) (w.opdG f.b)
def execGcle (f : V3) (s : State) : Out := execGP f s fun w => gCompare 3 (w.opdG f.a) (w.opdG f.b)
def execGcltn (f : V3) (s : State) : Out := execGP f s fun w => gCompare 4 (w.opdG f.a) (w.opdG f.b)
def execGclen (f : V3) (s : State) : Out := execGP f s fun w => gCompare 5 (w.opdG f.a) (w.opdG f.b)
def execGpand (f : V3) (s : State) : Out := execGP f s fun w => w.gpreg f.a && w.gpreg f.b
def execGpor (f : V3) (s : State) : Out := execGP f s fun w => w.gpreg f.a || w.gpreg f.b
def execGpxor (f : V3) (s : State) : Out := execGP f s fun w => w.gpreg f.a != w.gpreg f.b
def execGpnot (f : V3) (s : State) : Out := execGP f s fun w => !w.gpreg f.a
/-- H, the slot's active mask without its helper lanes (R174). -/
def execGpany (f : V3) (s : State) : Out := execGP f s fun w => (w.iss.m &&& w.mreg f.a) != 0
def execGpall (f : V3) (s : State) : Out := execGP f s fun w => (w.iss.m &&& ~~~w.mreg f.a) == 0

/-! ## Between lanes and the group (R176 to R178) -/

/-- `vtog`: lane c, a visible lane under PROTECT, whose two lanes are compared (R176, R388). A helper's value is read as
any other lane's (DESIGN CHOICE, log entry 81). -/
def execVtog (f : V3) (s : State) : Out :=
  grp s fun w =>
    let c := srcLane w.protect (fun _ _ => f.c.toNat) 0
    w.compared (laneBit c ||| laneBit (c + 1)) (fun l => w.opd1 f.a l)
      (w.put (w.g.resultG f.d (w.opd1 f.a c) 2))
def execGtov (f : V3) (s : State) : Out :=
  grp s fun w => w.laneOp f.d false (w.eff f.mask f.neg) 2 fun _ =>
    ((((w.opdG f.a) >>> (32 * f.c.toNat)).setWidth 32).setWidth 64, 0)

/-- S of R177: the lanes of the effective mask that are no helper lanes, each visible lane once. -/
def GW.redLanes (w : GW) (f : V3) : List Nat :=
  lanesOf (primary w.protect (w.eff f.mask f.neg &&& ~~~w.helpers))
/-- A `g` result of an integer type: extended to 64 bits as the type is signed or not (R177). -/
def extG (ty : Nat) (x : Int) : BitVec 64 := BitVec.ofInt 64 (readInt ty (writeInt ty x))

def execRed (f : V3) (s : State) (k : List Int → Int) : Out :=
  grp s fun w => w.compared (w.eff f.mask f.neg &&& ~~~w.helpers) (fun l => w.opd f.ty f.a l)
    (let x := k ((w.redLanes f).map (w.int f f.a))
     let (_, c) := fitInt f.ty.toNat (f.sat == 1) x
     let y := if f.sat = 1 then clampI x (minOf f.ty.toNat) (maxOf f.ty.toNat) else x
     w.put ((w.g.resultG f.d (extG f.ty.toNat y) 6).raiseFlags (flagIf c flIntSat) 6))
def execVredadd (f : V3) (s : State) : Out := execRed f s fun xs => xs.foldl (· + ·) 0
/-- The empty minimum is MAX_t and the empty maximum MIN_t. -/
def execVredmin (f : V3) (s : State) : Out := execRed f s fun xs => xs.foldl min (maxOf f.ty.toNat)
def execVredmax (f : V3) (s : State) : Out := execRed f s fun xs => xs.foldl max (minOf f.ty.toNat)
/-- Bitwise reductions act on the w-bit patterns; the empty AND is all ones. -/
def redBits (ty : Nat) (k : Nat → Nat → Nat) (z : Nat) (xs : List Int) : Int :=
  ((xs.foldl (fun (a : Nat) x => k a (readNat ty (writeInt ty x))) z : Nat) : Int)
def execVredand (f : V3) (s : State) : Out :=
  execRed f s fun xs => (redBits f.ty.toNat (· &&& ·) (2 ^ wOf f - 1) xs)
def execVredor (f : V3) (s : State) : Out := execRed f s fun xs => (redBits f.ty.toNat (· ||| ·) 0 xs)
def execVredxor (f : V3) (s : State) : Out := execRed f s fun xs => (redBits f.ty.toNat (· ^^^ ·) 0 xs)

/-- The scan: the sum over the lanes of S numbered L or lower (R177), visible lanes under PROTECT. -/
def execVscanadd (f : V3) (s : State) : Out :=
  grp s fun w =>
    let ss := w.redLanes f
    w.laneOp f.d (is64 f.ty) (w.eff f.mask f.neg) 6 fun l =>
      fitF f ((ss.filter (fun i => decide (i ≤ l))).foldl (fun a i => a + w.int f f.a i) 0)

/-- Floating reductions (R178). -/
def execFRed (f : V3) (s : State) (k : GW → List Nat → Nat × Flags) : Out :=
  grp s fun w => w.compared (w.eff f.mask f.neg &&& ~~~w.helpers) (fun l => w.opd1 f.a l)
    (let r := k w (w.redLanes f)
     w.put ((w.g.resultG f.d (BitVec.ofNat 64 r.1) 8).raiseFlags r.2 8))
/-- The exact sum over S, rounded once; an empty S gives +0. -/
def execVfredadd (f : V3) (s : State) : Out :=
  execFRed f s fun w ls =>
    if ls.isEmpty then (0, 0)
    else
      let (x, fl) := fSum (f.rm == 2) (ls.map (w.fval f f.a))
      let (r, fl2) := fOut f.ty.toNat f.rm.toNat 0 x
      (r, fl ||| fl2)
def redMinMax (isMax : Bool) (ty : Nat) (xs : List Nat) : Nat × Flags :=
  match xs with
  | [] => (fNaN ty, 0)
  | [x] => fMinMax isMax ty x x
  | x :: r => r.foldl (fun a y =>
      let (v, fl) := fMinMax isMax ty a.1 y
      (v, a.2 ||| fl)) (x, 0)
/-- R163 across S: a signalling NaN anywhere gives the canonical NaN, and so does a set of NaNs alone. -/
def execVfredmin (f : V3) (s : State) : Out :=
  execFRed f s fun w ls =>
    let r := redMinMax false f.ty.toNat (ls.map (w.fbits f f.a))
    if ls.any (fun l => fIsSNaN (w.fval f f.a l)) then (fNaN f.ty.toNat, flInvalid) else r
def execVfredmax (f : V3) (s : State) : Out :=
  execFRed f s fun w ls =>
    let r := redMinMax true f.ty.toNat (ls.map (w.fbits f f.a))
    if ls.any (fun l => fIsSNaN (w.fval f f.a l)) then (fNaN f.ty.toNat, flInvalid) else r

end Sys2Proof.Machine
end

