-- ==== Sys2Proof/Machine/Eval.lean ====
section
/-! DEFINITION. The words that Affinage may search over (R344) as the core executes them: what each word's opcode and
function name, read straight from the word. -/
namespace Sys2Proof.Machine
open Sys2Proof

def evalV301 (fn : Nat) (f : V3) (s : State) : Out :=
  match fn with
  | 0 => execVadd f s
  | 1 => execVsub f s
  | 2 => execVmin f s
  | 3 => execVmax f s
  | 4 => execVabs f s
  | 5 => execVneg f s
  | 6 => execVabsd f s
  | 7 => execVavg f s
  | _ => .next s
def evalV302 (fn : Nat) (f : V3) (s : State) : Out :=
  match fn with
  | 0 => execVand f s
  | 1 => execVor f s
  | 2 => execVxor f s
  | 3 => execVandn f s
  | 4 => execVnot f s
  | 5 => execVshl f s
  | 6 => execVshr f s
  | 7 => execVsra f s
  | 8 => execVrol f s
  | 9 => execVbext f s
  | 10 => execVbins f s
  | 11 => execVpopc f s
  | 12 => execVclz f s
  | 13 => execVbrev f s
  | 14 => execVperm f s
  | _ => .next s
def evalV303 (fn : Nat) (f : V3) (s : State) : Out :=
  match fn with
  | 0 => execVceq f s
  | 1 => execVcne f s
  | 2 => execVclt f s
  | 3 => execVcle f s
  | 4 => execVcgt f s
  | 5 => execVcge f s
  | 6 => execVtest f s
  | _ => .next s
def evalV304 (fn : Nat) (f : V3) (s : State) : Out :=
  match fn with
  | 0 => execVmul f s
  | 1 => execVmulhi f s
  | 2 => execVmad f s
  | 3 => execVmadhi f s
  | 4 => execVmulw f s
  | 5 => execVmadw f s
  | 6 => execVdiv f s
  | 7 => execVrem f s
  | 8 => execVdot4 f s
  | _ => .next s
def evalVI05 (fn : Nat) (f : VI) (s : State) : Out :=
  match fn with
  | 0 => execVaddi f s
  | 1 => execVandi f s
  | 2 => execVori f s
  | 3 => execVxori f s
  | 4 => execVshli f s
  | 5 => execVshri f s
  | 6 => execVsrai f s
  | 7 => execVminiI32 f s
  | 8 => execVmaxiI32 f s
  | 9 => execVminiN32 f s
  | 10 => execVmaxiN32 f s
  | 11 => execVmuli f s
  | 12 => execVmovi f s
  | 13 => execVceqi f s
  | 14 => execVcltiI32 f s
  | 15 => execVcltiN32 f s
  | 16 => execVcgtiI32 f s
  | 17 => execVcgtiN32 f s
  | _ => .next s
def evalV308 (fn : Nat) (f : V3) (s : State) : Out :=
  match fn with
  | 0 => execVfadd f s
  | 1 => execVfsub f s
  | 2 => execVfmul f s
  | 3 => execVfma f s
  | 4 => execVfmin f s
  | 5 => execVfmax f s
  | 6 => execVfabs f s
  | 7 => execVfneg f s
  | 8 => execVfrnd f s
  | _ => .next s
def evalV309 (fn : Nat) (f : V3) (s : State) : Out :=
  match fn with
  | 0 => execVfceq f s
  | 1 => execVfcne f s
  | 2 => execVfclt f s
  | 3 => execVfcle f s
  | 4 => execVfcgt f s
  | 5 => execVfcge f s
  | 6 => execVfcun f s
  | 7 => execVfclass f s
  | _ => .next s
def evalV30A (fn : Nat) (f : V3) (s : State) : Out :=
  match fn with
  | 0 => execVcvt 0 f s
  | 1 => execVcvt 1 f s
  | 2 => execVcvt 2 f s
  | 3 => execVcvt 3 f s
  | 4 => execVcvt 4 f s
  | 5 => execVcvt 5 f s
  | 6 => execVcvt 6 f s
  | 7 => execVcvt 7 f s
  | 8 => execVcvt 8 f s
  | 9 => execVcvt 9 f s
  | 10 => execVcvt 10 f s
  | 11 => execVcvt 11 f s
  | 12 => execVcvt 12 f s
  | 13 => execVcvt 13 f s
  | 14 => execVcvt 14 f s
  | 15 => execVcvt 15 f s
  | 16 => execVpack2 f s
  | 17 => execVpack4 f s
  | 18 => execVpack8 f s
  | 19 => execVunpk f s
  | 20 => execVmxscale f s
  | _ => .next s
def evalV30B (fn : Nat) (f : V3) (s : State) : Out :=
  match fn with
  | 0 => execVrcp f s
  | 1 => execVrsq f s
  | 2 => execVsqrt f s
  | 3 => execVexp2 f s
  | 4 => execVlog2 f s
  | 5 => execVsin f s
  | 6 => execVcos f s
  | 7 => execVtanh f s
  | 8 => execVsigm f s
  | 9 => execVfdiv f s
  | _ => .next s
def evalVI0C (fn : Nat) (f : VI) (s : State) : Out :=
  match fn with
  | 0 => execVfaddi f s
  | 1 => execVfmuli f s
  | 2 => execVfmini f s
  | 3 => execVfmaxi f s
  | 4 => execVfmovi f s
  | _ => .next s
def evalV310 (fn : Nat) (f : V3) (s : State) : Out :=
  match fn with
  | 0 => execVqxh f s
  | 1 => execVqxv f s
  | 2 => execVqxd f s
  | 3 => execVqbc f s
  | 4 => execVshfl f s
  | 5 => execVshup f s
  | 6 => execVshdn f s
  | 7 => execVshxor f s
  | 8 => execVbcast f s
  | 9 => execVsel f s
  | _ => .next s
def evalV311 (fn : Nat) (f : V3) (s : State) : Out :=
  match fn with
  | 0 => execMand f s
  | 1 => execMor f s
  | 2 => execMxor f s
  | 3 => execMandn f s
  | 4 => execMnot f s
  | 5 => execMmov f s
  | 6 => execMfromv f s
  | 7 => execMtov f s
  | 8 => execMfromg f s
  | 9 => execMtog f s
  | 10 => execMpopc f s
  | 11 => execMffs f s
  | _ => .next s
def evalV312 (fn : Nat) (f : V3) (s : State) : Out :=
  match fn with
  | 0 => execGadd f s
  | 1 => execGsub f s
  | 2 => execGand f s
  | 3 => execGor f s
  | 4 => execGxor f s
  | 5 => execGshl f s
  | 6 => execGshr f s
  | 7 => execGsra f s
  | 8 => execGmin f s
  | 9 => execGmax f s
  | 10 => execGminn f s
  | 11 => execGmaxn f s
  | 12 => execGmov f s
  | 13 => execGsel f s
  | 14 => execGmul f s
  | 15 => execGmulhi f s
  | 16 => execGdiv f s
  | 17 => execGdivn f s
  | 18 => execGrem f s
  | 19 => execGremn f s
  | _ => .next s
def evalVI13 (fn : Nat) (f : VI) (s : State) : Out :=
  match fn with
  | 0 => execGaddi f s
  | 1 => execGandi f s
  | 2 => execGori f s
  | 3 => execGxori f s
  | 4 => execGshli f s
  | 5 => execGshri f s
  | 6 => execGsrai f s
  | 7 => execGmini f s
  | 8 => execGmaxi f s
  | 9 => execGmovi f s
  | 10 => execGmovhi f s
  | 11 => execGmuli f s
  | _ => .next s
def evalV314 (fn : Nat) (f : V3) (s : State) : Out :=
  match fn with
  | 0 => execGceq f s
  | 1 => execGcne f s
  | 2 => execGclt f s
  | 3 => execGcle f s
  | 4 => execGcltn f s
  | 5 => execGclen f s
  | 6 => execGpand f s
  | 7 => execGpor f s
  | 8 => execGpxor f s
  | 9 => execGpnot f s
  | 10 => execGpany f s
  | 11 => execGpall f s
  | _ => .next s
def evalV315 (fn : Nat) (f : V3) (s : State) : Out :=
  match fn with
  | 0 => execVtog f s
  | 1 => execGtov f s
  | 2 => execVredadd f s
  | 3 => execVredmin f s
  | 4 => execVredmax f s
  | 5 => execVredand f s
  | 6 => execVredor f s
  | 7 => execVredxor f s
  | 8 => execVscanadd f s
  | 9 => execVfredadd f s
  | 10 => execVfredmin f s
  | 11 => execVfredmax f s
  | _ => .next s

/-- One word of an eligible clause. -/
def evalWord (w : Word) (s : State) : Out :=
  let f3 := unpackV3 w
  let fi := unpackVI w
  let n8 := (fn8Of w).toNat
  let n6 := (fn6Of w).toNat
  match (opOf w).toNat with
  | 0x01 => evalV301 n8 f3 s
  | 0x02 => evalV302 n8 f3 s
  | 0x03 => evalV303 n8 f3 s
  | 0x04 => evalV304 n8 f3 s
  | 0x05 => evalVI05 n6 fi s
  | 0x08 => evalV308 n8 f3 s
  | 0x09 => evalV309 n8 f3 s
  | 0x0A => evalV30A n8 f3 s
  | 0x0B => evalV30B n8 f3 s
  | 0x0C => evalVI0C n6 fi s
  | 0x10 => evalV310 n8 f3 s
  | 0x11 => evalV311 n8 f3 s
  | 0x12 => evalV312 n8 f3 s
  | 0x13 => evalVI13 n6 fi s
  | 0x14 => evalV314 n8 f3 s
  | 0x15 => evalV315 n8 f3 s
  | _ => .next s

def sigV301 (fn : Nat) : Option Sig :=
  match fn with
  | 0 => some (.v3 0x01 0x00 tyI .lane .v .v .v .z .zero true 0 0 2 2 false)
  | 1 => some (.v3 0x01 0x01 tyI .lane .v .v .v .z .zero true 0 0 2 2 false)
  | 2 => some (.v3 0x01 0x02 tyI .lane .v .v .v .z .zero false 0 0 2 2 false)
  | 3 => some (.v3 0x01 0x03 tyI .lane .v .v .v .z .zero false 0 0 2 2 false)
  | 4 => some (.v3 0x01 0x04 tyI .lane .v .v .z .z .zero true 0 0 2 2 false)
  | 5 => some (.v3 0x01 0x05 tyI .lane .v .v .z .z .zero true 0 0 2 2 false)
  | 6 => some (.v3 0x01 0x06 tyI .lane .v .v .v .z .zero true 0 0 2 2 false)
  | 7 => some (.v3 0x01 0x07 tyI .lane .v .v .v .z .zero false 0 0 2 2 false)
  | _ => none
def sigV302 (fn : Nat) : Option Sig :=
  match fn with
  | 0 => some (.v3 0x02 0x00 tyL .lane .v .v .v .z .zero false 0 0 2 2 false)
  | 1 => some (.v3 0x02 0x01 tyL .lane .v .v .v .z .zero false 0 0 2 2 false)
  | 2 => some (.v3 0x02 0x02 tyL .lane .v .v .v .z .zero false 0 0 2 2 false)
  | 3 => some (.v3 0x02 0x03 tyL .lane .v .v .v .z .zero false 0 0 2 2 false)
  | 4 => some (.v3 0x02 0x04 tyL .lane .v .v .z .z .zero false 0 0 2 2 false)
  | 5 => some (.v3 0x02 0x05 tyI .lane .v .v .v1 .z .zero false 1 1 2 2 false)
  | 6 => some (.v3 0x02 0x06 tyI .lane .v .v .v1 .z .zero false 1 1 2 2 false)
  | 7 => some (.v3 0x02 0x07 tyI .lane .v .v .v1 .z .zero false 1 1 2 2 false)
  | 8 => some (.v3 0x02 0x08 tyI .lane .v .v .v1 .z .zero false 1 1 2 2 false)
  | 9 => some (.v3 0x02 0x09 tyL .lane .v .v .v1 .z .zero false 1 1 2 2 false)
  | 10 => some (.v3 0x02 0x0A tyL .lane .v .v .v1 .v .zero false 1 1 2 2 false)
  | 11 => some (.v3 0x02 0x0B tyL .lane .v1 .v .z .z .zero false 1 1 2 2 false)
  | 12 => some (.v3 0x02 0x0C tyL .lane .v1 .v .z .z .zero false 1 1 2 2 false)
  | 13 => some (.v3 0x02 0x0D tyL .lane .v .v .z .z .zero false 1 1 2 2 false)
  | 14 => some (.v3 0x02 0x0E tyN32 .lane .v .v .v .v .zero false 1 1 2 2 false)
  | _ => none
def sigV303 (fn : Nat) : Option Sig :=
  match fn with
  | 0 => some (.v3 0x03 0x00 tyI .lane .m .v .v .z .zero false 0 0 2 2 false)
  | 1 => some (.v3 0x03 0x01 tyI .lane .m .v .v .z .zero false 0 0 2 2 false)
  | 2 => some (.v3 0x03 0x02 tyI .lane .m .v .v .z .zero false 0 0 2 2 false)
  | 3 => some (.v3 0x03 0x03 tyI .lane .m .v .v .z .zero false 0 0 2 2 false)
  | 4 => some (.v3 0x03 0x04 tyI .lane .m .v .v .z .zero false 0 0 2 2 false)
  | 5 => some (.v3 0x03 0x05 tyI .lane .m .v .v .z .zero false 0 0 2 2 false)
  | 6 => some (.v3 0x03 0x06 tyI .lane .m .v .v .z .zero false 0 0 2 2 false)
  | _ => none
def sigV304 (fn : Nat) : Option Sig :=
  match fn with
  | 0 => some (.v3 0x04 0x00 tyI .lane .v .v .v .z .zero true 2 4 4 6 false)
  | 1 => some (.v3 0x04 0x01 tyI .lane .v .v .v .z .zero false 2 4 4 6 false)
  | 2 => some (.v3 0x04 0x02 tyI .lane .v .v .v .v .zero true 2 4 4 6 false)
  | 3 => some (.v3 0x04 0x03 tyI .lane .v .v .v .v .zero false 2 4 4 6 false)
  | 4 => some (.v3 0x04 0x04 tyW .lane .v2 .v .v .z .zero false 4 4 6 6 false)
  | 5 => some (.v3 0x04 0x05 tyW .lane .v2 .v .v .v2 .zero false 4 4 6 6 false)
  | 6 => some (.v3 0x04 0x06 tyI .lane .v .v .v .z .zero false 6 8 20 36 false)
  | 7 => some (.v3 0x04 0x07 tyI .lane .v .v .v .z .zero false 6 8 20 36 false)
  | 8 => some (.v3 0x04 0x08 tyD4 .lane .v1 .v1 .v1 .v1 .zero true 2 2 4 4 false)
  | _ => none
def sigVI05 (fn : Nat) : Option Sig :=
  match fn with
  | 0 => some (.vi 0x05 0x00 .lane .v1 .v1 .any 0 2)
  | 1 => some (.vi 0x05 0x01 .lane .v1 .v1 .any 0 2)
  | 2 => some (.vi 0x05 0x02 .lane .v1 .v1 .any 0 2)
  | 3 => some (.vi 0x05 0x03 .lane .v1 .v1 .any 0 2)
  | 4 => some (.vi 0x05 0x04 .lane .v1 .v1 (.u 5) 1 2)
  | 5 => some (.vi 0x05 0x05 .lane .v1 .v1 (.u 5) 1 2)
  | 6 => some (.vi 0x05 0x06 .lane .v1 .v1 (.u 5) 1 2)
  | 7 => some (.vi 0x05 0x07 .lane .v1 .v1 .any 0 2)
  | 8 => some (.vi 0x05 0x08 .lane .v1 .v1 .any 0 2)
  | 9 => some (.vi 0x05 0x09 .lane .v1 .v1 .any 0 2)
  | 10 => some (.vi 0x05 0x0A .lane .v1 .v1 .any 0 2)
  | 11 => some (.vi 0x05 0x0B .lane .v1 .v1 .any 2 4)
  | 12 => some (.vi 0x05 0x0C .lane .v1 .z .any 0 2)
  | 13 => some (.vi 0x05 0x0D .lane .m .v1 .any 0 2)
  | 14 => some (.vi 0x05 0x0E .lane .m .v1 .any 0 2)
  | 15 => some (.vi 0x05 0x0F .lane .m .v1 .any 0 2)
  | 16 => some (.vi 0x05 0x10 .lane .m .v1 .any 0 2)
  | 17 => some (.vi 0x05 0x11 .lane .m .v1 .any 0 2)
  | _ => none
def sigV308 (fn : Nat) : Option Sig :=
  match fn with
  | 0 => some (.v3 0x08 0x00 tyF .lane .v .v .v .z .upto5 false 2 1 4 4 false)
  | 1 => some (.v3 0x08 0x01 tyF .lane .v .v .v .z .upto5 false 2 1 4 4 false)
  | 2 => some (.v3 0x08 0x02 tyF .lane .v .v .v .z .upto5 false 2 1 4 4 false)
  | 3 => some (.v3 0x08 0x03 tyF .lane .v .v .v .v .upto5 false 3 2 4 4 false)
  | 4 => some (.v3 0x08 0x04 tyF .lane .v .v .v .z .zero false 1 1 2 2 false)
  | 5 => some (.v3 0x08 0x05 tyF .lane .v .v .v .z .zero false 1 1 2 2 false)
  | 6 => some (.v3 0x08 0x06 tyF .lane .v .v .z .z .zero false 0 0 2 2 false)
  | 7 => some (.v3 0x08 0x07 tyF .lane .v .v .z .z .zero false 0 0 2 2 false)
  | 8 => some (.v3 0x08 0x08 tyF .lane .v .v .z .z .upto5 false 1 1 4 4 false)
  | _ => none
def sigV309 (fn : Nat) : Option Sig :=
  match fn with
  | 0 => some (.v3 0x09 0x00 tyF .lane .m .v .v .z .zero false 1 1 2 2 false)
  | 1 => some (.v3 0x09 0x01 tyF .lane .m .v .v .z .zero false 1 1 2 2 false)
  | 2 => some (.v3 0x09 0x02 tyF .lane .m .v .v .z .zero false 1 1 2 2 false)
  | 3 => some (.v3 0x09 0x03 tyF .lane .m .v .v .z .zero false 1 1 2 2 false)
  | 4 => some (.v3 0x09 0x04 tyF .lane .m .v .v .z .zero false 1 1 2 2 false)
  | 5 => some (.v3 0x09 0x05 tyF .lane .m .v .v .z .zero false 1 1 2 2 false)
  | 6 => some (.v3 0x09 0x06 tyF .lane .m .v .v .z .zero false 1 1 2 2 false)
  | 7 => some (.v3 0x09 0x07 tyF .lane .v .v .z .z .zero false 1 1 2 2 false)
  | _ => none
def sigV30A (fn : Nat) : Option Sig :=
  match fn with
  | 0 => some (.v3 0x0A (BitVec.ofNat 8 fn) 0xFFFF .lane .any .any .z .z .upto5 true 1 1 4 4 true)
  | 1 => some (.v3 0x0A (BitVec.ofNat 8 fn) 0xFFFF .lane .any .any .z .z .upto5 true 1 1 4 4 true)
  | 2 => some (.v3 0x0A (BitVec.ofNat 8 fn) 0xFFFF .lane .any .any .z .z .upto5 true 1 1 4 4 true)
  | 3 => some (.v3 0x0A (BitVec.ofNat 8 fn) 0xFFFF .lane .any .any .z .z .upto5 true 1 1 4 4 true)
  | 4 => some (.v3 0x0A (BitVec.ofNat 8 fn) 0xFFFF .lane .any .any .z .z .upto5 true 1 1 4 4 true)
  | 5 => some (.v3 0x0A (BitVec.ofNat 8 fn) 0xFFFF .lane .any .any .z .z .upto5 true 1 1 4 4 true)
  | 6 => some (.v3 0x0A (BitVec.ofNat 8 fn) 0xFFFF .lane .any .any .z .z .upto5 true 1 1 4 4 true)
  | 7 => some (.v3 0x0A (BitVec.ofNat 8 fn) 0xFFFF .lane .any .any .z .z .upto5 true 1 1 4 4 true)
  | 8 => some (.v3 0x0A (BitVec.ofNat 8 fn) 0xFFFF .lane .any .any .z .z .upto5 true 1 1 4 4 true)
  | 9 => some (.v3 0x0A (BitVec.ofNat 8 fn) 0xFFFF .lane .any .any .z .z .upto5 true 1 1 4 4 true)
  | 10 => some (.v3 0x0A (BitVec.ofNat 8 fn) 0xFFFF .lane .any .any .z .z .upto5 true 1 1 4 4 true)
  | 11 => some (.v3 0x0A (BitVec.ofNat 8 fn) 0xFFFF .lane .any .any .z .z .upto5 true 1 1 4 4 true)
  | 12 => some (.v3 0x0A (BitVec.ofNat 8 fn) 0xFFFF .lane .any .any .z .z .upto5 true 1 1 4 4 true)
  | 13 => some (.v3 0x0A (BitVec.ofNat 8 fn) 0xFFFF .lane .any .any .z .z .upto5 true 1 1 4 4 true)
  | 14 => some (.v3 0x0A (BitVec.ofNat 8 fn) 0xFFFF .lane .any .any .z .z .upto5 true 1 1 4 4 true)
  | 15 => some (.v3 0x0A (BitVec.ofNat 8 fn) 0xFFFF .lane .any .any .z .z .upto5 true 1 1 4 4 true)
  | 16 => some (.v3 0x0A 0x10 0x0300 .lane .v1 .v1 .v1 .z .upto5 true 1 1 4 4 true)
  | 17 => some (.v3 0x0A 0x11 0x5811 .lane .v1 .v4 .z .z .upto5 true 1 1 4 4 true)
  | 18 => some (.v3 0x0A 0x12 0x2000 .lane .v1 .v8 .z .z .upto5 false 1 1 4 4 true)
  | 19 => some (.v3 0x0A 0x13 0xFB11 .lane .v1 .v1 .z .any .zero false 1 1 4 4 false)
  | 20 => some (.v3 0x0A 0x14 0x8000 .lane .v1 .v1 .z .z .zero false 2 2 8 8 false)
  | _ => none
def sigV30B (fn : Nat) : Option Sig :=
  match fn with
  | 0 => some (.v3 0x0B 0x00 tyF .lane .v .v .z .z .zero false 4 4 8 8 false)
  | 1 => some (.v3 0x0B 0x01 tyF .lane .v .v .z .z .zero false 4 4 8 8 false)
  | 2 => some (.v3 0x0B 0x02 tyF .lane .v .v .z .z .upto5 false 4 4 8 8 false)
  | 3 => some (.v3 0x0B 0x03 tyF .lane .v .v .z .z .zero false 4 4 8 8 false)
  | 4 => some (.v3 0x0B 0x04 tyF .lane .v .v .z .z .zero false 4 4 8 8 false)
  | 5 => some (.v3 0x0B 0x05 tyF .lane .v .v .z .z .zero false 4 4 8 8 false)
  | 6 => some (.v3 0x0B 0x06 tyF .lane .v .v .z .z .zero false 4 4 8 8 false)
  | 7 => some (.v3 0x0B 0x07 tyF .lane .v .v .z .z .zero false 4 4 8 8 false)
  | 8 => some (.v3 0x0B 0x08 tyF .lane .v .v .z .z .zero false 4 4 8 8 false)
  | 9 => some (.v3 0x0B 0x09 tyF .lane .v .v .v .z .upto5 false 6 6 12 12 false)
  | _ => none
def sigVI0C (fn : Nat) : Option Sig :=
  match fn with
  | 0 => some (.vi 0x0C 0x00 .lane .v1 .v1 .any 2 4)
  | 1 => some (.vi 0x0C 0x01 .lane .v1 .v1 .any 2 4)
  | 2 => some (.vi 0x0C 0x02 .lane .v1 .v1 .any 1 2)
  | 3 => some (.vi 0x0C 0x03 .lane .v1 .v1 .any 1 2)
  | 4 => some (.vi 0x0C 0x04 .lane .v1 .z .any 0 2)
  | _ => none
def sigV310 (fn : Nat) : Option Sig :=
  match fn with
  | 0 => some (.v3 0x10 0x00 0 .lane .v1 .v1 .z .z .zero false 1 1 4 4 false)
  | 1 => some (.v3 0x10 0x01 0 .lane .v1 .v1 .z .z .zero false 1 1 4 4 false)
  | 2 => some (.v3 0x10 0x02 0 .lane .v1 .v1 .z .z .zero false 1 1 4 4 false)
  | 3 => some (.v3 0x10 0x03 0 .lane .v1 .v1 .z (.lit 3) .zero false 1 1 4 4 false)
  | 4 => some (.v3 0x10 0x04 0 .lane .v1 .v1 .v1 .z .zero false 1 1 4 4 false)
  | 5 => some (.v3 0x10 0x05 0 .lane .v1 .v1 .z (.lit 31) .zero false 1 1 4 4 false)
  | 6 => some (.v3 0x10 0x06 0 .lane .v1 .v1 .z (.lit 31) .zero false 1 1 4 4 false)
  | 7 => some (.v3 0x10 0x07 0 .lane .v1 .v1 .z (.lit 31) .zero false 1 1 4 4 false)
  | 8 => some (.v3 0x10 0x08 0 .lane .v1 .v1 .z (.lit 31) .zero false 1 1 4 4 false)
  | 9 => some (.v3 0x10 0x09 tyL .lane .v .v .v .m .zero false 0 0 2 2 false)
  | _ => none
def sigV311 (fn : Nat) : Option Sig :=
  match fn with
  | 0 => some (.v3 0x11 0x00 0 .grp .m .m .m .z .zero false 0 0 2 2 false)
  | 1 => some (.v3 0x11 0x01 0 .grp .m .m .m .z .zero false 0 0 2 2 false)
  | 2 => some (.v3 0x11 0x02 0 .grp .m .m .m .z .zero false 0 0 2 2 false)
  | 3 => some (.v3 0x11 0x03 0 .grp .m .m .m .z .zero false 0 0 2 2 false)
  | 4 => some (.v3 0x11 0x04 0 .grp .m .m .z .z .zero false 0 0 2 2 false)
  | 5 => some (.v3 0x11 0x05 0 .grp .m .m .z .z .zero false 0 0 2 2 false)
  | 6 => some (.v3 0x11 0x06 0 .grp .m .v1 .z .z .zero false 0 0 2 2 false)
  | 7 => some (.v3 0x11 0x07 0 .grp .v1 .m .z .z .zero false 0 0 2 2 false)
  | 8 => some (.v3 0x11 0x08 0 .grp .m .g .z .z .zero false 0 0 2 2 false)
  | 9 => some (.v3 0x11 0x09 0 .grp .g .m .z .z .zero false 0 0 2 2 false)
  | 10 => some (.v3 0x11 0x0A 0 .grp .g .m .z .z .zero false 0 0 2 2 false)
  | 11 => some (.v3 0x11 0x0B 0 .grp .g .m .z .z .zero false 0 0 2 2 false)
  | _ => none
def sigV312 (fn : Nat) : Option Sig :=
  match fn with
  | 0 => some (.v3 0x12 0x00 0 .grp .g .g .g .z .zero false 0 0 2 2 false)
  | 1 => some (.v3 0x12 0x01 0 .grp .g .g .g .z .zero false 0 0 2 2 false)
  | 2 => some (.v3 0x12 0x02 0 .grp .g .g .g .z .zero false 0 0 2 2 false)
  | 3 => some (.v3 0x12 0x03 0 .grp .g .g .g .z .zero false 0 0 2 2 false)
  | 4 => some (.v3 0x12 0x04 0 .grp .g .g .g .z .zero false 0 0 2 2 false)
  | 5 => some (.v3 0x12 0x05 0 .grp .g .g .g .z .zero false 0 0 2 2 false)
  | 6 => some (.v3 0x12 0x06 0 .grp .g .g .g .z .zero false 0 0 2 2 false)
  | 7 => some (.v3 0x12 0x07 0 .grp .g .g .g .z .zero false 0 0 2 2 false)
  | 8 => some (.v3 0x12 0x08 0 .grp .g .g .g .z .zero false 0 0 2 2 false)
  | 9 => some (.v3 0x12 0x09 0 .grp .g .g .g .z .zero false 0 0 2 2 false)
  | 10 => some (.v3 0x12 0x0A 0 .grp .g .g .g .z .zero false 0 0 2 2 false)
  | 11 => some (.v3 0x12 0x0B 0 .grp .g .g .g .z .zero false 0 0 2 2 false)
  | 12 => some (.v3 0x12 0x0C 0 .grp .g .g .z .z .zero false 0 0 2 2 false)
  | 13 => some (.v3 0x12 0x0D 0 .grp .g .g .g .z .zero false 0 0 2 2 false)
  | 14 => some (.v3 0x12 0x0E 0 .grp .g .g .g .z .zero false 0 0 4 4 false)
  | 15 => some (.v3 0x12 0x0F 0 .grp .g .g .g .z .zero false 0 0 4 4 false)
  | 16 => some (.v3 0x12 0x10 0 .grp .g .g .g .z .zero false 0 0 20 20 false)
  | 17 => some (.v3 0x12 0x11 0 .grp .g .g .g .z .zero false 0 0 20 20 false)
  | 18 => some (.v3 0x12 0x12 0 .grp .g .g .g .z .zero false 0 0 20 20 false)
  | 19 => some (.v3 0x12 0x13 0 .grp .g .g .g .z .zero false 0 0 20 20 false)
  | _ => none
def sigVI13 (fn : Nat) : Option Sig :=
  match fn with
  | 0 => some (.vi 0x13 0x00 .grp .g .g .any 0 2)
  | 1 => some (.vi 0x13 0x01 .grp .g .g .any 0 2)
  | 2 => some (.vi 0x13 0x02 .grp .g .g .any 0 2)
  | 3 => some (.vi 0x13 0x03 .grp .g .g .any 0 2)
  | 4 => some (.vi 0x13 0x04 .grp .g .g (.u 6) 0 2)
  | 5 => some (.vi 0x13 0x05 .grp .g .g (.u 6) 0 2)
  | 6 => some (.vi 0x13 0x06 .grp .g .g (.u 6) 0 2)
  | 7 => some (.vi 0x13 0x07 .grp .g .g .any 0 2)
  | 8 => some (.vi 0x13 0x08 .grp .g .g .any 0 2)
  | 9 => some (.vi 0x13 0x09 .grp .g .z .any 0 2)
  | 10 => some (.vi 0x13 0x0A .grp .g .z .any 0 2)
  | 11 => some (.vi 0x13 0x0B .grp .g .g .any 0 4)
  | _ => none
def sigV314 (fn : Nat) : Option Sig :=
  match fn with
  | 0 => some (.v3 0x14 0x00 0 .grp .p .g .g .z .zero false 0 0 2 2 false)
  | 1 => some (.v3 0x14 0x01 0 .grp .p .g .g .z .zero false 0 0 2 2 false)
  | 2 => some (.v3 0x14 0x02 0 .grp .p .g .g .z .zero false 0 0 2 2 false)
  | 3 => some (.v3 0x14 0x03 0 .grp .p .g .g .z .zero false 0 0 2 2 false)
  | 4 => some (.v3 0x14 0x04 0 .grp .p .g .g .z .zero false 0 0 2 2 false)
  | 5 => some (.v3 0x14 0x05 0 .grp .p .g .g .z .zero false 0 0 2 2 false)
  | 6 => some (.v3 0x14 0x06 0 .grp .p .p .p .z .zero false 0 0 2 2 false)
  | 7 => some (.v3 0x14 0x07 0 .grp .p .p .p .z .zero false 0 0 2 2 false)
  | 8 => some (.v3 0x14 0x08 0 .grp .p .p .p .z .zero false 0 0 2 2 false)
  | 9 => some (.v3 0x14 0x09 0 .grp .p .p .z .z .zero false 0 0 2 2 false)
  | 10 => some (.v3 0x14 0x0A 0 .grp .p .m .z .z .zero false 0 0 2 2 false)
  | 11 => some (.v3 0x14 0x0B 0 .grp .p .m .z .z .zero false 0 0 2 2 false)
  | _ => none
def sigV315 (fn : Nat) : Option Sig :=
  match fn with
  | 0 => some (.v3 0x15 0x00 0 .none .g .v1 .z (.lit 31) .zero false 0 0 2 2 false)
  | 1 => some (.v3 0x15 0x01 0 .lane .v1 .g .z (.lit 1) .zero false 0 0 2 2 false)
  | 2 => some (.v3 0x15 0x02 tyI .lane .g .v .z .z .zero true 1 1 6 6 false)
  | 3 => some (.v3 0x15 0x03 tyI .lane .g .v .z .z .zero false 1 1 6 6 false)
  | 4 => some (.v3 0x15 0x04 tyI .lane .g .v .z .z .zero false 1 1 6 6 false)
  | 5 => some (.v3 0x15 0x05 tyI .lane .g .v .z .z .zero false 1 1 6 6 false)
  | 6 => some (.v3 0x15 0x06 tyI .lane .g .v .z .z .zero false 1 1 6 6 false)
  | 7 => some (.v3 0x15 0x07 tyI .lane .g .v .z .z .zero false 1 1 6 6 false)
  | 8 => some (.v3 0x15 0x08 tyI .lane .v .v .z .z .zero true 1 1 6 6 false)
  | 9 => some (.v3 0x15 0x09 tyF .lane .g .v .z .z .upto4 false 2 2 8 8 false)
  | 10 => some (.v3 0x15 0x0A tyF .lane .g .v .z .z .zero false 2 2 8 8 false)
  | 11 => some (.v3 0x15 0x0B tyF .lane .g .v .z .z .zero false 2 2 8 8 false)
  | _ => none

/-- The row of the map that an eligible word names. -/
def eligSig (w : Word) : Option Sig :=
  match (opOf w).toNat with
  | 0x01 => sigV301 (fn8Of w).toNat
  | 0x02 => sigV302 (fn8Of w).toNat
  | 0x03 => sigV303 (fn8Of w).toNat
  | 0x04 => sigV304 (fn8Of w).toNat
  | 0x05 => sigVI05 (fn6Of w).toNat
  | 0x08 => sigV308 (fn8Of w).toNat
  | 0x09 => sigV309 (fn8Of w).toNat
  | 0x0A => sigV30A (fn8Of w).toNat
  | 0x0B => sigV30B (fn8Of w).toNat
  | 0x0C => sigVI0C (fn6Of w).toNat
  | 0x10 => sigV310 (fn8Of w).toNat
  | 0x11 => sigV311 (fn8Of w).toNat
  | 0x12 => sigV312 (fn8Of w).toNat
  | 0x13 => sigVI13 (fn6Of w).toNat
  | 0x14 => sigV314 (fn8Of w).toNat
  | 0x15 => sigV315 (fn8Of w).toNat
  | _ => none

end Sys2Proof.Machine
end

