-- ==== Sys2Proof/Machine/Mem.lean ====
section
/-! DEFINITION. Memory below the instructions: the physical map (R82, R392, R393, R396), the page walk and its
caches (R87 to R92), scratch and vault addresses (R76 to R81), the places where bytes stand, L1 with its stale,
update-only and local-atomic lines (R86, R225, R229, R247), and the room of versions (R366, R367). -/
namespace Sys2Proof.Machine
open Sys2Proof

/-- A bit that the spec leaves open at step `s.now`. -/
def State.coin (s : State) (k : Nat) : Bool := (Config.free s.now k).getLsbD 0

/-! ## The physical map -/

inductive PaKind where
  | dram
  | host
  | window
  | none
  deriving DecidableEq, Repr

/-- What stands at a physical address (R82, R392). -/
def State.paKind (s : State) (pa : BitVec 52) : PaKind :=
  let p := pa.toNat
  if p < 2 ^ 39 then (if p % 2 ^ 36 < 48 * 2 ^ 30 then .dram else .none)
  else if p < 2 ^ 47 then (if p < 2 ^ 39 + s.host.hostlim.toNat * 65536 then .host else .none)
  else if p < 2 ^ 47 + 2 ^ 30 then .window
  else .none

/-- The window offset of a context's page (R393). -/
def ctxPage (c : Nat) : Nat := 0x02000000 + c * 0x1000

/-- The fault kind of a physical access by a group or Starter context, if any (R82, R393, R396). -/
def State.paFault (s : State) (c : Nat) (pa : BitVec 52) (a : Attr) (size : Nat) : Option (BitVec 8) :=
  if a.rnode ≠ 0 then
    let ports := Store.read s.host.routes a.rnode.toNat
    if ports = 0 then some Kind.unbacked
    else if ports &&& s.host.up = 0 then some Kind.linkDown
    else none
  else
    match s.paKind pa with
    | .dram => none
    | .host => none
    | .window =>
      if a.dev && size == 8 && decide ((pa.toNat - 2 ^ 47) / 4096 = ctxPage c / 4096) then none
      else some Kind.unbacked
    | .none => some Kind.unbacked

/-! ## Bytes in their places -/

def State.readLoc (s : State) (l : Loc) (n : Nat) : List Byte :=
  match l with
  | .mem k => Store.bytes s.mem k n
  | .scr k => Store.bytes s.scr k n
  | .vlt k => Store.bytes s.vlt k n

/-- Removes `n` keys from `k` on. -/
def delRange (t : Tbl Unit) (k n : Nat) : Tbl Unit := t.filter (fun p => !(decide (k ≤ p.1) && decide (p.1 < k + n)))
def anyRange (t : Tbl Unit) (k n : Nat) : Bool := t.any (fun p => decide (k ≤ p.1) && decide (p.1 < k + n))

/-- The bytes that one code protects (R382). -/
def Loc.unit (l : Loc) : Nat :=
  match l with
  | .scr _ => 4
  | _ => 32
/-- Whether one of the units of `u` bytes in which `n` bytes stand holds poison. -/
def anyUnit (u : Nat) (t : Tbl Unit) (k n : Nat) : Bool := anyRange t (k / u * u) ((k + n + u - 1) / u * u - k / u * u)

/-- Bytes written to their place; fresh data carries no poison. -/
def State.writeLoc (s : State) (l : Loc) (bs : List Byte) : State :=
  match l with
  | .mem k => { s with mem := Store.putBytes s.mem k bs, poisonMem := delRange s.poisonMem k bs.length }
  | .scr k => { s with scr := Store.putBytes s.scr k bs, poisonScr := delRange s.poisonScr k bs.length }
  | .vlt k => { s with vlt := Store.putBytes s.vlt k bs, poisonVlt := delRange s.poisonVlt k bs.length }

/-- Whether one of `n` bytes is poisoned (R384). A unit is, until each of its poisoned bytes has been written anew: what a
store of some of them leaves is not stated (DESIGN CHOICE, log entry 130). -/
def State.poisoned (s : State) (l : Loc) (n : Nat) : Bool :=
  match l with
  | .mem k => anyUnit l.unit s.poisonMem k n
  | .scr k => anyUnit l.unit s.poisonScr k n
  | .vlt k => anyUnit l.unit s.poisonVlt k n

/-- Marks one byte poisoned. -/
def State.poison (s : State) (l : Loc) : State :=
  match l with
  | .mem k => { s with poisonMem := Tbl.set s.poisonMem k () }
  | .scr k => { s with poisonScr := Tbl.set s.poisonScr k () }
  | .vlt k => { s with poisonVlt := Tbl.set s.poisonVlt k () }

/-- The place `i` bytes further on. -/
def Loc.plus (l : Loc) (i : Nat) : Loc :=
  match l with
  | .mem k => .mem (k + i)
  | .scr k => .scr (k + i)
  | .vlt k => .vlt (k + i)

/-- An uncorrectable error in the unit that holds a byte (R382). -/
def State.damage (s : State) (l : Loc) : State :=
  let u := l.unit
  let base : Loc := match l with
    | .mem k => .mem (k / u * u)
    | .scr k => .scr (k / u * u)
    | .vlt k => .vlt (k / u * u)
  (List.range u).foldl (fun s i => s.poison (base.plus i)) s

def State.readLocNat (s : State) (l : Loc) (n : Nat) : Nat := leNat (s.readLoc l n)
def State.writeLocNat (s : State) (l : Loc) (n x : Nat) : State := s.writeLoc l (natLE n x)
/-- A value made from the bytes that stood there: it stays poisoned where one of them was (R384). -/
def State.updateLoc (s : State) (l : Loc) (n x : Nat) : State :=
  let t := s.writeLocNat l n x
  if s.poisoned l n then (List.range n).foldl (fun t i => t.poison (l.plus i)) t else t

/-! ## Local-atomic lines (R229) -/

def lineOf (key : Nat) : Nat := key / 256
def sectorOf (key : Nat) : Nat := key / 64
def szBytes (size : Nat) : Nat := 2 ^ size

/-- The fill value of an element. -/
def LALine.fillOf (l : LALine) (key size : Nat) : Nat := leNat (Store.bytes l.fill (key % 256) (szBytes size))

/-- One changed element of an LA line reaches its home: the L1 value is written if the home holds the fill value,
otherwise one of the two stands. -/
def State.laBack (s : State) (key size fill cur : Nat) : State :=
  let n := szBytes size
  if s.readLocNat (.mem key) n = fill || s.coin (20000 + key % 4096) then s.updateLoc (.mem key) n cur else s

/-- A core's L1 without the plain sectors of a line. -/
def Core.dropLine (c : Core) (line : Nat) : Core := { c with l1 := c.l1.filter (fun (p : Nat × Store 8) => p.1 / 4 != line) }
/-- Lines that a core's L1 holds in any state. -/
def Core.l1Lines (c : Core) : List Nat :=
  (c.l1.map (fun (p : Nat × Store 8) => p.1 / 4) ++ c.ulines.map (fun (p : Nat × List ULine) => p.1) ++
    c.la.map (fun (p : Nat × LALine) => p.1)).foldl
    (fun ls l => if ls.contains l then ls else l :: ls) []
/-- A line that comes into L1 carries no mark. -/
def Core.unmark (c : Core) (line : Nat) : Core :=
  if c.l1Lines.contains line then c else { c with evictFirst := Tbl.del c.evictFirst line }

/-- The LA line `line` of a core is written back, each element that its atomics have changed, and leaves L1. -/
def State.laWriteback (s : State) (core line : Nat) : State :=
  let c := s.core core
  match Tbl.find c.la line with
  | none => s
  | some l =>
    (l.elems.filter (fun e => e.2.2.toNat != l.fillOf e.1 e.2.1)).foldl
      (fun s e => s.laBack e.1 e.2.1 (l.fillOf e.1 e.2.1) e.2.2.toNat)
      (s.setCore core { c.dropLine line with la := Tbl.del c.la line })

/-- Every LA line of a core. -/
def State.laWritebackCore (s : State) (core : Nat) : State :=
  (s.core core).la.foldl (fun s p => s.laWriteback core p.1) s

/-- Every LA copy of a line, on every core. -/
def State.laRecall (s : State) (line : Nat) : State :=
  s.cores.foldl (fun s p => s.laWriteback p.1 line) s

/-! ## Update-only lines (R225) -/

/-- One update applied at its place (R217). -/
def State.applyUpdate (s : State) (l : Loc) (fn size : Nat) (d : Nat) : State :=
  let n := szBytes size
  s.updateLoc l n (atomNew fn (8 * n) (s.readLocNat l n) d 0)

/-- The U copy of a line in one core is sent home, and its partials are combined there. LA copies are recalled
first (R229). -/
def State.uSend (s : State) (core line : Nat) : State :=
  let c := s.core core
  match Tbl.find c.ulines line with
  | none => s
  | some us =>
    let s := (s.setCore core { c with ulines := Tbl.del c.ulines line }).laRecall line
    us.foldl (fun s u => u.parts.foldl (fun s p => s.applyUpdate (.mem p.1) (redFn u.member) u.size p.2.toNat) s) s

/-- The recall of every U copy of a line (R225, events 1 and 2). -/
def State.recallLine (s : State) (line : Nat) : State := s.cores.foldl (fun s p => s.uSend p.1 line) s

/-- Every U line of a core is sent home. -/
def State.uSendCore (s : State) (core : Nat) : State :=
  (s.core core).ulines.foldl (fun s p => s.uSend core p.1) s

/-- The lines that `n` bytes from `key` touch. -/
def linesOf (key n : Nat) : List Nat :=
  if n = 0 then [] else (List.range (lineOf (key + n - 1) - lineOf key + 1)).map (lineOf key + ·)

/-- A read at the home: U copies are recalled first (R225). -/
def State.homeRead (s : State) (key n : Nat) : State × List Byte :=
  let s := (linesOf key n).foldl (fun s l => s.recallLine l) s
  (s, Store.bytes s.mem key n)

/-- A committed store at the home: the line's U copies are recalled first (R225). -/
def State.homeWrite (s : State) (key : Nat) (bs : List Byte) : State :=
  ((linesOf key bs.length).foldl (fun s l => s.recallLine l) s).writeLoc (.mem key) bs

/-! ## L1 (R86, R247) -/

def Core.dropSector (c : Core) (sec : Nat) : Core := { c with l1 := Tbl.del c.l1 sec }
/-- A core's L1 drops the sectors that `n` bytes from `key` touch. -/
def State.dropSectors (s : State) (core key n : Nat) : State :=
  let c := s.core core
  if n = 0 then s
  else s.setCore core ((List.range (sectorOf (key + n - 1) - sectorOf key + 1)).foldl
    (fun c i => c.dropSector (sectorOf key + i)) c)
/-- A committed store of a core's own: the LA copy that its own L1 holds of a line leaves before, by an eviction (R107,
R229), so that the core's later loads read this store. -/
def State.ownWrite (s : State) (core key : Nat) (bs : List Byte) : State :=
  (((linesOf key bs.length).foldl (fun s l => s.laWriteback core l) s).homeWrite key bs).dropSectors core key bs.length
/-- An acquire drops every global sector held in neither U nor LA state (R251). A U line holds partials alone. -/
def State.dropL1 (s : State) (core : Nat) : State :=
  let c := s.core core
  s.setCore core { c with l1 := c.l1.filter (fun (p : Nat × Store 8) => Tbl.has c.la (p.1 / 4)) }

/-- Every sector of a core's L1 is dropped, once its LA lines are written back (R114, R241). -/
def State.flushL1 (s : State) (core : Nat) : State := s.setCore core { s.core core with l1 := [] }

/-- Lines that fit in L1: the 384 KiB of local SRAM that the scratch of the core's blocks leaves (R16, R76). -/
def State.l1Room (s : State) (core : Nat) : Nat :=
  let used := s.blocks.foldl (fun a b =>
    if b.2.core = core ∧ (b.2.st = .live ∨ b.2.st = .held) then a + (s.lrec (b.1 / 2 ^ 32)).scrBytes else a) 0
  (393216 - min used 262144) / 256

/-- A line leaves L1; what the home does not hold goes home (R114). -/
def State.evictLine (s : State) (core line : Nat) : State :=
  let s := (s.uSend core line).laWriteback core line
  s.setCore core ((s.core core).dropLine line)

/-- Lines other than `kept` leave L1 until the rest fits, those marked for eviction before the others (R113). Which of
them leave is otherwise not defined. -/
def State.l1Fit (fuel : Nat) (s : State) (core : Nat) (kept : Option Nat) : State :=
  match fuel with
  | 0 => s
  | n + 1 =>
    let c := s.core core
    let out := c.l1Lines.filter (fun l => kept != some l)
    let marked := out.filter (Tbl.has c.evictFirst)
    let out := if marked.isEmpty then out else marked
    if c.l1Lines.length ≤ s.l1Room core then s
    else
      match out[(Config.free s.now (80 + n)).toNat % max out.length 1]? with
      | some v => (s.evictLine core v).l1Fit n core kept
      | none => s
/-- As many lines leave a core's L1 as its room asks for (R16, R76). -/
def State.l1Trim (s : State) (core : Nat) (kept : Option Nat) : State :=
  s.l1Fit ((s.core core).l1Lines.length - s.l1Room core) core kept

/-- Bytes that came poisoned stay so in a sector that L1 holds (R384). -/
def copyMarks (src : Tbl Unit) (k n : Nat) (dst : Tbl Unit) : Tbl Unit :=
  (List.range n).foldl (fun t i => if Tbl.has src (k + i) then Tbl.set t (k + i) () else t) (delRange dst k n)

/-- A sector filled with the home's data. -/
def State.fillSector (s : State) (core sec : Nat) : State :=
  let s := (s.homeRead (64 * sec) 64).1
  let c := (s.core core).unmark (sec / 4)
  (s.setCore core { c with
    l1 := Tbl.set c.l1 sec (Store.putBytes [] 0 (Store.bytes s.mem (64 * sec) 64))
    l1bad := copyMarks s.poisonMem (64 * sec) 64 c.l1bad }).l1Trim core (some (sec / 4))

/-- A load of `n` bytes within one sector through a core's L1: a hit may be stale (R247), a miss reads the home.
Elements of the core's own LA lines read as its atomics left them (R222, R229). -/
def State.loadL1 (s : State) (core key n : Nat) (keep : Bool) (k : Nat) : State × List Byte × Bool :=
  let sec := sectorOf key
  let r : State × List Byte × Bool :=
    match Tbl.find (s.core core).l1 sec, s.coin k with
    | some bytes, true => (s, Store.bytes bytes (key % 64) n, anyUnit 32 (s.core core).l1bad key n)
    | _, _ =>
      let s := if keep then s.fillSector core sec else (s.homeRead key n).1.dropSectors core key n
      (s, Store.bytes s.mem key n, s.poisoned (.mem key) n)
  let la := (Tbl.find (r.1.core core).la (lineOf key)).getD ⟨[], []⟩
  let bs := la.elems.foldl (fun (bs : List Byte) e =>
    let cur := le (szBytes e.2.1) e.2.2
    (List.range n).map (fun i =>
      if e.1 ≤ key + i ∧ key + i < e.1 + szBytes e.2.1 then cur.getD (key + i - e.1) 0 else bs.getD i 0)) r.2.1
  (r.1, bs, r.2.2)

/-! ## The page walk (R87 to R92) -/

/-- How a translation ends. -/
inductive Xl where
  | ok (t : Tlb)
  | demand
  | bad (kind : BitVec 8)
  deriving Inhabited

/-- Bits 63:57 repeat bit 56 (R87). -/
def canonical (va : BitVec 64) : Bool := (va.extractLsb' 0 57).signExtend 64 == va

/-- A non-leaf entry the walker caches is used or not (R92). -/
def Chiplet.cachedEntry (c : Chiplet) (ctx lvl up : Nat) : Option (BitVec 64) :=
  (c.wcache.find? (fun e => e.1 == ctx && e.2.1 == lvl && e.2.2.1 == up)).map (fun e => e.2.2.2)

/-- Whether an address lies in a page of an invalidated range; size 0 covers the context. -/
def Inval.hits (i : Inval) (lo n : Nat) : Bool :=
  i.size == 0 || (decide (lo < (i.va.toNat + i.size + 4095) / 4096 * 4096) && decide (i.va.toNat / 4096 * 4096 < lo + n))

/-- The 64-bit address of what a non-leaf entry of level `lvl` and number `n` maps. -/
def entryVa (lvl n : Nat) : Nat := ((BitVec.ofNat 57 (n * 2 ^ (12 + 9 * (lvl - 1)))).signExtend 64).toNat

/-- An invalidation in progress covers a cached entry (R95). -/
def State.invalidating (s : State) (ctx lo n : Nat) : Bool := (s.ctx ctx).invals.any (fun i => i.hits lo n)

/-- One table entry: from the walker's cache, or from committed memory; none where the table is unbacked (R89). With
`fresh` no entry is taken that an invalidation in progress covers. -/
def State.tableEntry (s : State) (ctx ch lvl : Nat) (va : BitVec 64) (tbl : BitVec 52) (k : Nat) (fresh : Bool) :
    State × Option (BitVec 64) :=
  let n := (va.extractLsb' 0 57).toNat / 2 ^ (12 + 9 * (lvl - 1))
  match (s.chiplet ch).cachedEntry ctx lvl n,
    s.coin (k + lvl) && !(fresh && s.invalidating ctx (entryVa lvl n) (2 ^ (12 + 9 * (lvl - 1)))) with
  | some e, true => (s, some e)
  | _, _ =>
    match s.paKind tbl with
    | .dram =>
      let (s, bs) := s.homeRead (tbl.toNat + 8 * (n % 512)) 8
      (s, some (BitVec.ofNat 64 (leNat bs)))
    | .host =>
      let (s, bs) := s.homeRead (tbl.toNat + 8 * (n % 512)) 8
      (s, some (BitVec.ofNat 64 (leNat bs)))
    | _ => (s, none)

/-- The walker caches a non-leaf entry. -/
def State.cacheEntry (s : State) (ctx ch lvl : Nat) (va e : BitVec 64) : State :=
  let c := s.chiplet ch
  let n := (va.extractLsb' 0 57).toNat / 2 ^ (12 + 9 * (lvl - 1))
  s.setChiplet ch { c with
    wcache := (ctx, lvl, n, e) :: c.wcache.filter (fun x => !(x.1 == ctx && x.2.1 == lvl && x.2.2.1 == n)) }

/-- The mapping unit a leaf gives (R87, R90): the page, or the run of 16 pages when C is set. -/
def leafUnit (ctx lvl : Nat) (va e : BitVec 64) (key : Nat) : Tlb :=
  let size := 2 ^ (12 + 9 * (lvl - 1))
  let pa := (e.extractLsb' 12 40).toNat * 4096
  let v := va.toNat / size
  let i := if e.getLsbD 11 then v % 16 else 0
  let n := if e.getLsbD 11 then 16 * size else size
  { ctx, va := BitVec.ofNat 64 ((v - i) * size), size := n, pa := BitVec.ofNat 52 (pa + 2 ^ 52 * 16 - i * size),
    attr := ⟨e.getLsbD 1, e.getLsbD 9, e.getLsbD 10, e.extractLsb' 52 8⟩, x := e.getLsbD 2, leaf := key
    acc := e.getLsbD 6 }

/-- The walk from level `lvl` down (R87 to R89). -/
def walk (lvl : Nat) (s : State) (ctx ch : Nat) (va : BitVec 64) (tbl : BitVec 52) (k : Nat) (fresh : Bool) :
    State × Xl :=
  match lvl with
  | 0 => (s, .bad Kind.malformed)
  | n + 1 =>
    let (s, e?) := s.tableEntry ctx ch (n + 1) va tbl k fresh
    match e? with
    | none => (s, .bad Kind.unbacked)
    | some e =>
      let key := tbl.toNat + 8 * ((va.extractLsb' 0 57).toNat / 2 ^ (12 + 9 * n) % 512)
      let pfn := (e.extractLsb' 12 40).toNat
      if !e.getLsbD 0 then (s, if e.getLsbD 4 then .demand else .bad Kind.notmapped)
      else if e.getLsbD 8 || e.getLsbD 5 then (s, .bad Kind.malformed)
      else if n = 0 then (s, .ok (leafUnit ctx 1 va e key))
      else if e.getLsbD 3 then
        if 3 ≤ n || pfn % 2 ^ (9 * n) ≠ 0 then (s, .bad Kind.malformed) else (s, .ok (leafUnit ctx (n + 1) va e key))
      else walk n (s.cacheEntry ctx ch (n + 1) va e) ctx ch va (BitVec.ofNat 52 (pfn * 4096)) k fresh

/-- An atomic OR of one bit of a page-table entry's low byte at its home (R91). -/
def State.orEntry (s : State) (key : Nat) (b : BitVec 8) : State :=
  let s := s.recallLine (lineOf key)
  let x := Store.read s.mem key
  if x &&& b = b then s else { s with mem := Store.write s.mem key (x ||| b) }

def Tlb.covers (t : Tlb) (ctx : Nat) (va : BitVec 64) : Bool :=
  t.ctx == ctx && decide (t.va.toNat ≤ va.toNat) && decide (va.toNat < t.va.toNat + t.size)
def Tlb.overlaps (t : Tlb) (ctx : Nat) (lo hi : Nat) : Bool :=
  t.ctx == ctx && decide (t.va.toNat < hi) && decide (lo < t.va.toNat + t.size)

/-- Who asks for a translation: a core, which has a first-level TLB, or another unit of a chiplet (R92). -/
inductive Asker where
  | core (c : Nat)
  | chiplet (ch : Nat)
  deriving DecidableEq, Repr
def Asker.ch : Asker → Nat
  | .core c => chipletOf c
  | .chiplet ch => ch

/-- What a translation is for: an access, a prefetch, or the contents of a translation register (R93, R100). -/
inductive XFor where
  | access
  | prefetch
  | register
  deriving DecidableEq, Repr

/-- A TLB with `t` in it: an entry that overlaps it goes, and the last of the rest where the TLB is full. -/
def tlbPut (t : Tlb) (n : Nat) (ts : List Tlb) : List Tlb :=
  (t :: ts.filter (fun u => !u.overlaps t.ctx t.va.toNat (t.va.toNat + t.size))).take n

/-- An entry enters the first-level TLB of a core that asks, whose size the spec does not give. -/
def State.tlbL1 (s : State) (u : Asker) (t : Tlb) : State :=
  match u with
  | .core c =>
    let x := s.core c
    s.setCore c { x with tlb := tlbPut t (x.tlb.length + 1) x.tlb }
  | .chiplet _ => s

/-- A translation that succeeds through an entry sets A, unless a prefetch asks or A is known to be set (R91). -/
def State.tlbUse (s : State) (u : Asker) (m : XFor) (t : Tlb) : State × Xl :=
  if m = .prefetch || t.acc then (s.tlbL1 u t, .ok t)
  else
    let s := s.orEntry t.leaf 0x40
    let t' := { t with acc := true }
    let c := s.chiplet u.ch
    ((s.setChiplet u.ch { c with tlb := c.tlb.map (fun x => if x = t then t' else x) }).tlbL1 u t', .ok t')

/-- Translation through the TLBs (R92): an entry that the core's or the chiplet's holds is used, or a walk is made. A
register takes no entry that an invalidation in progress covers (R95). -/
def State.xlate (s : State) (ctx : Nat) (u : Asker) (va : BitVec 64) (k : Nat) (m : XFor) : State × Xl :=
  if !canonical va then (s, .bad Kind.noncanon)
  else if !(s.ctx ctx).en then (s, .bad Kind.notmapped)
  else
    let usable (t : Tlb) : Bool := t.covers ctx va && !(m == .register && s.invalidating ctx t.va.toNat t.size)
    let near := match u with
      | .core c => (s.core c).tlb.find? usable
      | .chiplet _ => none
    match near, s.coin (k + 7) with
    | some t, true => s.tlbUse u m t
    | _, _ =>
      match (s.chiplet u.ch).tlb.find? usable, s.coin (k + 6) with
      | some t, true => s.tlbUse u m t
      | _, _ =>
        let (s1, r) := walk 5 s ctx u.ch va ((s.ctx ctx).root ++ (0 : BitVec 12)) k (m == .register)
        match r with
        | .ok t =>
          let c := s1.chiplet u.ch
          (s1.setChiplet u.ch { c with tlb := tlbPut t 16384 c.tlb }).tlbUse u m t
        | r => (s1, r)

/-- How the checks of one access end (R103). -/
inductive Chk where
  | ok (l : Loc) (a : Attr)
  | bad (cause kind : BitVec 8)
  | demand (page : Nat)
  deriving Inhabited

def chkKind (k : BitVec 8) : Chk := .bad (kindCause k) k
def pageOf (va : BitVec 64) : Nat := va.toNat / 4096

/-- Permission and place of a translated access. A store, atomic or reduction that passes sets D; one that fails WRITE, UNBACKED
or LINKDOWN leaves it, which R91 does not say (DESIGN CHOICE, log entry 93). -/
def State.place (s : State) (ctx : Nat) (pa : BitVec 52) (a : Attr) (size : Nat) (st : Bool) (leaf : Nat) :
    State × Chk :=
  if st && !a.w then (s, chkKind Kind.write)
  else
    match s.paFault ctx pa a size with
    | some k => (s, chkKind k)
    | none => (if st then s.orEntry leaf 0x80 else s, .ok (.mem (memKey a.rnode pa)) a)

/-- A global access through the TLB (R96, R103): shape, alignment, then translation and permission. -/
def State.accessVa (s : State) (ctx : Nat) (u : Asker) (va : BitVec 64) (size : Nat) (st : Bool) (k : Nat) :
    State × Chk :=
  if !canonical va then (s, chkKind Kind.noncanon)
  else if va.toNat % size ≠ 0 then (s, .bad Cause.align 0)
  else
    match s.xlate ctx u va k .access with
    | (s, .ok t) => s.place ctx (t.pa + (va - t.va).setWidth 52) t.attr size st t.leaf
    | (s, .demand) => (s, .demand (pageOf va))
    | (s, .bad kind) => (s, chkKind kind)

/-! ## Scratch and vault addresses (R76, R77, R81, R102) -/

/-- The block whose allotment a scratch address names, if any. -/
def State.scratchBlock (s : State) (k : GKey) (core3 : Nat) : Option Nat :=
  let own := s.coreOf k
  if own % 8 = core3 then some (GKey.bkey k)
  else
    ((s.gangBlocks k.launch (s.gangNo k.launch k.block)).map (bkeyOf k.launch)).find? (fun b =>
      match s.block b with
      | some x => x.core % 8 == core3 && clusterOf x.core == clusterOf own && (x.st == .live || x.st == .held)
      | none => false)

/-- A scratch range (R77, R102). -/
def State.scratchRange (s : State) (k : GKey) (a n : Nat) : Chk :=
  if 2 ^ 21 ≤ a then chkKind Kind.scratch
  else
    match s.scratchBlock k (a / 2 ^ 18) with
    | none => chkKind Kind.scratch
    | some b =>
      if (s.lrec k.launch).scrBytes < a % 2 ^ 18 + n then chkKind Kind.scratch
      else .ok (.scr (scrKey b (a % 2 ^ 18))) ⟨true, false, false, 0⟩

/-- A vault range (R81, R102). -/
def State.vaultRange (s : State) (ctx a n : Nat) : Chk :=
  if 2 ^ 31 ≤ a || 24 ≤ a / 2 ^ 23 % 32 then chkKind Kind.vault
  else
    let c := s.cluster (24 * (a / 2 ^ 28) + a / 2 ^ 23 % 32)
    if c.vltScr.toNat * 2 ^ 20 < a % 2 ^ 23 + n then chkKind Kind.vault
    else if c.vltCtx.toNat ≠ ctx then chkKind Kind.vaultOwn
    else .ok (.vlt a) ⟨true, false, false, 0⟩

/-- A scratch (space 1) or vault (space 2) access (R103): the address is exact, its upper bits are checked first,
then its alignment, then its range. -/
def State.accessFor (s : State) (k : GKey) (ctx space : Nat) (a : Int) (size : Nat) : Chk :=
  let top := if space = 1 then 2 ^ 21 else 2 ^ 31
  let kind := if space = 1 then Kind.scratch else Kind.vault
  if a < 0 || (top : Int) ≤ a then chkKind kind
  else if a.toNat % size ≠ 0 then .bad Cause.align 0
  else if space = 1 then s.scratchRange k a.toNat size
  else s.vaultRange ctx a.toNat size
/-- Such an access of a group itself. -/
def State.accessLocal (s : State) (k : GKey) (space : Nat) (a : Int) (size : Nat) : Chk :=
  s.accessFor k (s.lctx k.launch) space a size

/-! ## Versions (R86, R366, R367) -/

/-- A byte as the storing group sees it: its latest uncommitted write, or a remote write still on its way. -/
def Group.ownByte (g : Group) (key : Nat) : Option Byte :=
  let vs := g.remote.map Remote.ver ++ g.tasks.map Task.ver
  vs.reverse.findSome? (fun v => Tbl.find v key)

/-- `n` bytes of memory with the group's own uncommitted bytes over them. -/
def Group.overlay (g : Group) (key : Nat) (bs : List Byte) : List Byte :=
  (List.range bs.length).map (fun i => (g.ownByte (key + i)).getD (bs.getD i 0))

def insertNat (x : Nat) (xs : List Nat) : List Nat := if xs.contains x then xs else x :: xs

/-- The version lines of a task: its writes, held reductions and held DEV stores. -/
def Task.lines (t : Task) : List Nat :=
  let ks := t.ver.map (fun p => p.1) ++ t.reds.filterMap (fun r => match r.acc.loc with | .mem k => some k | _ => none) ++
    t.devs.filterMap (fun d => match d.1.loc with | .mem k => some k | _ => none)
  ks.foldl (fun ls k => insertNat (lineOf k) ls) []

/-- Version lines that stores in flight will need. -/
def MemOp.lines (o : MemOp) : List Nat :=
  match o.kind with
  | .store => o.accs.filterMap (fun a => match a.loc with | .mem k => some (lineOf k) | _ => none)
  | .red _ _ => o.accs.filterMap (fun a => match a.loc with | .mem k => some (lineOf k) | _ => none)
  | _ => []

def Group.verLines (g : Group) : List Nat :=
  let a := g.tasks.foldl (fun ls t => t.lines.foldl (fun ls l => insertNat l ls) ls) []
  g.memq.foldl (fun ls o => o.lines.foldl (fun ls l => insertNat l ls) ls) a

/-- The chiplet in whose LLC a version line is held, and against whose quota it counts (R366). Lines of host memory and of
remote packages, to which R83 gives no home slice, follow the same address bits 38:36 (DESIGN CHOICE, log entry 109). -/
def lineChiplet (line : Nat) : Nat := line * 256 / 2 ^ 36 % 8

/-- Lines of the whey area that a context's versions take when each chiplet holds `n c` of them (R366). -/
def State.wheyNeed (s : State) (c : Nat) (extra : List Nat) : Nat :=
  let per (ch : Nat) : Nat :=
    s.keys.foldl (fun a k =>
      if s.lctx k.launch = c then
        match s.group k with
        | some g => a + (g.verLines.filter (fun l => lineChiplet l == ch)).length
        | none => a
      else a) (extra.filter (fun l => lineChiplet l == ch)).length
  (List.range 8).foldl (fun a ch => a + (per ch - (s.ctx c).vquota.toNat)) 0

/-- Whether new version lines of a group find the whey area full. -/
def State.wheyFull (s : State) (k : GKey) (g : Group) (need : List Nat) : Bool :=
  let c := s.lctx k.launch
  let new := need.filter (fun l => !g.verLines.contains l)
  !new.isEmpty && decide (Config.wheyLines (s.ctx c).wsize.toNat < s.wheyNeed c new)

/-- FULL and its interrupt (R367, R394). -/
def State.setWheyFull (s : State) (c : Nat) : State :=
  (s.setCtx c { s.ctx c with full := true }).ctxInt c 1

/-- No port of the route to a remote package is up (R396). -/
def State.cutOff (s : State) (node : Nat) : Bool := Store.read s.host.routes node &&& s.host.up == 0

/-! ## The fault queue (R97) -/

/-- A page that an agent waits for: one entry for each context and page that is outstanding. -/
def State.wantPage (s : State) (c page : Nat) (kind : BitVec 3) (loc : BitVec 32) (launch : Nat) : State :=
  let x := s.ctx c
  if Tbl.has x.posted page || x.waiting.any (fun e => e.1 == page) then s
  else s.setCtx c { x with waiting := x.waiting ++ [(page, kind, loc, BitVec.ofNat 24 launch)] }

/-- LOC (R97, R373): chiplet, cluster, core and group slot, numbered as R309 states. -/
def locAt (c slot : Nat) : BitVec 32 :=
  BitVec.ofNat 8 (chipletOf c) ++ BitVec.ofNat 8 (c / 8 % 24) ++ BitVec.ofNat 8 (c % 8) ++ BitVec.ofNat 8 slot
def State.locOf (s : State) (k : GKey) (slot : Nat) : BitVec 32 := locAt (s.coreOf k) slot

end Sys2Proof.Machine
end

