-- ==== Sys2Proof/Machine/ByteCount.lean ====
section
/-! DEFINITION. The byte-count barrier object in scratch or vault scratch (R126 to R129). -/
namespace Sys2Proof.Machine
open Sys2Proof

/-- The two words of a barrier. -/
structure BarObj where
  phase : BitVec 16
  arrived : Nat
  rsv : BitVec 13
  dpo : Bool
  ovf : Bool
  posted : Bool
  expected : Nat
  deriving DecidableEq, Repr

def barOf (w0 w1 : BitVec 64) : BarObj :=
  { phase := w0.extractLsb' 48 16, arrived := (w0.extractLsb' 0 48).toNat, rsv := w1.extractLsb' 51 13,
    dpo := w1.getLsbD 50, ovf := w1.getLsbD 49, posted := w1.getLsbD 48, expected := (w1.extractLsb' 0 48).toNat }
def BarObj.w0 (b : BarObj) : BitVec 64 := b.phase ++ BitVec.ofNat 48 b.arrived
def BarObj.w1 (b : BarObj) : BitVec 64 :=
  b.rsv ++ BitVec.ofBool b.dpo ++ BitVec.ofBool b.ovf ++ BitVec.ofBool b.posted ++ BitVec.ofNat 48 b.expected

/-- The comparison after every change (R127). -/
def BarObj.settle (b : BarObj) : BarObj :=
  if b.posted && decide (b.expected ≤ b.arrived) then
    { b with phase := b.phase + 1, arrived := 0, expected := 0, posted := false,
             ovf := b.ovf || decide (b.expected < b.arrived) }
  else b

/-- An arrival of `n` bytes, saturating. -/
def BarObj.arrive (b : BarObj) (n : Nat) : BarObj :=
  BarObj.settle { b with arrived := min (b.arrived + n) (2 ^ 48 - 1),
                         ovf := b.ovf || decide (2 ^ 48 - 1 < b.arrived + n) }

/-- A post of count `c`; a second post in one phase is discarded. -/
def BarObj.post (b : BarObj) (c : Nat) : BarObj :=
  if b.posted then BarObj.settle { b with dpo := true } else BarObj.settle { b with expected := c, posted := true }

def State.readBar (s : State) (l : Loc) : BarObj :=
  barOf (BitVec.ofNat 64 (s.readLocNat l 8)) (BitVec.ofNat 64 (s.readLocNat (l.plus 8) 8))
def State.writeBar (s : State) (l : Loc) (b : BarObj) : State :=
  s.writeLoc l (le 8 b.w0 ++ le 8 b.w1)

def State.bcArrive (s : State) (l : Loc) (n : Nat) : State := s.writeBar l ((s.readBar l).arrive n)
def State.bcPost (s : State) (l : Loc) (c : Nat) : State := s.writeBar l ((s.readBar l).post c)
def State.bcInit (s : State) (l : Loc) : State := s.writeLoc l (natLE 16 0)

/-- Phase p has completed: (PHASE − p) mod 2^16 lies in 1 to 2^15 (R128). -/
def BarObj.reached (b : BarObj) (p : BitVec 16) : Bool :=
  let d := (b.phase - p).toNat
  decide (1 ≤ d) && decide (d ≤ 2 ^ 15)

end Sys2Proof.Machine
end

