-- ==== Sys2Proof/Machine/RegRead.lean ====
section
/-! DEFINITION. The register window as it reads (R6, R392 to R401): the registers of the host die, the chiplets,
the clusters and the contexts, each laid out as its field map gives it. -/
namespace Sys2Proof.Machine
open Sys2Proof

/-- STRCYC at a cluster cycle: the cycles of a stretch count as they run (R337). -/
def Thermal.strNow (t : Thermal) (cycles : Nat) : BitVec 32 :=
  t.strcyc + (if t.stretched then BitVec.ofNat 32 (cycles - t.since) else 0)

/-- A field at a bit offset of a 64-bit register. -/
def fld {w : Nat} (x : BitVec w) (lo : Nat) : BitVec 64 := x.setWidth 64 <<< lo
def bit (b : Bool) (lo : Nat) : BitVec 64 := fld (BitVec.ofBool b) lo

def Chiplet.rel (c : Chiplet) (n : Nat) : RelLog := (Tbl.find c.rels n).getD RelLog.reset

/-- MKT_STAT (R335). -/
def State.mktStat (s : State) : BitVec 64 :=
  bit s.market.phloss 63 ||| bit s.market.choff 62 ||| bit s.market.allhot 61 ||| bit (s.clusters.any (fun c => c.2.ring.held.any Held.ballast)) 60 |||
    fld (BitVec.ofNat 16 s.market.hotcap) 16

/-- HD_INTSTAT (R394): CONTEXT shows whether some CTX_INT is non-zero. -/
def State.intstat (s : State) : BitVec 64 :=
  fld s.host.intstat 0 ||| bit (s.ctxs.any (fun p => p.2.int_ != 0)) 3

/-- The global page. -/
def State.readGlobalReg (s : State) (o : Nat) : BitVec 64 :=
  let m := s.market
  let h := s.host
  if o = 0x000 then fld m.rdn 8 ||| fld m.tkw 0
  else if o = 0x008 then s.mktStat
  else if o = 0x010 then m.epoch
  else if o = 0x018 then
    fld m.dieoff 40 ||| fld m.thot 32 ||| fld m.astep 24 ||| fld m.drsl 16 ||| fld m.diesl 8 ||| fld m.dieknee 0
  else if 0x040 ≤ o ∧ o < 0x080 then
    let c := s.chiplet ((o - 0x040) / 8)
    fld c.base 16 ||| fld c.ilim 0
  else if 0x080 ≤ o ∧ o < 0x0C0 then
    let c := s.chiplet ((o - 0x080) / 8)
    bit c.loss 8 ||| fld c.phok 0
  else if o = 0x100 then s.intstat
  else if o = 0x108 then fld h.inten 0
  else if o = 0x110 then h.inv
  else if o = 0x118 then fld h.svn 32 ||| fld h.state 0
  else if o = 0x120 then fld h.dbase 16 ||| fld h.dsize 0
  else if o = 0x128 then fld h.down 32 ||| fld h.up 0
  else if o = 0x130 then fld h.abase 12 ||| bit h.ago 0
  else if o = 0x138 then fld h.hostlim 16
  else if 0x400 ≤ o ∧ o < 0xC00 then fld (Store.read h.routes ((o - 0x400) / 8)) 0
  else 0

/-- A chiplet's page. -/
def State.readChipletReg (s : State) (ch o : Nat) : BitVec 64 :=
  let c := s.chiplet ch
  if o = 0 then c.errata
  else if 0x100 ≤ o ∧ o < 0x300 then fld ((Store.read c.entries ((o - 0x100) / 8)).setWidth 21) 0
  else if 0x800 ≤ o ∧ o < 0x880 then
    let r := c.rel ((o - 0x800) / 16)
    if o % 16 = 0 then fld r.lbase 12 ||| fld r.lsize 8 ||| fld r.scrub 0
    else fld r.uecnt 48 ||| fld r.cecnt 32 ||| fld r.tail 16 ||| fld r.head 0
  else 0

/-- Slots of a cluster in given states (AFF_STAT). -/
def Cluster.countSlots (c : Cluster) (p : SubSt → Bool) : BitVec 64 :=
  BitVec.ofNat 64 ((List.range 16).filter (fun i => p (c.slot i).st)).length

/-- A cluster's page. -/
def State.readClusterReg (s : State) (cl o : Nat) : BitVec 64 :=
  let c := s.cluster cl
  if o = 0 then fld c.vltCtx 8 ||| fld c.vltScr 0
  else if o = 8 then fld c.ripen 48 ||| fld c.hot 32 ||| fld c.dlate 16 ||| bit c.affEn 0
  else if o = 0x10 then
    fld c.auddrop 48 ||| fld c.culls 32 |||
      fld (c.countSlots (fun x => x == .sampling || x == .search)) 24 |||
      fld (c.countSlots (fun x => x == .ripening)) 16 ||| fld (c.countSlots (fun x => x == .mature)) 8 |||
      fld (c.countSlots (fun x => x == .free)) 0
  else if o = 0x18 then fld (c.therm.strNow c.cycles) 32 ||| fld c.therm.events 0
  else if 0x100 ≤ o ∧ o < 0x180 then
    let x := c.starter ((o - 0x100) / 0x20)
    if o % 0x20 = 0 then
      bit x.fvalid 63 ||| fld x.kind 48 ||| fld x.sub 40 ||| fld x.cause 32 ||| fld x.fcore 16 ||| fld x.fpos 0
    else if o % 0x20 = 8 then x.fpc
    else if o % 0x20 = 0x10 then x.faddr
    else 0
  else 0

/-- LASTID as it reads (R304). -/
def Ctx.shownId (x : Ctx) : BitVec 24 := if x.errv then x.errid else x.lastid

/-- A context's page. -/
def State.readCtxReg (s : State) (c o : Nat) : BitVec 64 :=
  let x := s.ctx c
  if o = 0x008 then
    bit x.errv 63 ||| fld x.err 56 ||| fld x.shownId 32 ||| fld x.done 16 ||| BitVec.ofNat 64 x.lport.length
  else if o = 0x010 then fld x.root 12 ||| bit x.en 0
  else if o = 0x018 then x.gen
  else if o = 0x020 then fld x.fqBase 12 ||| fld x.fqSize 0
  else if o = 0x028 then bit x.fqOvf 32 ||| fld x.fqHead 16 ||| fld x.fqTail 0
  else if o = 0x038 then
    fld x.precyc 32 ||| fld x.vquota 16 ||| fld x.rlmax 12 ||| bit x.dbgen 2 ||| bit x.preq 0
  else if o = 0x040 then fld x.wbase 16 ||| fld x.wsize 5 ||| bit x.full 2
  else if o = 0x048 then fld x.tqBase 17
  else if o = 0x050 then bit x.tqFull 63 ||| fld x.tqTail 8 ||| fld x.tqHead 0
  else if o = 0x060 then fld x.sbase 16 ||| fld x.ssize 0
  else if o = 0x068 then fld x.rbase 12 ||| fld x.result 8 ||| bit x.busy 0
  else if o = 0x070 then x.rindGen
  else if o = 0x078 then fld x.rqBase 15
  else if o = 0x080 then bit x.rqOvf 63 ||| fld x.lost 32 ||| fld x.rqTail 16 ||| fld x.rqHead 0
  else if o = 0x088 then fld x.mlBase 12 ||| fld x.mlSize 1 ||| bit x.mlen 0
  else if o = 0x090 then fld x.int_ 0
  else 0

/-- The register at a window offset (R393); accesses are 8 bytes, 8-byte aligned. -/
def State.regRead (s : State) (o : Nat) : BitVec 64 :=
  if o % 8 ≠ 0 then 0
  else if o < 0x1000 then s.readGlobalReg o
  else if 0x01000000 ≤ o ∧ o < 0x01800000 then
    let ch := (o - 0x01000000) / 0x100000
    let p := (o - 0x01000000) % 0x100000
    if p < 0x1000 then s.readChipletReg ch p
    else if 0x10000 ≤ p ∧ (p - 0x10000) / 0x1000 < 24 then
      s.readClusterReg (24 * ch + (p - 0x10000) / 0x1000) (p % 0x1000)
    else 0
  else if 0x02000000 ≤ o ∧ o < 0x02100000 then s.readCtxReg ((o - 0x02000000) / 0x1000) (o % 0x1000)
  else 0

/-- A read of device memory or of a register at one place, at its home (R99, R225, R393), and whether it meets poison. -/
def State.devRead (s : State) (key n : Nat) : State × Nat × Bool :=
  if 2 ^ 47 ≤ key ∧ key < 2 ^ 47 + 2 ^ 30 then (s, (s.regRead (key - 2 ^ 47)).toNat, false)
  else
    let s := if key < 2 ^ 52 then (s.homeRead key n).1 else s
    (s, s.readLocNat (.mem key) n, s.poisoned (.mem key) n)

end Sys2Proof.Machine
end

