-- ==== Sys2Proof/Machine/LoadStore.lean ====
section
/-! DEFINITION. Loads, stores, translation registers, prefetch and cache control: major opcodes 0x18 to 0x1D, and
the steps in which accesses perform and invalidations complete (R93 to R114). -/
namespace Sys2Proof.Machine
open Sys2Proof

/-! ## Translation registers (R93 to R95) -/

/-- A translation register; a word that names one waits for the `xlat` in flight to it (R109). -/
def Group.settleX (g : Group) (n : Nat) : Group :=
  g.memq.foldl (fun g o =>
    match o.kind with
    | .xlat m v =>
      if m = n then { g with regs := { g.regs with x := Tbl.set g.regs.x n v },
                             memq := g.memq.filter (fun p => p.id != o.id) } else g
    | _ => g) g
def Group.readX (g : Group) (n : Nat) : XReg := (Tbl.find g.regs.x n).getD (XReg.start 0)
def Group.writeX (g : Group) (n : Nat) (x : XReg) : Group := { g with regs := { g.regs with x := Tbl.set g.regs.x n x } }

def XReg.attr (x : XReg) : Attr := ⟨x.w, x.sa, x.dev, x.rnode⟩

/-- What `xlat` loads for base `b` in mapping unit `t` (R93): L runs to the end of the unit. -/
def xregOf (b gen : BitVec 64) (t : Tlb) : XReg :=
  { p := t.pa + (b - t.va).setWidth 52, b,
    l := BitVec.ofNat 32 (min (t.va.toNat + t.size - b.toNat) 0xFFFFFFFF),
    w := t.attr.w, sa := t.attr.sa, dev := t.attr.dev, rnode := t.attr.rnode, tag := gen, leaf := t.leaf }

/-- The translation of a base: the register's new contents, or the check that fails (R93, R109). -/
def State.xlatBase (s : State) (ctx : Nat) (u : Asker) (b : BitVec 64) (k : Nat) : State × (XReg ⊕ Chk) :=
  match s.xlate ctx u b k .register with
  | (s, .ok t) =>
    let x := xregOf b (s.ctx ctx).gen t
    if s.paFault ctx x.p x.attr 8 = some Kind.unbacked then (s, .inr (chkKind Kind.unbacked)) else (s, .inl x)
  | (s, .demand) => (s, .inr (.demand (pageOf b)))
  | (s, .bad kind) => (s, .inr (chkKind kind))

/-- The register an access uses: a stale tag re-translates it from its base first (R94), also where its limit is 0 after
`xrel` or at the group's start (DEDUCED, log entry 124). -/
def GW.freshX (w : GW) (n : Nat) : GW × XReg × Option Chk :=
  let w := { w with g := w.g.settleX n }
  let x := w.g.readX n
  if x.tag = (w.s.ctx w.ctx).gen then (w, x, none)
  else
    match w.s.xlatBase w.ctx (.core w.core) x.b 500 with
    | (s, .inl y) => ({ w with s, g := w.g.writeX n y }, y, none)
    | (s, .inr c) => ({ w with s }, x, some c)

/-- A lane's global access at byte offset `o` from the register's base (R94, R101, R103); `bad` is the failure of a
re-translation, which every active lane takes. -/
def State.accessX (s : State) (ctx : Nat) (u : Asker) (x : XReg) (bad : Option Chk) (o : BitVec 64) (size : Nat) (st : Bool)
    (k : Nat) : State × Chk :=
  let va := x.b + o
  if !canonical va then (s, chkKind Kind.noncanon)
  else if va.toNat % size ≠ 0 then (s, .bad Cause.align 0)
  else
    match bad with
    | some c => (s, c)
    | none =>
      if !(s.ctx ctx).en then (s, chkKind Kind.notmapped)
      else if 0 ≤ o.toInt ∧ o.toInt + size ≤ x.l.toNat then s.place ctx (x.p + o.setWidth 52) x.attr size st x.leaf
      else s.accessVa ctx u va size st k

/-! ## The checks of one instruction (R103, R104) -/

/-- A lane, its address as formed, and how its checks end. -/
abbrev LaneChk := Nat × BitVec 64 × Chk

def GW.checkAll (w : GW) (lanes : List Nat) (f : State → Nat → State × BitVec 64 × Chk) : GW × List LaneChk :=
  let r := lanes.foldl (fun (a : State × List LaneChk) l =>
    let q := f a.1 l
    (q.1, a.2 ++ [(l, q.2.1, q.2.2)])) (w.s, [])
  ({ w with s := r.1 }, r.2)

/-- The lanes that form an address: for a store not the helper lanes (R104); on a retry the unfinished ones (R97);
one of each pair under PROTECT (R388). -/
def GW.memLanes (w : GW) (eff : Mask) (st : Bool) : Mask :=
  let m := if st then eff &&& ~~~w.helpers else eff
  let m := match w.iss.retry with
    | some r => m &&& r
    | none => m
  primary w.protect m

/-- Parks the group at its word (R97, R367): lanes with their addresses and the pages they miss, none for a lane
that misses whey space. -/
def GW.park (w : GW) (lanes : List (Nat × BitVec 64 × Option Nat)) (kind : BitVec 3) : GW :=
  let loc := w.s.locOf w.key w.g.sched.slot
  let s := lanes.foldl (fun s x => match x.2.2 with
    | some p => s.wantPage w.ctx p kind loc w.key.launch
    | none => s) w.s
  let s := if lanes.any (fun x => x.2.2.isNone) then s.setWheyFull w.ctx else s
  let old : Tbl ParkLane := match w.g.park with
    | some p => p.lanes
    | none => []
  let ls := lanes.foldl (fun t x => Tbl.set t x.1 (ParkLane.mk x.2.1 x.2.2 (kind != 0))) old
  { w with s, g := { w.g with park := some ⟨w.at_, ls, []⟩ } }

/-- Records of lanes whose store, atomic or reduction is suppressed (R374): their addresses as formed. -/
def suppressed (lanes : Mask) (adr : Nat → BitVec 64) : Tbl LaneRec :=
  (lanesOf lanes).map (fun l => (l, ⟨adr l, 0, 0, 0, 4⟩))

/-- A trap in lanes: the cause is that of the lowest-numbered trapping lane, and every lane's record is entered
(R103, R374). -/
def GW.trapLanes (w : GW) (rs : List LaneChk) (st : Bool) (help : Tbl LaneRec) : State :=
  let bad := rs.filterMap (fun r =>
    match r.2.2 with
    | .bad c k => if w.helpers.getLsbD r.1 then none else some (r.1, r.2.1, c, k)
    | _ => none)
  let cause := match bad with
    | b :: _ => b.2.2.1
    | [] => 0
  let recs := rs.map (fun r =>
    match r.2.2 with
    | .bad c k => if w.helpers.getLsbD r.1 then (r.1, LaneRec.mk r.2.1 0 0 0 0)
                  else (r.1, LaneRec.mk r.2.1 k c 0 (if st then 4 else 0))
    | _ => (r.1, LaneRec.mk r.2.1 0 0 0 (if st then 4 else 0)))
  w.trapWith { trapOf cause w.at_ with lanes := recs.foldl (fun t r => Tbl.set t r.1 r.2) help }

/-- The three courses of R103: a trapping lane stops the whole instruction; lanes without faults perform, and the
group parks for the rest (R77 words it otherwise for scratch: DEDUCED, log entry 108). `go` performs the lanes it is given; `help` records the helper lanes of a store. -/
def GW.course (w : GW) (rs : List LaneChk) (st : Bool) (kind : BitVec 3) (help : Tbl LaneRec)
    (go : GW → List (Nat × BitVec 64 × Loc × Attr) → GW) : State :=
  let vis := rs.filter (fun r => !w.helpers.getLsbD r.1)
  if vis.any (fun r => match r.2.2 with | .bad _ _ => true | _ => false) then w.trapLanes rs st help
  else
    let oks := vis.filterMap (fun r =>
      match r.2.2 with
      | .ok l a => some (r.1, r.2.1, l, a)
      | _ => none)
    let waits := vis.filterMap (fun r =>
      match r.2.2 with
      | .demand p => some (r.1, r.2.1, some p)
      | _ => none)
    let before := w.g.park
    let w := go w oks
    let w := if waits.isEmpty then w
      else w.park waits kind
    if w.g.park = before then w.put w.g
    else w.put { w.g with park := w.g.park.map (fun p => { p with helpers := help }) }

/-- Poison at a place is consumed (R384). Memory does not say which of levels 5 and 6 damaged it: the model logs level 6
(DESIGN CHOICE, log entry 96). -/
def Group.consumed (g : Group) (l : Loc) : Group :=
  g.consume [match l with
    | .mem k => (6, k)
    | .scr k => (2, k)
    | .vlt k => (5, k)]

/-! ## Operations in flight -/

/-- An operation joins the group's memory queue at step `n`. -/
def Group.pushMem (g : Group) (n : Nat) (kind : MemKind) (dest size : Nat) (hint : BitVec 2) (accs : List Acc)
    (write : Mask) (tx : Option (Nat × Mask)) : Group :=
  let (g, id) := g.fresh
  { g with memq := g.memq ++
      [⟨id, kind, dest, size, hint, accs, write, g.tseq, g.epoch, n, (g.issuing.map Issuing.m).getD (~~~0), tx⟩] }

/-- A boundary: the group's later accesses are ordered behind its earlier ones (R252). -/
def Group.order (g : Group) : Group := { g with epoch := g.epoch + 1 }

/-- Effects that the group has issued and that have not been applied. -/
def Group.effsOut (g : Group) : List Eff := (g.tasks.map Task.effs).flatten ++ g.effq
/-- Its value-returning atomics among them. -/
def atomicsOf (es : List Eff) : List Atomic :=
  es.filterMap (fun e =>
    match e with
    | .atomic a => some a
    | _ => none)

/-- An order joins those that still hold an access back. -/
def Group.addOrder (g : Group) (o : Order) : Group :=
  let live (x : Order) : Bool := g.memq.any (fun p => decide (p.issued < x.pre)) ||
    (atomicsOf g.effsOut).any (fun a => decide (a.issued < x.pre))
  { g with orders := (g.orders ++ [o]).filter live }
/-- Whether an access issued at step `i` by a path `m` comes before one issued at step `j` by a path `n`. -/
def Group.ordered (g : Group) (i : Nat) (m : Mask) (j : Nat) (n : Mask) : Bool :=
  g.orders.any (fun o => decide (i < o.pre) && decide (o.post ≤ j) && o.m &&& m != 0 && o.n &&& n != 0)

/-! ## Transactions seen from loads and stores (R233, R234) -/

/-- Causes of `txstat` (R237). -/
def txCapacity : BitVec 16 := 3
def txForbid : BitVec 16 := 5

/-- Aborts lanes that have not aborted. -/
def Tx.abortLanes (t : Tx) (m : Mask) (cause : BitVec 16) : Tx :=
  { t with lanes := t.lanes.map (fun x =>
      if m.getLsbD x.lane && x.abort.isNone then { x with abort := some cause, writes := [] } else x) }
/-- The lanes' stores are gone at once, so that a load issued before the abort and performed after it returns committed
data; R233 and R235 do not say which it returns (DESIGN CHOICE, log entry 129). -/
def Group.txAbort (g : Group) (m : Mask) (cause : BitVec 16) : Group :=
  { g with tx := g.tx.map (fun t => t.abortLanes m cause) }
/-- The lanes of a transaction. -/
def Tx.mask (t : Tx) : Mask := maskOf (t.lanes.map TxLane.lane)

/-- Changes the transaction with an identifier, open or closed with its task. -/
def Group.modTx (g : Group) (id : Nat) (f : Tx → Tx) : Group :=
  { g with
    tx := g.tx.map (fun t => if t.id = id then f t else t)
    tasks := g.tasks.map (fun t => { t with txend := t.txend.map (fun e => if e.1.id = id then (f e.1, e.2) else e) }) }
def Group.findTx (g : Group) (id : Nat) : Option Tx :=
  match g.tx with
  | some t => if t.id = id then some t else (g.tasks.findSome? (fun k => k.txend.bind (fun e => if e.1.id = id then some e.1 else none)))
  | none => g.tasks.findSome? (fun k => k.txend.bind (fun e => if e.1.id = id then some e.1 else none))

def TxLane.modify (t : Tx) (l : Nat) (f : TxLane → TxLane) : Tx :=
  { t with lanes := t.lanes.map (fun x => if x.lane = l then f x else x) }
/-- The aligned 8-byte words of a set of bytes. -/
def wordsOf (t : Tbl Byte) : List Nat := t.foldl (fun ws p => insertNat (p.1 / 8) ws) []

/-- A read recorded with the committed word (R233), beside the values that earlier loads of the word read; a 17th word
aborts the lane (R234). -/
def TxLane.read (x : TxLane) (word : Nat) (v : BitVec 64) : TxLane :=
  let old := (Tbl.find x.reads word).getD []
  if x.abort.isSome || old.contains v then x
  else if old.isEmpty && decide (16 ≤ x.reads.length) then { x with abort := some txCapacity, writes := [] }
  else { x with reads := Tbl.set x.reads word (old ++ [v]) }
/-- A store held in the lane's write set; a 9th word aborts the lane. -/
def TxLane.write (x : TxLane) (key : Nat) (bs : List Byte) : TxLane :=
  if x.abort.isSome then x
  else
    let ws := (List.range bs.length).foldl (fun t i => Tbl.set t (key + i) (bs.getD i 0)) x.writes
    if 8 < (wordsOf ws).length then { x with abort := some txCapacity, writes := [] } else { x with writes := ws }

/-- Under PROTECT a shadow lane ends as its primary lane does (R388). -/
def Tx.pairUp (protect : Bool) (t : Tx) : Tx :=
  if protect then
    { t with lanes := t.lanes.map (fun x =>
        match (if x.lane % 2 = 1 then t.lanes.find? (fun y => y.lane + 1 == x.lane) else none) with
        | some y => { x with abort := y.abort, writes := [] }
        | none => x) }
  else t

/-- A word aborts the transaction it stands in: its lanes perform outside of it, those too that issued before the word
was known to (R234). -/
def Group.goOutside (g : Group) : Group :=
  let ids := (g.issuing.map Issuing.txOps).getD []
  { g.txAbort (~~~0) txForbid with
    memq := g.memq.map (fun o => if ids.contains o.id then { o with tx := none } else o)
    issuing := g.issuing.map (fun i => { i with outside := true, txOps := [] }) }

/-- Which lanes of a global access of size code `size` are transactional (R233); an access of size 4, or to an SA,
DEV or remote page, by a lane of the transaction aborts every lane, and the whole instruction is made as outside a
transaction (R234), whichever of its lanes a missing page has kept back (R97). -/
def GW.txLanes (w : GW) (size : Nat) (oks : List (Nat × BitVec 64 × Loc × Attr)) : GW × Option (Nat × Mask) :=
  match w.g.tx with
  | none => (w, none)
  | some t =>
    let mine := oks.filter (fun o => t.mask.getLsbD o.1)
    if mine.isEmpty || w.iss.outside then (w, none)
    else if size = 4 || mine.any (fun o => o.2.2.2.sa || o.2.2.2.dev || o.2.2.2.rnode != 0) then
      ({ w with g := w.g.goOutside }, none)
    else
      ({ w with g := { w.g with issuing := w.g.issuing.map (fun i => { i with txOps := i.txOps ++ [w.g.nextId] }) } },
        some (t.id, maskOf (mine.map (fun o => o.1))))

/-! ## Lane loads and stores (R105 to R107) -/

/-- The value of registers D to D+n−1 in a lane, the low register lowest (R105). -/
def GW.laneValue (w : GW) (d : BitVec 8) (size l : Nat) : BitVec 128 :=
  let n := if size = 3 then 2 else if size = 4 then 4 else 1
  BitVec.ofNat 128 ((List.range n).foldl (fun a i => a + (w.g.readV w.n (d.toNat + i) l).toNat * 2 ^ (32 * i)) 0)

/-- A byte of a device page as the group's own held stores leave it: the latest that covers it, or a remote one on its way
(R99, R107). -/
def Group.heldByte (g : Group) (key : Nat) : Option Byte :=
  let held := (g.tasks.flatMap Task.devs).reverse.findSome? (fun (d : Acc × Nat) =>
    match d.1.loc with
    | .mem i => if i ≤ key ∧ key < i + d.2 then some (BitVec.ofNat 8 (d.1.val.toNat / 256 ^ (key - i))) else none
    | _ => none)
  held.or ((g.remote.map Remote.ver).reverse.findSome? (fun v => Tbl.find v key))

/-- The accesses of a load. A DEV load performs as it issues: its value is taken now (R99), and poison is consumed
with it (R384). Bytes that a held store of the group covers are those of the latest such store, which has performed as it
was held (R107); the device is read all the same (DEDUCED, log entry 114). -/
def GW.takeDev (w : GW) (size : Nat) (oks : List (Nat × BitVec 64 × Loc × Attr)) : GW × List Acc :=
  oks.foldl (fun (r : GW × List Acc) o =>
    match o.2.2.1, o.2.2.2.dev with
    | .mem k, true =>
      let n := szBytes size
      let (s, v, bad) := r.1.s.devRead k n
      let own := (List.range n).map (fun i => w.g.heldByte (k + i))
      let bs := (natLE n v).zip own |>.map (fun x => x.2.getD x.1)
      ({ r.1 with s, g := if bad && own.any Option.isNone then r.1.g.consumed o.2.2.1 else r.1.g },
        r.2 ++ [⟨o.1, o.2.2.1, o.2.1, o.2.2.2, BitVec.ofNat 128 (leNat bs)⟩])
    | _, _ => (r.1, r.2 ++ [⟨o.1, o.2.2.1, o.2.1, o.2.2.2, 0⟩])) (w, [])

def GW.goLoad (w : GW) (sext : Bool) (d : BitVec 8) (size : Nat) (hint : BitVec 2) (eff : Mask) (global : Bool)
    (oks : List (Nat × BitVec 64 × Loc × Attr)) : GW :=
  if oks.isEmpty then w
  else
    let (w, tx) := if global then w.txLanes size oks else (w, none)
    let (w, accs) := w.takeDev size oks
    { w with g := w.g.pushMem w.n (.load sext) d.toNat size hint accs (eff &&& ~~~w.helpers) tx }

/-- Version lines that a list of accesses needs. -/
def accLines (oks : List (Nat × BitVec 64 × Loc × Attr)) : List Nat :=
  oks.filterMap (fun o => match o.2.2.1 with | .mem k => some (lineOf k) | _ => none)

/-- The lanes that find no room for a version line, in ascending order, park the group (R367); the others go on. -/
def GW.wheySplit (w : GW) (oks : List (Nat × BitVec 64 × Loc × Attr)) : GW × List (Nat × BitVec 64 × Loc × Attr) :=
  let r := oks.foldl (fun (r : List (Nat × BitVec 64 × Loc × Attr) × List (Nat × BitVec 64 × Loc × Attr)) o =>
    if w.s.wheyFull w.key w.g (accLines (r.1 ++ [o])) then (r.1, r.2 ++ [o]) else (r.1 ++ [o], r.2)) ([], [])
  (if r.2.isEmpty then w else w.park (r.2.map (fun o => (o.1, o.2.1, none))) 1, r.1)

/-- The accesses of a store of per-lane values. DEV stores are held with the task at once (R99, R107). -/
def GW.goStore (w : GW) (size : Nat) (hint : BitVec 2) (val : Nat → BitVec 128) (lane : Bool)
    (oks : List (Nat × BitVec 64 × Loc × Attr)) : GW :=
  if oks.isEmpty then w
  else
    let global := oks.any (fun o => match o.2.2.1 with | .mem _ => true | _ => false)
    let (w, tx) := if global && lane then w.txLanes size oks else (w, none)
    let mine (o : Nat × BitVec 64 × Loc × Attr) : Bool := match tx with
      | some (_, m) => m.getLsbD o.1
      | none => false
    let (w, plain) := w.wheySplit (oks.filter (fun o => !mine o))
    let oks := oks.filter (fun o => mine o || plain.contains o)
    let acc (o : Nat × BitVec 64 × Loc × Attr) : Acc := ⟨o.1, o.2.2.1, o.2.1, o.2.2.2, val o.1⟩
    let devs := oks.filter (fun o => o.2.2.2.dev)
    let rest := oks.filter (fun o => !o.2.2.2.dev)
    let g := w.g.modOpen (fun t => { t with
      devs := t.devs ++ devs.map (fun o => (acc o, szBytes size))
      pages := devs.foldl (fun ps o => Tbl.set ps (pageOf o.2.1) ()) t.pages })
    let g := if rest.isEmpty then g else g.pushMem w.n .store 0 size hint (rest.map acc) 0 tx
    { w with g }

/-- Byte offset or exact local address of a lane (R101, R102). -/
def GW.laneOff (w : GW) (a : BitVec 8) (l : Nat) (off : BitVec 64) : BitVec 64 :=
  (w.g.readV w.n a.toNat l).signExtend 64 + off
def GW.localAddr (w : GW) (a : BitVec 8) (l : Nat) (off : BitVec 64) : Int :=
  (w.g.readV w.n a.toNat l).toNat + off.toInt

/-- The checks of the lanes of a lane memory instruction in a space: global 0, scratch 1, vault 2. A stale register is
translated again only for a lane that passes the checks of its address's shape (R91, R103). -/
def GW.laneChecks (w : GW) (space : Nat) (x a : Nat) (off : BitVec 64) (size : Nat) (st : Bool) (lanes : Mask) :
    GW × List LaneChk :=
  let ra := BitVec.ofNat 8 a
  if lanes = 0 then (w, [])
  else if space = 0 then
    let w := { w with g := w.g.settleX x }
    let shaped (l : Nat) : Bool :=
      let va := (w.g.readX x).b + w.laneOff ra l off
      canonical va && va.toNat % size == 0
    let (w, xr, bad) := if (lanesOf lanes).any shaped then w.freshX x else (w, w.g.readX x, none)
    w.checkAll (lanesOf lanes) (fun s l =>
      let o := w.laneOff ra l off
      let r := s.accessX w.ctx (.core w.core) xr bad o size st (1000 + 16 * l)
      (r.1, xr.b + o, r.2))
  else
    w.checkAll (lanesOf lanes) (fun s l =>
      let ad := w.localAddr ra l off
      (s, BitVec.ofInt 64 ad, s.accessLocal w.key space ad size))

def laneLoad (space : Nat) (sext : Bool) (f : M) (s : State) : Out :=
  grp s fun w =>
    let eff := w.eff f.mask 0
    let size := f.size.toNat
    let (w, rs) := w.laneChecks space f.x.toNat f.lane.toNat (f.off.signExtend 64) (szBytes size) false
      (w.memLanes eff false)
    w.course rs false 0 [] (fun w oks => w.goLoad sext f.data size f.hint eff (space == 0) oks)

/-- Address and data of a lane, compared across a pair under PROTECT (R388). -/
def GW.pairKey (w : GW) (space : Nat) (a : BitVec 8) (off : BitVec 64) (v : Nat → BitVec 128) (l : Nat) :
    BitVec 64 × BitVec 128 :=
  (if space = 0 then w.laneOff a l off else BitVec.ofInt 64 (w.localAddr a l off), v l)

/-- The address of a lane as it is formed in its space (R374). -/
def GW.formed (w : GW) (space x : Nat) (a : BitVec 8) (off : BitVec 64) (l : Nat) : BitVec 64 :=
  if space = 0 then ((w.g.settleX x).readX x).b + w.laneOff a l off else BitVec.ofInt 64 (w.localAddr a l off)

/-- SHADOW_MISMATCH on a store, atomic or reduction: it is suppressed in every lane (R374, R388). -/
def GW.trapStored (w : GW) (ls : List Nat) (eff : Mask) (adr : Nat → BitVec 64) : State :=
  w.trapWith { trapOf Cause.shadowMismatch w.at_ with
    lanes := (suppressed eff adr).map (fun r =>
      (r.1, if ls.contains r.1 then { r.2 with cause := Cause.shadowMismatch } else r.2)) }

/-- Pairs whose lanes disagree on two keys. -/
def pairDiffs (protect : Bool) (lanes : Mask) (p : Nat → BitVec 64 × BitVec 128) : List Nat :=
  if protect then
    ((List.range 16).map (2 * ·)).filter (fun l =>
      (lanes.getLsbD l || lanes.getLsbD (l + 1)) &&
        (lanes.getLsbD l != lanes.getLsbD (l + 1) || p l != p (l + 1)))
  else []

def laneStore (space : Nat) (f : M) (s : State) : Out :=
  grp s fun w =>
    let eff := w.eff f.mask 0
    let size := f.size.toNat
    let off := f.off.signExtend 64
    let v := w.laneValue f.data size
    let adr := w.formed space f.x.toNat f.lane off
    match pairDiffs w.protect (eff &&& ~~~w.helpers) (w.pairKey space f.lane off v) with
    | [] =>
      let (w, rs) := w.laneChecks space f.x.toNat f.lane.toNat off (szBytes size) true (w.memLanes eff true)
      w.course rs true 1 (suppressed (eff &&& w.helpers) adr) (fun w oks => w.goStore size f.hint v true oks)
    | ls => w.trapStored ls eff adr

def execVld (f : M) (s : State) : Out := laneLoad 0 false f s
def execVldx (f : M) (s : State) : Out := laneLoad 0 true f s
def execVst (f : M) (s : State) : Out := laneStore 0 f s
def execVsld (f : M) (s : State) : Out := laneLoad 1 false f s
def execVsldx (f : M) (s : State) : Out := laneLoad 1 true f s
def execVsst (f : M) (s : State) : Out := laneStore 1 f s
def execVvld (f : M) (s : State) : Out := laneLoad 2 false f s
def execVvldx (f : M) (s : State) : Out := laneLoad 2 true f s
def execVvst (f : M) (s : State) : Out := laneStore 2 f s

/-! ## Group-wide loads and stores (R108) -/

/-- The check of one address of the group, entered in lane 0's record. -/
def GW.grpCheck (w : GW) (space : Nat) (a : BitVec 64) (size : Nat) (st : Bool) : GW × List LaneChk :=
  if space = 0 then
    let r := w.s.accessVa w.ctx (.core w.core) a size st 600
    ({ w with s := r.1 }, [(0, a, r.2)])
  else (w, [(0, a, w.s.accessLocal w.key space a.toNat size)])

/-- The records of a group-wide access treat lane 0 as no helper lane. -/
def GW.courseG (w : GW) (rs : List LaneChk) (st : Bool) (kind : BitVec 3)
    (go : GW → List (Nat × BitVec 64 × Loc × Attr) → GW) : State :=
  match rs with
  | [(_, a, .bad c k)] => w.trapWith { trapOf c w.at_ with lanes := [(0, ⟨a, k, c, 0, if st then 4 else 0⟩)] }
  | [(_, a, .ok l t)] =>
    let w := go w [(0, a, l, t)]
    w.put w.g
  | [(_, a, .demand p)] =>
    let w := w.park [(0, a, some p)] kind
    w.put w.g
  | _ => w.s

def grpLoad (space : Nat) (f : M) (s : State) : Out :=
  grp s fun w => w.grpOp (w.predBits f.mask)
    (let size := f.size.toNat
     let (w, rs) := w.grpCheck space (w.opdG f.lane + f.off.signExtend 64) (szBytes size) false
     w.courseG rs false 0 (fun w oks =>
       let (w, accs) := w.takeDev size oks
       { w with g := w.g.pushMem w.n .gload f.data.toNat size f.hint accs 0 none }))

def grpStore (space : Nat) (f : M) (s : State) : Out :=
  grp s fun w => w.grpOp (w.predBits f.mask)
    (let size := f.size.toNat
     let v : BitVec 128 := (w.opdG f.data).setWidth 128
     let (w, rs) := w.grpCheck space (w.opdG f.lane + f.off.signExtend 64) (szBytes size) true
     w.courseG rs true 1 (fun w oks => w.goStore size f.hint (fun _ => v) false oks))

def execGld (f : M) (s : State) : Out := grpLoad 0 f s
def execGst (f : M) (s : State) : Out := grpStore 0 f s
def execGsld (f : M) (s : State) : Out := grpLoad 1 f s
def execGsst (f : M) (s : State) : Out := grpStore 1 f s
def execGvld (f : M) (s : State) : Out := grpLoad 2 f s
def execGvst (f : M) (s : State) : Out := grpStore 2 f s

/-! ## Translation instructions (R109 to R112) -/

/-- A result that is read at issue and reaches its register later. -/
def Group.pushWord (g : Group) (n d : Nat) (v : BitVec 64) : Group := g.pushMem n (.word v) d 3 0 [] 0 none

def execXlat (f : M) (s : State) : Out :=
  grp s fun w =>
    let n := f.x.toNat
    let w := { w with g := w.g.settleX n }
    let b := w.opdG f.lane + f.off.signExtend 64
    match w.s.xlatBase w.ctx (.core w.core) b 600 with
    | (s, .inl x) => { w with s }.put (w.g.pushMem w.n (.xlat n x) 0 0 0 [] 0 none)
    | (s, .inr c) => { w with s }.courseG [(0, b, c)] false 0 (fun w _ => w)

def execXrel (f : M) (s : State) : Out :=
  grp s fun w =>
    let g := w.g.settleX f.x.toNat
    w.put (g.writeX f.x.toNat { g.readX f.x.toNat with l := 0 })

/-- The part of a translation register that `xget` selects (R110). -/
def xgetPart (x : XReg) (gen : BitVec 64) (sel : Nat) : BitVec 64 :=
  match sel with
  | 0 => x.p.setWidth 64
  | 1 => x.b
  | 2 => x.l.setWidth 64
  | _ => bit x.w 0 ||| bit x.sa 1 ||| bit x.dev 2 ||| fld x.rnode 8 ||| bit (x.tag != gen) 16

def execXget (f : M) (s : State) : Out :=
  grp s fun w =>
    let g := w.g.settleX f.x.toNat
    w.put (g.pushWord w.n f.data.toNat (xgetPart (g.readX f.x.toNat) (w.s.ctx w.ctx).gen f.size.toNat))

/-- An invalidation starts: XLT_GEN advances (R95, R111, R395). -/
def State.startInval (s : State) (ctx id : Nat) (va : BitVec 64) (size : Nat) (host : Bool) : State :=
  let x := s.ctx ctx
  s.setCtx ctx { x with gen := x.gen + 1, invals := x.invals ++ [⟨id, va, size, host⟩] }

def execTlbinv (f : M) (s : State) : Out :=
  grp s fun w =>
    let a := w.opdG f.lane
    let n := w.opdG f.data
    if n ≠ 0 && !canonical a then w.trapKind Cause.range Kind.noncanon
    else
      let s := w.s.startInval w.ctx w.s.now a n.toNat false
      { w with s }.put (w.g.pushMem w.n (.inval w.s.now) 0 0 0 [] 0 none)

/-- Accesses of a group that have not performed. -/
def atomicAccs (es : List Eff) : List Acc := (atomicsOf es).flatMap (fun a => a.accs.map (fun x => x.1))
def Group.pendingAccs (g : Group) : List Acc := (g.memq.map MemOp.accs).flatten ++ atomicAccs g.effsOut

/-- A cached translation that an invalidation drops. -/
def Inval.dropsTlb (i : Inval) (ctx : Nat) (t : Tlb) : Bool := t.ctx == ctx && i.hits t.va.toNat t.size
def Inval.dropsWalk (i : Inval) (ctx : Nat) (e : Nat × Nat × Nat × BitVec 64) : Bool :=
  e.1 == ctx && i.hits (entryVa e.2.1 e.2.2.1) (2 ^ (12 + 9 * (e.2.1 - 1)))

/-- An access that may have been translated through an entry that the invalidation drops has not performed: one of a group,
or of an atomic that an ended group has left. A wait of `waitw` that has read its word once does not count
(DESIGN CHOICE, log entry 97). -/
def State.invalBusy (s : State) (ctx : Nat) (i : Inval) : Bool :=
  let ts := (s.chiplets.flatMap (fun c => c.2.tlb) ++ s.cores.flatMap (fun c => c.2.tlb)).filter (i.dropsTlb ctx)
  let ws := (s.chiplets.flatMap (fun c => c.2.wcache)).filter (i.dropsWalk ctx)
  let under (a : Acc) (e : Nat × Nat × Nat × BitVec 64) : Bool :=
    let lo := entryVa e.2.1 e.2.2.1
    decide (lo ≤ a.addr.toNat) && decide (a.addr.toNat < lo + 2 ^ (12 + 9 * (e.2.1 - 1)))
  let open_ (a : Acc) : Bool :=
    (match a.loc with
      | .mem _ => true
      | _ => false) && (i.hits a.addr.toNat 1 || ts.any (fun t => t.covers ctx a.addr) || ws.any (under a))
  s.keys.any (fun k =>
    match s.group k with
    | some g => s.lctx k.launch == ctx && g.pendingAccs.any open_
    | none => false) ||
  s.tails.any (fun t => s.lctx t.key.launch == ctx && (atomicAccs t.effq).any open_)

/-- The completion of an invalidation (R95): every cached entry it covers is dropped, and no access translated
through one remains. -/
def State.invalDone (s : State) (ctx id : Nat) : State :=
  let x := s.ctx ctx
  match x.invals.find? (fun i => i.id == id) with
  | none => s
  | some i =>
    if s.invalBusy ctx i then s
    else
      let s := s.setCtx ctx { x with invals := x.invals.filter (fun j => j.id != id) }
      let s := { s with
        chiplets := s.chiplets.map (fun (c : Nat × Chiplet) => (c.1, { c.2 with
          tlb := c.2.tlb.filter (fun t => !i.dropsTlb ctx t), wcache := c.2.wcache.filter (fun e => !i.dropsWalk ctx e) }))
        cores := s.cores.map (fun (c : Nat × Core) => (c.1, { c.2 with tlb := c.2.tlb.filter (fun t => !i.dropsTlb ctx t) })) }
      let s := if i.host then { s with host := { s.host with inv := s.host.inv &&& ~~~(1 : BitVec 64) } } else s
      s.keys.foldl (fun s k => s.modGroup k (fun g => { g with memq := g.memq.filter (fun o =>
        !(o.kind == .inval id && s.lctx k.launch == ctx)) })) s

def execTlbInvalidationComplete (ctx id : Nat) (s : State) : Out := .next (s.invalDone ctx id)

/-! ## Prefetch and cache control (R113, R114) -/

/-- The sector of a byte in memory. -/
def Loc.sector : Loc → Option Nat
  | .mem key => some (sectorOf key)
  | _ => none

/-- Sectors that hold one of a core's miss-status entries: their data has not returned, and a load waits for it (R85). -/
def State.pendingSectors (s : State) (core : Nat) : List Nat :=
  let waits (sec : Nat) (k : GKey) : Bool := s.coreOf k == core && (match s.group k with
    | some g => g.memq.any (fun o => (match o.kind with
        | .load _ => true
        | .gload => true
        | _ => false) && o.accs.any (fun a => a.loc.sector == some sec))
    | none => false)
  ((s.core core).misses.map (fun (p : Nat × Unit) => p.1)).filter (fun sec => s.keys.any (waits sec))

/-- A prefetch of one sector: it reads only into caches, takes a miss-status entry only while 32 are free, and is
dropped where R85 and R100 say so. Hint 1 marks its line for eviction first (R113). -/
def State.prefetch (s : State) (ctx core : Nat) (hint : BitVec 2) (va : BitVec 64) (k : Nat) : State :=
  match s.xlate ctx (.core core) va k .prefetch with
  | (s, .ok t) =>
    let pa := t.pa + (va - t.va).setWidth 52
    if t.attr.dev || t.attr.rnode ≠ 0 || s.paFault ctx pa t.attr 8 ≠ none || hint = 3 ||
        decide (224 < (s.pendingSectors core).length) then s
    else
      let sec := sectorOf (memKey 0 pa)
      let s := s.fillSector core sec
      if hint = 1 then
        let c := s.core core
        s.setCore core { c with evictFirst := Tbl.set c.evictFirst (sec / 4) () }
      else s
  | (s, _) => s

/-- A prefetch that software asks for may be made or dropped. -/
def GW.prefetch (w : GW) (hint : BitVec 2) (va : BitVec 64) (k : Nat) : GW :=
  if w.s.coin (k + 9) then { w with s := w.s.prefetch w.ctx w.core hint va k } else w

/-- The sectors that `n` bytes from an address touch, by their first byte. -/
def sectorVas (va : BitVec 64) (n : Nat) : List (BitVec 64) :=
  let lo := BitVec.ofNat 64 (va.toNat / 64 * 64)
  if va.toNat % 64 + n ≤ 64 then [lo] else [lo, lo + 64]

def execVpf (f : M) (s : State) : Out :=
  grp s fun w =>
    let eff := w.eff f.mask 0
    let w := { w with g := w.g.settleX f.x.toNat }
    let b := (w.g.readX f.x.toNat).b
    let r := (lanesOf (primary w.protect eff)).foldl (fun w l =>
      (sectorVas (b + w.laneOff f.lane l (f.off.signExtend 64)) (szBytes f.size.toNat)).zipIdx.foldl (fun w x =>
        w.prefetch f.hint x.1 (1000 + 32 * l + 16 * x.2)) w) w
    r.put r.g

def execGpf (f : M) (s : State) : Out :=
  grp s fun w => w.grpOp (w.predBits f.mask)
    (let a := w.opdG f.lane + f.off.signExtend 64
     let r := (List.range 4).foldl (fun w i =>
       w.prefetch f.hint (BitVec.ofNat 64 (a.toNat / 256 * 256 + 64 * i)) (1000 + 16 * i)) w
     r.put r.g)

/-- `l1inv`: U and LA data go home, then every line of the core's L1 is dropped. -/
def execL1inv (_f : M) (s : State) : Out :=
  grp s fun w => (((w.s.uSendCore w.core).laWritebackCore w.core).flushL1 w.core).modGroup w.key (fun _ => w.g)

/-! ## Accesses performing (R107) -/

/-- Whether two accesses touch overlapping bytes of one space, by the addresses they were formed with. Accesses that reach
one physical byte through two virtual addresses are not ordered, which is the model's choice (DESIGN CHOICE, log entry 75). -/
def Acc.meets (a : Acc) (n : Nat) (b : Acc) (m : Nat) : Bool :=
  (match a.loc, b.loc with
    | .mem _, .mem _ => true
    | .scr _, .scr _ => true
    | .vlt _, .vlt _ => true
    | _, _ => false) && overlaps a.addr.toNat n b.addr.toNat m

/-- Atomics that precede an access of task `tseq`: those of tasks closed before it (R222). -/
def Group.atomicsBefore (g : Group) (tseq : BitVec 32) : List Atomic :=
  atomicsOf (((g.tasks.takeWhile (fun t => t.tseq != tseq)).map Task.effs).flatten ++ g.effq)

/-- An access of operation `o` is ordered behind accesses that have not performed (R252, R253): those that a release,
a boundary, an acquire or a join separates from it. -/
def Group.fenced (g : Group) (o : MemOp) : Bool :=
  (g.memq.takeWhile (fun p => p.id != o.id)).any (fun p => !p.accs.isEmpty &&
      (decide (p.ep < o.ep) || g.ordered p.issued p.path o.issued o.path)) ||
    (g.atomicsBefore o.tseq).any (fun t => decide (t.ep < o.ep) || g.ordered t.issued t.write o.issued o.path)

/-- Whether an access of operation `o` must wait: for accesses ordered before it (R252), for an earlier access to
overlapping bytes (R107), a lower lane of its own store (R106), or an earlier atomic (R222). A transactional access
waits until all lanes of its word have issued, since one of them may still take it out of the transaction (R234). -/
def Group.blocked (g : Group) (o : MemOp) (a : Acc) : Bool :=
  let n := szBytes o.size
  g.fenced o || g.issuing.any (fun i => i.txOps.contains o.id) ||
    (g.memq.takeWhile (fun p => p.id != o.id)).any (fun p => p.accs.any (fun b => a.meets n b (szBytes p.size))) ||
    (match o.kind with
      | .store => o.accs.any (fun b => decide (b.lane < a.lane) && a.meets n b n)
      | .red _ _ => o.accs.any (fun b => decide (b.lane < a.lane) && a.meets n b n)
      | _ => false) ||
    (g.atomicsBefore o.tseq).any (fun t => t.accs.any (fun b => a.meets n b.1 (szBytes t.size)))

/-- Removes a performed access; an operation with none left is done. -/
def Group.dropAcc (g : Group) (id lane : Nat) : Group :=
  { g with memq := g.memq.filterMap (fun o =>
      if o.id = id then
        let r := { o with accs := o.accs.filter (fun a => a.lane != lane) }
        if r.accs.isEmpty then none else some r
      else some o) }
def Group.dropOp (g : Group) (id : Nat) : Group := { g with memq := g.memq.filter (fun o => o.id != id) }

/-- The data of one lane's load: value, and whether it consumes poison. A transactional load returns the lane's own store as the
load performs, none where the lane has aborted meanwhile (DESIGN CHOICE, log entry 129). A load through L1 draws once for each sector,
so that the lanes of one request see one sector (R84, R106). -/
def State.loadAcc (s : State) (k : GKey) (g : Group) (o : MemOp) (a : Acc) : State × Group × Nat × Bool :=
  let n := szBytes o.size
  let core := s.coreOf k
  match a.loc with
  | .mem key =>
    let draw := 2 ^ 60 + sectorOf key
    let keep := o.hint != 3
    let mine := match o.tx with
      | some (id, m) => if m.getLsbD a.lane then some id else none
      | none => none
    if a.attr.dev then (s, g, a.val.toNat, false)
    else
      match mine with
      | some id =>
        let (s, bs, bad) := s.loadL1 core (key / 8 * 8) 8 keep draw
        let own := ((g.findTx id).bind (fun t => t.lanes.find? (fun x => x.lane == a.lane))).elim [] TxLane.writes
        let v := leNat ((List.range n).map (fun i => (Tbl.find own (key + i)).getD (bs.getD (key % 8 + i) 0)))
        (s, g.modTx id (fun t => (TxLane.modify t a.lane (fun x =>
          x.read (key / 8) (BitVec.ofNat 64 (leNat bs)))).pairUp (s.protect k)), v, bad)
      | none =>
        let (s, bs, bad) := if a.attr.rnode ≠ 0 then (s, Store.bytes s.mem key n, s.poisoned a.loc n)
          else s.loadL1 core key n keep draw
        (s, g, leNat (g.overlay key bs), bad && (List.range n).any (fun i => (g.ownByte (key + i)).isNone))
  | l => (s, g, s.readLocNat l n, s.poisoned l n)

/-- Lane registers written with a loaded value (R105); under PROTECT both lanes of the pair receive it (R388). A load of
some lanes alone merges with the register's other lanes (R155); one of all lanes leaves no error once every lane has
returned (R382). -/
def Group.writeLoad (g : Group) (protect sext : Bool) (o : MemOp) (lane v : Nat) : Group :=
  let lanes := (if protect then laneBit lane ||| laneBit (lane + 1) else laneBit lane) &&& o.write
  let ty := if sext then o.size else o.size + 4
  let x : Nat := if o.size ≤ 1 then (writeInt ty (v : Int)).toNat else v
  let n := if o.size = 3 then 2 else if o.size = 4 then 4 else 1
  let rv := (List.range n).foldl (fun t i =>
    writeV t (o.dest + i) lanes (List.replicate 32 (BitVec.ofNat 64 (x / 2 ^ (32 * i) % 2 ^ 32)))) g.regs.v
  { g with
    regs := { g.regs with v := rv }
    badRegs := if o.write = ~~~0 && o.accs.all (fun a => a.lane == lane) then
        g.badRegs.filter (fun p => !(decide (o.dest ≤ p.1) && decide (p.1 < o.dest + n)))
      else g.badRegs }.consume
    (if lanes != 0 && o.write != ~~~0 then
      ((List.range n).filter (fun i => Tbl.has g.badRegs (o.dest + i))).map (fun i => (0, o.dest + i)) else [])

def Group.writeG (g : Group) (d : Nat) (v : BitVec 64) : Group :=
  if d = 0 then g else { g with regs := { g.regs with g := Store.write g.regs.g d v } }

/-- One access of a load performs and its register is written. -/
def State.returnOne (s : State) (k : GKey) (id lane : Nat) : State :=
  match s.group k with
  | none => s
  | some g =>
    match g.memq.find? (fun o => o.id == id) with
    | none => s
    | some o =>
      match o.accs.find? (fun a => a.lane == lane) with
      | none => s
      | some a =>
        match o.kind with
        | .load sext =>
          let (s, g, v, bad) := s.loadAcc k g o a
          let g := (g.dropAcc id lane)
          s.setGroup k (if bad then g.consumed a.loc else g.writeLoad (s.protect k) sext o lane v)
        | .gload =>
          let (s, g, v, bad) := s.loadAcc k g o a
          let g := g.dropAcc id lane
          s.setGroup k (if bad then g.consumed a.loc else g.writeG o.dest (BitVec.ofNat 64 v))
        | .gword => s.setGroup k ((g.dropAcc id lane).writeG o.dest (BitVec.ofNat 64 (s.readLocNat a.loc 8)))
        | _ => s

/-- The accesses of an operation that perform together with one of them: those of its sector where they go through L1
(R84), elsewhere those of the same bytes (R106); each lane of a DEV page alone (R99). -/
def MemOp.peers (o : MemOp) (a : Acc) : List Acc :=
  o.accs.filter (fun b =>
    match a.loc, b.loc with
    | .mem i, .mem j =>
      if a.attr.dev then a.lane == b.lane else if a.attr.rnode ≠ 0 then i == j else sectorOf i == sectorOf j
    | l, m => l == m)

/-- A request that was issued after one that waits for a miss-status entry is held with it (R85). -/
def State.heldBack (s : State) (core issued : Nat) : Bool :=
  match (s.core core).stalled with
  | none => false
  | some (q, id, t, sec) =>
    decide (t < issued) && (match s.group q with
      | some g => s.coreOf q == core &&
          g.memq.any (fun p => p.id == id && p.issued == t && p.accs.any (fun a => a.loc.sector == some sec))
      | none => false)
/-- Some request of a core waits for a miss-status entry: the core issues no further load until one frees (R85). -/
def State.missHeld (s : State) (core : Nat) : Bool := s.heldBack core (s.now + 1)

/-- A load's sector and the miss-status entries (R85): a hit, a sector whose data returns, or one that takes an entry
now. False: its data has not come, or no entry is free and the request waits. A request that waits is held until it has
its entry, and no longer. A load of a DEV or remote page, which L1 does not keep, takes no entry (DESIGN CHOICE, log
entry 112). -/
def State.missEntry (s : State) (k : GKey) (o : MemOp) (a : Acc) : State × Bool :=
  let core := s.coreOf k
  let c := s.core core
  match o.kind, a.loc with
  | .gword, _ => (s, true)
  | _, .mem key =>
    if a.attr.dev || a.attr.rnode ≠ 0 then (s, true)
    else
      let sec := sectorOf key
      let taken := s.pendingSectors core
      let held := c.stalled.any (fun x => x == (k, o.id, o.issued, sec))
      let stalled := if held then none else c.stalled
      if (Tbl.has c.l1 sec && s.coin (2 ^ 60 + sec)) || taken.contains sec then
        if Tbl.has c.misses sec || held then (s.setCore core { c with misses := Tbl.del c.misses sec, stalled }, true)
        else (s, true)
      else if 256 ≤ taken.length then
        (s.setCore core { c with stalled := c.stalled.or (some (k, o.id, o.issued, sec)) }, false)
      else if s.coin (2 ^ 59 + sec) then (s.setCore core { c with misses := Tbl.set c.misses sec (), stalled }, false)
      else if held then (s.setCore core { c with stalled }, true)
      else (s, true)
  | _, _ => (s, true)

/-- The load's access in a lane performs, and with it those of the same request. -/
def State.returnAcc (s : State) (k : GKey) (id lane : Nat) : State :=
  match s.group k with
  | none => s
  | some g =>
    match g.memq.find? (fun o => o.id == id) with
    | none => s
    | some o =>
      match o.accs.find? (fun a => a.lane == lane) with
      | none => s
      | some a =>
        if (o.peers a).any (g.blocked o) || s.heldBack (s.coreOf k) o.issued then s
        else
          match s.missEntry k o a with
          | (s, true) => (o.peers a).foldl (fun s b => s.returnOne k id b.lane) s
          | (s, false) => s

/-- A load returns in some of its lanes, in ascending lane order (LOAD_RETURN). Results that were read at issue reach
their registers here too. -/
def State.loadReturn (s : State) (k : GKey) (id : Nat) (lanes : Mask) : State :=
  match s.group k with
  | none => s
  | some g =>
    match g.memq.find? (fun o => o.id == id) with
    | none => s
    | some o =>
      match o.kind with
      | .xlat n x => s.setGroup k ((g.dropOp id).writeX n x)
      | .word v => s.setGroup k ((g.dropOp id).writeG o.dest v)
      | .maskVal v => s.setGroup k { g.dropOp id with
          regs := if o.dest = 0 then g.regs else { g.regs with m := Store.write g.regs.m o.dest v } }
      | .txstat =>
        if (g.tasks.takeWhile (fun t => t.tseq != o.tseq)).any (fun t => t.txend.isSome) then s
        else s.setGroup k ((g.dropOp id).landAll (s.protect k)
          [⟨.v o.dest, o.write, byLane (fun l => (Store.read g.txStat l).setWidth 64), 0⟩])
      | _ => (lanesOf lanes).foldl (fun s l => s.returnAcc k id l) s

def execLoadReturn (g : GKey) (id : Nat) (lanes : Mask) (s : State) : Out := .next ((s.ripen g).loadReturn g id lanes)

/-- Bytes put into the version of a task (R86), and the 4 KiB virtual pages it wrote (R359). -/
def Group.putVersion (g : Group) (tseq : BitVec 32) (key : Nat) (va : BitVec 64) (bs : List Byte) : Group :=
  { g with tasks := g.tasks.map (fun t =>
      if t.tseq = tseq then
        { t with
          ver := (List.range bs.length).foldl (fun v i => Tbl.set v (key + i) (bs.getD i 0)) t.ver
          pages := Tbl.set t.pages (pageOf va) () }
      else t) }
def Group.markScr (g : Group) (tseq : BitVec 32) : Group :=
  { g with tasks := g.tasks.map (fun t => if t.tseq = tseq then { t with scrFlag := true } else t) }

/-- One access of a store performs: into the version, or at its array (R107). -/
def State.performAcc (s : State) (k : GKey) (id lane : Nat) : State :=
  match s.group k with
  | none => s
  | some g =>
    match g.memq.find? (fun o => o.id == id) with
    | none => s
    | some o =>
      match o.accs.find? (fun a => a.lane == lane) with
      | none => s
      | some a =>
        if g.blocked o a || s.heldBack (s.coreOf k) o.issued then s
        else
          let bs := natLE (szBytes o.size) a.val.toNat
          let g1 := g.dropAcc id lane
          match o.kind with
          | .store =>
            match a.loc with
            | .mem key =>
              match o.tx with
              | some (t, m) =>
                if m.getLsbD lane then
                  s.setGroup k (g1.modTx t (fun x => (TxLane.modify x lane (fun y => y.write key bs)).pairUp (s.protect k)))
                else (s.dropSectors (s.coreOf k) key bs.length).setGroup k (g1.putVersion o.tseq key a.addr bs)
              | none => (s.dropSectors (s.coreOf k) key bs.length).setGroup k (g1.putVersion o.tseq key a.addr bs)
            | l => (s.writeLoc l bs).setGroup k (g1.markScr o.tseq)
          | .red member bar =>
            let s := (s.applyUpdate a.loc (redFn member) o.size a.val.toNat).setGroup k (g1.markScr o.tseq)
            match bar with
            | some b => s.bcArrive b (szBytes o.size)
            | none => s
          | _ => s

def execStorePerform (g : GKey) (id : Nat) (lanes : Mask) (s : State) : Out :=
  .next ((lanesOf lanes).foldl (fun s l => s.performAcc g id l) s)

/-! ## The fault queue (R97) -/

/-- The next page fault that has no entry is written at FQ_TAIL, or FQ_OVF is set while the ring is full. FQ_TAIL counts
modulo the ring's size, which is the model's choice (DESIGN CHOICE, log entry 74). -/
def State.faultPost (s : State) (c : Nat) : State :=
  let x := s.ctx c
  match x.waiting with
  | [] => s
  | (page, kind, loc, launch) :: r =>
    let n := 2 ^ (x.fqSize.toNat + 4)
    if (x.fqTail.toNat + 1) % n = x.fqHead.toNat % n then s.setCtx c { x with fqOvf := true }
    else
      let va := BitVec.ofNat 64 (page * 4096) ||| kind.setWidth 64
      let bytes := le 8 va ++ le 4 loc ++ le 4 (launch.setWidth 32) ++ natLE 16 0
      let s := s.setCtx c { x with fqTail := BitVec.ofNat 16 ((x.fqTail.toNat + 1) % n), waiting := r,
                                   posted := Tbl.set x.posted page kind }
      (s.homeWrite (x.fqBase.toNat * 4096 + 32 * (x.fqTail.toNat % n)) bytes).ctxInt c 3

def execFaultQueuePost (ctx : Nat) (s : State) : Out := .next (s.faultPost ctx)

end Sys2Proof.Machine
end

