-- ==== Sys2Proof/Machine/Copy.lean ====
section
/-! DEFINITION. Copies: their checks at issue and the steps of the core's copy engine, major opcode 0x20 (R115 to
R121, R127). -/
namespace Sys2Proof.Machine
open Sys2Proof

/-! ## Options (R115) -/

def copyDsp (o : BitVec 14) : Nat := (o.extractLsb' 0 2).toNat
def copySsp (o : BitVec 14) : Nat := (o.extractLsb' 2 2).toNat
def copyEty (o : BitVec 14) : Nat := (o.extractLsb' 4 3).toNat
def copyArv (o : BitVec 14) : Bool := o.getLsbD 9
def copyBsp (o : BitVec 14) : Nat := if o.getLsbD 10 then 2 else 1

/-- Bytes of an element: the pattern of `cpyfill`, the element of `cpyadd`, else one byte. -/
def copyUnit (fn : Nat) (o : BitVec 14) : Nat :=
  match fn with
  | 2 => 2 ^ copyEty o
  | 3 => (match copyEty o with
    | 0 => 4
    | 1 => 8
    | 2 => 4
    | _ => 2)
  | _ => 1

/-! ## Checks at issue (R116) -/

/-- One row's range in a space: its upper bits (check 2), then its allotment (check 5). -/
def State.upperOk (space a n : Nat) : Option (BitVec 8) :=
  if space = 1 then (if 2 ^ 21 < a + n then some Kind.scratch else none)
  else if space = 2 then (if 2 ^ 31 < a + n then some Kind.vault else none)
  else none
def State.rangeOk (s : State) (k : GKey) (space a n : Nat) : Option (BitVec 8) :=
  match (if space = 1 then s.scratchRange k a n else s.vaultRange (s.lctx k.launch) a n) with
  | .bad _ kind => some kind
  | _ => none

/-- The first row of a side that fails a test. -/
def firstBad (rows : Nat) (f : Nat → Option (BitVec 8)) : Option (BitVec 8) := (List.range rows).findSome? f

/-- The address of a byte-count barrier as a 16-byte access (R128). -/
def State.barAddr (s : State) (k : GKey) (space : Nat) (a : BitVec 64) : Chk := s.accessLocal k space a.toNat 16

/-- A copy's checks in order: cause and kind of the first failure. Where the destination and the source fail one
check, the destination's is reported, which is the model's choice (DESIGN CHOICE, log entry 76). -/
def GW.copyBad (w : GW) (c : Copy) (barr : Option (Nat × BitVec 64)) : Option (BitVec 8 × BitVec 8) :=
  let empty := c.count = 0 || c.nrow = 0
  let ssp := copySsp c.opts
  let dsp := copyDsp c.opts
  let unit := copyUnit c.fn c.opts
  let rows := if empty then 0 else c.nrow
  let src := c.fn != 2
  let each (f : Nat → Nat → Nat → Option (BitVec 8)) : Option (BitVec 8 × BitVec 8) := Option.map (fun kd => (kindCause kd, kd)) <|
    let d := if dsp = 0 then none
      else firstBad rows (fun j => f dsp (c.dst.toNat + j * c.dpitch) c.count)
    match d with
    | some x => some x
    | none => if ssp = 0 || !src then none
              else firstBad rows (fun j => f ssp (c.src.toNat + j * c.spitch) c.count)
  if 2 ^ 32 ≤ c.count || (c.fn == 1 && decide (2 ^ 40 < c.nrow * max c.dpitch c.spitch + c.count)) then
    some (Cause.range, 0)
  else
    match each (fun sp a n => State.upperOk sp a n) with
    | some x => some x
    | none =>
      if dsp = 0 && !canonical c.dst then some (Cause.range, Kind.noncanon)
      else if src && ssp = 0 && !canonical c.src then some (Cause.range, Kind.noncanon)
      else if (c.fn == 2 || c.fn == 3) &&
          (c.dst.toNat % unit ≠ 0 || (src && c.src.toNat % unit ≠ 0) || c.count % unit ≠ 0) then
        some (Cause.align, 0)
      else
        match each (fun sp a n => w.s.rangeOk w.key sp a n) with
        | some x => some x
        | none =>
          match barr with
          | none => none
          | some (sp, a) =>
            match w.s.barAddr w.key sp a with
            | .bad cause kind => some (cause, kind)
            | _ => none

/-- Whether a copy is a task boundary (R119). -/
def copyBoundary (fn : Nat) (o : BitVec 14) : Bool := fn == 3 || fn == 4 || copyArv o

/-- Issue of a copy: after its checks it joins the engine's queue and the open batch (R116, R119, R122). A copy that is no
boundary waits for the tasks that earlier clauses have closed (R118); whether the task that its own clause closes is one of
them is left to the schedule (DEDUCED, log entry 125). -/
def issueCopy (fn : Nat) (f : X) (s : State) : Out :=
  grp s fun w =>
    let o := f.imm
    let desc := if fn = 1 then w.opdG f.f5 else 0
    let barg := w.opdG (if fn = 1 then f.f5 + 1 else f.f5)
    let (g, id) := w.g.fresh
    let bound := copyBoundary fn o
    let waits := if bound then some g.tseq
      else ((g.tasks.filter Task.closed).getLast?).map Task.tseq
    let bar := match w.s.barAddr w.key (copyBsp o) barg with
      | .ok l _ => if copyArv o then some l else none
      | _ => none
    let c : Copy :=
      { id, key := w.key, ctx := w.ctx, fn, dst := w.opdG f.f1, src := w.opdG f.f2, count := (w.opdG f.f3).toNat,
        nrow := if fn = 1 then (desc.extractLsb' 44 20).toNat else 1,
        dpitch := (desc.extractLsb' 22 22).toNat, spitch := (desc.extractLsb' 0 22).toNat, opts := o, bar,
        waits, started := false, aside := [], pieces := [], stopped := false, wait := none, word := w.at_ }
    match w.copyBad c (if copyArv o then some (copyBsp o, barg) else none) with
    | some (cause, kind) => w.trapKind cause kind
    | none =>
      let g := g.joinBatch 0 id
      let g := g.modOpen (fun t => { t with asyncFlag := true })
      let g := if bound then g.markBoundary else g
      let cr := w.s.core w.core
      (w.s.setCore w.core { cr with copies := cr.copies ++ [c] }).setGroup w.key g

def execCpy (f : X) (s : State) : Out := issueCopy 0 f s
def execCpy2d (f : X) (s : State) : Out := issueCopy 1 f s
def execCpyfill (f : X) (s : State) : Out := issueCopy 2 f s
def execCpyadd (f : X) (s : State) : Out := issueCopy 3 f s
def execCpyxor (f : X) (s : State) : Out := issueCopy 4 f s

/-! ## The engine -/

def Core.copy (c : Core) (k : GKey) (id : Nat) : Option Copy := c.copies.find? (fun x => x.id == id && x.key == k)
/-- The copies of a core are named by their place in its queue. -/
def State.modCopy (s : State) (core i : Nat) (f : Copy → Copy) : State :=
  let c := s.core core
  s.setCore core { c with copies := c.copies.set i (f ((c.copies.getD i
    ⟨0, ⟨0, 0, 0⟩, 0, 0, 0, 0, 0, 0, 0, 0, 0, none, none, false, [], [], false, none, ⟨0, 0, 0, 0, 0, 0⟩⟩))) }

/-- Whether a task of a group has committed: it no longer stands among the group's tasks. -/
def Group.committed (g : Group) (tseq : Option (BitVec 32)) : Bool :=
  match tseq with
  | none => true
  | some t => !g.tasks.any (fun x => x.tseq == t)

/-- Scratch and vault stores that the group issued before operation `id` have performed (R256). -/
def Group.localDone (g : Group) (id : Nat) : Bool :=
  !g.memq.any (fun o => decide (o.id < id) &&
    (match o.kind with
      | .store => o.accs.any (fun a => match a.loc with | .mem _ => false | _ => true)
      | .red _ _ => true
      | _ => false))

/-- The engine starts a copy once the task it waits for has committed, as every task of an exited group has (R118,
R119, R256). -/
def State.copyStart (s : State) (core i : Nat) : State :=
  match (s.core core).copies[i]? with
  | none => s
  | some c =>
    match s.group c.key with
    | none => s.modCopy core i (fun c => { c with started := true })
    | some g =>
      if g.committed c.waits && g.localDone c.id then s.modCopy core i (fun c => { c with started := true }) else s

def execCopyStart (core id : Nat) (s : State) : Out := .next (s.copyStart core id)

/-- Lines of the destination that a row can touch: the stride of piece numbers. -/
def Copy.stride (c : Copy) : Nat := c.count / 256 + 2
/-- A piece: row, first byte and end within the row (R127). -/
def Copy.piece (c : Copy) (k : Nat) : Option (Nat × Nat × Nat) :=
  let row := k / c.stride
  let p := k % c.stride
  let m := (c.dst.toNat + row * c.dpitch) % 256
  let lo := 256 * p - m
  let hi := min c.count (256 * (p + 1) - m)
  if row < c.nrow && lo < hi then some (row, lo, hi) else none
/-- How far a piece must come: its bytes, and one more for its arrival. -/
def Copy.target (c : Copy) (lo hi : Nat) : Nat := hi - lo + (if c.bar.isSome then 1 else 0)
def Copy.allDone (c : Copy) : Bool :=
  c.count == 0 || (List.range (c.nrow * c.stride)).all (fun k =>
    match c.piece k with
    | none => true
    | some (_, lo, hi) => decide (c.target lo hi ≤ (Tbl.find c.pieces k).getD 0))

/-- Source and destination of one space overlap within a row (R121). -/
def Copy.overlapped (c : Copy) (row : Nat) : Bool :=
  c.fn != 2 && copySsp c.opts == copyDsp c.opts &&
    overlaps (c.dst.toNat + row * c.dpitch) c.count (c.src.toNat + row * c.spitch) c.count

/-- A row's destination that overlaps another row, or another row's source in the same space: the rows go in order
(R117, R121). -/
def Copy.rowOrder (c : Copy) : Bool :=
  decide (c.dpitch < c.count) ||
    (c.fn != 2 && copySsp c.opts == copyDsp c.opts && (List.range c.nrow).any (fun i => (List.range c.nrow).any (fun j =>
      i != j && overlaps (c.dst.toNat + i * c.dpitch) c.count (c.src.toNat + j * c.spitch) c.count)))

/-- Whether an engine's work has outlived its launch or its gang: its key has then left the range of launch identifiers. -/
def GKey.orphan (k : GKey) : Bool := decide (2 ^ 24 ≤ k.launch)

/-- The key of work whose group the engine does not know any more. -/
def GKey.leave (k : GKey) : GKey := if GKey.orphan k then k else { k with launch := k.launch + 2 ^ 24 }

/-- Scratch of an engine's work. Of a launch that has completed it is what the block last held (DESIGN CHOICE, log
entry 100). -/
def State.engineScratch (s : State) (k : GKey) (a n : Nat) : Chk :=
  if GKey.orphan k then .ok (.scr (scrKey (bkeyOf (k.launch % 2 ^ 24) k.block) (a % 2 ^ 18))) ⟨true, false, false, 0⟩
  else s.scratchRange k a n

/-- The address of a byte-count barrier for an engine that works for a group of context `ctx` (R128, R205). -/
def State.barFor (s : State) (k : GKey) (ctx space : Nat) (a : BitVec 64) : Chk :=
  if space = 1 && GKey.orphan k && decide (a.toNat < 2 ^ 21) && a.toNat % 16 == 0 then s.engineScratch k a.toNat 16
  else s.accessFor k ctx space a.toNat 16

/-- Where an engine that works for a group of context `ctx` finds `n` bytes of a side, all in one page: their place, a page
to wait for, or a fault. -/
def State.copyPlace (s : State) (k : GKey) (ctx : Nat) (u : Asker) (space : Nat) (va : BitVec 64) (n : Nat) (st : Bool) (draw : Nat) :
    State × Chk :=
  if space = 0 then
    if !canonical va then (s, chkKind Kind.noncanon)
    else
      match s.xlate ctx u va draw .access with
      | (s, .ok t) => s.place ctx (t.pa + (va - t.va).setWidth 52) t.attr 1 st t.leaf
      | (s, .demand) => (s, .demand (pageOf va))
      | (s, .bad kind) => (s, chkKind kind)
  else if space = 1 then (s, s.engineScratch k va.toNat n)
  else (s, s.vaultRange ctx va.toNat n)

/-- A stopped copy: it counts as completed, and its trap is deferred (R120). -/
def State.copyFault (s : State) (core i : Nat) (kind : BitVec 8) : State :=
  match (s.core core).copies[i]? with
  | none => s
  | some c =>
    let s := s.modCopy core i (fun c => { c with stopped := true, wait := none })
    s.modGroup c.key (fun g =>
      let t : TrapInfo := { trapOf (kindCause kind) c.word with
        async := true, lanes := c.word.recs [(0, ⟨0, kind, 0, 0, 0⟩)] }
      { g.completeOp 0 c.id with deferred := g.deferred ++ [⟨0, g.batchOf 0 c.id, t⟩] })

/-- The engine waits for a page (R97, R120). -/
def State.copyWait (s : State) (core i : Nat) (va : BitVec 64) (st : Bool) : State :=
  match (s.core core).copies[i]? with
  | none => s
  | some c =>
    let slot := match s.group c.key with
      | some g => g.sched.slot
      | none => 0
    (s.wantPage c.ctx (pageOf va) (if st then 1 else 0) (locAt core slot) c.key.launch).modCopy core i
      (fun c => { c with wait := some va })

/-- Bytes of a page left from an address on. -/
def pageLeft (a : Nat) : Nat := 4096 - a % 4096

/-- Reads `n` source bytes, page by page; none where a page is missing, with the reason. -/
def State.copyRead (fuel : Nat) (s : State) (k : GKey) (ctx : Nat) (u : Asker) (space : Nat) (va : BitVec 64) (n draw : Nat) :
    State × (List (Byte × Bool) ⊕ (Chk × BitVec 64)) :=
  match fuel with
  | 0 => (s, .inl [])
  | fuel + 1 =>
    if n = 0 then (s, .inl [])
    else
      let m := if space = 0 then min n (pageLeft va.toNat) else n
      match s.copyPlace k ctx u space va m false draw with
      | (s, .ok l _) =>
        let s := match l with
          | .mem key => (linesOf key m).foldl (fun s x => s.recallLine x) s
          | _ => s
        let here := (List.range m).map (fun i => ((s.readLoc (l.plus i) 1).getD 0 0, s.poisoned (l.plus i) 1))
        match State.copyRead fuel s k ctx u space (va + BitVec.ofNat 64 m) (n - m) (draw + 7) with
        | (s, .inl r) => (s, .inl (here ++ r))
        | r => r
      | (s, c) => (s, .inr (c, va))

/-- The value a destination element takes (R117). -/
def copyElem (fn ety : Nat) (n old src : Nat) : Nat :=
  match fn with
  | 3 =>
    match ety with
    | 0 => (old + src) % 2 ^ 32
    | 1 => (old + src) % 2 ^ 64
    | 2 => (fAdd 10 0 0 (fDecode 10 old) (fDecode 10 src)).1
    | 3 => (fAdd 9 0 0 (fDecode 9 old) (fDecode 9 src)).1
    | _ => (fAdd 8 0 0 (fDecode 8 old) (fDecode 8 src)).1
  | 4 => old ^^^ src
  | _ => src % 2 ^ (8 * n)

/-- A place before a copy writes it. A global sector is written at its home and leaves the issuing core's L1 (R117), whose
local-atomic results go home first; the adding copies update the line behind every core's (R228). -/
def State.copyHome (s : State) (core fn : Nat) (l : Loc) (n : Nat) : State :=
  match l with
  | .mem key =>
    let s := (linesOf key n).foldl (fun s x =>
      let s := s.recallLine x
      if fn = 3 ∨ fn = 4 then s.laRecall x else s.laWriteback core x) s
    s.dropSectors core key n
  | _ => s

/-- Writes elements at a place, each as one step; poison travels with its byte (R384). -/
def State.copyWrite (s : State) (core fn ety unit : Nat) (l : Loc) (xs : List (Byte × Bool)) : State :=
  let s := s.copyHome core fn l xs.length
  (List.range (xs.length / unit)).foldl (fun s e =>
    let part := (xs.drop (e * unit)).take unit
    let p := l.plus (e * unit)
    let bad := (fn == 3 || fn == 4) && s.poisoned p unit
    let s := s.writeLocNat p unit (copyElem fn ety unit (s.readLocNat p unit) (leNat (part.map (fun x => x.1))))
    (List.range unit).foldl (fun s i => if bad || (part.getD i (0, false)).2 then s.poison (p.plus i) else s) s) s

/-- One step of a piece: some of its next bytes are written, or, once all are, its arrival is posted. How many bytes
one step writes is not defined. -/
def State.copyPiece (s : State) (core i k : Nat) : State :=
  match (s.core core).copies[i]? with
  | none => s
  | some c =>
    match c.piece k with
    | none => s
    | some (row, lo, hi) =>
      let done := (Tbl.find c.pieces k).getD 0
      let inOrder := !c.rowOrder || (List.range (row * c.stride)).all (fun j =>
        match c.piece j with
        | none => true
        | some (_, a, b) => decide (b - a ≤ (Tbl.find c.pieces j).getD 0))
      if !c.started || c.stopped || c.wait.isSome || !inOrder || c.target lo hi ≤ done then s
      else if hi - lo ≤ done then
        match c.bar with
        | none => s
        | some b => (s.bcArrive b (hi - lo)).modCopy core i (fun c => { c with pieces := Tbl.set c.pieces k (done + 1) })
      else
        let unit := copyUnit c.fn c.opts
        let ssp := copySsp c.opts
        let dsp := copyDsp c.opts
        let at_ := lo + done
        let dva := c.dst + BitVec.ofNat 64 (row * c.dpitch + at_)
        let sva := c.src + BitVec.ofNat 64 (row * c.spitch + at_)
        let aside := c.overlapped row
        let n0 := min (hi - lo - done) (pageLeft dva.toNat)
        let n1 := if ssp = 0 && !aside && c.fn != 2 then min n0 (pageLeft sva.toNat) else n0
        let n := ((Config.free s.now 40).toNat % (n1 / unit) + 1) * unit
        let srcR : State × (List (Byte × Bool) ⊕ (Chk × BitVec 64)) :=
          if c.fn = 2 then
            (s, .inl ((List.range n).map (fun j => ((le 8 c.src).getD ((at_ + j) % unit) 0, false))))
          else if aside then
            match Tbl.find c.aside row with
            | some bs => (s, .inl ((List.range n).map (fun j => bs.getD (at_ + j) (0, false))))
            | none => State.copyRead (c.count + 1) s c.key c.ctx (.core core) ssp (c.src + BitVec.ofNat 64 (row * c.spitch)) c.count 100
          else State.copyRead (n + 1) s c.key c.ctx (.core core) ssp sva n 100
        match srcR with
        | (s, .inr (.demand _, va)) => s.copyWait core i va false
        | (s, .inr (.bad _ kind, _)) => s.copyFault core i kind
        | (s, .inr (.ok _ _, _)) => s
        | (s, .inl xs) =>
          if aside && !Tbl.has c.aside row then
            s.modCopy core i (fun c => { c with aside := Tbl.set c.aside row xs, wait := none })
          else
            match s.copyPlace c.key c.ctx (.core core) dsp dva n true 50 with
            | (s, .demand _) => s.copyWait core i dva true
            | (s, .bad _ kind) => s.copyFault core i kind
            | (s, .ok l _) =>
              (s.copyWrite core c.fn (copyEty c.opts) unit l xs).modCopy core i (fun c =>
                { c with pieces := Tbl.set c.pieces k (done + n), wait := none })

def execCopyPieceArrival (core id k : Nat) (s : State) : Out := .next (s.copyPiece core id k)

/-- A copy leaves the queue once every byte is written and every arrival posted (R122), or once it has stopped. -/
def State.copyComplete (s : State) (core i : Nat) : State :=
  let cr := s.core core
  match cr.copies[i]? with
  | none => s
  | some c =>
    if c.stopped || (c.started && c.allDone) then
      (s.setCore core { cr with copies := cr.copies.eraseIdx i }).modGroup c.key (fun g => g.completeOp 0 c.id)
    else s

def execCopyComplete (core id : Nat) (s : State) : Out := .next (s.copyComplete core id)

end Sys2Proof.Machine
end

