-- ==== Sys2Proof/Machine/Barrier.lean ====
section
/-! DEFINITION. Batches and byte-count barriers, major opcodes 0x21 and 0x22 (R122 to R128). -/
namespace Sys2Proof.Machine
open Sys2Proof

/-! ## Batches (R123) -/

def batchCls (f : VI) : Nat := (f.imm.extractLsb' 0 2).toNat

def Group.close (g : Group) (cls : Nat) : Group := { g with closed := Tbl.set g.closed cls (g.closedOf cls + 1) }

def execBfence (f : VI) (s : State) : Out :=
  grp s fun w =>
    let c := batchCls f
    let g := w.g.close c
    w.put (g.resultG f.d (BitVec.ofNat 64 (g.closedOf c)) 2)

/-- A condition placed on the group's next clause by the word that issues. -/
def GW.hold (w : GW) (h : Hold) : State := w.put { w.g with holds := w.g.holds ++ [⟨h, w.at_, w.n⟩] }

def execBwait (f : VI) (s : State) : Out :=
  grp s fun w =>
    let c := batchCls f
    let t : Int :=
      if f.a = 0 then (w.g.closedOf c : Int) - (f.imm.extractLsb' 2 8).toNat
      else min (w.opdG f.a).toInt (w.g.closedOf c)
    w.hold (.bwait c t)

def execBget (f : VI) (s : State) : Out :=
  grp s fun w =>
    let c := batchCls f
    let v := if f.imm.getLsbD 2 then w.g.closedOf c else w.g.doneOf c
    w.put (w.g.resultG f.d (BitVec.ofNat 64 v) 2)

/-! ## Byte-count barriers (R128) -/

def barSpace (f : X) : Nat := if f.imm.getLsbD 0 then 2 else 1

/-- Runs `k` on the barrier's place, once its address passes. -/
def bar (f : X) (s : State) (k : GW → Loc → State) : Out :=
  grp s fun w =>
    let a := w.opdG f.f2
    match w.s.barAddr w.key (barSpace f) a with
    | .ok l _ => k w l
    | .bad c kd => w.trapKind c kd
    | .demand _ => w.s

/-- An effect that waits for the commit of the task this clause closes (R365). The boundary aborts every lane of an open
transaction (R234). -/
def GW.boundaryEff (w : GW) (e : Eff) : State :=
  let bc := match e with
    | .affpop _ _ => false
    | _ => true
  w.put ((((w.g.txAbort (~~~0) txForbid).addEff e).modOpen (fun t => { t with asyncFlag := t.asyncFlag || bc })).markBoundary)

def execBcinit (f : X) (s : State) : Out := bar f s fun w l => w.boundaryEff (.bcInit w.g.tseq l)

/-- A count of 2^48 or more traps RANGE; an address that fails is reported first (DESIGN CHOICE, log entry 73). -/
def barCount (f : X) (s : State) (e : BitVec 32 → Loc → Nat → Eff) : Out :=
  bar f s fun w l =>
    let c := (w.opdG f.f3).toNat
    if 2 ^ 48 ≤ c then w.trap Cause.range else w.boundaryEff (e w.g.tseq l c)
def execBcexpect (f : X) (s : State) : Out := barCount f s fun t l c => .bcPost t l c
def execBcarrive (f : X) (s : State) : Out := barCount f s fun t l c => .bcArrive t l c

def execBcwait (f : X) (s : State) : Out := bar f s fun w l => w.hold (.bcwait l ((w.opdG f.f3).setWidth 16))

def execBctest (f : X) (s : State) : Out :=
  bar f s fun w l =>
    let o := if f.imm.getLsbD 1 then 8 else 0
    let acc : Acc := ⟨0, l.plus o, w.opdG f.f2 + BitVec.ofNat 64 o, ⟨true, false, false, 0⟩, 0⟩
    w.put (w.g.pushMem w.n .gword f.f1.toNat 3 0 [acc] 0 none)

/-- The first tail that a group with key `k` has left with an effect to apply, and the state with the tail's effects
replaced. -/
def State.tailEff (s : State) (k : GKey) : Option (Tail × (List Eff → State)) :=
  (s.tails.findIdx? (fun t => t.key == k && !t.effq.isEmpty)).bind (fun i => (s.tails[i]?).map (fun t => (t, fun es =>
    let left := { t with effq := es }
    { s with tails := if left.effq.isEmpty && left.remote.isEmpty && !left.lost then s.tails.eraseIdx i else s.tails.set i left })))

/-- That tail has lost a remote write (R397). -/
def State.loseTail (s : State) (k : GKey) : State :=
  match s.tails.findIdx? (fun t => t.key == k && !t.effq.isEmpty) with
  | some i => { s with tails := s.tails.modify i (fun t => { t with lost := true }) }
  | none => s

/-- The task whose clause held a byte-count operation. -/
def Eff.bcTask (e : Eff) : Option (BitVec 32) :=
  match e with
  | .bcInit t _ => some t
  | .bcPost t _ _ => some t
  | .bcArrive t _ _ => some t
  | _ => none

/-- The places of the byte-count operations that can be applied next: one clause's go in issue order, those of different
clauses in any (R365). -/
def bcNext (es : List Eff) : List Nat :=
  let bc := es.takeWhile (fun e => e.bcTask.isSome)
  (List.range bc.length).filter (fun i => !(bc.take i).any (fun e => e.bcTask == (bc.getD i default).bcTask))

/-- What a byte-count operation does (R128). -/
def State.bcApply (s : State) (e : Eff) : State :=
  match e with
  | .bcInit _ l => s.bcInit l
  | .bcPost _ l c => s.bcPost l c
  | .bcArrive _ l n => s.bcArrive l n
  | _ => s

/-- A byte-count operation of a group that has ended is applied. -/
def State.tailBc (s : State) (k : GKey) : State :=
  match s.tailEff k with
  | some (t, go) =>
    match pickOne (Config.free s.now 32).toNat (bcNext t.effq) with
    | some i => (go (t.effq.eraseIdx i)).bcApply (t.effq.getD i default)
    | none => s
  | none => s

/-- One of the next effects of committed tasks, if it is a byte-count operation, is applied (R128). -/
def State.bcEffect (s : State) (k : GKey) : State :=
  match s.group k with
  | none => s.tailBc k
  | some g =>
    match pickOne (Config.free s.now 32).toNat (bcNext g.effq) with
    | some i => (s.setGroup k { g with effq := g.effq.eraseIdx i }).bcApply (g.effq.getD i default)
    | none => s.tailBc k

def execBcEffect (g : GKey) (s : State) : Out := .next (s.bcEffect g)

end Sys2Proof.Machine
end

