-- ==== Sys2Proof/Machine/Ring.lean ====
section
/-! DEFINITION. Tokens of one ring as requesters take and return them (R325 to R327). -/
namespace Sys2Proof.Machine
open Sys2Proof

def Ring.bucket (r : Ring) (st : Nat) : Nat := (Tbl.find r.buckets st).getD 0
def Ring.setBucket (r : Ring) (st n : Nat) : Ring := { r with buckets := Tbl.set r.buckets st n }
def Ring.resv (r : Ring) (st req : Nat) : Option Resv := r.resvs.find? (fun x => x.st == st && x.req == req)
def Ring.dropResv (r : Ring) (st req : Nat) : Ring :=
  { r with resvs := r.resvs.filter (fun x => !(x.st == st && x.req == req)) }
/-- Tokens of a completed reservation that a requester may take beside the bucket. -/
def Ring.mine (r : Ring) (st req : Nat) : Nat :=
  match r.resv st req with
  | some x => if x.complete then x.got else 0
  | none => 0
def Ring.heldTotal (r : Ring) : Nat := r.held.foldl (fun a h => a + h.amount) 0
/-- Tokens earmarked for reservations (R325). -/
def Ring.earmarked (r : Ring) : Nat := r.resvs.foldl (fun a x => a + x.got) 0
def Ring.inBuckets (r : Ring) : Nat := r.buckets.foldl (fun a p => a + p.2) 0
/-- Tokens not held (R343). -/
def Ring.idle (r : Ring) : Nat := r.bundle + r.inBuckets + r.earmarked

/-- The table key of a requester of a station: pipes 0 to 3, the latch 4 and its further matched operations 5 and on; the Harp is
requester 0 of station 8. -/
def stageKey (st req : Nat) : Nat := 32 * st + req

/-- What a station's requesters wait for: amount and launch. -/
def Ring.wants (r : Ring) (st : Nat) : List (Nat × Nat × Nat) :=
  r.want.filterMap (fun p => if p.1 / 32 = st then some (p.1 % 32, p.2) else none)

def insBy (f : Nat → Nat) (x : Nat) (xs : List Nat) : List Nat :=
  match xs with
  | [] => [x]
  | y :: r => if f x < f y then x :: y :: r else y :: insBy f x r

/-- The requesters that are served before one in a cycle (R326): the holder of a completed reservation, the latch, the
pipes that have waited longer. -/
def Ring.ahead (r : Ring) (st req : Nat) : List Nat :=
  let holder (q : Nat) : Bool := r.mine st q != 0
  let others := ((r.wants st).map (fun w => w.1)).filter (· != req)
  let since (q : Nat) : Nat := match Tbl.find r.stages (stageKey st q) with
    | some x => x.since
    | none => 0
  let waits (q : Nat) : Bool := match Tbl.find r.stages (stageKey st q) with
    | some x => !x.busy
    | none => false
  let rest := others.filter (fun q => !holder q)
  if holder req then []
  else others.filter holder ++ (if 4 ≤ req then []
    else rest.filter (fun q => decide (4 ≤ q)) ++
      ((rest.filter (fun q => decide (q < 4) && waits q && decide (since q < since req))).foldl
        (fun xs q => insBy since q xs) []))

/-- The requester's reservation stands and its tokens have not arrived: it takes nothing meanwhile, and of the latch no
matched operation does (R188, R212, R322). -/
def Ring.reserving (r : Ring) (st req : Nat) : Bool := (r.resv st (min req 4)).any (fun x => !x.complete)

/-- What those leave of the bucket, each taking its amount if it can. -/
def Ring.left (r : Ring) (st req : Nat) : Nat :=
  (r.ahead st req).foldl (fun b q =>
    match (r.wants st).find? (fun w => w.1 == q) with
    | some w => if !r.reserving st q && decide (w.2.1 - r.mine st q ≤ b) then b - (w.2.1 - r.mine st q) else b
    | none => b) (r.bucket st)

/-- Whether a requester can take an amount in this cycle. -/
def Ring.can (r : Ring) (st req amount : Nat) : Bool :=
  !r.reserving st req && decide (amount ≤ r.left st req + r.mine st req)

def addTo (t : Tbl Nat) (k n : Nat) : Tbl Nat := Tbl.set t k ((Tbl.find t k).getD 0 + n)

/-- A requester takes its tokens, all or none (R326). What a completed reservation leaves over stays in the bucket
(R327), and the requester has starved no longer. -/
def Ring.take (r : Ring) (st req amount : Nat) (affinage : Bool) : Option Ring :=
  let own := r.mine st req
  if r.can st req amount then
    let r1 := if own = 0 then r else r.dropResv st req
    some { (r1.setBucket st (r.bucket st + own - amount)) with
      held := r1.held ++ [⟨r.nextId, st, amount, affinage, false⟩]
      starved := Tbl.del r1.starved (stageKey st req)
      want := Tbl.del r1.want (stageKey st req)
      stages := Tbl.del r1.stages (stageKey st req)
      nextId := r.nextId + 1 }
  else none

/-- A requester of a launch takes tokens of a cluster's ring; the launch's demand counts them (R332). -/
def State.takeTokens (s : State) (cl st req amount launch : Nat) : Option State :=
  let c := s.cluster cl
  if amount = 0 then some s
  else (c.ring.take st req amount false).map (fun r =>
    s.setCluster cl { c with ring := { r with demand := addTo r.demand launch amount } })

/-- A clause that has its tokens waits no more. -/
def Ring.served (r : Ring) (group pos : Nat) : Ring :=
  { r with shorts := r.shorts.filter (fun x => !(x.1 == group && x.2.1 == pos)) }

/-- Held tokens go back to their station's bucket at the end of their window (R34, R326). -/
def Ring.give (r : Ring) (id : Nat) : Ring :=
  match r.held.find? (fun h => h.id == id) with
  | none => r
  | some h => { r.setBucket h.st (r.bucket h.st + h.amount) with held := r.held.filter (fun x => x.id != id) }

/-- The pool follows its clearing (R329): a raised pool's tokens join the bundle at station 0, a lowered pool's are retired as they enter
it. -/
def Ring.change (r : Ring) : Ring :=
  if r.pool < r.newPool then
    if r.pos = 0 then
      let n := r.newPool - r.pool
      let x := min n r.retire
      { r with pool := r.newPool, retire := r.retire - x, bundle := r.bundle + (n - x) }
    else r
  else { r with pool := r.newPool, retire := r.retire + (r.pool - r.newPool) }

/-- A new pool applies although no visit has been seen to bring it: within one revolution the bundle has come to station 0
(R329, R330). -/
def Ring.arrive (r : Ring) : Ring := { ({ r with pos := 0 } : Ring).change with pos := r.pos }

end Sys2Proof.Machine
end

