-- ==== Sys2Proof/Machine/Matrix.lean ====
section
/-! DEFINITION. The matrix unit: teams, the rendezvous latch, the arithmetic, outliers, damaged operands and broken
teams, major opcodes 0x24 to 0x26 (R181 to R199), and the error log (R387) that damaged operands write. -/
namespace Sys2Proof.Machine
open Sys2Proof

/-! ## The error log (R387) -/

/-- A logged event of a level: the counts rise, and an entry that finds the log full is not written. -/
def State.relEntry (s : State) (ch level : Nat) (entry : List Byte) (ue ce : Bool) : State :=
  let c := s.chiplet ch
  let r := c.rel level
  let size := 2 ^ (r.lsize.toNat + 8)
  let r1 := { r with uecnt := if ue && r.uecnt != ~~~0 then r.uecnt + 1 else r.uecnt,
                     cecnt := if ce && r.cecnt != ~~~0 then r.cecnt + 1 else r.cecnt }
  if size ≤ (r.tail - r.head).toNat then s.setChiplet ch { c with rels := Tbl.set c.rels level r1 }
  else
    (s.setChiplet ch { c with rels := Tbl.set c.rels level { r1 with tail := r.tail + 1 } }).homeWrite
      (r.lbase.toNat * 4096 + 16 * (r.tail.toNat % size)) entry

/-- A log entry (R387). -/
def relBytes (id : Nat) (type : BitVec 8) (wher : BitVec 64) (syn : BitVec 16) (level : Nat) : List Byte :=
  le 4 (type ++ BitVec.ofNat 24 id) ++ le 8 wher ++ le 2 syn ++ [BitVec.ofNat 8 level, 0]

/-- WHERE of a register or queue: cluster, core and number. -/
def wherReg (core n : Nat) : BitVec 64 :=
  BitVec.ofNat 64 (core / 8 % 24 * 2 ^ 16 + core % 8 * 2 ^ 8 + n % 256)

/-- Consumed errors of a core are logged: TYPE 2 (R387). -/
def State.logConsumed (s : State) (core launch : Nat) (es : List (Nat × Nat)) : State :=
  es.foldl (fun s e =>
    let wher : BitVec 64 := if e.1 = 2 then BitVec.ofNat 64 (core % 8 * 2 ^ 18 + e.2 % 2 ^ 18)
      else if e.1 = 5 ∨ e.1 = 6 then BitVec.ofNat 64 e.2 else wherReg core e.2
    s.relEntry (chipletOf core) e.1 (relBytes launch 2 wher 0 e.1) true false) s

/-! ## Member lists and team registers (R181, R182) -/

def teamCount (l : BitVec 35) : Nat := (l.extractLsb' 32 3).toNat
def teamMember (l : BitVec 35) (j : Nat) : Nat := (l.extractLsb' (5 * j) 5).toNat
def teamMembers (l : BitVec 35) : List Nat := (List.range (teamCount l)).map (teamMember l)
/-- The member number of a group, if it is listed. -/
def memberOf (l : BitVec 35) (gi : Nat) : Option Nat :=
  (List.range (teamCount l)).find? (fun j => teamMember l j == gi)

/-- A member-list value that R181 allows, in a launch with `groups` groups per block. -/
def teamListOk (v : BitVec 64) (groups : Nat) : Bool :=
  let l := v.setWidth 35
  let t := teamCount l
  let ms := teamMembers l
  v.extractLsb' 35 29 == 0 && v.extractLsb' 30 2 == 0 && decide (2 ≤ t) && decide (t ≤ 6) &&
    ms.all (fun m => decide (m < groups)) && decide ms.Nodup &&
    (List.range 6).all (fun j => decide (j < t) || teamMember l j == 0)

def Team.owned (t : Team) (k : GKey) : Bool := t.launch == k.launch && t.block == k.block
def Team.acOf (t : Team) (m : Nat) : Nat := (Tbl.find t.ac m).getD 0
def State.team (s : State) (core tm : Nat) : Option Team := Tbl.find (s.core core).tms tm
def State.setTeam (s : State) (core tm : Nat) (t : Option Team) : State :=
  let c := s.core core
  s.setCore core { c with tms := match t with
    | some t => Tbl.set c.tms tm t
    | none => Tbl.del c.tms tm }

/-- A team register as a word of a group reads it: for two cycles after a `tmset` or `tmclr` issued, what it held before or
what it takes, unpredictably (R35, R183). -/
def GW.team (w : GW) (tm : Nat) : Option Team :=
  match Tbl.find (w.s.core w.core).tmOld tm with
  | some (old, due) => if w.g.clk < due && w.s.coin (21000 + tm) then old else w.s.team w.core tm
  | none => w.s.team w.core tm

/-- The team register as it stands, kept for the reads that come before cycle `due`. -/
def State.keepTeam (s : State) (core tm due : Nat) : State :=
  let c := s.core core
  s.setCore core { c with tmOld := Tbl.set c.tmOld tm (Tbl.find c.tms tm, due) }

/-! ## Broken teams (R198) -/

/-- An arrival of the group fails: it counts as completed, writes no C, and defers a TEAM_BROKEN trap. -/
def Group.arrivalFails (g : Group) (id : Nat) (at_ : WordAt) : Group :=
  { g.completeOp 1 id with
    deferred := g.deferred ++ [⟨1, g.batchOf 1 id, { trapOf Cause.teamBroken at_ with async := true }⟩] }
def State.failArrival (s : State) (t : Team) (a : Arrival) : State :=
  s.modGroup ⟨t.launch, t.block, teamMember t.list a.member⟩ (fun g => g.arrivalFails a.id a.word)

/-- The team becomes BROKEN: every arrival whose tokens have not been taken fails. -/
def State.breakTeam (s : State) (core tm : Nat) : State :=
  match s.team core tm with
  | none => s
  | some t =>
    t.held.foldl (fun s a => s.failArrival t a)
      (s.setTeam core tm (some { t with broken := true, held := [], matched := false }))

/-- The teams of a saved block that list a member break, as those on a core do. -/
def State.breakSaved (s : State) (k : GKey) : State :=
  match s.block (GKey.bkey k) with
  | none => s
  | some b =>
    let mine (p : Nat × Team) : Bool := (memberOf p.2.list k.gi).isSome
    let s1 := if b.teams.any mine then
        s.setBlock (GKey.bkey k) { b with teams := b.teams.map (fun (p : Nat × Team) =>
          if mine p then (p.1, { p.2 with broken := true, held := [], matched := false }) else p) }
      else s
    (b.teams.filter mine).foldl (fun s p => p.2.held.foldl (fun s a => s.failArrival p.2 a) s) s1

/-- A listed member exits: its teams break (R198), those of its block's image too (R199). -/
def State.teamExit (s : State) (k : GKey) : State :=
  let core := s.coreOf k
  ((s.core core).tms.foldl (fun s p =>
    if p.2.owned k && (memberOf p.2.list k.gi).isSome then s.breakTeam core p.1 else s) s).breakSaved k

/-- Every team register of a block becomes empty (R182). -/
def Core.dropTeams (c : Core) (launch block : Nat) : Core :=
  let of_ (t : Team) : Bool := t.launch == launch && t.block == block
  { c with tms := c.tms.filter (fun p => !of_ p.2)
           tmOld := c.tmOld.filter (fun p => !((Tbl.find c.tms p.1).any of_ || p.2.1.any of_)) }
def State.clearTeams (s : State) (core launch block : Nat) : State := s.setCore core ((s.core core).dropTeams launch block)

/-- Team counts and pending lists as a boundary records them (R199). -/
def State.teamSnap (s : State) (k : GKey) : Tbl (Nat × Option Outl) :=
  (s.core (s.coreOf k)).tms.filterMap (fun p =>
    if p.2.owned k then (memberOf p.2.list k.gi).map (fun m => (p.1, p.2.acOf m, Tbl.find p.2.outl m)) else none)

/-- A member is cut back (R199, steps 2 to 4): its arrivals since the boundary are withdrawn. For a team register that was set
after the boundary the counts recorded there are those that the group had in it then, none where it belonged to no team
(DESIGN CHOICE, log entry 123). -/
def State.teamCutback (s : State) (k : GKey) (snap : Snap) : State :=
  let core := s.coreOf k
  (s.core core).tms.foldl (fun s p =>
    let t := p.2
    match (if t.owned k then memberOf t.list k.gi else none) with
    | none => s
    | some m =>
      let (ac, outl) := (Tbl.find snap.teams p.1).getD (0, none)
      let gone (a : Arrival) : Bool := a.member == m && decide (snap.nextId ≤ a.id)
      let t1 := { t with
        held := t.held.filter (fun a => !gone a)
        matched := t.matched && !(t.held.any (fun a => gone a && a.num == t.rc + 1))
        ac := Tbl.set t.ac m ac
        outl := match outl with
          | some o => Tbl.set t.outl m o
          | none => Tbl.del t.outl m }
      let s := (s.setTeam core p.1 (some t1)).modGroup k (fun g =>
        (t.held.filter gone).foldl (fun g a => g.completeOp 1 a.id) g)
      if ac < t.rc then s.breakTeam core p.1 else s) s

/-! ## Team instructions (R183) -/

/-- The machine as a word writes a team register: the result is the group's too, and is written two cycles later. -/
def GW.writesTeam (w : GW) (tm : Nat) : State :=
  (w.put (w.g.result (.tm tm) 0 [] 2)).keepTeam w.core tm (w.g.clk + 2)

def execTmset (f : X) (s : State) : Out :=
  grp s fun w =>
    let v := w.opdG f.f2
    let busy := match w.team f.tm.toNat with
      | none => false
      | some t => !t.owned w.key || !t.held.isEmpty || !t.outl.isEmpty
    if busy then w.trap Cause.teamBroken
    else if !teamListOk v (w.s.lrec w.key.launch).groups then w.trap Cause.range
    else (w.writesTeam f.tm.toNat).setTeam w.core f.tm.toNat (some
      { list := v.setWidth 35, launch := w.key.launch, block := w.key.block, broken := false, ac := [], rc := 0,
        outl := [], held := [], matched := false })

def execTmclr (f : X) (s : State) : Out :=
  grp s fun w =>
    match w.team f.tm.toNat with
    | none => w.s
    | some t =>
      if t.owned w.key then ((w.writesTeam f.tm.toNat).breakTeam w.core f.tm.toNat).setTeam w.core f.tm.toNat none
      else w.trap Cause.teamBroken

/-- Members with an unmatched arrival. -/
def Team.heldCount (t : Team) : Nat :=
  ((List.range 6).filter (fun m =>
    t.held.any (fun a => a.member == m && !(t.matched && a.num == t.rc + 1)))).length

/-- The state word of `tmget`. -/
def teamWord (t : Option Team) (k : GKey) : BitVec 64 :=
  match t with
  | none => 0
  | some t =>
    bit true 63 ||| bit t.broken 62 ||| bit (t.owned k) 61 ||| fld (BitVec.ofNat 3 t.heldCount) 45 |||
      (if t.owned k then t.list.setWidth 64 else 0)

def execTmget (f : X) (s : State) : Out :=
  grp s fun w => w.put (w.g.resultG f.f1 (teamWord (w.team f.tm.toNat) w.key) 2)

/-! ## Arrivals (R187, R195) -/

/-- A team and a group's member number in it, unless the checks of R187 fail. -/
def Team.member (t : Team) (k : GKey) : Option (Team × Nat) :=
  if t.owned k && !t.broken then (memberOf t.list k.gi).map (fun m => (t, m)) else none
/-- The team and the member number of a matrix instruction, as it reads its team register. -/
def GW.teamOk (w : GW) (tm : Nat) : Option (Team × Nat) := (w.team tm).bind (fun t => t.member w.key)
/-- The same in the team that the register holds. -/
def GW.teamNow (w : GW) (tm : Nat) : Option (Team × Nat) := (w.s.team w.core tm).bind (fun t => t.member w.key)

/-- `vmma` and `vmmaz`: arrival AC_m + 1, which takes the member's pending outlier list. One at a team whose register is to
hold another by the time it is written fails as those that stand there do (R183; DESIGN CHOICE, log entry 122). -/
def arrive (fn : BitVec 8) (f : X) (s : State) : Out :=
  grp s fun w =>
    match w.teamOk f.tm.toNat, w.teamNow f.tm.toNat with
    | none, _ => w.trap Cause.teamBroken
    | some _, none =>
      let (g, id) := w.g.fresh
      w.put ((g.joinBatch 1 id).arrivalFails id w.at_)
    | some _, some (t, m) =>
      let (g, id) := w.g.fresh
      let n := t.acOf m + 1
      let a : Arrival :=
        { member := m, num := n, fn, c := f.f1.toNat, a := f.f2.toNat, b := f.f3.toNat, sc := f.f5.toNat,
          outl := Tbl.find t.outl m, id, word := w.at_ }
      let g := g.joinBatch 1 id
      (w.s.setTeam w.core f.tm.toNat (some
        { t with ac := Tbl.set t.ac m n, outl := Tbl.del t.outl m, held := t.held ++ [a] })).setGroup w.key g

/-- fn of op 0x24: type in bits 2:0, `.sat` in bit 4, `vmmaz` in bit 5 (R184). -/
def mxFn (z sat : BitVec 1) (ty : BitVec 3) : BitVec 8 := (0 : BitVec 2) ++ z ++ sat ++ (0 : BitVec 1) ++ ty
def execVmma (ty : BitVec 3) (sat : BitVec 1) (f : X) (s : State) : Out := arrive (mxFn 0 sat ty) f s
def execVmmaz (ty : BitVec 3) (sat : BitVec 1) (f : X) (s : State) : Out := arrive (mxFn 1 sat ty) f s

/-- `vouts`: a count above 32 traps RANGE before the team is looked at (DESIGN CHOICE, log entry 82). -/
def execVouts (f : X) (s : State) : Out :=
  grp s fun w =>
    let n := (w.opdG f.f2).toNat
    if 32 < n then w.trap Cause.range
    else
      match w.teamOk f.tm.toNat, w.teamNow f.tm.toNat with
      | none, _ => w.trap Cause.teamBroken
      | some _, none => w.s
      | some _, some (t, m) => w.s.setTeam w.core f.tm.toNat (some
          { t with outl := if n = 0 then Tbl.del t.outl m else Tbl.set t.outl m ⟨n, f.f1.toNat⟩ })

/-! ## The latch (R188) -/

/-- The arrivals of operation RC + 1. -/
def Team.ready (t : Team) : List Arrival := t.held.filter (fun a => a.num == t.rc + 1)

/-- Per-member charge of an input type (R184). -/
def mxCharge (ty : Nat) : Nat := if ty ≤ 1 then 12 else if ty ≤ 5 then 14 else 16

/-- The latch's charge: T times the member's, and 2·T when a list with a non-zero count is pending (R52, R188). -/
def Team.charge (t : Team) : Nat :=
  let n := teamCount t.list
  let ty := match t.ready with
    | a :: _ => (a.fn.extractLsb' 0 3).toNat
    | [] => 0
  n * mxCharge ty + (if t.ready.any (fun a => a.outl.isSome) then 2 * n else 0)

/-- LATCH_MATCH: every member has made arrival RC + 1; a differing fn breaks the team. -/
def State.latchMatch (s : State) (core tm : Nat) : State :=
  match s.team core tm with
  | none => s
  | some t =>
    let r := t.ready
    if t.matched || t.broken || !((List.range (teamCount t.list)).all (fun m => r.any (fun a => a.member == m))) then s
    else if r.all (fun a => r.all (fun b => a.fn == b.fn)) then s.setTeam core tm (some { t with matched := true })
    else s.breakTeam core tm

def execLatchMatch (core tm : Nat) (s : State) : Out := .next (s.latchMatch core tm)

/-- LATCH_TOKENS_TAKEN: RC rises, and the operation joins the matrix unit's order. -/
def State.latchTake (s : State) (core tm : Nat) : State :=
  match s.team core tm with
  | none => s
  | some t =>
    if !t.matched then s
    else
      match s.takeTokens (clusterOf core) (core % 8) 4 t.charge t.launch with
      | none => s
      | some s =>
        let s := s.setTeam core tm (some { t with rc := t.rc + 1, matched := false,
                                                  held := t.held.filter (fun a => a.num != t.rc + 1) })
        let c := s.core core
        s.setCore core { c with matched := c.matched ++ [.team ⟨tm, t.launch, t.block, t.list, t.rc + 1, t.ready, false, []⟩] }

def execLatchTokensTaken (core tm : Nat) (s : State) : Out := .next (s.latchTake core tm)

/-! ## The operation (R186, R191 to R193, R196) -/

/-- Type codes of the A and B elements, and K. -/
def mxTyA (ty : Nat) : Nat :=
  match ty with
  | 0 => 9 | 1 => 8 | 2 => 11 | 3 => 12 | 4 => 0 | 5 => 4 | 6 => 13 | _ => 11
def mxTyB (ty : Nat) : Nat := if ty = 7 then 14 else mxTyA ty
def mxK (ty : Nat) : Nat := if ty ≤ 1 then 32 else if ty ≤ 5 then 64 else 128
/-- Registers of A and of B. -/
def mxRegsA (ty : Nat) : Nat := if ty = 7 then 16 else 8
def mxRegsB (ty : Nat) : Nat := if ty = 7 then 32 else 16

/-- A register read by the matrix unit: none where it holds an uncorrectable error (R196). -/
def Group.mxReg (g : Group) (n r l : Nat) : Option Nat :=
  if Tbl.has g.badRegs r then none else some (g.readV n r l).toNat
/-- A member whose group has ended supplies free values: its registers are free and the spec states no value
(DESIGN CHOICE, log entry 77). -/
def mxRead (g : Option Group) (n r l : Nat) : Option Nat :=
  match g with
  | some g => g.mxReg n r l
  | none => some ((Config.free n (40000 + 32 * r + l)).toNat % 2 ^ 32)

/-- An element of `e` bits at position `pos` of a word; a damaged register holds zeros. -/
def elemAt (w : Option Nat) (e pos : Nat) : Nat :=
  match w with
  | none => 0
  | some x => x / 2 ^ (e * pos) % 2 ^ e

/-- One member's operands as the operation sees them. -/
structure MxView where
  ty : Nat
  n : Nat
  grp : Group
  arr : Arrival
  lead : Option Group
  larr : Arrival

def MxView.aBits (v : MxView) (i k : Nat) : Nat :=
  let e := tyWidth (mxTyA v.ty)
  let p := 32 / e
  let h := mxK v.ty / 2
  elemAt (v.grp.mxReg v.n (v.arr.a + k % h / p) (i + 16 * (k / h))) e (k % h % p)
def MxView.bBits (v : MxView) (k n : Nat) : Nat :=
  let e := tyWidth (mxTyB v.ty)
  let p := 32 / e
  elemAt (mxRead v.lead v.n (v.larr.b + k / p) n) e (k % p)

/-- A block scale: absent, damaged, or its byte. -/
inductive Scale where
  | one
  | bad
  | byte (x : Nat)

def MxView.bScale (v : MxView) (k n : Nat) : Scale :=
  if v.ty < 6 then .one
  else match mxRead v.lead v.n v.larr.sc n with
    | none => .bad
    | some x => .byte (x / 256 ^ (k / 32) % 256)
def MxView.aScale (v : MxView) (i k : Nat) : Scale :=
  if v.ty ≠ 6 then .one
  else match v.grp.mxReg v.n (v.arr.sc + 1) i with
    | none => .bad
    | some x => .byte (x / 256 ^ (k / 32) % 256)

/-- A product of values and scales: zero where a scale register is damaged, NaN with invalid for scale 0xFF. -/
def scaled (x : FVal) (ss : List Scale) : FVal × Flags :=
  if ss.any (fun s => match s with | .bad => true | _ => false) then (.fin false 0 0, 0)
  else
    ss.foldl (fun a s =>
      match s with
      | .byte b =>
        if b = 255 then (.nan false, a.2 ||| flInvalid)
        else
          let r := fMulV a.1 (fDecode 15 b)
          (r.1, a.2 ||| r.2)
      | _ => a) (x, 0)

/-- The addends of a run for float types: products, then outliers. -/
def MxView.product (v : MxView) (i k n : Nat) : FVal × Flags :=
  let r := fMulV (fDecode (mxTyA v.ty) (v.aBits i k)) (fDecode (mxTyB v.ty) (v.bBits k n))
  let q := scaled r.1 [v.aScale i k, v.bScale k n]
  (q.1, r.2 ||| q.2)

/-- The entries of the member's outlier list that count (R194, R195): row, column and value. -/
def MxView.outliers (v : MxView) : List (Nat × Nat × FVal) :=
  match v.arr.outl with
  | none => []
  | some o =>
    if Tbl.has v.grp.badRegs o.reg then []
    else
      (List.range o.count).filterMap (fun q =>
        let e := v.grp.readV v.n o.reg q
        let w := fDecode 9 (e.extractLsb' 16 16).toNat
        let k := (e.extractLsb' 0 7).toNat
        let fin := match w with
          | .fin _ _ _ => true
          | _ => false
        if e.extractLsb' 7 5 = 0 && k < mxK v.ty && fin then some ((e.extractLsb' 12 4).toNat, k, w) else none)

/-- One element of C for a float type: one rounding per run of 16, in ascending k (R191, R192). -/
def MxView.fElem (v : MxView) (zero : Bool) (i n : Nat) : BitVec 32 × Flags :=
  let c0 : Nat := if zero then 0 else (v.grp.mxReg v.n (v.arr.c + i) n).getD 0
  let outs := v.outliers
  let r := (List.range (mxK v.ty / 16)).foldl (fun (a : Nat × Flags) r =>
    let ps := (List.range 16).map (fun j => v.product i (16 * r + j) n)
    let os := (outs.filter (fun o => o.1 == i && o.2.1 / 16 == r)).map (fun o =>
      let m := fMulV o.2.2 (fDecode (mxTyB v.ty) (v.bBits o.2.1 n))
      let q := scaled m.1 [v.bScale o.2.1 n]
      (q.1, m.2 ||| q.2))
    let fl := (ps ++ os).foldl (fun f p => f ||| p.2) 0
    let s := fSum false (fDecode 10 a.1 :: (ps ++ os).map (fun p => p.1))
    let o := fOut 10 0 0 s.1
    (o.1, a.2 ||| fl ||| s.2 ||| o.2)) (c0, 0)
  (BitVec.ofNat 32 r.1, r.2)

/-- One element of C for an integer type: wrapped, or clamped with `.sat`, once per run. -/
def MxView.iElem (v : MxView) (zero sat : Bool) (i n : Nat) : BitVec 32 × Flags :=
  let tc := if v.ty = 4 then 2 else 6
  let el (x : Nat) : Int := readInt (mxTyA v.ty) (BitVec.ofNat 64 x)
  let c0 : BitVec 64 := if zero then 0 else BitVec.ofNat 64 ((v.grp.mxReg v.n (v.arr.c + i) n).getD 0)
  let r := (List.range (mxK v.ty / 16)).foldl (fun (a : BitVec 64 × Flags) r =>
    let s := (List.range 16).foldl (fun x j =>
      x + el (v.aBits i (16 * r + j)) * el (v.bBits (16 * r + j) n)) (readInt tc a.1)
    let (x, c) := fitInt tc sat s
    (x, a.2 ||| flagIf c flIntSat)) (c0, 0)
  (r.1.setWidth 32, r.2)

/-- The registers of one member that an operation reads and writes: C, A, and for the lead B, and scales. -/
def Arrival.regs (a : Arrival) : List Nat × List Nat :=
  let ty := (a.fn.extractLsb' 0 3).toNat
  let rng (b n : Nat) := (List.range n).map (b + ·)
  let rd := rng a.c 16 ++ rng a.a (mxRegsA ty) ++ (if a.member = 0 then rng a.b (mxRegsB ty) else []) ++
    (if ty = 6 then (if a.member = 0 then rng a.sc 2 else [a.sc + 1])
     else if ty = 7 ∧ a.member = 0 then [a.sc] else []) ++ (match a.outl with | some o => [o.reg] | none => [])
  (rd, rng a.c 16)

/-- The log entry of a damaged register (R197): operand 0 A, 1 B, 2 C, 3 scale, 4 outlier list. -/
def mxLog (o : MxOp) (a : Arrival) (operand off : Nat) : List Byte :=
  natLE 4 (o.launch % 2 ^ 24) ++ natLE 4 o.block ++ natLE 1 (teamMember o.list a.member) ++
    natLE 1 (o.tm + 16 * operand) ++ natLE 1 off ++ [0] ++ natLE 4 o.num

/-- The damaged registers that an arrival's operands read, by operand and offset. R196 gives the entries no order and does
not say what a register read as two operands counts for: they come in arrival order, then A, B, C, scale and outlier list,
one for each operand. An integer operation consumes its list (R195), so that a damaged list register of its counts like any
other, although the operation ignores it (DESIGN CHOICE, log entry 104). -/
def Arrival.damaged (a : Arrival) (g : Group) (zero : Bool) : List (Nat × Nat) :=
  let ty := (a.fn.extractLsb' 0 3).toNat
  let part (op b n : Nat) := ((List.range n).filter (fun i => Tbl.has g.badRegs (b + i))).map (fun i => (op, i))
  part 0 a.a (mxRegsA ty) ++ (if a.member = 0 then part 1 a.b (mxRegsB ty) else []) ++
    (if zero then [] else part 2 a.c 16) ++
    (if ty = 6 then (if a.member = 0 then part 3 a.sc 2 else (part 3 a.sc 2).filter (fun x => x.2 == 1))
     else if ty = 7 && a.member = 0 then part 3 a.sc 1 else []) ++
    (match a.outl with | some o => part 4 o.reg 1 | none => [])

/-- The due cycle of results that wait for their operation's completion: no clock reaches it before. -/
def mxDue : Nat := 2 ^ 64

def MxOp.key (o : MxOp) (a : Arrival) : GKey := ⟨o.launch, o.block, teamMember o.list a.member⟩

/-- One element of an arrival's C. -/
def MxView.el (v : MxView) (zero sat : Bool) (i n : Nat) : BitVec 32 × Flags :=
  if v.ty = 4 ∨ v.ty = 5 then v.iElem zero sat i n else v.fElem zero i n

/-- The members of an operation have their results whose cycle has passed written (R35). -/
def State.mxReady (s : State) (o : MxOp) : State :=
  o.arrs.foldl (fun s a => s.ripen (o.key a)) s

/-- The oldest operation executes: it reads its operands and logs the damaged ones (R196, R197). Until it completes its
results are pending ones, so that a read of C gives the old value or the new (R190). -/
def State.matrixRun (s : State) (core : Nat) (o : MxOp) (rest : List MxWork) : State :=
  let s := s.mxReady o
  match o.arrs.find? (fun a => a.member == 0) with
  | none => s
  | some la =>
    let ty := (la.fn.extractLsb' 0 3).toNat
    let zero := la.fn.getLsbD 5
    let sat := la.fn.getLsbD 4
    let marks := o.arrs.flatMap (fun a =>
      match s.group (o.key a) with
      | some g => (a.damaged g zero).map (fun x => (a, x.1, x.2))
      | none => [])
    let s1 := o.arrs.foldl (fun (x : State × List Flags) a =>
      match s.group (o.key a) with
      | none => (x.1, x.2 ++ [0])
      | some g =>
        let v : MxView := ⟨ty, s.now, g, a, s.group (o.key la), la⟩
        let rows := (List.range 16).map (fun i => (List.range 32).map (fun n => v.el zero sat i n))
        let ps : List Pend := rows.zipIdx.map (fun r =>
          ⟨.v (a.c + r.2), ~~~0, r.1.map (fun e => e.1.setWidth 64), mxDue⟩)
        let g1 := { g with
          pend := g.pend ++ ps
          regs := { g.regs with mxflags := if marks.isEmpty then g.regs.mxflags else 1 } }
        (x.1.setGroup (o.key a) g1, x.2 ++ [rows.flatten.foldl (fun f e => f ||| e.2) 0])) (s, [])
    let c := s1.1.core core
    let s2 := s1.1.setCore core { c with matched := .team { o with ran := true, flags := s1.2 } :: rest }
    marks.foldl (fun s m => s.relEntry (chipletOf core) 0 (mxLog o m.1 m.2.1 m.2.2) true false) s2

/-- An arrival of an operation that completes: its C is written, its flags are ORed into `$fpflags` and into the boundary
states recorded since (R147), and it counts as completed in its batch (R189, R192). -/
def Group.mxLand (g : Group) (a : Arrival) (fl : Flags) : Group :=
  let mine (p : Pend) : Bool := p.due == mxDue && (match p.dest with
    | .v r => decide (a.c ≤ r) && decide (r < a.c + 16)
    | _ => false)
  let rs := (g.pend.filter mine).foldl (Regs.land false) g.regs
  Group.orFlags { g.completeOp 1 a.id with
    regs := rs
    pend := g.pend.filter (fun p => !mine p)
    badRegs := g.badRegs.filter (fun p => !(decide (a.c ≤ p.1) && decide (p.1 < a.c + 16))) }
    (fun t => decide (a.id < t.snap.nextId)) fl

/-- MATRIX_OP_COMPLETE: the oldest operation of the core's matrix unit executes, and with the next such step completes;
a tile operation of the Harp leaves the unit in its turn (R189, R212). -/
def State.matrixDone (s : State) (core : Nat) : State :=
  let c := s.core core
  match c.matched with
  | [] => s
  | .tile _ _ _ :: rest => s.setCore core { c with matched := rest }
  | .team o :: rest =>
    if !o.ran && o.arrs.any (fun a => a.member == 0) then s.matrixRun core o rest
    else
      (o.arrs.zip o.flags).foldl (fun s x => s.modGroup (o.key x.1) (fun g => g.mxLand x.1 x.2))
        ((s.mxReady o).setCore core { (s.mxReady o).core core with matched := rest })

def execMatrixOpComplete (core id : Nat) (s : State) : Out :=
  .next (if id = 0 then s.matrixDone core else s)

/-- Registers of a group that a pending matrix operation or outlier list covers (R190, R195): those it reads or
writes. -/
def State.mxCovered (s : State) (k : GKey) : List Nat :=
  let c := s.core (s.coreOf k)
  let held := c.tms.flatMap (fun p =>
    if p.2.owned k then
      ((p.2.held.filter (fun a => teamMember p.2.list a.member == k.gi)).flatMap (fun a => a.regs.1)) ++
        (match (memberOf p.2.list k.gi).bind (fun m => Tbl.find p.2.outl m) with
          | some o => [o.reg]
          | none => [])
    else [])
  let run := c.matched.flatMap (fun x => match x with
    | .team o => if o.launch == k.launch && o.block == k.block then
        (o.arrs.filter (fun a => teamMember o.list a.member == k.gi)).flatMap (fun a => a.regs.1)
      else []
    | .tile _ _ _ => [])
  held ++ run

end Sys2Proof.Machine
end

