-- ==== Sys2Proof/Machine/AffHooks.lean ====
section
/-! DEFINITION. What Affinage does as a clause issues (R344 to R347, R351 to R354, R358): eligibility and live-ins, the
heat table, claims, samples, captures, the envelope, and the choice between a clause and its substitution. -/
namespace Sys2Proof.Machine
open Sys2Proof

/-! ## Words that Affinage reads -/

/-- Registers a word reads and writes, by kind. -/
structure RW where
  rv : List Nat
  rg : List Nat
  rm : List Nat
  rp : List Nat
  wv : List Nat
  wg : List Nat
  wm : List Nat
  wp : List Nat

def nopWord : Word := 0xC830000000000000

/-- The registers of one operand field. -/
def opdRW (o : Opd) (ty : BitVec 5) (x : BitVec 8) (w : Bool) (r : RW) : RW :=
  match o with
  | .g => if w then { r with wg := x.toNat :: r.wg } else { r with rg := x.toNat :: r.rg }
  | .m => if w then { r with wm := x.toNat :: r.wm } else { r with rm := x.toNat :: r.rm }
  | .p => if w then { r with wp := x.toNat :: r.wp } else { r with rp := x.toNat :: r.rp }
  | o => if w then { r with wv := o.regs ty x ++ r.wv } else { r with rv := o.regs ty x ++ r.rv }

/-- The register that predicates a word: m0 and gp0 hold constants. -/
def predRW (p : Pred) (mask : BitVec 4) (r : RW) : RW :=
  match p with
  | .lane => if mask = 0 then r else { r with rm := mask.toNat :: r.rm }
  | .grp => if mask.toNat % 8 = 0 then r else { r with rp := mask.toNat % 8 :: r.rp }
  | .none => r

/-- Registers of an eligible word. `gmovhi` and `gsel` read their destination too (R172, R173). -/
def wordRW (w : Word) : RW :=
  let e : RW := ⟨[], [], [], [], [], [], [], []⟩
  match eligSig w with
  | none => e
  | some s =>
    let op := (opOf w).toNat
    if op = 0x05 || op = 0x0C || op = 0x13 then
      let f := unpackVI w
      let r := opdRW s.d 0 f.d true (opdRW s.a 0 f.a false (predRW s.pred f.mask e))
      if op = 0x13 ∧ fn6Of w = 0x0A then { r with rg := f.d.toNat :: r.rg } else r
    else
      let f := unpackV3 w
      if op = 0x0A && (fn8Of w).toNat < 16 then
        let src := (fn8Of w).toNat
        opdRW .v f.ty f.d true (opdRW .v (BitVec.ofNat 5 src) f.a false (predRW s.pred f.mask e))
      else
        let r := opdRW s.d f.ty f.d true (opdRW s.a f.ty f.a false (opdRW s.b f.ty f.b false (opdRW s.c f.ty f.c false
          (predRW s.pred f.mask e))))
        if op = 0x12 ∧ fn8Of w = 0x0D then { r with rg := f.d.toNat :: r.rg } else r

/-- A word that a clause Affinage touches may hold (R344): its opcode, no `.rs`, and no check of R56 against it. -/
def eligWord (w : Word) : Bool :=
  w == nopWord ||
    (match eligSig w with
    | none => false
    | some s =>
      let op := (opOf w).toNat
      if op = 0x05 || op = 0x0C || op = 0x13 then !(unpackVI w).reserved s
      else
        let f := unpackV3 w
        f.rm != 5 && bits w 0 4 == 0 && !f.reserved s && (s.types == 0 || s.types.getLsbD f.ty.toNat) &&
          !(op == 0x0A && decide ((fn8Of w).toNat < 16) && !cvtPair (fn8Of w).toNat f.ty.toNat))

/-- Price and latency of an eligible word (R34, R45 to R48). -/
def wordPrice (w : Word) : Nat :=
  match eligSig w with
  | none => 0
  | some s =>
    let op := (opOf w).toNat
    if op = 0x05 || op = 0x0C || op = 0x13 then s.price else if bracket (unpackV3 w).ty then s.price2 else s.price
def wordLat (w : Word) : Nat :=
  match eligSig w with
  | none => 0
  | some s =>
    let op := (opOf w).toNat
    if op = 0x05 || op = 0x0C || op = 0x13 then s.lat else if bracket (unpackV3 w).ty then s.lat2 else s.lat

def addNat (xs : List Nat) (ys : List Nat) : List Nat := xs.foldl (fun a x => insertNat x a) ys

/-- Live-ins and registers written of a run of words, each read counted before the word's own writes (R344, R73). -/
def liveOf (ws : List Word) : RW :=
  ws.foldl (fun r w =>
    let x := wordRW w
    { rv := addNat (x.rv.filter (fun i => !r.wv.contains i)) r.rv
      rg := addNat (x.rg.filter (fun i => i != 0 && !r.wg.contains i)) r.rg
      rm := addNat (x.rm.filter (fun i => i != 0 && !r.wm.contains i)) r.rm
      rp := addNat (x.rp.filter (fun i => i != 0 && !r.wp.contains i)) r.rp
      wv := addNat x.wv r.wv, wg := addNat x.wg r.wg, wm := addNat x.wm r.wm, wp := addNat x.wp r.wp })
    ⟨[], [], [], [], [], [], [], []⟩

/-! ## Executions on recorded inputs (R347, R349) -/

/-- Inputs of a clause as its group stands. -/
def GW.capture (w : GW) : Exec :=
  let v := w.iss.verdict
  let rs := w.g.regs
  { v := (addNat v.liveV v.outV).map (fun r => (r, (List.range 32).map (fun l => Store.read rs.v (32 * r + l))))
    g := (addNat v.liveG v.outG).map (fun r => (r, Store.read rs.g r))
    m := (addNat v.liveM v.outM).map (fun r => (r, Store.read rs.m r))
    gp := (addNat v.liveP v.outP).map (fun r => (r, (Store.read rs.gp r).getLsbD 0))
    act := w.iss.act, help := w.helpers, out := [], flags := 0 }

/-- Registers as an execution's inputs set them; registers that no input names hold zero. -/
def Exec.regs (x : Exec) : Regs :=
  { v := x.v.foldl (fun t p => (List.range 32).foldl (fun t l => Store.write t (32 * p.1 + l) (p.2.getD l 0)) t) []
    g := x.g.foldl (fun t p => if p.1 = 0 then t else Store.write t p.1 p.2) []
    m := x.m.foldl (fun t p => if p.1 = 0 then t else Store.write t p.1 p.2) []
    gp := x.gp.foldl (fun t p => if p.1 = 0 then t else Store.write t p.1 (if p.2 then 1 else 0)) []
    x := [], fb := [], fpflags := 0, srseed := 0, mxflags := 0 }

/-- The registers of a group that runs the words on recorded inputs, on a private copy. -/
def State.runWords (s : State) (k : GKey) (x : Exec) (ws : List Word) : Regs :=
  let pr := s.protect k
  let iss : Issuing := { (default : Issuing) with
    words := ws.map (fun w => ⟨w, 0, 0, 0, 0, 0⟩), m := x.act &&& ~~~x.help, act := x.act }
  let g : Group := { (default : Group) with regs := x.regs, issuing := some iss }
  let s0 := { s.setGroup k g with cur := some (.grp k) }
  let s1 := ws.foldl (fun s w =>
    match evalWord w (s.modGroup k (fun g => g.landUpTo pr g.clk)) with
    | .next t => t.modGroup k (fun g => { g with clk := g.clk + 1 })
    | _ => s) s0
  match s1.group k with
  | some g => g.pend.foldl (Regs.land pr) g.regs
  | none => x.regs

/-- Final values of registers: lane registers under their number, then `g`, masks and predicates. -/
def Regs.outputs (rs : Regs) (ov og om op : List Nat) : Tbl (List (BitVec 64)) :=
  let t : Tbl (List (BitVec 64)) := ov.foldl (fun t r => Tbl.set t r ((List.range 32).map (fun l => (Store.read rs.v (32 * r + l)).setWidth 64))) []
  let t := og.foldl (fun t r => Tbl.set t (256 + r) [Store.read rs.g r]) t
  let t := om.foldl (fun t r => Tbl.set t (320 + r) [(Store.read rs.m r).setWidth 64]) t
  op.foldl (fun t r => Tbl.set t (336 + r) [(Store.read rs.gp r).setWidth 64]) t

/-- Outputs and flags of a clause's words on an execution's inputs, over the registers that `ov` to `op` name. -/
def State.runOut (s : State) (k : GKey) (x : Exec) (ws : List Word) (r : RW) : Exec :=
  let rs := s.runWords k x ws
  { x with out := rs.outputs r.wv r.wg r.wm r.wp, flags := rs.fpflags }

/-- Registers that either clause writes (R349). -/
def joinRW (a b : RW) : RW :=
  { a with wv := addNat a.wv b.wv, wg := addNat a.wg b.wg, wm := addNat a.wm b.wm, wp := addNat a.wp b.wp }

/-- Every register that the second clause writes is one that the first reads or writes: of any other the recorded inputs
hold no value that the first leaves there. -/
def writesWithin (a b : RW) : Bool :=
  b.wv.all (fun r => a.rv.contains r || a.wv.contains r) && b.wg.all (fun r => r == 0 || a.rg.contains r || a.wg.contains r) &&
    b.wm.all (fun r => r == 0 || a.rm.contains r || a.wm.contains r) &&
    b.wp.all (fun r => r == 0 || a.rp.contains r || a.wp.contains r)

/-- A candidate `b` agrees with the original `a` on an execution's inputs (R349). -/
def State.agrees (s : State) (k : GKey) (x : Exec) (a b : List Word) : Bool :=
  let r := joinRW (liveOf a) (liveOf b)
  let p := s.runOut k x a r
  let q := s.runOut k x b r
  writesWithin (liveOf a) (liveOf b) && p.out == q.out && p.flags == q.flags

/-! ## Heat and claims (R345, R346) -/

/-- The clause's words: its header, then its instructions. -/
def Issuing.clause (i : Issuing) : List Word := i.head.w :: i.words.map WordAt.w

/-- The entry of a hash, or the one with the lowest count. -/
def Core.heatAt (c : Core) (h : BitVec 64) : Nat × HeatEnt :=
  match c.heat.find? (fun p => p.2.hash == h) with
  | some p => p
  | none =>
    let cnt (i : Nat) : Nat := match Tbl.find c.heat i with
      | some e => e.count.toNat
      | none => 0
    let best := (List.range 64).foldl (fun b i => if cnt i < cnt b then i else b) 0
    (best, ⟨h, 0, false⟩)

/-- One more issue of a clause in its core's heat table. -/
def State.heat (s : State) (core : Nat) (ws : List Word) : State :=
  let c := s.core core
  let (i, e) := c.heatAt (Config.heatHash ws)
  s.setCore core { c with heat := Tbl.set c.heat i { e with count := if e.count = 0xFFFF then e.count else e.count + 1 } }

/-- TRIED set in every heat entry of a clause on a cluster's cores. -/
def State.setTried (s : State) (cl : Nat) (ws : List Word) : State :=
  (List.range 8).foldl (fun s j =>
    let c := s.core (8 * cl + j)
    let t := c.heat.map (fun p => if p.2.hash == Config.heatHash ws then (p.1, { p.2 with tried := true }) else p)
    if t = c.heat then s else s.setCore (8 * cl + j) { c with heat := t }) s

/-- The slot of a launch that holds a clause, if any. -/
def Cluster.slotFor (c : Cluster) (launch : Nat) (ws : List Word) : Option Nat :=
  (List.range 16).find? (fun i => (c.slot i).st != .free && (c.slot i).launch == launch && (c.slot i).orig == ws)

/-- A hot eligible clause whose entry has TRIED clear, as has every entry of it on the cluster (R413), claims a free slot;
which one the Herot takes is not defined (R417). -/
def State.claim (s : State) (core launch : Nat) (ws : List Word) (elig : Bool) : State :=
  let cl := clusterOf core
  let c := s.cluster cl
  let e := ((s.core core).heatAt (Config.heatHash ws)).2
  let free := (List.range 16).filter (fun i => (c.slot i).st == .free)
  let tried := (List.range 8).any (fun j => (s.core (8 * cl + j)).heat.any (fun p => p.2.hash == Config.heatHash ws && p.2.tried))
  if elig && c.affEn && !tried && decide (c.hot.toNat ≤ e.count.toNat) && (c.slotFor launch ws).isNone then
    match pickOne (Config.free s.now 60).toNat free with
    | none => s
    | some i =>
      let s := s.setCluster cl { c with
        slots := Tbl.set c.slots i { SubSlot.reset with st := .sampling, launch, orig := ws, serial := c.serial }
        serial := c.serial + 1 }
      (List.range 8).foldl (fun s j =>
        let x := s.core (8 * cl + j)
        s.setCore (8 * cl + j) { x with issues := Tbl.del x.issues i }) s
  else s

/-! ## The envelope (R353) -/

def bitLenI (x : Int) : Nat := bitLen x.natAbs
def Env.sees (e : Env) (x : BitVec 64) (i : Int) : Bool :=
  (if i < 0 then e.neg else e.pos) && decide (bitLenI i ≤ e.maxb) &&
    (match e.folded with
      | some y => x == y
      | none => true)
def Env.add (e : Env) (i : Int) : Env :=
  { e with neg := e.neg || decide (i < 0), pos := e.pos || decide (0 ≤ i), maxb := max e.maxb (bitLenI i) }

/-- Lanes whose live-ins count: active and no helper lane. -/
def Exec.lanes (x : Exec) : List Nat := lanesOf (x.act &&& ~~~x.help)

/-- An execution lies outside the envelope of a slot. -/
def SubSlot.outside (t : SubSlot) (x : Exec) : Bool :=
  x.lanes.any (fun l =>
    t.envV.any (fun p =>
      let v := ((Tbl.find x.v p.1).getD []).getD l 0
      !p.2.sees (v.setWidth 64) v.toInt) ||
    t.envG.any (fun p =>
      let v := (Tbl.find x.g p.1).getD 0
      !p.2.sees v v.toInt))

/-! ## Choice and marks (R352, R354, R358) -/

/-- SUBID (R359). -/
def subId (cl : Nat) (serial : BitVec 24) : BitVec 32 := BitVec.ofNat 3 (cl / 24) ++ BitVec.ofNat 5 (cl % 24) ++ serial

/-- What a selection of a clause issues: the original, or the candidate of a slot, with an audit or not. -/
inductive Choice where
  | orig
  | cand (slot : Nat) (audit : Bool)
  deriving DecidableEq, Repr

/-- A free entry of a context's mark log. -/
def Ctx.freeMark (x : Ctx) (n : Nat) : Option Nat :=
  pickOne n ((List.range (2 ^ (x.mlSize.toNat + 8))).filter (fun i => !x.marks.any (fun m => m.idx == i)))

def GW.hasEntry (w : GW) (sub : BitVec 32) : Bool :=
  (w.s.ctx w.ctx).marks.any (fun m => m.key == w.key && m.sub == sub)

def GW.choice (w : GW) : Choice :=
  let cl := clusterOf w.core
  let c := w.s.cluster cl
  match c.slotFor w.key.launch w.iss.clause with
  | none => .orig
  | some i =>
    let t := c.slot i
    if t.st != .mature then .orig
    else if t.proved then .cand i false
    else
      let r := w.s.lrec w.key.launch
      let audit := (t.execs + 1) % 64 == 0 || t.outside w.capture || r.commitHold
      let sub := subId cl t.serial
      let room := w.g.marks.contains sub || decide (w.g.marks.length < 4)
      let entry := r.commitHold || w.hasEntry sub || ((w.s.ctx w.ctx).freeMark 0).isSome
      if !room || !entry || (audit && decide (8 ≤ (w.s.core w.core).guard.length)) then .orig else .cand i audit

/-- A candidate's header and words with the original's place and provenance. -/
def candWords (o : Issuing) (cand : List Word) : List WordAt :=
  (cand.drop 1).zipIdx.map (fun p => { (o.words.getD p.2 o.head) with w := p.1 })

def candPrices (cand : List Word) : List Nat := ((cand.drop 1).map wordPrice).filter (· != 0)

/-- A guard entry for the execution that issues. -/
def GW.guardEnt (w : GW) (slot : Nat) (audit : Bool) (ws : List Word) : GW :=
  let x := w.capture
  let t := (w.s.cluster (clusterOf w.core)).slot slot
  let x := w.s.runOut w.key x (ws.drop 1) (joinRW (liveOf (t.orig.drop 1)) (liveOf (t.cand.drop 1)))
  let c := w.s.core w.core
  { w with s := w.s.setCore w.core { c with guard := c.guard ++ [⟨slot, audit, x, w.key, w.g.tseq, w.n⟩] } }

/-- The issue of the original: heat, claim, samples and ripening captures. Issues count from the one after the claim. -/
def GW.issueOrig (w : GW) : GW :=
  let cl := clusterOf w.core
  let ws := w.iss.clause
  let s := w.s.heat w.core ws
  let w := { w with s }
  match (s.cluster cl).slotFor w.key.launch ws with
  | none => { w with s := s.claim w.core w.key.launch ws w.iss.verdict.eligible }
  | some i =>
    let t := (s.cluster cl).slot i
    match t.st with
    | .sampling =>
      let c := s.core w.core
      let n := (Tbl.find c.issues i).getD 0 + 1
      let s := s.setCore w.core { c with issues := Tbl.set c.issues i n }
      if n % 256 = 0 then
        let x := s.runOut w.key w.capture (ws.drop 1) (liveOf (ws.drop 1))
        let c := s.cluster cl
        let smp := t.samples ++ [x]
        let t2 : SubSlot := { t with samples := smp, st := if 64 ≤ smp.length then .search else .sampling }
        { w with s := s.setCluster cl { c with slots := Tbl.set c.slots i t2 } }
      else { w with s }
    | .ripening => if (s.core w.core).guard.length < 8 then w.guardEnt i false ws else w
    | _ => w

/-- The issue of a candidate: executions, marks, mark-log reservation and audit capture. -/
def GW.issueCand (w : GW) (i : Nat) (audit : Bool) : GW :=
  let cl := clusterOf w.core
  let w := { w with s := w.s.heat w.core w.iss.clause }
  let c := w.s.cluster cl
  let t := c.slot i
  let iss := { w.iss with words := candWords w.iss t.cand, subst := some i }
  if t.proved then { w with iss, g := { w.g with issuing := some iss } }
  else
    let sub := subId cl t.serial
    let w := { w with s := w.s.setCluster cl { c with slots := Tbl.set c.slots i { t with execs := t.execs + 1 } } }
    let hold := (w.s.lrec w.key.launch).commitHold
    let x := w.s.ctx w.ctx
    let w := if hold || w.hasEntry sub then w
      else match x.freeMark (Config.free w.n 61).toNat with
        | some n => { w with s := w.s.setCtx w.ctx { x with marks := x.marks ++ [⟨n, w.key, sub, false, false, 0⟩] } }
        | none => w
    let g := { w.g with marks := if w.g.marks.contains sub then w.g.marks else w.g.marks ++ [sub] }
    let g := g.modOpen (fun k => { k with marks := if k.marks.contains sub then k.marks else k.marks ++ [sub] })
    let w := { w with g }
    let g2 := if audit then { g with audits := g.audits ++ [(w.n, g.tseq)] } else g
    let w := if audit then w.guardEnt i true t.cand else w
    let w := { w with g := g2 }
    { w with iss, g := { w.g with issuing := some iss } }

/-! ## `affcnt` and `affwait` (R363) -/

/-- Records queued in a recall queue. -/
def Ctx.queued (x : Ctx) : Nat := (x.rqTail - x.rqHead).toNat

def GW.affValue (w : GW) (sel : Nat) : BitVec 64 :=
  let x := w.s.ctx w.ctx
  match sel with
  | 0 => bit x.rqOvf 63 ||| fld x.lost 32 ||| BitVec.ofNat 64 x.queued
  | 1 =>
    let c := w.s.cluster (clusterOf w.core)
    BitVec.ofNat 64 ((List.range 16).filter (fun i =>
      (c.slot i).st == .mature && (c.slot i).launch == w.key.launch)).length
  | 2 => BitVec.ofNat 64 w.g.audits.length
  | _ =>
    let marked := match w.g.openTask with
      | some t => !t.marks.isEmpty
      | none => false
    bit marked 0 ||| bit (w.s.lrec w.key.launch).commitHold 1

def execAffcnt (f : VI) (s : State) : Out :=
  grp s fun w => w.grpOp (w.predBits f.mask) (w.put (w.g.resultG f.d (w.affValue (f.imm.toNat % 4)) 2))

def execAffwait (f : VI) (s : State) : Out :=
  grp s fun w => w.grpOp (w.predBits f.mask) (w.hold .affwait)

/-- `affpop` closes the task; the record is taken after its commit. -/
def execAffpop (f : VI) (s : State) : Out :=
  grp s fun w => w.grpOp (w.predBits f.mask) (w.boundaryEff (.affpop f.d.toNat w.n))

/-- The record that an `affpop` of a group that has ended takes leaves the queue all the same. -/
def State.tailPop (s : State) (k : GKey) : State :=
  match s.tailEff k with
  | none => s
  | some (t, go) =>
    match t.effq with
    | .affpop _ _ :: rest =>
      let c := s.lctx k.launch
      let x := s.ctx c
      (go rest).setCtx c { x with rqHead := if x.queued = 0 then x.rqHead else x.rqHead + 1 }
    | _ => s

/-- AFFPOP_PERFORM: the record at HEAD goes to sixteen registers and HEAD advances; from an empty queue come zeros. -/
def State.affpopPerform (s : State) (k : GKey) : State :=
  match s.group k with
  | none => s.tailPop k
  | some g =>
    match g.effq with
    | .affpop d _ :: rest =>
      let c := s.lctx k.launch
      let x := s.ctx c
      let empty := x.queued = 0
      let base := x.rqBase.toNat * 32768 + 128 * (x.rqHead.toNat % 256)
      let word (i : Nat) : BitVec 64 := if empty then 0 else BitVec.ofNat 64 (s.readLocNat (.mem (base + 8 * i)) 8)
      let g := (List.range 16).foldl (fun g i => g.writeG (d + i) (word i)) { g with effq := rest }
      (s.setCtx c { x with rqHead := if empty then x.rqHead else x.rqHead + 1 }).setGroup k g
    | _ => s.tailPop k

def execAffpopPerform (g : GKey) (s : State) : Out := .next ((s.ripen g).affpopPerform g)

end Sys2Proof.Machine
end

