-- ==== Sys2Proof/Machine/Harp.lean ====
section
/-! DEFINITION. The Harp mesh engine, major opcode 0x2C (R200 to R216). -/
namespace Sys2Proof.Machine
open Sys2Proof

/-! ## Issue (R201, R202) -/

def execHarp (f : X) (s : State) : Out :=
  grp s fun w =>
    let r := w.opdG f.f1
    let v := (w.opdG f.f2).toNat
    let n := (w.opdG f.f3).toNat
    if 2 ^ 32 ≤ n || 2 ^ 32 ≤ v || 2 ^ 32 < v + n then w.trap Cause.range
    else if !canonical r then w.trapKind Cause.range Kind.noncanon
    else if r.toNat % 256 ≠ 0 then w.trapKind Cause.align 0
    else
      let (g, id) := w.g.fresh
      let p : Pass :=
        { id, key := w.key, ctx := w.ctx, core := w.core, recAddr := r, first := v, count := n, waits := some g.tseq, started := false, rec_ := none,
          rows := [], bought := 0, begun := 0, lost := [], damaged := [], flags := 0, halted := false, dying := false, wait := none, word := w.at_ }
      let g := ((g.joinBatch 2 id).modOpen (fun t => { t with asyncFlag := true })).markBoundary
      let cl := clusterOf w.core
      let c := w.s.cluster cl
      (w.s.setCluster cl { c with harp := c.harp ++ [p] }).setGroup w.key g

/-! ## The pass record (R204, R205) -/

/-- A little-endian field of the record's bytes. -/
def recNat (bs : List Byte) (lo n : Nat) : Nat := leNat ((bs.drop lo).take n)

def recOf (bs : List Byte) : HRec :=
  let q (lo : Nat) := BitVec.ofNat 64 (recNat bs lo 8)
  let d (lo : Nat) := BitVec.ofNat 32 (recNat bs lo 4)
  let h (lo : Nat) := BitVec.ofNat 16 (recNat bs lo 2)
  { ebase := q 0, rbase := q 8, sbase := q 16, dbase := q 24, xbase := q 32, obase := q 40, baraddr := q 48,
    nvert := d 56, spitch := d 60, dpitch := d 64, xpitch := d 68, opitch := d 72, fs := h 76, fd := h 78, fe := h 80,
    ctl := h 82
    resv := recNat bs 84 12 ≠ 0 || recNat bs 192 64 ≠ 0 ||
      (List.range 3).any (fun l => recNat bs (96 + 32 * l + 19) 13 ≠ 0)
    layers := (List.range 3).map (fun l => (q (96 + 32 * l), q (104 + 32 * l), h (112 + 32 * l),
      BitVec.ofNat 8 (recNat bs (114 + 32 * l) 1))) }

def HRec.nl (r : HRec) : Nat := (r.ctl.extractLsb' 0 2).toNat
def HRec.red (r : HRec) : Nat := (r.ctl.extractLsb' 2 2).toNat
/-- Type code of features and weights. -/
def HRec.fmt (r : HRec) : Nat := if r.ctl.getLsbD 4 then 8 else 9
def HRec.ofmt (r : HRec) : Nat := (r.ctl.extractLsb' 5 2).toNat
def HRec.osize (r : HRec) : Nat := if r.ofmt = 0 then 4 else 2
def HRec.arv (r : HRec) : Bool := r.ctl.getLsbD 7
def HRec.bsp (r : HRec) : Nat := if r.ctl.getLsbD 8 then 2 else 1
/-- Space of the j-th array: global 0, vault 2. -/
def HRec.spc (r : HRec) (j : Nat) : Nat := if r.ctl.getLsbD (9 + j) then 2 else 0
def HRec.layer (r : HRec) (l : Nat) : BitVec 64 × BitVec 64 × BitVec 16 × BitVec 8 := r.layers.getD l (0, 0, 0, 0)
def HRec.nOf (r : HRec) (l : Nat) : Nat := (r.layer l).2.2.1.toNat
/-- Input width of layer l. -/
def HRec.kOf (r : HRec) (l : Nat) : Nat :=
  if l = 0 then r.fs.toNat + r.fd.toNat + r.fe.toNat else r.nOf (l - 1)
def HRec.on (r : HRec) : Nat := r.nOf (r.nl - 1)

/-- Code 1: a reserved or out-of-range field. -/
def HRec.bad1 (r : HRec) : Bool :=
  let used := List.range r.nl
  r.resv || r.ctl.getLsbD 15 || r.nl == 0 || r.red == 3 || r.ofmt == 3 ||
    used.any (fun l => decide (3 < (r.layer l).2.2.2.toNat) || r.nOf l == 0 || decide (256 < r.nOf l)) ||
    ((List.range 3).filter (fun l => decide (r.nl ≤ l))).any (fun l => r.layer l != (0, 0, 0, 0)) ||
    r.fs == 0 || decide (256 < r.fs.toNat) || decide (256 < r.fd.toNat) || decide (256 < r.fe.toNat) || r.nvert == 0

/-- Code 2: alignment. -/
def HRec.bad2 (r : HRec) : Bool :=
  let used := List.range r.nl
  let m {w : Nat} (x : BitVec w) (n : Nat) : Bool := x.toNat % n ≠ 0
  m r.ebase 4 || m r.rbase 4 || used.any (fun l => m (r.layer l).2.1 4 || m (r.layer l).1 2) ||
    m r.sbase 2 || m r.spitch 2 || (r.fd != 0 && (m r.dbase 2 || m r.dpitch 2)) ||
    (r.fe != 0 && (m r.xbase 2 || m r.xpitch 2)) || m r.obase r.osize || m r.opitch r.osize

/-- The record check that fails: Harp code, trap and kind (R205). Which one is reported where several fail is not stated;
the model reports the lowest code (DESIGN CHOICE, log entry 78). Code 4 carries the trap of the barrier's checks, which is
ALIGN for a misaligned address (DESIGN CHOICE, log entry 101). -/
def State.recBad (s : State) (k : GKey) (p : Pass) (r : HRec) : Option (Nat × BitVec 8 × BitVec 8) :=
  if r.bad1 then some (1, Cause.reservedField, 0)
  else if r.bad2 then some (2, Cause.align, 0)
  else if r.nvert.toNat < p.first + p.count then some (3, Cause.range, 0)
  else if r.arv then
    match s.barFor k p.ctx r.bsp r.baraddr with
    | .bad c kd => some (4, c, kd)
    | _ => none
  else none

/-! ## Stops (R213) -/

def State.modPass (s : State) (cl : Nat) (f : Pass → Pass) : State :=
  let c := s.cluster cl
  match c.harp with
  | [] => s
  | p :: r => s.setCluster cl { c with harp := f p :: r }
def State.dropHead (s : State) (cl : Nat) : State :=
  let c := s.cluster cl
  s.setCluster cl { c with harp := c.harp.drop 1 }
def State.headPass (s : State) (cl : Nat) : Option Pass := (s.cluster cl).harp.head?

/-- The pass stops: it counts as completed for DONE, and its trap is deferred. Lane 0's record holds the vertex, the kind and
the Harp code, and no cause (R213, R374). A group that has ended traps no more (DESIGN CHOICE, log entry 100). -/
def State.stopPass (s : State) (cl code : Nat) (cause kind : BitVec 8) (vertex : Nat) : State :=
  match s.headPass cl with
  | none => s
  | some p =>
    let s := s.modPass cl (fun p => { p with halted := true, wait := none })
    s.modGroup p.key (fun g =>
      let t : TrapInfo := { trapOf cause p.word with
        async := true, code := BitVec.ofNat 16 code,
        lanes := p.word.recs [(0, ⟨BitVec.ofNat 64 vertex, kind, 0, BitVec.ofNat 8 code, 0⟩)] }
      { g.completeOp 2 p.id with deferred := g.deferred ++ [⟨2, g.batchOf 2 p.id, t⟩] })

/-! ## Reads of the engine (R209, R216) -/

/-- Why a vertex cannot go on: a page to wait for, or a stop with its Harp code, trap and kind. -/
inductive HStop where
  | page (p : Nat) (st : Bool)
  | stop (code : Nat) (cause kind : BitVec 8)

/-- The engine's progress through its reads: its cluster, the context it works for, damaged operand elements, state, first obstacle, and the damaged
elements it has met, by edge index. -/
structure HRun where
  cl : Nat
  ctx : Nat
  lost : List (Nat × Nat × Nat)
  s : State
  bad : Option HStop
  damaged : List Nat

/-- One element read as committed data. `hard` marks row pointers and edge entries before their tile, whose damage
stops the pass; other damaged elements read as zero. The spec gives a damaged pointer no Harp code: the model reports 0
(DESIGN CHOICE, log entry 78). -/
def HRun.read (h : HRun) (k : GKey) (space : Nat) (va : BitVec 64) (n : Nat) (hard : Bool) (edge : Nat) : HRun × Nat :=
  match h.bad with
  | some _ => (h, 0)
  | none =>
    match State.copyRead 2 h.s k h.ctx (.chiplet (chipletOfCl h.cl)) space va n 200 with
    | (s, .inr (.demand p, _)) => ({ h with s, bad := some (.page p false) }, 0)
    | (s, .inr (.bad c kd, _)) => ({ h with s, bad := some (.stop 7 c kd) }, 0)
    | (s, .inr (.ok _ _, _)) => ({ h with s }, 0)
    | (s, .inl bs) =>
      if bs.any (fun b => b.2) then
        if hard then ({ h with s, bad := some (.stop 0 Cause.eccUncorrected 0) }, 0)
        else ({ h with s, damaged := h.damaged ++ [edge] }, 0)
      else ({ h with s }, leNat (bs.map (fun b => b.1)))

/-- `n` elements of `sz` bytes in a row. -/
def HRun.row (h : HRun) (k : GKey) (space : Nat) (va : BitVec 64) (n sz edge : Nat) : HRun × List Nat :=
  (List.range n).foldl (fun (a : HRun × List Nat) i =>
    let r := a.1.read k space (va + BitVec.ofNat 64 (sz * i)) sz false edge
    (r.1, a.2 ++ [r.2])) (h, [])

/-- The engine at the start of a step of a pass. -/
def State.harpRun (s : State) (cl : Nat) (p : Pass) : HRun := ⟨cl, p.ctx, p.lost, s, none, []⟩

/-- An element that passes through a matrix operand register: zero, and logged, where the register is damaged. -/
def HRun.operand (h : HRun) (e l i x : Nat) : HRun × Nat :=
  if h.lost.contains (e, l, i) then ({ h with damaged := h.damaged ++ [e] }, 0) else (h, x)

/-- The inputs of a layer as its operand register holds them. -/
def HRun.inputs (h : HRun) (e l : Nat) (xs : List Nat) : HRun × List Nat :=
  xs.zipIdx.foldl (fun (a : HRun × List Nat) x =>
    let r := a.1.operand e l x.2 x.1
    (r.1, a.2 ++ [r.2])) (h, [])

def rowAddr (base : BitVec 64) (pitch : BitVec 32) (j : Nat) : BitVec 64 := base + BitVec.ofNat 64 (j * pitch.toNat)

/-! ## Arithmetic (R206, R207) on f32 bit patterns -/

def f32Mul (a b : Nat) : Nat × Flags := fMul 10 0 0 (fDecode 10 a) (fDecode 10 b)
def f32Add (a b : Nat) : Nat × Flags := fAdd 10 0 0 (fDecode 10 a) (fDecode 10 b)

/-- The activations. The constants are the f32 nearest 0.044715, 0.797884583, 0.5 and 1. -/
def harpAct (act : Nat) (c : Nat) : Nat × Flags :=
  match act with
  | 0 => (c, 0)
  | 1 =>
    match fDecode 10 c with
    | .nan _ => (fNaN 10, 0)
    | x => if fNeg x || c = 0 then (0, 0) else (c, 0)
  | 2 =>
    let g := fSpecial 8 10 c
    let r := f32Mul c g.1
    (r.1, g.2 ||| r.2)
  | _ =>
    let q := f32Mul c c
    let u := f32Mul q.1 c
    let t := f32Mul 0x3D372713 u.1
    let y := f32Add c t.1
    let z := f32Mul 0x3F4C422A y.1
    let th := fSpecial 7 10 z.1
    let p := f32Add 0x3F800000 th.1
    let hc := f32Mul 0x3F000000 c
    let r := f32Mul hc.1 p.1
    (r.1, q.2 ||| u.2 ||| t.2 ||| y.2 ||| z.2 ||| th.2 ||| p.2 ||| hc.2 ||| r.2)

/-- One output of a layer: runs of 16 in ascending k, then the activation. -/
def harpNeuron (t act bias : Nat) (h w : List Nat) : Nat × Flags :=
  let k := h.length
  let r := (List.range ((k + 15) / 16)).foldl (fun (a : Nat × Flags) r =>
    let ps := ((List.range 16).filter (fun j => decide (16 * r + j < k))).map (fun j =>
      fMulV (fDecode t (h.getD (16 * r + j) 0)) (fDecode t (w.getD (16 * r + j) 0)))
    let s := fSum false (fDecode 10 a.1 :: ps.map (fun p => p.1))
    let o := fOut 10 0 0 s.1
    (o.1, a.2 ||| ps.foldl (fun f p => f ||| p.2) 0 ||| s.2 ||| o.2)) (bias, 0)
  let a := harpAct act r.1
  (a.1, r.2 ||| a.2)

/-- The reduction of a column over messages in edge order (R207). -/
def harpReduce (red : Nat) (ms : List Nat) : Nat × Flags :=
  match ms with
  | [] => (0, 0)
  | m :: r =>
    let step (a : Nat × Flags) (x : Nat) : Nat × Flags :=
      let y := if red = 2 then fMinMax true 10 a.1 x else f32Add a.1 x
      (y.1, a.2 ||| y.2)
    let s := r.foldl step (m, 0)
    if red = 1 then
      let d := fDiv 10 0 0 (fDecode 10 s.1) (.fin false ms.length 0)
      (d.1, s.2 ||| d.2)
    else s

/-- The message of one edge: the layers applied to the joined features (R206). Whether the engine reads an edge entry
before its tile begins or within it is not defined (R216). -/
def HRun.message (h : HRun) (k : GKey) (r : HRec) (v e : Nat) : HRun × List Nat × Flags :=
  let t := r.fmt
  let (h, src) := h.read k (r.spc 0) (r.ebase + BitVec.ofNat 64 (4 * e)) 4 (h.s.coin (5000 + e)) e
  if h.bad.isSome then (h, [], 0)
  else if r.nvert.toNat ≤ src then ({ h with bad := some (.stop 6 Cause.range 0) }, [], 0)
  else
    let (h, fs) := h.row k (r.spc 2) (rowAddr r.sbase r.spitch src) r.fs.toNat 2 e
    let (h, fd) := h.row k (r.spc 3) (rowAddr r.dbase r.dpitch v) r.fd.toNat 2 e
    let (h, fe) := h.row k (r.spc 4) (rowAddr r.xbase r.xpitch e) r.fe.toNat 2 e
    (List.range r.nl).foldl (fun (a : HRun × List Nat × Flags) l =>
      let (wb, bb, n, act) := r.layer l
      let kk := r.kOf l
      let (h, ins) := a.1.inputs e l a.2.1
      let out := (List.range n.toNat).foldl (fun (b : HRun × List Nat × Flags) j =>
        let (h, bias) := if bb = 0 then (b.1, 0) else b.1.read k 0 (bb + BitVec.ofNat 64 (4 * j)) 4 false e
        let (h, ws) := (List.range kk).foldl (fun (c : HRun × List Nat) i =>
          let x := c.1.read k 0 (wb + BitVec.ofNat 64 (2 * (i * n.toNat + j))) 2 false e
          let x := x.1.operand e l (kk + i * n.toNat + j) x.2
          (x.1, c.2 ++ [x.2])) (h, [])
        let y := harpNeuron t act.toNat bias ins ws
        (h, b.2.1 ++ [y.1], b.2.2 ||| y.2)) (h, [], 0)
      let next := if l + 1 < r.nl then out.2.1.map (fun x => cvtF t 0 false 0 (fDecode 10 x)) else out.2.1.map (fun x => (x, 0))
      (out.1, next.map (fun x => x.1), a.2.2 ||| out.2.2 ||| next.foldl (fun f x => f ||| x.2) 0))
      (h, fs ++ fd ++ fe, 0)

/-- The output row of a vertex: its bytes and flags (R206). -/
def HRun.vertex (h : HRun) (k : GKey) (r : HRec) (v lo hi : Nat) : HRun × List Byte × Flags :=
  let ms := (List.range (hi - lo)).foldl (fun (a : HRun × List (List Nat) × Flags) i =>
    let m := a.1.message k r v (lo + i)
    (m.1, a.2.1 ++ [m.2.1], a.2.2 ||| m.2.2)) (h, [], 0)
  let cols := (List.range r.on).map (fun n => harpReduce r.red (ms.2.1.map (fun m => m.getD n 0)))
  let outs := cols.map (fun c =>
    if r.ofmt = 0 then (natLE 4 c.1, (0 : Flags))
    else
      let x := cvtF (if r.ofmt = 1 then 9 else 8) 0 false 0 (fDecode 10 c.1)
      (natLE 2 x.1, x.2))
  (ms.1, (outs.map (fun o => o.1)).flatten,
    ms.2.2 ||| cols.foldl (fun f c => f ||| c.2) 0 ||| outs.foldl (fun f o => f ||| o.2) 0)

/-! ## Steps of the engine -/

/-- HARP_PASS_START: the head pass reads its record once its task has committed (R202, R203, R205). A damaged record is
read as if it were sound (DESIGN CHOICE, log entry 103), and a pass whose group has ended runs on (DESIGN CHOICE, log
entry 100). -/
def State.passStart (s : State) (cl : Nat) : State :=
  match s.headPass cl with
  | none => s
  | some p =>
    let ok := match s.group p.key with
      | some g => g.committed p.waits && g.localDone p.id
      | none => true
    let slot := match s.group p.key with
      | some g => g.sched.slot
      | none => 0
    if p.started || p.halted || p.wait.isSome || !ok then s
    else if p.rec_.isSome then s.modPass cl (fun p => { p with started := true })
    else
      match State.copyRead 2 s p.key p.ctx (.chiplet (chipletOfCl cl)) 0 p.recAddr 256 200 with
      | (s, .inr (.demand q, _)) =>
        (s.wantPage p.ctx q 0 (locAt p.core slot) p.key.launch).modPass cl
          (fun p => { p with wait := some (q, p.first) })
      | (s, .inr (.bad c kd, _)) => s.stopPass cl 7 c kd p.first
      | (s, .inr (.ok _ _, _)) => s
      | (s, .inl bs) =>
        let r := recOf (bs.map (fun b => b.1))
        match s.recBad p.key p r with
        | some (code, c, kd) => s.stopPass cl code c kd p.first
        | none => s.modPass cl (fun p => { p with started := true, rec_ := some r, wait := none })

def execHarpPassStart (cl : Nat) (s : State) : Out := .next (s.passStart cl)

/-- A row pointer. -/
def HRun.rowPtr (h : HRun) (k : GKey) (r : HRec) (v : Nat) : HRun × Nat :=
  h.read k (r.spc 1) (r.rbase + BitVec.ofNat 64 (4 * v)) 4 true 0

/-- Tokens of the b-th tile operation: one for each layer in turn (R212). -/
def HRec.tileCost (r : HRec) (b : Nat) : Nat :=
  let l := b % r.nl
  12 * ((r.kOf l + 31) / 32) * ((r.nOf l + 31) / 32)

/-- Tile operations the edges up to `hi` need, counted from the pass's first edge. -/
def HRec.opsTo (r : HRec) (e0 hi : Nat) : Nat := (hi - e0 + 15) / 16 * r.nl

/-- The first of the next `n` vertices from `v` on whose edges need more than `b` tile operations, unless a row pointer
before it cannot be read or falls. -/
def HRun.moreTiles (n : Nat) (h : HRun) (k : GKey) (r : HRec) (e0 last v b : Nat) : Option Nat :=
  match n with
  | 0 => none
  | n + 1 =>
    let (h, hi) := h.rowPtr k r (v + 1)
    if h.bad.isSome || hi < last then none
    else if b < r.opsTo e0 hi then some v
    else HRun.moreTiles n h k r e0 hi (v + 1) b

/-- Whether the engine has completed every vertex of a pass that it has begun (R215). -/
def Pass.atVertex (p : Pass) : Bool := decide (p.begun ≤ p.first + p.rows.length)

/-- A pass whose gang has been killed begins no further vertex (R215, R385). -/
def Pass.stays (p : Pass) (v : Nat) : Bool := p.dying && decide (p.begun ≤ v)

/-- The next purchase, if one is left: the pass, the vertex whose edges need it, and its tokens. -/
def State.nextTile (s : State) (cl : Nat) : Option (Pass × Nat × Nat) :=
  match s.headPass cl with
  | none => none
  | some p =>
    match p.rec_ with
    | none => none
    | some r =>
      if !p.started || p.halted || p.wait.isSome then none
      else
        let (h, e0) := (s.harpRun cl p).rowPtr p.key r p.first
        if h.bad.isSome then none
        else (h.moreTiles p.count p.key r e0 e0 p.first p.bought).bind (fun v => if p.stays v then none else some (p, v, r.tileCost p.bought))

/-- The engine has begun a vertex, and so every one below it (R215). -/
def Pass.begin (p : Pass) (v : Nat) : Pass := { p with begun := max p.begun (v + 1) }

/-- HARP_TILE_PURCHASE: the engine takes a tile operation's tokens as an issue stage does, and one core's matrix unit gets
the operation behind those whose tokens were taken before (R212). Which core's is not defined. -/
def State.tilePurchase (s : State) (cl : Nat) : State :=
  match s.nextTile cl with
  | none => s
  | some (p, v, cost) =>
    match s.takeTokens cl 8 0 cost p.key.launch with
    | none => s
    | some s =>
      let core := 8 * cl + (Config.free s.now 45).toNat % 8
      let c := s.core core
      (s.setCore core { c with matched := c.matched ++ [.tile p.key p.id p.bought] }).modPass cl
        (fun p => { p.begin v with bought := p.bought + 1 })

/-- A tile operation below number `n` of a pass stands in a matrix unit of the cluster. -/
def State.tilesOut (s : State) (cl : Nat) (p : Pass) (n : Nat) : Bool :=
  (List.range 8).any (fun j => (s.core (8 * cl + j)).matched.any (fun x => match x with
    | .tile k id i => k == p.key && id == p.id && decide (i < n)
    | .team _ => false))

def execHarpTilePurchase (cl : Nat) (s : State) : Out := .next (s.tilePurchase cl)


/-- Log entries of damaged elements: operand code 5 and the edge index (R216). -/
def State.harpLogs (s : State) (cl : Nat) (k : GKey) (edges : List Nat) : State :=
  edges.foldl (fun s e =>
    s.relEntry (chipletOfCl cl) 0
      (natLE 4 (k.launch % 2 ^ 24) ++ natLE 4 k.block ++ natLE 1 k.gi ++ natLE 1 (16 * 5) ++ [0, 0] ++ natLE 4 e) true false)
    (if edges.isEmpty then s else (s.ripen k).modGroup k (fun g => { g with regs := { g.regs with mxflags := 1 } }))

/-- An obstacle met by the head pass at a vertex. -/
def State.passObstacle (s : State) (cl v : Nat) (p : Pass) (b : HStop) : State :=
  match b with
  | .page q st =>
    let slot := match s.group p.key with
      | some g => g.sched.slot
      | none => 0
    (s.wantPage p.ctx q (if st then 1 else 0) (locAt p.core slot) p.key.launch).modPass cl
      (fun p => { p.begin v with wait := some (q, v) })
  | .stop code c kd => s.stopPass cl code c kd v

/-- What stops a vertex after elements of it were taken as zero: they are logged where the pass stops there. Where it waits
for a page they are kept, to be logged should the page fail: a retry of the vertex meets them again (R216). -/
def HRun.obstacle (h : HRun) (v : Nat) (p : Pass) (b : HStop) : State :=
  match b with
  | .page _ _ => (h.s.passObstacle h.cl v p b).modPass h.cl (fun p => { p with damaged := h.damaged })
  | .stop _ _ _ => (h.s.harpLogs h.cl p.key h.damaged).passObstacle h.cl v p b

/-- The page that the head pass waits for is answered FAIL: what the vertex has taken as zero is logged, and the pass stops
there (R214, R216). -/
def State.passFail (s : State) (cl v : Nat) : State :=
  match s.headPass cl with
  | none => s
  | some p => (s.harpLogs cl p.key p.damaged).stopPass cl 7 Cause.perm Kind.notmapped v

/-- A pass's flags are ORed into `$fpflags` and into the recorded boundary states, all of them later than the pass's task
(R147, R149). A group that has ended has none (DESIGN CHOICE, log entry 100). -/
def State.passFlags (s : State) (p : Pass) : State :=
  (s.ripen p.key).modGroup p.key (fun g => g.orFlags (fun _ => true) p.flags)

/-- A row's bytes written, page by page; none of it where a page is missing. -/
def State.rowPlaces (fuel : Nat) (s : State) (k : GKey) (cl ctx space : Nat) (va : BitVec 64) (bs : List Byte) :
    State × (List (Loc × List Byte) ⊕ HStop) :=
  match fuel with
  | 0 => (s, .inl [])
  | fuel + 1 =>
    if bs.isEmpty then (s, .inl [])
    else
      let m := if space = 0 then min bs.length (pageLeft va.toNat) else bs.length
      match s.copyPlace k ctx (.chiplet (chipletOfCl cl)) space va m true 300 with
      | (s, .demand p) => (s, .inr (.page p true))
      | (s, .bad c kd) => (s, .inr (.stop 7 c kd))
      | (s, .ok l _) =>
        match State.rowPlaces fuel s k cl ctx space (va + BitVec.ofNat 64 m) (bs.drop m) with
        | (s, .inl r) => (s, .inl ((l, bs.take m) :: r))
        | r => r

/-- A row performs at its home or its array, and leaves the L1 of the issuing core. -/
def State.rowWrite (s : State) (core : Nat) (l : Loc) (bs : List Byte) : State :=
  match l with
  | .mem key => s.ownWrite core key bs
  | l => s.writeLoc l bs

/-- A row's arrival at the barrier (R210). One whose address no longer passes the checks of R128, or whose scratch a gang kill
has freed, finds no barrier: it is dropped, and the pass goes on (DESIGN CHOICE, log entry 126). -/
def State.rowArrive (s : State) (p : Pass) (r : HRec) : State :=
  if !r.arv || (p.dying && r.bsp == 1) then s
  else
    match s.barFor p.key p.ctx r.bsp r.baraddr with
    | .ok l _ => s.bcArrive l (r.on * r.osize)
    | _ => s

/-- HARP_ROW_COMPLETE: vertex v's row performs, once the tile operations of its edges have run, and its arrival is
posted (R206, R209, R210, R212). A pass whose gang has been killed ends once no vertex is begun (R215). The flags are ORed as the last row performs, so that whoever its arrival releases finds
them (R407). -/
def State.harpRow (s : State) (cl v : Nat) : State :=
  match s.headPass cl with
  | none => s
  | some p =>
    match p.rec_ with
    | none => s
    | some r =>
      if !p.started || p.halted || p.wait.isSome || v < p.first || p.first + p.count ≤ v || Tbl.has p.rows v || p.stays v then s
      else
        let (h, e0) := (s.harpRun cl p).rowPtr p.key r p.first
        let (h, lo) := h.rowPtr p.key r v
        let (h, hi) := h.rowPtr p.key r (v + 1)
        match h.bad with
        | some b => h.s.passObstacle cl v p b
        | none =>
          if hi < lo then h.s.stopPass cl 5 Cause.range 0 v
          else if lo < hi && (p.bought < r.opsTo e0 hi || s.tilesOut cl p (r.opsTo e0 hi)) then h.s
          else
            let (h, bytes, fl) := h.vertex p.key r v lo hi
            match h.bad with
            | some b => h.obstacle v p b
            | none =>
              match State.rowPlaces (bytes.length + 1) h.s p.key cl p.ctx (r.spc 5) (rowAddr r.obase r.opitch v) bytes with
              | (s, .inr b) => { h with s }.obstacle v p b
              | (s, .inl ws) =>
                let s := ws.foldl (fun s x => s.rowWrite p.core x.1 x.2) s
                let q : Pass := { p.begin v with
                  rows := Tbl.set p.rows v (), flags := p.flags ||| fl, wait := none, damaged := [] }
                let s := if q.rows.length = q.count then s.passFlags q else s
                let s := (s.rowArrive p r).harpLogs cl p.key h.damaged
                if q.dying && q.atVertex then s.dropHead cl else s.modPass cl (fun _ => q)

def execHarpRowComplete (cl v : Nat) (s : State) : Out := .next (s.harpRow cl v)

/-- HARP_PASS_COMPLETE: every row and arrival is done and the flags are ORed (R203); a stopped pass leaves the engine
(R213), and the flags of the rows it wrote, of which the spec says nothing, with it (DESIGN CHOICE, log entry 78). -/
def State.passComplete (s : State) (cl : Nat) : State :=
  let c := s.cluster cl
  match c.harp with
  | [] => s
  | p :: rest =>
    let s1 := s.setCluster cl { c with harp := rest }
    if p.halted then s1
    else if p.started && decide (p.rows.length = p.count) then
      s1.modGroup p.key (fun g => g.completeOp 2 p.id)
    else s

def execHarpPassComplete (cl : Nat) (s : State) : Out := .next (s.passComplete cl)

end Sys2Proof.Machine
end

