-- ==== Sys2Proof/Machine/Atomic.lean ====
section
/-! DEFINITION. Value-returning atomics and reductions, major opcodes 0x28 and 0x29 (R217 to R231). -/
namespace Sys2Proof.Machine
open Sys2Proof

/-- A DEV page of an atomic, reduction or `waitw` traps PERM, kind ATOMDEV (R242). A lane that fails WRITE or UNBACKED there keeps
that fault: no rule orders them (DESIGN CHOICE, log entry 94). -/
def noDev (rs : List LaneChk) : List LaneChk :=
  rs.map (fun r =>
    match r.2.2 with
    | .ok _ a => if a.dev then (r.1, r.2.1, chkKind Kind.atomDev) else r
    | _ => r)

/-- The checks of an atomic or reduction (R218, R219): the slot's active lanes without helper lanes. -/
def GW.atomChecks (w : GW) (f : X) : GW × List LaneChk :=
  let (w, rs) := w.laneChecks f.space (f.tm.extractLsb' 0 3).toNat f.f2.toNat (f.imm.signExtend 64) (szBytes f.asize)
    true (w.memLanes w.iss.act true)
  (w, noDev rs)

/-- The operand of a lane: one register or a pair. -/
def GW.atomVal (w : GW) (r : BitVec 8) (size l : Nat) : BitVec 64 :=
  if size = 3 then w.g.readPair w.n r.toNat l else w.opd1 r l

/-- The pairs whose lanes disagree on address or data (R388). -/
def GW.atomDiffs (w : GW) (f : X) (cmp : Bool) : List Nat :=
  pairDiffs w.protect (w.iss.act &&& ~~~w.helpers)
    (w.pairKey f.space f.f2 (f.imm.signExtend 64) (fun l =>
      w.atomVal f.f1 f.asize l ++ (if cmp then w.atomVal f.f3 f.asize l else (0 : BitVec 64))))

/-- The address that a lane of an atomic or reduction forms. -/
def GW.atomForm (w : GW) (f : X) (l : Nat) : BitVec 64 :=
  w.formed f.space (f.tm.extractLsb' 0 3).toNat f.f2 (f.imm.signExtend 64) l

/-- Issue of an atomic by function number: it waits for the commit of the task it closes (R222). An atomic of
`.gng` or wider scope writes back the core's LA copies of its lines (R229). -/
def issueAtomic (fn : Nat) (f : X) (s : State) : Out :=
  grp s fun w =>
    match w.atomDiffs f (fn == 9) with
    | l :: ls => w.trapStored (l :: ls) w.iss.act (w.atomForm f)
    | [] =>
      let help := suppressed w.helpers (w.atomForm f)
      let (w, rs) := w.atomChecks f
      w.course rs true 3 help (fun w oks =>
        let accs := oks.map (fun o =>
          (Acc.mk o.1 o.2.2.1 o.2.1 o.2.2.2 ((w.atomVal f.f1 f.asize o.1).setWidth 128),
            if fn = 9 then w.atomVal f.f3 f.asize o.1 else 0))
        let s := if 2 ≤ f.scope then (accLines oks).foldl (fun s l => s.laWriteback w.core l) w.s else w.s
        let (g, id) := w.g.fresh
        let g := if accs.isEmpty then g
          else g.addEff (.atomic ⟨id, fn, f.asize, f.scope, f.f1.toNat, accs, g.epoch + 1,
            maskOf (accs.map (fun x => x.1.lane)) ||| (if w.protect then maskOf (accs.map (fun x => x.1.lane + 1)) else 0), w.n⟩)
        let g := if f.scope = 5 then { g with holds := g.holds ++ [⟨.ack g.tseq, w.at_, w.n⟩] } else g
        { w with s, g := (g.modOpen (fun t => { t with asyncFlag := true })).markBoundary })

def execVaadd (f : X) (s : State) : Out := issueAtomic 0 f s
def execVaand (f : X) (s : State) : Out := issueAtomic 1 f s
def execVaor (f : X) (s : State) : Out := issueAtomic 2 f s
def execVaxor (f : X) (s : State) : Out := issueAtomic 3 f s
def execVamin (f : X) (s : State) : Out := issueAtomic 4 f s
def execVamax (f : X) (s : State) : Out := issueAtomic 5 f s
def execVaminn (f : X) (s : State) : Out := issueAtomic 6 f s
def execVamaxn (f : X) (s : State) : Out := issueAtomic 7 f s
def execVaxchg (f : X) (s : State) : Out := issueAtomic 8 f s
def execVacas (f : X) (s : State) : Out := issueAtomic 9 f s
def execVafadd (f : X) (s : State) : Out := issueAtomic 10 f s

/-! ## Performing an atomic (R217, R221, R222, R229) -/

/-- The LA line of a core for an element: filled from the home if it is not present, and written back first if it
holds an element that overlaps this one without being it. -/
def State.laReady (s : State) (core key size : Nat) : State × LALine :=
  let line := lineOf key
  let clash := match Tbl.find (s.core core).la line with
    | some l => l.elems.any (fun e => overlaps e.1 (szBytes e.2.1) key (szBytes size) && !(e.1 == key && e.2.1 == size))
    | none => false
  let s := if clash then s.laWriteback core line else s
  match Tbl.find (s.core core).la line with
  | some l => (s, l)
  | none =>
    let s := (List.range 4).foldl (fun s i => s.fillSector core (4 * line + i)) s
    (s, ⟨Store.putBytes [] 0 (Store.bytes s.mem (256 * line) 256), []⟩)

/-- One atomic update at its place; gives the old value and whether it consumed poison. -/
def State.atomAt (s : State) (core : Nat) (a : Acc) (fn size scope : Nat) (d c : Nat) (draw : Nat) :
    State × Nat × Bool :=
  let n := szBytes size
  let w := 8 * n
  match a.loc with
  | .mem key =>
    if a.attr.rnode = 0 && !a.attr.sa && scope ≤ 1 && s.coin draw then
      let (s, l) := s.laReady core key size
      let old := match Tbl.find l.elems key with
        | some e => e.2.toNat
        | none => l.fillOf key size
      let l := { l with elems := Tbl.set l.elems key (size, BitVec.ofNat 64 (atomNew fn w old d c)) }
      let cr := s.core core
      (s.setCore core { cr with la := Tbl.set cr.la (lineOf key) l }, old, anyUnit 32 cr.l1bad key n)
    else
      let s := if a.attr.rnode = 0 then (s.laWriteback core (lineOf key)).recallLine (lineOf key) else s
      let old := s.readLocNat a.loc n
      let bad := s.poisoned a.loc n
      ((s.updateLoc a.loc n (atomNew fn w old d c)).dropSectors core key n, old, bad)
  | l =>
    let old := s.readLocNat l n
    (s.updateLoc l n (atomNew fn w old d c), old, s.poisoned l n)

/-- The lane that performs next: any lane that no lower lane's location overlaps (R221). -/
def pickLane (n : Nat) (size : Nat) (accs : List (Acc × BitVec 64)) : Option (Acc × BitVec 64) :=
  match accs[n % max accs.length 1]? with
  | none => none
  | some p =>
    if accs.any (fun q => decide (q.1.lane < p.1.lane) && q.1.meets (szBytes size) p.1 (szBytes size)) then accs.head?
    else some p

/-- An atomic at a remote package to which no port is up is a remote write lost after its commit (R397). -/
def State.accLost (s : State) (a : Acc) : Bool :=
  match a.loc with
  | .mem key => decide (2 ^ 52 ≤ key) && s.cutOff (key / 2 ^ 52)
  | _ => false

/-- One lane of an atomic of a group that has ended performs: its old value goes nowhere. -/
def State.tailAtomic (s : State) (k : GKey) : State :=
  match s.tailEff k with
  | none => s
  | some (t, go) =>
  match t.effq with
  | .atomic a :: rest =>
    match pickLane (Config.free s.now 30).toNat a.size a.accs with
    | none => go rest
    | some (acc, c) =>
      if (acc.attr.rnode ≠ 0 && !t.remote.isEmpty) || s.heldBack t.core a.issued then s
      else
        let left := a.accs.filter (fun p => p.1.lane != acc.lane)
        let es := if left.isEmpty then rest else .atomic { a with accs := left } :: rest
        if s.accLost acc then ((s.loseTail k).tailEff k).elim s (fun x => x.2 es)
        else ((go es).atomAt t.core acc a.fn a.size a.scope acc.val.toNat c.toNat 31).1
  | _ => s

/-- ATOMIC_PERFORM: one lane of the group's next committed atomic performs, and its old value is written (R222). The
result of an atomic of `.gng` scope or wider is an acquire (R254). -/
def State.atomicPerform (s : State) (k : GKey) : State :=
  match s.group k with
  | none => s.tailAtomic k
  | some g =>
    match g.effq with
    | .atomic a :: rest =>
      match pickLane (Config.free s.now 30).toNat a.size a.accs with
      | none => s.setGroup k { g with effq := rest }
      | some (acc, c) =>
        if (acc.attr.rnode ≠ 0 && !g.remote.isEmpty) || s.heldBack (s.coreOf k) a.issued then s
        else if s.accLost acc then s.setGroup k { g with linkDown := true }
        else
          let (s, old, bad) := s.atomAt (s.coreOf k) acc a.fn a.size a.scope acc.val.toNat c.toNat 31
          let left := a.accs.filter (fun p => p.1.lane != acc.lane)
          let g := { g with effq := if left.isEmpty then rest else .atomic { a with accs := left } :: rest }
          let s := if left.isEmpty && decide (2 ≤ a.scope) then s.dropL1 (s.coreOf k) else s
          let op : MemOp := ⟨a.id, .load false, a.dest, a.size, 0, a.accs.map (fun x => x.1), a.write, 0, 0, 0, 0, none⟩
          s.setGroup k (if bad then g.consumed acc.loc else g.writeLoad (s.protect k) false op acc.lane old)
    | _ => s.tailAtomic k

def execAtomicPerform (g : GKey) (s : State) : Out := .next ((s.ripen g).atomicPerform g)

/-! ## Reductions (R223 to R227) -/

/-- Issue of a reduction. Where a lane fails its checks and the barrier's address fails too, the lanes' trap is taken: no rule
orders them (DESIGN CHOICE, log entry 95). Global updates are held with the task; scratch and vault updates perform at their array
(R224). -/
def issueRed (member : Nat) (arv : Bool) (f : X) (s : State) : Out :=
  grp s fun w =>
    match w.atomDiffs f false with
    | l :: ls => w.trapStored (l :: ls) w.iss.act (w.atomForm f)
    | [] =>
      let help := suppressed w.helpers (w.atomForm f)
      let (w, rs) := w.atomChecks f
      let ba := w.opdG f.f3
      let barr := w.s.barAddr w.key (if f.space = 1 then 1 else 2) ba
      let bad := rs.any (fun r => match r.2.2 with | .bad _ _ => true | _ => false)
      match arv && !bad, barr with
      | true, .bad c kd => w.trapKind c kd
      | _, _ =>
        let bar := match arv, barr with
          | true, .ok l _ => some l
          | _, _ => none
        w.course rs true 3 help (fun w oks =>
          let (w, oks) := w.wheySplit oks
          let acc (o : Nat × BitVec 64 × Loc × Attr) : Acc :=
            ⟨o.1, o.2.2.1, o.2.1, o.2.2.2, (w.atomVal f.f1 f.asize o.1).setWidth 128⟩
          if oks.isEmpty then w
          else if f.space = 0 then
            { w with g := w.g.modOpen (fun t => { t with
                asyncFlag := true, reds := t.reds ++ oks.map (fun o => ⟨member, f.asize, f.scope, acc o, bar⟩)
                pages := oks.foldl (fun ps o => Tbl.set ps (pageOf o.2.1) ()) t.pages }) }
          else
            let g := w.g.modOpen (fun t => { t with asyncFlag := true })
            { w with g := g.pushMem w.n (.red member bar) 0 f.asize 0 (oks.map acc) 0 none })

def execVradd (f : X) (s : State) : Out := issueRed 0 false f s
def execVrand (f : X) (s : State) : Out := issueRed 1 false f s
def execVror (f : X) (s : State) : Out := issueRed 2 false f s
def execVrxor (f : X) (s : State) : Out := issueRed 3 false f s
def execVrmin (f : X) (s : State) : Out := issueRed 4 false f s
def execVrmax (f : X) (s : State) : Out := issueRed 5 false f s
def execVrminn (f : X) (s : State) : Out := issueRed 6 false f s
def execVrmaxn (f : X) (s : State) : Out := issueRed 7 false f s
def execVrfadd (f : X) (s : State) : Out := issueRed 8 false f s
def execVraddArv (f : X) (s : State) : Out := issueRed 0 true f s
def execVrandArv (f : X) (s : State) : Out := issueRed 1 true f s
def execVrorArv (f : X) (s : State) : Out := issueRed 2 true f s
def execVrxorArv (f : X) (s : State) : Out := issueRed 3 true f s
def execVrminArv (f : X) (s : State) : Out := issueRed 4 true f s
def execVrmaxArv (f : X) (s : State) : Out := issueRed 5 true f s
def execVrminnArv (f : X) (s : State) : Out := issueRed 6 true f s
def execVrmaxnArv (f : X) (s : State) : Out := issueRed 7 true f s
def execVrfaddArv (f : X) (s : State) : Out := issueRed 8 true f s

/-! ## Release of held reductions at commit (R224, R225, R227) -/

/-- A released reduction gathered in the issuing core's L1: the line is in state U for one member and one size. -/
def State.gather (s : State) (core key : Nat) (r : Red) : State :=
  let line := lineOf key
  let s := s.laWriteback core line
  let other := match Tbl.find (s.core core).ulines line with
    | some us => us.any (fun u => u.member != r.member || u.size != r.size)
    | none => false
  let s := if other then s.uSend core line else s
  let s := s.dropSectors core (256 * line) 256
  let c := (s.core core).unmark line
  let u : ULine := (((Tbl.find c.ulines line).getD []).head?).getD ⟨r.member, r.size, []⟩
  let w := 8 * szBytes r.size
  let old := ((Tbl.find u.parts key).map BitVec.toNat).getD (redIdentity r.member w)
  let new := atomNew (redFn r.member) w old r.acc.val.toNat 0
  (s.setCore core { c with
    ulines := Tbl.set c.ulines line [{ u with parts := Tbl.set u.parts key (BitVec.ofNat 64 new) }] }).l1Trim core (some line)

/-- One held global reduction is released. -/
def State.releaseRed (s : State) (core : Nat) (r : Red) : State :=
  match r.acc.loc with
  | .mem key =>
    let direct := r.bar.isSome || r.acc.attr.sa || r.acc.attr.rnode != 0
    let s :=
      if direct then
        ((s.laRecall (lineOf key)).applyUpdate r.acc.loc (redFn r.member) r.size r.acc.val.toNat).dropSectors core key
          (szBytes r.size)
      else s.gather core key r
    match r.bar with
    | some b => s.bcArrive b (szBytes r.size)
    | none => s
  | _ => s

end Sys2Proof.Machine
end

