-- ==== Sys2Proof/Machine/Sync.lean ====
section
/-! DEFINITION. Waiting on a word, and block and gang barriers, major opcode 0x2B (R238 to R242). -/
namespace Sys2Proof.Machine
open Sys2Proof

/-! ## Waiting on a word (R238, R239) -/

/-- The read of a monitored word at its home: committed data with U copies combined, and whether it is poisoned. -/
def State.monitorRead (s : State) (a : Acc) (size : Nat) : State × BitVec 64 × Bool :=
  let n := szBytes size
  match a.loc with
  | .mem key =>
    let (s, bs) := if a.attr.rnode = 0 then s.homeRead key n else (s, Store.bytes s.mem key n)
    (s, BitVec.ofNat 64 (leNat bs), s.poisoned a.loc n)
  | l => (s, BitVec.ofNat 64 (s.readLocNat l n), s.poisoned l n)

/-- Whether a read differs from the expected value, taken in its low bits. -/
def waitDiffers (size : Nat) (v exp : BitVec 64) : Bool := v.toNat % 2 ^ (8 * szBytes size) != exp.toNat % 2 ^ (8 * szBytes size)

def execWaitw (f : X) (s : State) : Out :=
  grp s fun w =>
    let size := f.imm.toNat % 4
    let exp := w.opdG f.f3
    let (w, rs) := w.grpCheck 0 (w.opdG f.f2) (szBytes size) false
    w.courseG (noDev rs) false 0 (fun w oks =>
      match oks with
      | (_, va, l, t) :: _ =>
        let a : Acc := ⟨0, l, va, t, 0⟩
        let (s, v, bad) := w.s.monitorRead a size
        if bad then { w with s, g := w.g.consumed l }
        else if waitDiffers size v exp then { w with s, g := { w.g with holds := w.g.holds ++ [⟨.acq true, w.at_, w.n⟩] } }
        else { w with s, g := { w.g with holds := w.g.holds ++ [⟨.waitw a size exp, w.at_, w.n⟩] } }
      | [] => w)

/-- MONITOR_WAKE: a re-read that differs ends the wait and is an acquire, which waits for the group's loads and atomics
as a fence does (R251, R260). The monitor of a saved group reads nothing (R239). -/
def State.monitorWake (s : State) (k : GKey) : State :=
  match s.group k with
  | none => s
  | some g =>
    match g.saved, g.holds.find? (fun h => match h.h with | .waitw _ _ _ => true | _ => false) with
    | false, some ⟨.waitw a size exp, at_, n⟩ =>
      let (s, v, bad) := s.monitorRead a size
      if bad then s.setGroup k (g.consumed a.loc)
      else if waitDiffers size v exp then
        s.setGroup k { g with holds := g.holds.map (fun h => if h = ⟨.waitw a size exp, at_, n⟩ then ⟨.acq true, at_, n⟩ else h) }
      else s
    | _, _ => s

def execMonitorWake (g : GKey) (s : State) : Out := .next (s.monitorWake g)

/-! ## Barriers (R240, R241) -/

/-- The phases that a slot waits for: gang or block, index, and the phase, 0 while the arrival has not named it. -/
def slotWaits (t : Tbl (List (Bool × Nat × Nat))) (slot : Nat) : List (Bool × Nat × Nat) := (Tbl.find t slot).getD []

def State.bar (s : State) (k : GKey) (gang : Bool) (idx : Nat) : Bar :=
  if gang then
    match Tbl.find s.gangs (s.gangKey k) with
    | some g => (Tbl.find g.bars idx).getD Bar.reset
    | none => Bar.reset
  else
    match s.block (GKey.bkey k) with
    | some b => (Tbl.find b.bars idx).getD Bar.reset
    | none => Bar.reset
def State.setBar (s : State) (k : GKey) (gang : Bool) (idx : Nat) (b : Bar) : State :=
  if gang then
    let g := (Tbl.find s.gangs (s.gangKey k)).getD ⟨[], 0⟩
    { s with gangs := Tbl.set s.gangs (s.gangKey k) { g with bars := Tbl.set g.bars idx b } }
  else
    match s.block (GKey.bkey k) with
    | some x => s.setBlock (GKey.bkey k) { x with bars := Tbl.set x.bars idx b }
    | none => s

/-- The blocks a barrier spans. -/
def State.barBlocks (s : State) (k : GKey) (gang : Bool) : List Nat :=
  if gang then s.gangBlocks k.launch (s.gangNo k.launch k.block) else [k.block]
/-- The live groups a barrier expects; none while a block of the gang has not started. -/
def State.barGroups (s : State) (k : GKey) (gang : Bool) : Option (List GKey) :=
  let bs := s.barBlocks k gang
  if bs.any (fun b => match s.block (bkeyOf k.launch b) with
      | some x => x.st == .held
      | none => false) then none
  else some (bs.flatMap (fun b => s.blockGroups k.launch b))

/-- Whether a group that a barrier expects stands saved: an evicted one must be restored first (R324). -/
def State.away (s : State) (q : GKey) : Bool :=
  match s.group q with
  | some g => g.saved
  | none => false

/-- A phase completes when every live group has arrived and none is saved: LA lines of the arrived groups' cores go home,
the waiting groups' cores drop their global sectors, and every group's U is 0 (R241, R320). -/
def State.settleBar (fuel : Nat) (s : State) (k : GKey) (gang : Bool) (idx : Nat) : State :=
  match fuel with
  | 0 => s
  | fuel + 1 =>
    let b := s.bar k gang idx
    match s.barGroups k gang with
    | none => s
    | some gs =>
      if !b.arrived.isEmpty && gs.all (fun q => b.arrived.contains (GKey.num q) && !s.away q) then
        let s := gs.foldl (fun s q => (s.laWritebackCore (s.coreOf q)).flushL1 (s.coreOf q)) s
        let s := gs.foldl (fun s q => s.modGroup q (fun g => { g with sched := { g.sched with u := 0 } })) s
        State.settleBar fuel (s.setBar k gang idx { phase := b.phase + 1, arrived := b.next, next := [] }) k gang idx
      else s

/-- Every barrier of a group's block and gang is looked at again, as when a group leaves. -/
def State.settleBars (s : State) (k : GKey) : State :=
  (List.range 16).foldl (fun s i => (s.settleBar 2 k false i).settleBar 2 k true i) s

/-- The issuing slot waits for a phase that its arrival will name, beside the waits of other words of its clause
(R240). -/
def issueBar (gang : Bool) (f : X) (s : State) : Out :=
  grp s fun w =>
    let idx := f.imm.toNat % 16
    let s := if gang then w.s.laWritebackCore w.core else w.s
    let ws := slotWaits w.g.slotHolds w.iss.slot ++ [(gang, idx, 0)]
    let g := { w.g with slotHolds := Tbl.set w.g.slotHolds w.iss.slot ws }
    s.setGroup w.key ((g.addEff (.bar gang idx w.iss.slot 0)).markBoundary)

def execBarblk (f : X) (s : State) : Out := issueBar false f s
def execBargng (f : X) (s : State) : Out := issueBar true f s

/-- A slot's wait that has no phase yet takes it; the boundary states that recorded the wait take it too, so that a
cut-back resumes waiting on the same phase. -/
def nameHold (t : Tbl (List (Bool × Nat × Nat))) (gang : Bool) (idx slot v : Nat) : Tbl (List (Bool × Nat × Nat)) :=
  let open_ (i : Nat) : Bool := (slotWaits t i).contains (gang, idx, 0)
  let i := if open_ slot then slot else 1 - slot
  let ws := slotWaits t i
  if open_ i then Tbl.set t i (ws.set (ws.idxOf (gang, idx, 0)) (gang, idx, v)) else t

/-- BARRIER_ARRIVAL: the group's next effect, if it is an arrival, counts for the current phase, or for the next one
if the group has joined the current one. -/
def State.barrierArrival (s : State) (k : GKey) : State :=
  match s.group k with
  | none => s
  | some g =>
    match g.effq with
    | .bar gang idx slot _ :: rest =>
      let b := s.bar k gang idx
      let again := b.arrived.contains (GKey.num k)
      let b1 := if again then { b with next := insertNat (GKey.num k) b.next }
        else { b with arrived := insertNat (GKey.num k) b.arrived }
      let v := b.phase + (if again then 2 else 1)
      let g := { g with
        effq := rest
        slotHolds := nameHold g.slotHolds gang idx slot v
        tasks := g.tasks.map (fun t => { t with snap := { t.snap with slotHolds := nameHold t.snap.slotHolds gang idx slot v } }) }
      ((s.setGroup k g).setBar k gang idx b1).settleBar 2 k gang idx
    | _ => s

def execBarrierArrival (g : GKey) (s : State) : Out := .next (s.barrierArrival g)

/-- Whether a slot's barrier wait still holds it. -/
def State.slotHeld (s : State) (k : GKey) (g : Group) (slot : Nat) : Bool :=
  (slotWaits g.slotHolds slot).any (fun (gang, idx, v) => v == 0 || decide ((s.bar k gang idx).phase < v))

end Sys2Proof.Machine
end

