-- ==== Sys2Proof/Machine/Control.lean ====
section
/-! DEFINITION. Control flow, major opcode 0x30 (R265 to R278): paths, reconvergence records, the divergence
stack. -/
namespace Sys2Proof.Machine
open Sys2Proof

/-! ## Records and chains (R265) -/

/-- The record that a token names for a path with lanes `m`, among those from place `i` on, newest first. A record of
another path may hold the same token: a path's own record expects its lanes. Where none expects all of them, as after a
merge of paths of several records, the newest is taken (DESIGN CHOICE, log entry 99). -/
def recFor (rs : List Rec) (t : BitVec 11) (m : Mask) (i : Nat) : Option Nat :=
  let at_ (p : Rec → Bool) : Option Nat :=
    (rs.zipIdx.find? (fun x => decide (i ≤ x.2) && x.1.tok == t && p x.1)).map (fun x => x.2)
  if t = 0 then none else (at_ (fun r => r.exp &&& m == m)).or (at_ (fun _ => true))

/-- The places of a path's chain, nearest record first: each link leads through PT to an older record. -/
def chainFrom (fuel : Nat) (rs : List Rec) (t : BitVec 11) (m : Mask) (i : Nat) : List Nat :=
  match fuel with
  | 0 => []
  | fuel + 1 =>
    match recFor rs t m i with
    | none => []
    | some j => j :: (match rs[j]? with
      | some r => chainFrom fuel rs r.pt m (j + 1)
      | none => [])
def Ctl.chain (c : Ctl) (t : BitVec 11) (m : Mask) : List Nat := chainFrom c.recs.length c.recs t m 0

def modAt (rs : List Rec) (p : Nat → Bool) (f : Rec → Rec) : List Rec := rs.mapIdx (fun i r => if p i then f r else r)

/-! ## Slots and the stack (R274, R275) -/

/-- Control state as a word changes it: entries pushed in this word are held by depth; whether slot 1's path has merged
into slot 0's; for each record that has closed, the lanes of the paths that arrived at it or left it, and those of its merged
path (R253, R278); and the depths of entries popped from scratch. -/
structure CX where
  c : Ctl
  pushed : List Nat
  merged : Bool
  joined : List (Mask × Mask)
  popped : List Nat
  deriving DecidableEq, Repr

/-- Control state before anything has followed from a change of it. -/
def Ctl.cx (c : Ctl) : CX := ⟨c, [], false, [], []⟩

/-- The depth bound D, and the entry at a depth as its bits stand in scratch. -/
structure Stk where
  d : Nat
  entry : Nat → Path

/-- Two paths in slots with one PC and one token merge. -/
def CX.merge (x : CX) : CX :=
  match x.c.slot0, x.c.slot1 with
  | some p, some q =>
    if p.pc = q.pc && p.t == q.t then
      { x with c := { x.c with slot0 := some { p with m := p.m ||| q.m }, slot1 := none }, merged := true }
    else x
  | _, _ => x

/-- An empty slot, `i` before the other. -/
def Ctl.freeSlot (c : Ctl) (i : Nat) : Option Nat :=
  if (c.slot i).isNone then some i else if (c.slot (1 - i)).isNone then some (1 - i) else none

/-- A path goes to an empty slot, or is pushed; none when the stack is full. -/
def CX.place (k : Stk) (i : Nat) (x : CX) (p : Path) : Option CX :=
  match x.c.freeSlot i with
  | some j => some { x with c := x.c.setSlot j (some p) }
  | none =>
    if x.c.depth < k.d then
      some { x with
        c := { x.c with held := Tbl.set x.c.held x.c.depth p, depth := x.c.depth + 1 }
        pushed := x.pushed ++ [x.c.depth] }
    else none

/-- Slots that nothing has claimed pop the stack's top entries; lanes that have exited are cleared. -/
def CX.fill (fuel : Nat) (k : Stk) (x : CX) : CX :=
  let x := x.merge
  match fuel with
  | 0 => x
  | fuel + 1 =>
    match x.c.freeSlot 0, x.c.depth with
    | some i, j + 1 =>
      let p := (Tbl.find x.c.held j).getD (k.entry j)
      let p := { p with m := p.m &&& ~~~x.c.exited }
      let c := { x.c with held := Tbl.del x.c.held j, depth := j }
      CX.fill fuel k { x with
        c := if p.m = 0 then c else c.setSlot i (some p), pushed := x.pushed.filter (· != j)
        popped := if Tbl.has x.c.held j then x.popped else x.popped ++ [j] }
    | _, _ => x

/-- Records whose lanes have all arrived close, and each merged path takes the slot `i` if it is free; records that
expect no lane are removed without a path (R270). Of several that one event closes the newest comes first
(DESIGN CHOICE, log entry 98). -/
def CX.close (k : Stk) (i : Nat) (x : CX) : Option CX :=
  let closed := x.c.recs.filter (fun r => r.arr == r.exp && r.exp != 0)
  let x1 := { x with
    c := { x.c with recs := x.c.recs.filter (fun r => r.arr != r.exp && r.exp != 0) }
    joined := x.joined ++ closed.map (fun r => (r.arr ||| r.left, r.arr)) }
  closed.foldl (fun (y : Option CX) r =>
    y.bind (fun y => y.place k i ⟨r.cont.getD 0, r.arr, r.pt⟩)) (some x1)

def CX.settle (k : Stk) (i : Nat) (x : CX) : Option CX := (x.close k i).map (fun y => y.fill (y.c.depth + 2) k)

/-- Lanes are expected no more: they leave by `cont`, or by an event that arrives so at a record that it completes (R278). -/
def Rec.drop (r : Rec) (m : Mask) : Rec := { r with exp := r.exp &&& ~~~m }
def Rec.leave (r : Rec) (m : Mask) : Rec := { r.drop m with left := r.left ||| (r.exp &&& m) }
/-- A record as it is opened. -/
def Rec.new (tok : BitVec 11) (call : Bool) (exp : Mask) (pt : BitVec 11) (cont : Option Nat) : Rec :=
  ⟨tok, call, exp, 0, pt, cont, 0⟩

/-- Opens a record; none for a seventeenth. -/
def Ctl.openRec (c : Ctl) (r : Rec) : Option Ctl := if c.recs.length < 16 then some { c with recs := r :: c.recs } else none

/-! ## The eight instructions on control state -/

/-- What a control word is given: the acting slot and path, the next header, the target, its token and the lanes
whose condition holds (R267). -/
structure CW where
  i : Nat
  p : Path
  next : Nat
  tgt : Nat
  tok : BitVec 11
  cond : Mask

def Ctl.go (c : Ctl) (i : Nat) (p : Path) : Option CX := some (c.setSlot i (some p)).cx
/-- The acting path with the lanes `m` left: it goes on at the next header, or ends. -/
def Ctl.leave (c : Ctl) (w : CW) (t : BitVec 11) (m : Mask) : CX :=
  (c.setSlot w.i (if m = 0 then none else some ⟨w.next, m, t⟩)).cx

/-- R269. The new path is placed, or pushed, before a merge of the two slots could free one (DESIGN CHOICE, log entry
120). -/
def ctlBra (k : Stk) (w : CW) (c : Ctl) : Option CX :=
  let t := w.p.m &&& w.cond
  let n := w.p.m &&& ~~~w.cond
  if t = 0 then (c.go w.i { w.p with pc := w.next }).bind (CX.settle k w.i)
  else if n = 0 then (c.go w.i { w.p with pc := w.tgt }).bind (CX.settle k w.i)
  else
    let c? := if w.p.t = w.tok then some c else c.openRec (Rec.new w.tok false w.p.m w.p.t none)
    c?.bind (fun c => (CX.place k (1 - w.i) (c.setSlot w.i (some ⟨w.next, n, w.tok⟩)).cx ⟨w.tgt, t, w.tok⟩).bind
      (CX.settle k w.i))

def ctlBrau (k : Stk) (w : CW) (c : Ctl) : Option CX :=
  let pc := if w.cond = 0 then w.next else w.tgt
  if w.tok = 0 || w.p.t = w.tok then (c.go w.i { w.p with pc }).bind (CX.settle k w.i)
  else
    (c.openRec (Rec.new w.tok false w.p.m w.p.t none)).bind (fun c =>
      (c.go w.i ⟨pc, w.p.m, w.tok⟩).bind (CX.settle k w.i))

/-- R270. -/
def ctlJoin (k : Stk) (w : CW) (c : Ctl) : Option CX :=
  match (if w.p.t = w.tok then c.chain w.tok w.p.m else []) with
  | [] => (c.go w.i { w.p with pc := w.next }).bind (CX.settle k w.i)
  | j :: _ =>
    let rs := modAt c.recs (· == j) (fun r => { r with arr := r.arr ||| w.p.m, cont := some w.next })
    CX.settle k w.i ({ c with recs := rs }.setSlot w.i none).cx

/-- The record a `break` or `cont` names (R271): its place after it is opened if the chain has none, the places
nearer on the chain, and the path's token. -/
def Ctl.named (c : Ctl) (w : CW) : Option (Ctl × Nat × List Nat × BitVec 11) :=
  let ch := c.chain w.p.t w.p.m
  let hit (j : Nat) : Bool := match c.recs[j]? with
    | some r => r.tok == w.tok
    | none => false
  match ch.find? hit with
  | some j => some (c, j, ch.takeWhile (fun i => !hit i), w.p.t)
  | none => (c.openRec (Rec.new w.tok false w.p.m w.p.t none)).map (fun c => (c, 0, [], w.tok))

def ctlBrk (k : Stk) (w : CW) (c : Ctl) : Option CX :=
  (c.named w).bind (fun (c, j, below, t) =>
    let b := w.p.m &&& w.cond
    let rs := modAt c.recs (below.contains ·) (Rec.leave · b)
    let rs := modAt rs (· == j) (fun r => { r with arr := r.arr ||| b, cont := some w.tgt })
    CX.settle k w.i ({ c with recs := rs }.leave w t (w.p.m &&& ~~~b)))

/-- A record that the end of the path closes claims the freed slot, then the new path is placed, then the stack is
popped. -/
def ctlCont (k : Stk) (w : CW) (c : Ctl) : Option CX :=
  (c.named w).bind (fun (c, _, below, t) =>
    let b := w.p.m &&& w.cond
    let rs := modAt c.recs (below.contains ·) (Rec.drop · b)
    (CX.close k w.i ({ c with recs := rs }.leave w t (w.p.m &&& ~~~b))).bind (fun x =>
      (if b = 0 then some x else x.place k w.i ⟨w.tgt, b, w.tok⟩).bind (CX.settle k w.i)))

/-- R272. -/
def ctlCall (k : Stk) (w : CW) (c : Ctl) : Option CX :=
  if w.cond = 0 then (c.go w.i { w.p with pc := w.next }).bind (CX.settle k w.i)
  else
    (c.openRec (Rec.new w.tok true w.p.m w.p.t (some w.next))).bind (fun c =>
      (c.go w.i ⟨w.tgt, w.p.m, w.tok⟩).bind (CX.settle k w.i))

/-- R273. -/
def ctlExit (k : Stk) (w : CW) (c : Ctl) : Option CX :=
  let e := w.p.m &&& w.cond
  let ch := c.chain w.p.t w.p.m
  let rs := modAt c.recs (ch.contains ·) (Rec.leave · e)
  CX.settle k w.i ({ c with recs := rs, exited := c.exited ||| e }.leave w w.p.t (w.p.m &&& ~~~e))

def ctlRet (k : Stk) (w : CW) (c : Ctl) : Option CX :=
  let r0 := w.p.m &&& w.cond
  let ch := c.chain w.p.t w.p.m
  let hit (j : Nat) : Bool := match c.recs[j]? with
    | some r => r.tok == w.tok && r.call
    | none => false
  match ch.find? hit with
  | none => ctlExit k w c
  | some j =>
    let below := ch.takeWhile (fun i => !hit i)
    let rs := modAt c.recs (below.contains ·) (Rec.leave · r0)
    let rs := modAt rs (· == j) (fun r => { r with arr := r.arr ||| r0 })
    CX.settle k w.i ({ c with recs := rs }.leave w w.p.t (w.p.m &&& ~~~r0))

/-- Lanes taken away by a resume (R375): from both slots and from every record, as exiting lanes are; a record
forgets their arrivals too. None when a closing would push beyond the stack. -/
def ctlKill (k : Stk) (lanes : Mask) (c : Ctl) : Option CX :=
  let cut (p : Option Path) : Option Path := p.bind (fun p =>
    if p.m &&& ~~~lanes = 0 then none else some { p with m := p.m &&& ~~~lanes })
  CX.settle k 0 ({ c with
    slot0 := cut c.slot0, slot1 := cut c.slot1, exited := c.exited ||| lanes,
    recs := c.recs.map (fun r => { r.leave lanes with arr := r.arr &&& ~~~lanes }) } : Ctl).cx

/-! ## The stack in scratch (R275, R276) and streaming positions (R293) -/

/-- The descriptor of the segment a group runs in. -/
def State.segOf (s : State) (k : GKey) : Desc :=
  match s.block (GKey.bkey k) with
  | some b => s.desc (clusterOf b.core) b.seg
  | none => Desc.reset

/-- A position in the window of `lr` positions from `q` with a given remainder. -/
def inWindow (q lr r : Nat) : Nat := if lr = 0 then r else q + (r + lr - q % lr) % lr

def State.stkAddr (s : State) (k : GKey) (j : Nat) : Nat :=
  let r := s.lrec k.launch
  scrKey (GKey.bkey k) (r.scrBytes - 16 * r.dstk * (k.gi + 1) + 16 * j)

/-- A path's entry as its bytes stand (R276). The PC field has 14 bits: of a PC beyond it, which no rule excludes, the low
14 are written, while an entry that is popped before its write goes on with the whole PC (DESIGN CHOICE, log entry 127). -/
def stkEntry (lr : Nat) (p : Path) : List Byte :=
  natLE 8 (p.m.toNat) ++ natLE 8 ((if lr = 0 then p.pc else p.pc % lr) % 2 ^ 14 + 2 ^ 53 * p.t.toNat)

/-- The ring length of a streaming segment, 0 for a static one. -/
def Desc.lr (d : Desc) : Nat := if d.kind = .stream then d.len else 0

def State.stk (s : State) (k : GKey) (q : Nat) : Stk :=
  let lr := (s.segOf k).lr
  { d := (s.lrec k.launch).dstk
    entry := fun j =>
      let a := s.readLocNat (.scr (s.stkAddr k j)) 8
      let b := s.readLocNat (.scr (s.stkAddr k j + 8)) 8
      let pc := b % 2 ^ 14
      { pc := inWindow q lr pc, m := BitVec.ofNat 32 a, t := BitVec.ofNat 11 (b / 2 ^ 53) } }

/-- Closing records order the accesses that the paths which arrived issued before step `n` ahead of those of the merged path
(R253, R278). -/
def Group.joins (g : Group) (n : Nat) (ms : List (Mask × Mask)) : Group :=
  ms.foldl (fun g m => g.addOrder ⟨n, n, m.1, m.2⟩) g

/-- The greatest stack depth that the boundary of a task still to commit records. -/
def Group.deepest (g : Group) : Nat := g.tasks.foldl (fun a (t : Task) => max a t.snap.ctl.depth) 0

/-- An entry pushed at a depth waits to be written behind the commit of the task that pushed it (R277). -/
def Group.pushWaits (g : Group) (j : Nat) : Bool :=
  ((g.tasks.map Task.effs).flatten ++ g.effq).any (fun e => match e with
    | .push i _ => i == j
    | _ => false)

/-- Slot 1's waits join slot 0's where their paths have merged (R274). -/
def mergeWaits (merged : Bool) (t : Tbl (List (Bool × Nat × Nat))) : Tbl (List (Bool × Nat × Nat)) :=
  if merged && !(slotWaits t 1).isEmpty then Tbl.set (Tbl.del t 1) 0 (slotWaits t 0 ++ slotWaits t 1) else t

/-- Damaged entries among those popped from scratch are consumed (R382). -/
def State.popBad (s : State) (k : GKey) (x : CX) : List (Nat × Nat) :=
  (x.popped.filter (fun j => s.poisoned (.scr (s.stkAddr k j)) 16)).map (fun j => (2, s.stkAddr k j))

/-- A control word's effect reaches the group. A push below the current boundary's depth closes the task; that push, one
below the depth of a task that has not committed, and one where an earlier push still waits, is written after its own task's
commit, any other at once (R277).
An entry that is popped, or pushed anew, in the task that pushed it is not written with that task. A record that closes
orders the accesses of the paths that arrived (R278), and a merge of the slots merges their waits (R274). -/
def GW.setCtl (w : GW) (x : CX) : State :=
  let base := match w.g.openTask with
    | some t => t.snap.ctl.depth
    | none => 0
  let lr := (w.s.segOf w.key).lr
  let waits (j : Nat) : Bool := decide (j < w.g.deepest) || w.g.pushWaits j
  let late := x.pushed.filter waits
  let now := x.pushed.filter (fun j => !waits j)
  let entry (j : Nat) : Path := (Tbl.find x.c.held j).getD ⟨0, 0, 0⟩
  let s := now.foldl (fun s j => s.writeLoc (.scr (s.stkAddr w.key j)) (stkEntry lr (entry j))) w.s
  let c := { x.c with held := now.foldl (fun h j => Tbl.del h j) x.c.held }
  let g : Group := { w.g.consume (w.s.popBad w.key x) with
    ctl := c, slotHolds := mergeWaits x.merged w.g.slotHolds
    issuing := w.g.issuing.map (fun i => { i with moved := true }) }
  let g := g.joins w.n x.joined
  let gone (e : Eff) : Bool := match e with
    | .push j _ => decide (x.c.depth ≤ j) || x.pushed.contains j
    | _ => false
  let g := if w.g.openTask.any (fun (t : Task) => t.effs.any gone) then
      g.modOpen (fun t => { t with effs := t.effs.filter (fun e => !gone e) })
    else g
  let g := late.foldl (fun g j => g.addEff (.push j (entry j))) g
  let g := if x.pushed.any (fun j => decide (j < base)) then g.markBoundary.txAbort (~~~0) txForbid else g
  let g := if c.exited == 0xFFFFFFFF then g.markBoundary else g
  s.setGroup w.key g

/-- The condition in each lane (R267). -/
def GW.cond (w : GW) (f : B) : Mask :=
  let m := w.g.readM w.n f.mask.toNat
  if w.g.readGp w.n f.gp.toNat != (f.ngp == 1) then (if f.neg = 1 then ~~~m else m) else 0

/-- A control word: `moves` tells whether it names its target, `op` what it does. -/
def control (f : B) (s : State) (moves : CW → Bool) (op : Stk → CW → Ctl → Option CX) : Out :=
  grp s fun w =>
    let i := w.iss.slot
    match w.g.ctl.slot i with
    | none => w.s
    | some p =>
      let next := w.iss.pos + w.iss.k + 2
      let tgt := (BitVec.ofInt 64 (next + f.disp.toInt)).toNat
      let cw : CW := ⟨i, p, next, tgt, f.tok, w.cond f⟩
      let lr := (w.s.segOf w.key).lr
      w.compared p.m (fun l => if cw.cond.getLsbD l then 1 else 0)
        (if moves cw && lr != 0 && !(decide (w.g.q ≤ tgt) && decide (tgt < w.g.q + lr)) then w.trap Cause.segEnd
         else
          match op (w.s.stk w.key w.g.q) cw w.g.ctl with
          | none => w.trap Cause.divstackOverflow
          | some x => w.setCtl x)

def execBra (f : B) (s : State) : Out := control f s (fun w => w.p.m &&& w.cond != 0) ctlBra
def execBrau (f : B) (s : State) : Out := control f s (fun w => w.cond != 0) ctlBrau
def execJoin (f : B) (s : State) : Out := control f s (fun _ => false) ctlJoin
def execBrk (f : B) (s : State) : Out := control f s (fun _ => true) ctlBrk
def execCont (f : B) (s : State) : Out := control f s (fun w => w.p.m &&& w.cond != 0) ctlCont
def execCall (f : B) (s : State) : Out := control f s (fun w => w.cond != 0) ctlCall
def execRet (f : B) (s : State) : Out := control f s (fun _ => false) ctlRet
def execExit (f : B) (s : State) : Out := control f s (fun _ => false) ctlExit

/-- The low mark Q (R293): the least of the positions that the group holds and of those its current boundary records. -/
def State.lowMark (s : State) (k : GKey) (g : Group) : Nat :=
  let st := s.stk k g.q
  let ps (c : Ctl) : List Nat :=
    (c.slot0.toList ++ c.slot1.toList).map Path.pc ++ c.recs.filterMap Rec.cont ++
      (List.range c.depth).map (fun j => ((Tbl.find c.held j).getD (st.entry j)).pc)
  let all := ps g.ctl ++ (match g.openTask with
    | some t => ps t.snap.ctl
    | none => [])
  match all with
  | [] => g.q
  | x :: r => r.foldl min x

end Sys2Proof.Machine
end

