-- ==== Sys2Proof/Machine/TaskWords.lean ====
section
/-! DEFINITION. Task control, fences and system words, major opcodes 0x31 and 0x32 (R53, R249 to R251, R369). -/
namespace Sys2Proof.Machine
open Sys2Proof

/-- `tmark` closes the task and does nothing else (R369). -/
def execTmark (_f : VI) (s : State) : Out := grp s fun w => w.put w.g.markBoundary

def fenceScope (f : VI) : Nat := f.imm.toNat % 8

/-- A fence: its release part, then its acquire part (R250, R251). At `.gng` scope or wider a release closes the
task and waits for its commit; a `.sys` release waits for the remote package too (R397). -/
def fence (rel acq : Bool) (f : VI) (s : State) : Out :=
  grp s fun w =>
    let wide := decide (2 ≤ fenceScope f)
    let hs := (if rel then [Hold.rel (if wide then some w.g.tseq else none) (fenceScope f == 5)] else []) ++
      (if acq then [Hold.acq wide] else [])
    let g := { w.g with holds := w.g.holds ++ hs.map (fun h => ⟨h, w.at_, w.n⟩) }
    w.put (if rel && wide then g.markBoundary else g)

def execGfenceRel (f : VI) (s : State) : Out := fence true false f s
def execGfenceAcq (f : VI) (s : State) : Out := fence false true f s
def execGfenceAcqrel (f : VI) (s : State) : Out := fence true true f s

/-- A SOFTWARE trap in the lanes of the effective mask that are no helper lanes; with none it is a `nop`. -/
def GW.software (w : GW) (f : VI) (brk : Bool) : State :=
  let lanes := w.eff f.mask 0 &&& ~~~w.helpers
  if lanes = 0 then w.s
  else w.trapWith { trapOf Cause.software w.at_ with
    brk, code := f.imm.extractLsb' 0 16
    lanes := (lanesOf lanes).map (fun l => (l, ⟨0, 0, Cause.software, 0, 0⟩)) }

def execTrap (f : VI) (s : State) : Out := grp s fun w => w.software f false

/-- `yield` closes the task; with PREQ set as it issues the group is saved once that task commits, but not within a
transaction (R237). -/
def execYield (_f : VI) (s : State) : Out :=
  grp s fun w =>
    let p := (w.s.ctx w.ctx).preq && w.g.tx.isNone
    w.put ((w.g.modOpen (fun t => { t with save := t.save || p })).markBoundary)

def execDbgbrk (f : VI) (s : State) : Out :=
  grp s fun w => if (w.s.ctx w.ctx).dbgen then w.software f true else w.s

end Sys2Proof.Machine
end

