-- ==== Sys2Proof/Machine/Tx.lean ====
section
/-! DEFINITION. Transactions, major opcode 0x2A (R232 to R237): opening and closing, aborts and outcomes. A
transaction is resolved when the task that `txend` closed commits. -/
namespace Sys2Proof.Machine
open Sys2Proof

/-! Causes of `txstat` (R237) beside those in `LoadStore`. -/
def txIntra : BitVec 16 := 1
def txValidate : BitVec 16 := 2
def txExplicit : BitVec 16 := 4
def txDiverged : BitVec 16 := 6
def txNest : BitVec 16 := 7
def txAbsent : BitVec 16 := 8

/-- `txbegin` (R233): the outermost level closes the task and is opened with the group's next clause. -/
def execTxbegin (f : VI) (s : State) : Out :=
  grp s fun w =>
    match w.g.tx with
    | none => w.put ({ w.g with txPend := some (w.eff f.mask 0 &&& ~~~w.helpers) }.markBoundary)
    | some t =>
      if t.depth < 8 then w.put { w.g with tx := some { t with depth := t.depth + 1 } }
      else w.put (w.g.txAbort (~~~0) txNest)

def Tx.aborted (t : Tx) : Mask := maskOf ((t.lanes.filter (fun l => l.abort.isSome)).map TxLane.lane)

/-- `txend` (R235). Lanes outside its effective mask abort as it issues; the rest is settled at the commit. -/
def execTxend (f : VI) (s : State) : Out :=
  grp s fun w =>
    let d := f.d.toNat
    match w.g.tx with
    | none => w.put (w.g.pushMem w.n (.maskVal 0) d 0 0 [] 0 none)
    | some t =>
      if 1 < t.depth then
        w.put ({ w.g with tx := some { t with depth := t.depth - 1 } }.pushMem w.n (.maskVal t.aborted) d 0 0 [] 0 none)
      else
        let t := t.abortLanes (~~~(w.eff f.mask 0)) txDiverged
        w.put (({ w.g with tx := none }.modOpen (fun k => { k with txend := some (t, d, w.n) })).markBoundary)

def execTxabort (f : VI) (s : State) : Out :=
  grp s fun w => w.put (w.g.txAbort (w.eff f.mask 0) (txExplicit ||| ((f.imm.extractLsb' 0 8).setWidth 16 <<< 8)))

def execTxstat (f : VI) (s : State) : Out :=
  grp s fun w => w.put (w.g.pushMem w.n .txstat f.d.toNat 2 0 [] (w.eff f.mask 0) none)

/-- A transaction that the boundary left to be opened opens with the group's next clause (R233). -/
def Group.openTx (g : Group) : Group :=
  match g.txPend with
  | none => g
  | some m =>
    let (g, id) := g.fresh
    { g with txPend := none, tx := some ⟨id, 1, (lanesOf m).map (fun l => ⟨l, [], [], none⟩)⟩ }

/-- Each lane's outcome of a transaction that ends. -/
def Group.endedTx (g : Group) (ls : List TxLane) : Group :=
  { g with txStat := (List.range 32).foldl (fun st l =>
      Store.write st l (match ls.find? (fun x => x.lane == l) with
        | some x => x.abort.getD 0
        | none => txAbsent)) g.txStat }

/-- No group is saved with a transaction open (R237). One that stands open at the boundary of a cut-back has been aborted
in every lane by the word that made the boundary (R234), and ends there (DEDUCED, log entry 105). -/
def Group.endTx (g : Group) : Group :=
  match g.tx with
  | none => g
  | some t => ({ g with tx := none }.endedTx (t.abortLanes (~~~0) txForbid).lanes).modOpen (fun t =>
      { t with snap := { t.snap with txOpen := none } })

/-! ## Resolution (R235, steps 2 and 3) -/

/-- Whether one lane's write set overlaps the other's read or write set. -/
def TxLane.hits (a b : TxLane) : Bool := a.writes.any (fun p => Tbl.has b.writes p.1 || Tbl.has b.reads (p.1 / 8))
def TxLane.conflicts (a b : TxLane) : Bool := a.hits b || b.hits a

/-- Lanes in ascending order: one that conflicts with a lower surviving lane aborts. -/
def intraLanes (ls : List TxLane) : List TxLane :=
  ls.foldl (fun (done : List TxLane) x =>
    if x.abort.isNone && done.any (fun y => y.abort.isNone && y.conflicts x) then
      done ++ [{ x with abort := some txIntra, writes := [] }]
    else done ++ [x]) []

/-- Every read word of a lane still holds every value that a load of it recorded. -/
def State.valid (s : State) (x : TxLane) : Bool :=
  x.reads.all (fun p => p.2.all (fun v => decide (s.readLocNat (.mem (8 * p.1)) 8 = v.toNat)))

/-- The surviving lanes are validated against the homes as they stood before the transaction, and the write sets of
those that pass are written at one instant. -/
def State.resolveTx (s : State) (k : GKey) (core : Nat) (t : Tx) (d : Nat) : State :=
  let s := t.lanes.foldl (fun s x => x.reads.foldl (fun s p => s.recallLine (lineOf (8 * p.1))) s) s
  let t : Tx := { t with lanes := (intraLanes t.lanes).map (fun x =>
    if x.abort.isNone && !s.valid x then { x with abort := some txValidate, writes := [] } else x) }
  let ls := (t.pairUp (s.protect k)).lanes
  let s := ls.foldl (fun s x =>
    if x.abort.isNone then
      x.writes.foldl (fun s p => s.ownWrite core p.1 [p.2]) s
    else s) s
  (s.ripen k).modGroup k (fun g =>
    let ab := maskOf ((ls.filter (fun x => x.abort.isSome)).map TxLane.lane)
    { g.endedTx ls with
             regs := if d = 0 then g.regs else { g.regs with m := Store.write g.regs.m d ab } })

end Sys2Proof.Machine
end

