-- ==== Sys2Proof/Machine/Clause.lean ====
section
/-! DEFINITION. The clause: its legality, the choice of the group that issues, what its header takes and waits for,
and what follows each of its words (R30 to R36, R56, R57, R190, R274, R294, R318 to R321, R352, R365). -/
namespace Sys2Proof.Machine
open Sys2Proof

/-! ## What the Vat holds (R30, R284, R290, R294) -/

/-- The word at a position of a segment; none beyond a sealed static segment's last word, or at or beyond the emit
pointer of a streaming one. -/
def Desc.word (d : Desc) (core pos : Nat) : Option VatWord :=
  let i := if d.kind = .stream then pos % d.len else pos
  if pos < (if d.kind = .stream then d.e else d.len) then some ((Tbl.find d.words (16384 * core + i)).getD ⟨0, 0, false⟩)
  else none

/-- A word with its place (R373). -/
def Desc.place (d : Desc) (seg pos : Nat) (v : Option VatWord) : WordAt :=
  let x := v.getD ⟨0, 0, false⟩
  ⟨x.w, x.prov, if d.kind = .stream then pos % d.len else pos, seg, 0, 0⟩

def hdrZero : Hdr := ⟨0, 0, 0, 0, 0, 0, 0, 0, 0⟩

noncomputable section

/-! ## Legality (R33, R56, R57, R388) -/

/-- A word whose opcode may not stand where it stands: another class, 0x30 that is not last, a matrix or Harp word
under PROTECT. -/
def misplaced (cls : BitVec 4) (last protect : Bool) (w : Word) : Bool :=
  let op := (opOf w).toNat
  (cls != 15 && classOf (opOf w) != cls.toNat && !(op == 0x32 && fn6Of w == 3)) || (op == 0x30 && !last) ||
    (protect && ((decide (0x24 ≤ op) && decide (op ≤ 0x26)) || op == 0x2C))

def wordFault (cls : BitVec 4) (last protect : Bool) (gran : Nat) (w : Word) : Option (BitVec 8) :=
  match decodeWord w with
  | .error .illegalZero => some Cause.illegalZero
  | .error .illegalOpcode => some Cause.illegalOpcode
  | .error .reservedField => some (if misplaced cls last protect w then Cause.illegalOpcode else Cause.reservedField)
  | .ok i =>
    if misplaced cls last protect w then some Cause.illegalOpcode
    else if protect && i.protectReject.isSome then some Cause.reservedField
    else if i.outOfRange gran then some Cause.range
    else none

/-- The legal instructions among some words. -/
def legalOf (ws : List (Option VatWord)) : List Instr :=
  ws.filterMap (fun v => v.bind (fun v => (decodeWord v.w).toOption))

/-- The first fault of R57 before the price, with the index of its word. -/
def firstFault (h : Hdr) (protect : Bool) (gran : Nat) (head : Option VatWord) (ws : List (Option VatWord)) :
    Option (BitVec 8 × Nat) :=
  let n := ws.length
  let at_ (p : Nat → Option VatWord → Option (BitVec 8)) : Option (BitVec 8 × Nat) :=
    ws.zipIdx.findSome? (fun x => (p x.2 x.1).map (fun c => (c, x.2 + 1)))
  let bad (v : Option VatWord) : Bool := match v with
    | some v => v.bad
    | none => false
  if bad head then some (Cause.eccUncorrected, 0)
  else
    (at_ (fun _ v => if bad v then some Cause.eccUncorrected else none)).or
      (match head with
        | none => some (Cause.segEnd, 0)
        | some v =>
          match decodeHeader v.w with
          | .error r => some (causeOf r, 0)
          | .ok _ =>
            (at_ (fun _ v => if v.isNone then some Cause.segEnd else none)).or
              (at_ (fun i v => v.bind (fun v => wordFault h.cls (i + 1 == n) protect gran v.w))))

/-- What issue reads of a clause (R33, R34, R57, R190, R344, R352). -/
def State.verdict (s : State) (k : GKey) (h : Hdr) (head : Option VatWord) (ws : List (Option VatWord)) : Verdict :=
  let r := s.lrec k.launch
  let is := legalOf ws
  let raw := ws.filterMap (fun v => v.map VatWord.w)
  let l := liveOf raw
  let ch := s.chiplet (chipletOf (s.coreOf k))
  { bad := firstFault h r.protect r.gran head ws
    errata := (is.zipIdx.find? (fun x => ch.disables x.1)).map (fun x => x.2 + 1)
    prices := (is.map Instr.price).filter (· != 0)
    writes := is.flatMap Instr.vWrites
    copies := (is.filter (fun i => i.sig.op == 0x20)).length
    harps := (is.filter (fun i => i.sig.op == 0x2C)).length
    boundary := is.any Instr.isBoundary
    txb := is.any (fun i => match i with | .txbegin _ => true | _ => false)
    txe := is.any (fun i => match i with | .txend _ => true | _ => false)
    eligible := h.ns == 0 && (r.aff == 1 || r.aff == 2) && raw.all eligWord && decide (l.rv.length ≤ 8) &&
      decide (l.rg.length ≤ 8) && decide (l.rm.length ≤ 4)
    liveV := l.rv, liveG := l.rg, liveM := l.rm, liveP := l.rp, outV := l.wv, outG := l.wg, outM := l.wm, outP := l.wp
    touchV := is.flatMap (fun i => i.vReads ++ i.vWrites), touchG := is.flatMap Instr.gNames
    touchM := is.flatMap Instr.mNames, touchP := is.flatMap Instr.pNames, touchS := is.flatMap Instr.sNames
    touchT := is.flatMap Instr.tNames }

/-- The clause at a slot's PC as a turn offers it; none while its words are not all present (R33, R294). A header that a
reserved field spoils still counts its words. -/
def State.cursor (s : State) (k : GKey) (g : Group) (slot : Nat) : Option Issuing :=
  (g.ctl.slot slot).bind (fun p =>
    let d := s.segOf k
    let seg := match s.block (GKey.bkey k) with
      | some b => b.seg
      | none => 0
    let core := s.coreOf k % 8
    let head := d.word core p.pc
    let ok := match head with
      | some v => opOf v.w == 0x3E
      | none => false
    let h := if ok then unpackHdr ((head.getD ⟨0, 0, false⟩).w) else hdrZero
    let ws := (List.range (if ok then h.count.toNat + 1 else 0)).map (fun i => d.word core (p.pc + 1 + i))
    if d.kind = .stream && !d.sealed && (head.isNone || ws.any Option.isNone) then none
    else some
      { slot, pos := p.pc, hdr := h, head := d.place seg p.pc head
        words := ws.zipIdx.map (fun x => d.place seg (p.pc + 1 + x.2) x.1)
        verdict := s.verdict k h head ws, k := 0, m := p.m
        act := p.m ||| helpersOf (s.protect k) g.ctl.exited p.m
        start := g.clk, boundary := false, moved := false, halted := false, subst := none, retry := none,
        outside := false, txOps := [] })

end

/-! ## Waits (R31, R36) -/

def MemKind.isLoad : MemKind → Bool
  | .load _ => true
  | .gload => true
  | .xlat _ _ => true
  | .word _ => true
  | .gword => true
  | .maskVal _ => true
  | .txstat => true
  | _ => false

/-- An atomic, or the end of a transaction, issued at a step that `p` picks has not performed. -/
def Group.atomicOut (g : Group) (p : Nat → Bool) : Bool :=
  (atomicsOf g.effsOut).any (fun a => p a.issued) || g.tasks.any (fun t => t.txend.any (fun x => p x.2.2))
/-- A load-like result of such a step has not returned. -/
def Group.loadsOf (g : Group) (p : Nat → Bool) : Bool :=
  g.memq.any (fun o => o.kind.isLoad && p o.issued) || g.atomicOut p ||
    g.effsOut.any (fun e => match e with | .affpop _ n => p n | _ => false)
/-- A store, atomic, reduction, array update, transaction end (R232) or invalidation of such a step has not performed. -/
def Group.storesOf (g : Group) (p : Nat → Bool) : Bool :=
  g.memq.any (fun o => p o.issued && (!o.kind.isLoad || (match o.kind with
    | .maskVal _ => true
    | _ => false))) || g.atomicOut p
def Group.loadsOut (g : Group) : Bool := g.loadsOf (fun _ => true)
def Group.storesOut (g : Group) : Bool := g.storesOf (fun _ => true)
/-- A copy, Harp or byte-count operation has not completed (R31, R128). -/
def Group.asyncOut (g : Group) : Bool :=
  g.ops.any (fun o => o.cls != 1) ||
    g.effsOut.any (fun e => match e with
      | .bcInit _ _ => true
      | .bcPost _ _ _ => true
      | .bcArrive _ _ _ => true
      | _ => false)
def Group.matrixOut (g : Group) : Bool := g.ops.any (fun o => o.cls == 1)

/-- A task has committed: it no longer stands among the group's tasks. -/
def Group.done (g : Group) (tseq : BitVec 32) : Bool := !g.tasks.any (fun t => t.tseq == tseq)

/-- Whether a condition on the group's next clause is met. A fence waits for what was issued before it (R249). -/
def State.holdMet (s : State) (k : GKey) (g : Group) (x : HoldAt) : Bool :=
  match x.h with
  | .bwait c t => decide (t ≤ (g.doneOf c : Int))
  | .bcwait l p => (s.readBar l).reached p
  | .waitw _ _ _ => (s.ctx (s.lctx k.launch)).preq
  | .affwait => g.audits.isEmpty
  | .rel wide _ => !g.loadsOf (fun n => decide (n < x.num)) && !g.storesOf (fun n => decide (n < x.num)) && (match wide with
      | some t => g.done t
      | none => true)
  | .acq _ => !g.loadsOf (fun n => decide (n < x.num))
  | .commitHold t => !g.audits.any (fun a => a.2 == t)
  | .ack t => g.done t && g.remote.isEmpty

/-- A release at `.sys` scope also waits for the remote part of the committed tasks (R397). -/
def State.holdClear (s : State) (k : GKey) (g : Group) (x : HoldAt) : Bool :=
  s.holdMet k g x && (match x.h with
    | .rel _ true => g.remote.isEmpty
    | _ => true)

/-- Entry waits, PARK, holds and the slot's barrier. PARK waits for every result: those of loads and matrix operations, and
the synchronous ones (R31). -/
def State.waitsMet (s : State) (k : GKey) (g : Group) (h : Hdr) (slot : Nat) : Bool :=
  g.holds.all (s.holdClear k g) && !s.slotHeld k g slot &&
    !(g.parkFlag && (g.loadsOut || g.matrixOut || !g.pend.isEmpty)) &&
    (h.wld == 0 || !g.loadsOut) && (h.wst == 0 || !g.storesOut) && (h.was == 0 || !g.asyncOut) &&
    (h.wmx == 0 || !g.matrixOut)

/-- A completed `bcwait` whose barrier has OVF set (R128). -/
def State.overfilled (s : State) (g : Group) : Option HoldAt :=
  g.holds.find? (fun x => match x.h with
    | .bcwait l p => (s.readBar l).reached p && (s.readBar l).ovf
    | _ => false)

/-- The deferred trap that a `bwait` in force covers (R120, R198, R213). -/
def Group.deferredHeld (g : Group) : Option Deferred :=
  g.deferred.find? (fun d => g.holds.any (fun x => match x.h with
    | .bwait c t => c == d.cls && decide ((d.batch : Int) ≤ t)
    | _ => false))

/-- The deferred trap that a clause meets: it waits for the operation's class, or holds a boundary. -/
def Group.deferredHit (g : Group) (h : Hdr) (v : Verdict) : Option Deferred :=
  let bnd := v.boundary || (v.txb && g.tx.isNone) || (v.txe && (match g.tx with
    | some t => decide (t.depth ≤ 1)
    | none => false))
  g.deferred.find? (fun d => bnd || (h.was == 1 && d.cls != 1) || (h.wmx == 1 && d.cls == 1))

/-! ## What issue takes (R33, R116, R190, R201, R318, R322) -/

def sumNat (xs : List Nat) : Nat := xs.foldl (· + ·) 0

/-- The clause fails its issue checks: cause and the index of the word reported (R57). No word is named for
PRICE_MISMATCH: the model reports the header (DESIGN CHOICE, log entry 79). -/
def Issuing.fault (i : Issuing) : Option (BitVec 8 × Nat) :=
  i.verdict.bad.or
    (if sumNat i.verdict.prices ≠ i.hdr.price.toNat then some (Cause.priceMismatch, 0)
     else i.verdict.errata.map (fun n => (Cause.errataDisabled, n)))

def Issuing.wordAt (i : Issuing) (n : Nat) : WordAt := i.seen (if n = 0 then i.head else i.words.getD (n - 1) i.head)

/-- Prices of what a selection issues. -/
def GW.pricesOf (w : GW) (c : Choice) : List Nat :=
  match c with
  | .orig => w.iss.verdict.prices
  | .cand i _ => candPrices (((w.s.cluster (clusterOf w.core)).slot i).cand)

/-- Tokens can be taken (R326): while an incomplete reservation of the issue stage stands, no priced clause issues
(R322). -/
def GW.tokensOk (w : GW) : Bool :=
  let p := sumNat (w.pricesOf w.choice)
  p == 0 || (w.s.cluster (clusterOf w.core)).ring.can (w.core % 8) w.g.sched.pipe p

/-- Words of an opcode that the clauses of other groups have still to issue, over the groups that `here` names. -/
def State.coming (s : State) (k : GKey) (op : BitVec 6) (here : GKey → Bool) : Nat :=
  sumNat (s.keys.map (fun q =>
    if q = k || !here q then 0
    else match (s.group q).bind Group.issuing with
      | some i => ((i.words.drop i.k).filter (fun x => opOf x.w == op)).length
      | none => 0))

/-- Places of the engines, beside those that clauses already issuing will take (R116, R201), and registers under a
matrix operation (R190). -/
def GW.roomOk (w : GW) : Bool :=
  let v := w.iss.verdict
  let cl := clusterOf w.core
  (v.copies == 0 || decide ((w.s.core w.core).copies.length +
      w.s.coming w.key 0x20 (fun q => w.s.coreOf q == w.core) + v.copies ≤ 64)) &&
    (v.harps == 0 || decide ((w.s.cluster cl).harp.length +
      w.s.coming w.key 0x2C (fun q => clusterOf (w.s.coreOf q) == cl) + v.harps ≤ 16)) &&
    (v.writes.isEmpty || !(w.s.mxCovered w.key).any (fun r => v.writes.contains r))

/-- A word of the clause reads or writes a register, a special one among them (R28), whose synchronous result is still to
be written (R318). Flags that an instruction raises are a result of `$fpflags` (R149). -/
def Group.pendTouches (g : Group) (v : Verdict) : Bool :=
  g.pend.any (fun p => p.due != mxDue && (match p.dest with
    | .v r => v.touchV.contains r
    | .g r => r != 0 && v.touchG.contains r
    | .m r => r != 0 && v.touchM.contains r
    | .gp r => r != 0 && v.touchP.contains r
    | .flags => v.touchS.contains 0x00C
    | .fpflags => v.touchS.contains 0x00C
    | .srseed => v.touchS.contains 0x00D
    | .mxflags => v.touchS.contains 0x011
    | .tm r => v.touchT.contains r))

/-- The clause waits for nothing but, if it does not trap, its tokens (R318). -/
def GW.settled (w : GW) : Bool :=
  w.s.waitsMet w.key w.g w.iss.hdr w.iss.slot && w.roomOk && !w.g.pendTouches w.iss.verdict

/-- The trap that selecting the clause takes: a deferred trap that a `bwait` covers, an overfilled barrier, a fault of
its issue checks, a deferred trap that the clause meets. -/
def GW.stopTrap (w : GW) : Option TrapInfo :=
  if w.settled then
    (w.g.deferredHeld.map Deferred.trap).or (((w.s.overfilled w.g).map (fun x => trapOf Cause.barrierOverfill x.at_)).or
      ((w.iss.fault.map (fun x => trapOf x.1 (w.iss.wordAt x.2))).or
        ((w.g.deferredHit w.iss.hdr w.iss.verdict).map Deferred.trap)))
  else none

/-- The clause issues once it has its tokens. -/
def GW.bare (w : GW) : Bool := w.settled && w.stopTrap.isNone

/-- A turn can select the clause: it traps, or it can take its tokens. -/
def GW.selectable (w : GW) : Bool := w.settled && (w.stopTrap.isSome || w.tokensOk)

/-! ## CLAUSE_HEADER -/

/-- What a met condition does as it ends (R125, R250, R251). -/
def GW.endHold (w : GW) (h : Hold) : GW :=
  match h with
  | .rel (some _) _ => { w with s := w.s.laWritebackCore w.core }
  | .acq true => { w with s := w.s.dropL1 w.core }
  | .bcwait _ _ => { w with s := w.s.dropL1 w.core }
  | _ => w

/-- Whether a condition that ends is a release, an acquire or a wait that R248 counts among what orders accesses:
`affwait` is none, and a `waitw` that a pre-emption request ends has acquired nothing (R239, R252). -/
def Hold.orders (h : Hold) : Bool :=
  match h with
  | .affwait => false
  | .waitw _ _ _ => false
  | _ => true

/-- The conditions end, and what follows is ordered behind what went before the words that placed them (R249, R252); a
restart of the open task would wait as met, so its boundary state drops them too. -/
def GW.endHolds (w : GW) : GW :=
  let w := w.g.holds.foldl (fun w x => w.endHold x.h) w
  let g0 := (w.g.holds.filter (fun x => x.h.orders)).foldl (fun g x => g.addOrder ⟨x.num, w.n, ~~~0, ~~~0⟩) w.g
  let g := { g0 with holds := [], slotHolds := Tbl.del w.g.slotHolds w.iss.slot, parkFlag := false }
  { w with g := g.modOpen (fun t => { t with snap :=
      { t.snap with holds := [], slotHolds := Tbl.del t.snap.slotHolds w.iss.slot } }) }

/-- One held entry for each priced word, so that each returns its own price (R34). -/
def Ring.split (r : Ring) (ps : List Nat) : Ring :=
  match r.held.getLast? with
  | none => r
  | some h =>
    { r with
      held := r.held.dropLast ++ ps.zipIdx.map (fun p => ⟨h.id + p.2, h.st, p.1, h.affinage, h.ballast⟩)
      nextId := h.id + ps.length }

/-- The issue stage takes the clause's tokens. -/
def GW.pay (w : GW) (ps : List Nat) : GW :=
  let cl := clusterOf w.core
  let p := sumNat ps
  match w.s.takeTokens cl (w.core % 8) w.g.sched.pipe p w.key.launch with
  | none => w
  | some s =>
    let c := s.cluster cl
    { w with
      s := if p = 0 then s else s.setCluster cl { c with ring := (c.ring.split ps).served (GKey.num w.key) w.iss.pos }
      g := { w.g with sched := { w.g.sched with taken := w.g.sched.taken + BitVec.ofNat 32 p } } }

/-- A clause is selected for issue: it traps as its checks, a deferred trap or an overfilled barrier say, or it takes
its tokens and its words come to issue, those of a substitution in place of the original's (R33, R57, R318, R352). A
clause that cannot issue yet is not selected. -/
def execClauseHeader (h : Hdr) (s : State) : Out :=
  grp s fun w =>
    let w := { w with iss := { w.iss with hdr := h } }
    match w.stopTrap with
    | some t =>
      let g := { w.g with deferred := w.g.deferred.filter (fun d => d.trap != t) }
      w.put { g.raise t with issuing := none }
    | none =>
      if !w.selectable then w.put { w.g with issuing := none }
      else
        let ch := w.choice
        let w := (w.pay (w.pricesOf ch)).endHolds
        let iss := { w.iss with start := w.g.clk }
        let g := w.g.openTx
        let g := { g with issuing := some iss, sched := { g.sched with waited := 0 } }
        let w := { w with g, iss }
        let w := match ch with
          | .orig => w.issueOrig
          | .cand i a => w.issueCand i a
        w.put w.g

/-! ## The count of cycles of a core (R11, R33) -/

/-- A word whose request reads memory as it issues: a load, which reads a DEV page so (R99), or `waitw` (R239). -/
def instrReadsNow (i : Instr) : Bool :=
  match i with
  | .vld _ => true
  | .vldx _ => true
  | .gld _ => true
  | .waitw _ => true
  | _ => false
def readsNow (w : Word) : Bool :=
  let op := (opOf w).toNat
  let fn := (fn6Of w).toNat
  (op == 0x18 && decide (fn ≤ 1)) || (op == 0x1B && fn == 0) || (op == 0x2B && (fn8Of w).toNat == 0)

/-- The word that a group is about to issue waits for a miss-status entry of its core (R85). -/
def State.readHeld (s : State) (core : Nat) (i : Issuing) : Bool := readsNow (i.words.getD i.k i.head).w && s.missHeld core

/-- The group's word is retried after a replayable fault (R97). -/
def Group.retrying (g : Group) : Bool := g.issuing.any (fun i => i.retry.isSome)

/-- The counts of a core's groups that are inside a clause and whose next word nothing keeps back: they issue one in each
cycle (R33). -/
def State.inClause (s : State) (core : Nat) : List Nat :=
  s.keys.filterMap (fun k => (s.group k).bind (fun g =>
    if !g.saved && s.coreOf k == core && g.park.isNone && !g.retrying && g.issuing.any (fun i => !s.readHeld core i) then
      some g.clk
    else none))

/-- A core's count of cycles goes on to `t`, and past no word that a group inside a clause has still to issue. -/
def State.countTo (s : State) (core t : Nat) : State :=
  let c := s.core core
  s.setCore core { c with cycles := max c.cycles ((s.inClause core).foldl min t) }

/-- Another group of the core is inside a clause at an earlier cycle: its words come first. -/
def State.behind (s : State) (core t : Nat) : Bool := (s.inClause core).any (fun n => decide (n < t))

/-! ## After a word -/

/-- The counts of cycles on a cluster: its cores' and its own. -/
def State.counts (s : State) (cl : Nat) : List Nat :=
  (List.range 8).map (fun j => (s.core (8 * cl + j)).cycles) ++ [(s.cluster cl).cycles]

/-- The pool that the last clearing gave applies at the latest one revolution, nine cycles, after it (R330). -/
def State.poolDue (s : State) (cl : Nat) : State :=
  let c := s.cluster cl
  if c.ring.pool = c.ring.newPool then s
  else if (c.ring.since.zip (s.counts cl)).any (fun x => decide (x.1 + 9 ≤ x.2)) then
    s.setCluster cl { c with ring := c.ring.arrive }
  else s

/-- U counts the words that execute, saturating (R320). -/
def Sched.count (x : Sched) : Sched := { x with u := min (x.u + 1) (2 ^ 32 - 1) }

/-- The path goes on at the header that follows the original (R352) and meets another slot's path there (R274). -/
def GW.advance (w : GW) : GW :=
  if w.iss.moved then w
  else
    match w.g.ctl.slot w.iss.slot with
    | none => w
    | some p =>
      let c := w.g.ctl.setSlot w.iss.slot (some { p with pc := w.iss.pos + 2 + w.iss.hdr.count.toNat })
      let x := CX.fill (c.depth + 2) (w.s.stk w.key w.g.q) c.cx
      let s := w.setCtl x
      match s.group w.key with
      | some g => { w with s, g }
      | none => w

/-- The task closes, and the next opens with the state the clause left (R354, R364, R365); its accesses are ordered behind
those of the closed task (R252). -/
def GW.closeTask (w : GW) : Group :=
  let hold := (w.s.lrec w.key.launch).commitHold
  let t := w.g.tseq
  let g := w.g.modOpen (fun x => { x with closed := true })
  let g := if hold then { g with marks := [], holds := g.holds ++ [⟨.commitHold t, w.iss.seen w.iss.head, w.n⟩] } else g
  let g := g.order
  if g.ctl.exited == 0xFFFFFFFF then { g with ended := true }
  else { g with tasks := g.tasks ++ [Task.fresh (t + 1) (g.snapshot w.protect (w.s.teamSnap w.key))] }

/-- The end of a clause: its path moves on, a boundary closes the task or meets a deferred trap, PARK holds. -/
def GW.endClause (w : GW) : State :=
  let w := w.advance
  let bnd := match w.g.issuing with
    | some i => i.boundary
    | none => false
  match bnd, w.g.deferred with
  | true, d :: r => w.put { { w.g with deferred := r }.raise d.trap with issuing := none }
  | _, _ =>
    let w := { w with g := { w.g with ctl := { w.g.ctl with last := w.iss.slot } } }
    let g := if bnd then w.closeTask else w.g
    let g := { g with issuing := none, parkFlag := w.iss.hdr.park == 1 }
    let q := w.s.lowMark w.key g
    let g := { g with q }
    w.s.setGroup w.key (if bnd then g.modOpen (fun t => { t with snap := { t.snap with q } }) else g)

/-- Words that leave a group at its boundary (R376). -/
def idleWord (w : Word) : Bool :=
  let op := (opOf w).toNat
  let fn := (fn8Of w).toNat
  (op == 0x21 && fn6Of w == 1) || (op == 0x22 && fn == 3) || (op == 0x2B && fn == 0) || (op == 0x32 && fn6Of w == 3)

/-- What follows a word of a clause: it traps or parks, the next word comes to issue, or the clause ends. -/
def State.wordDone (s : State) (k : GKey) : State :=
  match s.group k with
  | none => s
  | some g =>
    match g.issuing with
    | none => s
    | some i =>
      if i.halted || g.trap.isSome then s.setGroup k { g with issuing := none }
      else if g.park.isSome then s
      else
        let at_ := i.words.getD i.k i.head
        let i2 := { i with k := i.k + 1, retry := none, outside := false, txOps := [] }
        let g := { g with clk := g.clk + 1, sched := g.sched.count, issuing := some i2 }
        let g := if idleWord at_.w then g else g.modOpen (fun t => { t with used := true })
        let core := s.coreOf k
        let s := ((s.setGroup k g).countTo core g.clk).poolDue (clusterOf core)
        let g := g.landUpTo (s.protect k) g.clk
        if i2.k < i2.words.length then s.setGroup k g else (GW.mk s k g i2).endClause

/-! ## Before a word -/

noncomputable section

/-- Lane registers that a word reads outside the matrix path and that hold an uncorrectable error (R382, R384). -/
def Group.readsBad (g : Group) (i : Instr) : List Nat :=
  let op := i.sig.op.toNat
  if 0x24 ≤ op ∧ op ≤ 0x26 then [] else i.vReads.filter (fun r => Tbl.has g.badRegs r)

/-- A word that a transaction forbids (R234): it aborts every lane as it issues. -/
def forbids (i : Instr) : Bool :=
  let op := i.sig.op.toNat
  match i with
  | .txbegin _ => false
  | .txend _ => false
  | i => (decide (0x20 ≤ op) && decide (op ≤ 0x2C) && op != 0x2A) || i.isBoundary

/-- A group as a turn of its core finds it: its clock is the core's, and the results due are written. -/
def Group.atTurn (g : Group) (protect : Bool) (cycles : Nat) : Group :=
  ({ g with clk := max g.clk cycles }).landUpTo protect (max g.clk cycles)

/-- What comes before a word: its clock is the core's where the word is retried (R180) or may have waited for a miss-status
entry (R85), the results due are written, and a register with an error that it reads is consumed. -/
def State.wordReady (s : State) (k : GKey) (i : Instr) : State :=
  s.modGroup k (fun g =>
    let g := if g.retrying || instrReadsNow i then g.atTurn (s.protect k) (s.core (s.coreOf k)).cycles else g.landUpTo (s.protect k) g.clk
    let g := g.consume ((g.readsBad i).map (fun r => (0, r)))
    if forbids i then g.txAbort (~~~0) txForbid else g)

/-! ## The turn (R318 to R322) -/

def imageSize (gran : Nat) : Nat := 2048 + 1024 * gran
def Ctx.saveArea (x : Ctx) : Nat := 2 ^ (x.ssize.toNat + 16)

/-- Bytes of images over the groups of a context that a test picks. -/
def State.imagesOf (s : State) (c : Nat) (p : GKey → Group → Bool) : Nat :=
  sumNat (s.keys.filterMap (fun k =>
    match s.group k with
    | some g => if p k g && s.lctx k.launch == c then some (imageSize (s.lrec k.launch).gran) else none
    | none => none))
/-- Bytes of images that a context's save area holds. -/
def State.savedBytes (s : State) (c : Nat) : Nat := s.imagesOf c (fun _ g => g.saved)
/-- The images that a pre-emption of some groups needs fit beside those already there (R378). -/
def State.imagesFit (s : State) (c : Nat) (p : GKey → Group → Bool) : Bool :=
  decide (s.savedBytes c + s.imagesOf c (fun k g => !g.saved && p k g) ≤ (s.ctx c).saveArea)
/-- A polite request is in force: PREQ stands and the images of the whole context fit (R376, R378). -/
def State.requested (s : State) (c : Nat) : Bool := (s.ctx c).preq && s.imagesFit c (fun _ _ => true)

/-- A gang is to be killed (R385): one of its groups has consumed an error, lost a version line or a remote write. -/
def Group.fallen (g : Group) : Bool := g.badState || g.badVersion || g.linkDown
def State.doomed (s : State) (k : GKey) : Bool :=
  (s.gangBlocks k.launch (s.gangNo k.launch k.block)).any (fun b =>
    (s.blockGroups k.launch b).any (fun q => (s.group q).any Group.fallen) ||
      s.tails.any (fun t => t.lost && t.key.launch == k.launch && t.key.block == b && (s.launch k.launch).isSome))

/-- At a boundary outside a transaction with nothing issued since but waits and `nop`: a polite request saves the group
(R237, R376). -/
def Group.leaves (g : Group) : Bool :=
  match g.openTask with
  | some t => !t.used && t.snap.txOpen.isNone
  | none => false

/-- A group that no condition beyond its next clause's keeps from issuing. Under a request one that has issued nothing
since its boundary but waits and `nop` is to be saved at once (R376). -/
def State.mayRun (s : State) (k : GKey) (g : Group) : Bool :=
  !g.saved && g.stopped.isNone && g.trap.isNone && !g.ended && g.park.isNone && !g.fallen && !s.doomed k &&
    !g.saveWanted && g.issuing.isNone && s.fatal.isNone &&
    Tbl.find (s.ctx (s.lctx k.launch)).cut (s.coreOf k) != some true && !g.tasks.any Task.save &&
    !(s.requested (s.lctx k.launch) && g.leaves)

/-- The clause at a slot of a group as a turn finds it. -/
def State.facing (s : State) (k : GKey) (slot : Nat) : Option GW :=
  (s.group k).bind (fun g =>
    if !s.mayRun k g then none
    else
      let g := g.atTurn (s.protect k) (s.core (s.coreOf k)).cycles
      (s.cursor k g slot).map (fun i => ⟨s, k, { g with issuing := some i }, i⟩))

/-- The clause that a turn offers to a slot, if a turn can select it. -/
def State.offer (s : State) (k : GKey) (slot : Nat) : Option GW :=
  (s.facing k slot).filter GW.selectable

/-- Groups on the same core and pipe. -/
def State.pipeMates (s : State) (k : GKey) (g : Group) : List (GKey × Group) :=
  s.keys.filterMap (fun q =>
    match s.group q with
    | some x => if q != k && !x.saved && s.coreOf q == s.coreOf k && x.sched.pipe == g.sched.pipe then some (q, x) else none
    | none => none)

def State.readyGroup (s : State) (k : GKey) : Bool := (s.offer k 0).isSome || (s.offer k 1).isSome
/-- A group that lacks nothing but, perhaps, its tokens: it is neither parked nor waiting (R321). -/
def State.settledGroup (s : State) (k : GKey) : Bool :=
  (s.facing k 0).any GW.settled || (s.facing k 1).any GW.settled

/-- Lag: the greatest U among the block's resident groups, minus the group's own. -/
def State.lag (s : State) (k : GKey) (g : Group) : Nat :=
  (s.blockGroups k.launch k.block).foldl (fun a q =>
    match s.group q with
    | some x => if x.saved then a else max a x.sched.u
    | none => a) 0 - g.sched.u

/-- The strict barrel's pointer in a pipe, and its distance to a slot. -/
def State.pointer (s : State) (core pipe : Nat) : Nat := (Tbl.find (s.core core).turns pipe).getD 0
def State.barrel (s : State) (k : GKey) (g : Group) : Nat :=
  ((g.sched.slot % 24) + 24 - (s.pointer (s.coreOf k) g.sched.pipe) % 24) % 24

/-- Age order: placed earlier, then the lower group index. -/
def older (b a : GKey × Group) : Bool :=
  decide (b.2.sched.placed < a.2.sched.placed) || (b.2.sched.placed == a.2.sched.placed && decide (b.1.gi < a.1.gi))

/-- Whether group `b` goes before group `a` at a turn (R319 to R321). -/
def State.before (s : State) (b a : GKey × Group) : Bool :=
  let old (x : GKey × Group) : Bool := decide (256 ≤ x.2.sched.waited)
  if old b || old a then old b && (!old a || older b a)
  else if (s.lrec a.1.launch).strict then decide (s.barrel b.1 b.2 < s.barrel a.1 a.2)
  else
    let la := s.lag a.1 a.2
    let lb := s.lag b.1 b.2
    decide (la < lb) || (la == lb && older b a)

/-- Cycles pass on a cluster, `least` at least, and time on its chiplet; how many is not defined. -/
def State.tickCluster (s : State) (cl least : Nat) : State :=
  let x := s.cluster cl
  let s1 := s.setCluster cl { x with cycles := x.cycles + least + (Config.free s.now 71).toNat }
  let y := s1.chiplet (chipletOfCl cl)
  (s1.setChiplet (chipletOfCl cl) { y with reftime := y.reftime + (Config.free s.now 72).toNat }).poolDue cl
/-- Cycles pass on a core, its cluster and its chiplet. -/
def State.tickCore (s : State) (core : Nat) : State :=
  let c := s.core core
  (s.countTo core (c.cycles + (Config.free s.now 70).toNat)).tickCluster (clusterOf core) 0

/-- Strict barrel turns that no group could use have passed since the pipe last issued (R319): the pointer moves over
slots that are empty or whose group is not ready, or has become ready only since. How many is not defined
(DESIGN CHOICE, log entry 83). They are turns of the pipe for the groups that have been ready in other slots (R321). -/
def State.passTurns (s : State) (core pipe : Nat) : State :=
  let p := s.pointer core pipe
  let m := (Config.free s.now 73).toNat % 24
  let waits (i : Nat) : Bool := s.keys.any (fun k => match s.group k with
    | some g => !g.saved && s.coreOf k == core && g.sched.pipe == pipe && g.sched.slot % 24 == (p + i) % 24 &&
        g.sched.waited != 0 && s.readyGroup k
    | none => false)
  if (List.range m).any waits then s
  else
    let c := s.core core
    let s := s.setCore core { c with turns := Tbl.set c.turns pipe ((p + m) % 24) }
    s.keys.foldl (fun s k => s.modGroup k (fun g =>
      if !g.saved && s.coreOf k == core && g.sched.pipe == pipe && g.sched.waited != 0 && s.settledGroup k then
        { g with sched := { g.sched with waited := g.sched.waited + m } }
      else g)) s

/-- The machine as a turn of a group's pipe comes. -/
def State.atTurn (s : State) (k : GKey) (g : Group) : State :=
  let s := s.tickCore (s.coreOf k)
  if (s.lrec k.launch).strict then s.passTurns (s.coreOf k) g.sched.pipe else s

/-- The turn goes to slot `slot` of group `k`: the pipe is between clauses, the slot is the group's choice (R274) and
the group is the pipe's. The group then holds the clause to be issued; otherwise cycles pass on its core (R11) and nothing
else happens. A group that lacks only tokens has not stopped being ready (R318, R321). -/
def State.turn (s0 : State) (k : GKey) (slot : Nat) : State :=
  match s0.group k with
  | none => s0
  | some g =>
    let idle := s0.tickCore (s0.coreOf k)
    let s := s0.atTurn k g
    match s.offer k slot with
    | none => idle
    | some w =>
      let mates := s.pipeMates k g
      let busy := mates.any (fun x => x.2.issuing.isSome && x.2.park.isNone)
      let other := g.ctl.last == slot && (s.offer k (1 - slot)).isSome
      let rivals := mates.filter (fun x => s.readyGroup x.1)
      if busy || other || s.behind (s.coreOf k) w.g.clk || rivals.any (fun x => s.before x (k, g)) then idle
      else
        let core := s.coreOf k
        let c := s.core core
        let s := s.setCore core { c with turns := Tbl.set c.turns g.sched.pipe ((g.sched.slot + 1) % 24) }
        let s := mates.foldl (fun s x => s.modGroup x.1 (fun g => { g with sched := { g.sched with
          waited := if rivals.any (fun y => y.1 == x.1) then g.sched.waited + 1
            else if s.settledGroup x.1 then g.sched.waited else 0 } })) s
        s.setGroup k w.g

/-- A word may issue: no other group of the pipe is inside a clause, but for clauses that a page fault had
interrupted, which go on one after another (R33, R97); no request of the core holds back its read (R85); and no word of the
core's other pipes comes in an earlier cycle. -/
def State.wordTurn (s : State) (k : GKey) (g : Group) (i : Issuing) : Bool :=
  !g.park.isSome && s.fatal.isNone && !s.readHeld (s.coreOf k) i && !s.behind (s.coreOf k) g.clk &&
    !(s.pipeMates k g).any (fun x => x.2.park.isNone && (match x.2.issuing with
      | some j => i.retry.isSome && (j.retry.isNone || decide (GKey.num x.1 < GKey.num k))
      | none => false))

end
end Sys2Proof.Machine
end

