-- ==== Sys2Proof/Machine/Cut.lean ====
section
/-! DEFINITION. Cut-back, trap reports and their answer, images and saves, the ends of groups, blocks and launches,
gang kill and fatal errors (R273, R292, R302, R314, R357, R361, R364 to R376, R380, R385, R386, R389, R418). -/
namespace Sys2Proof.Machine
open Sys2Proof

/-! ## Recall queue and mark log entries (R357 to R361) -/

/-- A record goes into the recall queue, or is lost when 256 records stand (R360). -/
def State.recallRec (s : State) (c : Nat) (bytes : List Byte) : State :=
  let x := s.ctx c
  if 256 ≤ x.queued then
    s.setCtx c { x with rqOvf := true, lost := if x.lost = 0xFFFF then x.lost else x.lost + 1 }
  else
    let s := s.homeWrite (x.rqBase.toNat * 32768 + 128 * (x.rqTail.toNat % 256)) bytes
    (s.setCtx c { x with rqTail := x.rqTail + 1 }).ctxInt c 2

def Ctx.markAddr (x : Ctx) (idx : Nat) : Nat := x.mlBase.toNat * 4096 + 128 * idx

/-- A mark-log entry copied into the recall queue; FLAGS bit 4 is POST. -/
def State.recallEntry (s : State) (c : Nat) (e : MarkEnt) (post : Bool) : State :=
  let bs := Store.bytes s.mem ((s.ctx c).markAddr e.idx) 128
  let f := (bs.getD 13 0 &&& 0xEF) ||| (if post then 0x10 else 0)
  s.recallRec c (bs.set 13 f)

/-- A reserved entry whose run has committed no task is freed with its discarded tasks (R358). -/
def State.freeMarks (s : State) (k : GKey) : State :=
  let c := s.lctx k.launch
  let x := s.ctx c
  let live := match s.group k with
    | some g => g.tasks.flatMap Task.marks
    | none => []
  s.setCtx c { x with marks := x.marks.filter (fun e => !(e.key == k && !e.committed && !live.contains e.sub)) }

/-- The cluster and the serial number that a substitution's identifier names (R359). -/
def subCluster (sub : BitVec 32) : Nat := 24 * (sub.extractLsb' 29 3).toNat + (sub.extractLsb' 24 5).toNat

/-- A culled substitution's slot returns to FREE, with TRIED set, once no entry of its mark log is left to recall (R346,
R357, R413). -/
def State.leaveCulled (s : State) (c : Nat) (sub : BitVec 32) : State :=
  let cl := subCluster sub
  let x := s.cluster cl
  if (s.ctx c).marks.any (fun e => e.sub == sub) then s
  else
    match (List.range 16).find? (fun i => (x.slot i).st == .culled && subId cl (x.slot i).serial == sub) with
    | none => s
    | some i => (s.setCluster cl { x with slots := Tbl.del x.slots i }).setTried cl (x.slot i).orig

/-- The entries of a group that goes: recalled ones, or all that committed when its gang is killed, are queued again
with POST, and those are freed (R357, R385). -/
def State.endMarks (s : State) (k : GKey) (kill : Bool) : State :=
  let c := s.lctx k.launch
  let mine := (s.ctx c).marks.filter (fun e => e.key == k && e.committed && (kill || e.recalled))
  let s := mine.foldl (fun s e => s.recallEntry c e true) s
  let x := s.ctx c
  let s := s.setCtx c { x with marks := x.marks.filter (fun e => !(e.key == k && (kill || e.recalled || !e.committed))) }
  mine.foldl (fun s e => s.leaveCulled c e.sub) s

/-- The guard entries of a slot go, and their audits with them (R346, R361). -/
def State.dropGuard (s : State) (cl i : Nat) : State :=
  (List.range 8).foldl (fun s j =>
    let c := s.core (8 * cl + j)
    let mine := c.guard.filter (fun e => e.slot == i)
    if mine.isEmpty then s
    else mine.foldl (fun s e => s.modGroup e.key (fun g =>
      { g with audits := g.audits.filter (fun a => !(e.audit && a.1 == e.id)) }))
      (s.setCore (8 * cl + j) { c with guard := c.guard.filter (fun e => e.slot != i) })) s

/-- A slot returns to FREE without a cull: its marks are dropped from every resident group and its mark-log entries
are freed; saved groups keep theirs (R361). -/
def State.retireSlot (s : State) (cl i : Nat) : State :=
  let c := s.cluster cl
  let t := c.slot i
  let s := (s.setCluster cl { c with slots := Tbl.del c.slots i }).dropGuard cl i
  let s := if t.st == .culled then s.setTried cl t.orig else s
  if t.st == .mature && !t.proved then
    let sub := subId cl t.serial
    let kept (k : GKey) : Bool := match s.group k with
      | some g => g.saved
      | none => false
    let s := s.keys.foldl (fun s k => s.modGroup k (fun g =>
      if g.saved then g
      else { g with
        marks := g.marks.filter (· != sub)
        tasks := g.tasks.map (fun (x : Task) => { x with
          marks := x.marks.filter (· != sub), snap := { x.snap with marks := x.snap.marks.filter (· != sub) } }) })) s
    let x := s.ctx (s.lctx t.launch)
    s.setCtx (s.lctx t.launch) { x with marks := x.marks.filter (fun e => !(e.sub == sub && !kept e.key)) }
  else s

/-- Slots of a launch retire when it has no block and no Starter context left on the cluster (R361). -/
def State.retireLaunch (s : State) (cl launch : Nat) : State :=
  let here := s.blocks.any (fun b => b.1 / 2 ^ 32 == launch && clusterOf b.2.core == cl &&
      (b.2.st == .held || b.2.st == .live)) ||
    (s.cluster cl).sctx.any (fun c => c.2.launch == some launch)
  if here then s
  else (List.range 16).foldl (fun s i =>
    let t := (s.cluster cl).slot i
    if t.st != .free && t.launch == launch then s.retireSlot cl i else s) s

/-! ## Segments, blocks and launches as they end -/

/-- A segment is freed once it holds no reference, is not cached, and no block released into it is left (R292). -/
def State.segCheck (s : State) (cl d : Nat) : State :=
  let c := s.cluster cl
  let x := c.desc d
  let used := s.blocks.any (fun b => clusterOf b.2.core == cl && b.2.seg == d && (b.2.st == .live || b.2.st == .saved))
  if x.used && x.refs == 0 && !c.cc.any (fun e => e.2.desc == d) && !used then
    s.setDesc cl d { Desc.reset with gen := x.gen + 1 }
  else s

/-- The segments of a set of descriptors. -/
def State.segCheckAll (s : State) (cl : Nat) : State := (List.range 32).foldl (fun s d => s.segCheck cl d) s

/-- The last group of a block has exited: U and LA lines of the core go home, the block's team registers become empty,
and its scratch, segment and Affinage slots are given up (R182, R225, R229, R292, R361). -/
def State.endBlock (s : State) (launch block : Nat) : State :=
  match s.block (bkeyOf launch block) with
  | none => s
  | some b =>
    let s := ((s.uSendCore b.core).laWritebackCore b.core).clearTeams b.core launch block
    let s := s.setBlock (bkeyOf launch block) { b with st := .ended, bars := [], teams := [] }
    (s.segCheck (clusterOf b.core) b.seg).retireLaunch (clusterOf b.core) launch

/-- Every group of a block is saved: the block is, with its team registers (R199, R311). -/
def State.blockSaved (s : State) (launch block : Nat) : State :=
  let ks := s.blockGroups launch block
  match s.block (bkeyOf launch block) with
  | none => s
  | some b =>
    if b.st == .live && !ks.isEmpty && ks.all (fun k => match s.group k with | some g => g.saved | none => true) then
      let mine := (s.core b.core).tms.filter (fun p => p.2.launch == launch && p.2.block == block)
      ((s.clearTeams b.core launch block).setBlock (bkeyOf launch block) { b with st := .saved, teams := mine }).retireLaunch
        (clusterOf b.core) launch
    else s

/-- The group ends: its teams break, it leaves every barrier's expected set, and its slot and registers are free
(R198, R241, R273). A block of which only saved groups are left is a saved one (R311, R324). -/
def State.endGroup (s : State) (k : GKey) : State :=
  let s := (s.teamExit k).endMarks k false
  let s := { s with groups := Tbl.del s.groups (GKey.num k) }
  let s := s.settleBars k
  if (s.blockGroups k.launch k.block).isEmpty then s.endBlock k.launch k.block else s.blockSaved k.launch k.block

/-- What a group leaves to be applied as it goes: effects of committed tasks but arrivals at barriers, which it leaves,
and remote writes (R365, R397). -/
def State.leaveTail (s : State) (k : GKey) (effq : List Eff) (remote : List Remote) : State :=
  let effq := effq.filter (fun e => match e with
    | .bar _ _ _ _ => false
    | _ => true)
  if effq.isEmpty && remote.isEmpty then s else { s with tails := s.tails ++ [⟨k, s.coreOf k, effq, remote, false⟩] }

/-- A group whose ending task has committed ends (R273), but for one whose gang is to be killed for its sake: the kill takes it
(R385, R397). -/
def State.maybeEnd (s : State) (k : GKey) : State :=
  match s.group k with
  | some g => if g.ended && g.tasks.isEmpty && !g.fallen then (s.leaveTail k g.effq g.remote).endGroup k else s
  | none => s

def Ctx.tqAddr (x : Ctx) (i : Nat) : Nat := x.tqBase.toNat * 2 ^ 17 + 1024 * (i % 128)

/-- STOPPED, bit 11 of the CAUSE of a stopped group's report, is cleared (R373). -/
def State.clearStopped (s : State) (k : GKey) : State :=
  match (s.group k).bind Group.stopped with
  | none => s
  | some i =>
    let a := (s.ctx (s.lctx k.launch)).tqAddr i + 1
    s.homeWrite a [Store.read s.mem a &&& 0xF7]

/-- A stopped group ends: EXITED all ones, its discarded task commits nothing (R375, action 1). -/
def State.endStopped (s : State) (k : GKey) : State :=
  ((s.clearStopped k).modGroup k (fun g => { g with
    ctl := { g.ctl with exited := ~~~0, slot0 := none, slot1 := none }
    ended := true, trap := none, reportDue := false, stopped := none, told := none
    tasks := g.tasks.filter Task.closed })).maybeEnd k

def State.modLaunch (s : State) (l : Nat) (f : Launch → Launch) : State :=
  match s.launch l with
  | some x => s.setLaunch l (f x)
  | none => s

/-- A launch ends with ERR 6 or 8: held blocks are dropped and its stopped groups end (R418). -/
def State.endLaunch (s : State) (l code : Nat) : State :=
  match s.launch l with
  | none => s
  | some x =>
    if x.ended.isSome then s
    else
      let s := (s.setLaunch l { x with ended := some code }).launchErr x.ctx code (some l)
      let mine (b : Nat × Block) : Bool := b.1 / 2 ^ 32 == l && b.2.st == BlockSt.held
      let cls := (s.blocks.filter mine).map (fun b => clusterOf b.2.core)
      let s := cls.foldl (fun s cl => s.retireLaunch cl l) { s with blocks := s.blocks.filter (fun b => !mine b) }
      s.keys.foldl (fun s k =>
        match s.group k with
        | some g => if k.launch == l && g.stopped.isSome then s.endStopped k else s
        | none => s) s

/-- A chiplet stops pulling a launch; its held blocks return to the launch's home. When no chiplet pulls it, the launch
ends with ERR 7 (R302, R314). -/
def State.stopPulling (s : State) (ch l : Nat) : State :=
  let c := s.chiplet ch
  if Tbl.has c.stops l then s
  else
    let mine (b : Nat × Block) : Bool := b.1 / 2 ^ 32 == l && b.2.st == .held && chipletOf b.2.core == ch
    let back := (s.blocks.filter mine).map (fun b => b.1 % 2 ^ 32)
    let s := s.setChiplet ch { c with stops := Tbl.set c.stops l () }
    let s := { s with blocks := s.blocks.filter (fun b => !mine b) }
    let s := s.modLaunch l (fun x => { x with returns := x.returns ++ back })
    let s := if back.isEmpty then s else (List.range 24).foldl (fun s j => s.retireLaunch (24 * ch + j) l) s
    if (List.range 8).all (fun j => Tbl.has (s.chiplet j).stops l) then
      match s.launch l with
      | some x => if x.ended.isSome then s else (s.setLaunch l { x with ended := some 7 }).launchErr x.ctx 7 (some l)
      | none => s
    else s

/-! ## Cut-back (R370) -/

/-- Operations whose start waits for the commit of a discarded task are withdrawn. -/
def State.withdraw (s : State) (k : GKey) (gone : List (BitVec 32)) : State :=
  let waits (key : GKey) (started : Bool) (w : Option (BitVec 32)) : Bool :=
    key == k && !started && (match w with
      | some t => gone.contains t
      | none => false)
  let core := s.coreOf k
  let c := s.core core
  let out := c.copies.filter (fun x => waits x.key x.started x.waits)
  let s := if out.isEmpty then s
    else s.setCore core { c with copies := c.copies.filter (fun x => !waits x.key x.started x.waits) }
  let cl := s.cluster (clusterOf core)
  let outH := cl.harp.filter (fun p => waits p.key p.started p.waits)
  let s := if outH.isEmpty then s
    else s.setCluster (clusterOf core) { cl with harp := cl.harp.filter (fun p => !waits p.key p.started p.waits) }
  s.modGroup k (fun g =>
    let g := out.foldl (fun g x => g.completeOp 0 x.id) g
    outH.foldl (fun g p => g.completeOp 2 p.id) g)

/-- A cut-back to the boundary of task `i` waits: the group is inside a clause, or an operation it has issued and that
the cut-back does not withdraw has not completed (R118, R124, R199, R215, R222). -/
def State.cutBusy (s : State) (k : GKey) (i : Nat) (saving : Bool) : Bool :=
  match s.group k with
  | none => true
  | some g =>
    let gone := (g.tasks.drop i).map Task.tseq
    let dropped (started : Bool) (w : Option (BitVec 32)) : Bool := !started && (match w with
      | some t => gone.contains t
      | none => false)
    let core := s.core (s.coreOf k)
    let harp := (s.cluster (clusterOf (s.coreOf k))).harp
    let effs := ((g.tasks.take i).map Task.effs).flatten ++ g.effq
    (g.issuing.isSome && g.park.isNone) ||
      core.copies.any (fun c => c.key == k && !c.stopped && !dropped c.started c.waits) ||
      harp.any (fun p => p.key == k && !p.halted && !dropped p.started p.waits && !(saving && p.atVertex)) ||
      core.matched.any (fun x => match x with
        | .team o => o.launch == k.launch && o.block == k.block && o.arrs.any (fun a => teamMember o.list a.member == k.gi)
        | .tile _ _ _ => false) ||
      effs.any (fun e => match e with
        | .atomic _ => true
        | .affpop _ _ => true
        | _ => false)

/-- A global store of the group: its version is discarded with its task. -/
def MemOp.versioned (o : MemOp) : Bool :=
  match o.kind with
  | .store => o.accs.all (fun a => match a.loc with | .mem _ => true | _ => false)
  | _ => false

/-- The group at the opening boundary of its task `i`: tasks from there on are discarded, and the recorded state
returns. Registers, scratch and vaults keep their values. -/
def Group.restart (protect : Bool) (g : Group) (i : Nat) (t : Task) : Group :=
  let gone := (g.tasks.drop i).map Task.tseq
  let g := g.landRegs protect
  let x := t.snap
  { g with
    regs := { g.regs with fpflags := x.fpflags, srseed := x.srseed, fb := x.fb }
    pend := [], ctl := x.ctl, issuing := none
    tasks := g.tasks.take i ++ [Task.fresh t.tseq x]
    memq := g.memq.filter (fun o => !(o.versioned && gone.contains o.tseq))
    closed := x.closed, holds := x.holds, slotHolds := x.slotHolds, marks := x.marks
    tx := x.txOpen, txPend := x.tx, park := none, parkFlag := false, ended := false, q := x.q }

/-- The audits of discarded tasks are discarded with them, and their captured executions leave the guard queue (DESIGN
CHOICE, log entry 121): an audit of a task that is among the group's no more is one of a committed task (R355). -/
def State.dropAudits (s : State) (k : GKey) (gone : List (BitVec 32)) : State :=
  let core := s.coreOf k
  let c := s.core core
  let drop (e : GuardEnt) : Bool := e.audit && e.key == k && gone.contains e.tseq
  let s := if c.guard.any drop then s.setCore core { c with guard := c.guard.filter (fun e => !drop e) } else s
  s.modGroup k (fun g => { g with audits := g.audits.filter (fun a => !gone.contains a.2) })

def State.cutBack (s : State) (k : GKey) (i : Nat) : State :=
  match s.group k with
  | none => s
  | some g =>
    match g.tasks[i]? with
    | none => s
    | some t =>
      let gone := (g.tasks.drop i).map Task.tseq
      let s := (s.withdraw k gone).dropAudits k gone
      let s := s.teamCutback k t.snap
      (s.modGroup k (fun g => g.restart (s.protect k) i t)).freeMarks k

/-- The open task's place among the tasks. -/
def Group.last (g : Group) : Nat := g.tasks.length - 1

/-! ## Reports and images (R373, R374, R380) -/

def slotBytes (lr seg : Nat) (p : Option Path) : List Byte :=
  match p with
  | none => natLE 8 0
  | some p => natLE 8 ((if lr = 0 then p.pc else p.pc % lr) % 2 ^ 14 + seg % 32 * 2 ^ 16 + 2 ^ 21 + p.t.toNat * 2 ^ 32)
def pathMask (p : Option Path) : List Byte :=
  match p with
  | none => natLE 4 0
  | some p => le 4 p.m

def recBytes (lr : Nat) (r : Rec) : List Byte :=
  let cont := match r.cont with
    | some c => 2 ^ 13 + (if lr = 0 then c else c % lr) % 2 ^ 14 * 2 ^ 14
    | none => 0
  le 4 r.exp ++ le 4 r.arr ++
    natLE 8 (r.tok.toNat + (if r.call then 2 ^ 11 else 0) + 2 ^ 12 + cont + r.pt.toNat * 2 ^ 28)

/-- The record table, oldest record first. -/
def recsBytes (lr : Nat) (rs : List Rec) : List Byte :=
  ((rs.reverse.map (recBytes lr)).flatten ++ natLE 256 0).take 256

def laneBytes (r : LaneRec) : List Byte := le 8 r.addr ++ [r.kind, r.cause, r.hcode, r.flags] ++ natLE 4 0

/-- Bytes 127:0 of a report and of an image. -/
def State.headBytes (s : State) (k : GKey) (g : Group) (cause : BitVec 32) (at_ : WordAt) (image : BitVec 64) :
    List Byte :=
  let lr := (s.segOf k).lr
  let seg := match s.block (GKey.bkey k) with
    | some b => b.seg
    | none => 0
  le 4 cause ++ natLE 4 (k.launch % 2 ^ 24) ++ natLE 4 k.block ++ le 4 (s.locOf k g.sched.slot) ++ natLE 1 k.gi ++
    natLE 3 0 ++ le 4 g.tseq ++ le 8 at_.w ++ le 8 at_.prov ++ natLE 4 (at_.pos % 2 ^ 14 + at_.seg % 32 * 2 ^ 16) ++
    natLE 12 0 ++ le 8 image ++ slotBytes lr seg g.ctl.slot0 ++ pathMask g.ctl.slot0 ++ pathMask g.ctl.slot1 ++
    slotBytes lr seg g.ctl.slot1 ++ le 4 g.ctl.exited ++ natLE 1 g.ctl.depth ++ natLE 1 g.ctl.recs.length ++ natLE 34 0

/-- The CAUSE word of a report (R373); bit 11 is STOPPED. -/
def TrapInfo.causeWord (t : TrapInfo) (stopped : Bool) : BitVec 32 :=
  t.code ++ (0 : BitVec 4) ++ BitVec.ofBool stopped ++ BitVec.ofBool t.async ++ BitVec.ofBool t.brk ++
    BitVec.ofBool t.kill ++ t.cause

def State.reportBytes (s : State) (k : GKey) (g : Group) (t : TrapInfo) (stopped : Bool) : List Byte :=
  s.headBytes k g (t.causeWord stopped) t.word (if g.saved then BitVec.ofNat 64 g.image else 0) ++ recsBytes (s.segOf k).lr g.ctl.recs ++
    ((List.range 32).map (fun l => laneBytes ((Tbl.find t.lanes l).getD ⟨0, 0, 0, 0, 0⟩))).flatten ++ natLE 128 0

def Ctx.tqRoom (x : Ctx) : Bool := decide ((x.tqTail - x.tqHead).toNat < 128)

/-- A report is written at TAIL (R371, R374). -/
def State.writeReport (s : State) (c : Nat) (bytes : List Byte) : State :=
  let x := s.ctx c
  let s := s.homeWrite (x.tqAddr x.tqTail.toNat) bytes
  (s.setCtx c { x with tqTail := x.tqTail + 1, tqFull := false }).ctxInt c 0

/-- A killed gang's report is written, or waits for space behind those that wait already (R374, R385). -/
def State.queueReport (s : State) (c : Nat) (bytes : List Byte) : State :=
  let x := s.ctx c
  if x.tqRoom && x.lateReports.isEmpty then s.writeReport c bytes
  else s.setCtx c { x with tqFull := true, lateReports := x.lateReports ++ [bytes] }
/-- Reports that wait are written while there is room. -/
def State.flushReports (fuel : Nat) (s : State) (c : Nat) : State :=
  match fuel, (s.ctx c).lateReports with
  | n + 1, b :: r =>
    if (s.ctx c).tqRoom then
      ((s.setCtx c { s.ctx c with lateReports := r }).writeReport c b).flushReports n c
    else s.setCtx c { s.ctx c with tqFull := true }
  | _, _ => s

/-- A register as its image holds it. -/
def xregBytes (x : XReg) : List Byte :=
  le 8 (x.p.setWidth 64) ++ le 8 x.b ++ le 4 x.l ++
    le 4 (x.rnode ++ (0 : BitVec 5) ++ BitVec.ofBool x.dev ++ BitVec.ofBool x.sa ++ BitVec.ofBool x.w) ++ le 8 x.tag

/-- The 256 bytes of a pass record (R204). -/
def HRec.bytes (r : HRec) : List Byte :=
  let lay (i : Nat) : List Byte :=
    let (w, b, n, a) := r.layer i
    le 8 w ++ le 8 b ++ le 2 n ++ [a] ++ natLE 13 0
  le 8 r.ebase ++ le 8 r.rbase ++ le 8 r.sbase ++ le 8 r.dbase ++ le 8 r.xbase ++ le 8 r.obase ++ le 8 r.baraddr ++
    le 4 r.nvert ++ le 4 r.spitch ++ le 4 r.dpitch ++ le 4 r.xpitch ++ le 4 r.opitch ++ le 2 r.fs ++ le 2 r.fd ++
    le 2 r.fe ++ le 2 r.ctl ++ natLE 12 0 ++ lay 0 ++ lay 1 ++ lay 2 ++ natLE 64 0

/-- A group's image (R380): its first bytes are those of its report while it is stopped, but in a rind CAUSE is the index of
its report (R391). Its one resume point is that of the group's first pass, with zeros for a record not yet read (DESIGN
CHOICE, log entry 118). -/
def State.imageBytes (s : State) (k : GKey) (g : Group) (image : BitVec 64) (rind : Bool) : List Byte :=
  let (cause, at_) : BitVec 32 × WordAt := match g.told with
    | some t => (if rind then BitVec.ofNat 32 (g.stopped.getD 0) else t.causeWord true, t.word)
    | none => (0, ⟨0, 0, 0, 0, 0, 0⟩)
  let mon := (g.holds.findSome? (fun h => match h.h with
    | .waitw a size exp => some (le 8 a.addr ++ le 8 exp ++ natLE 8 (szBytes size))
    | _ => none)).getD (natLE 24 0)
  let cnt (c : Nat) : List Byte := natLE 8 (g.closedOf c) ++ natLE 8 (g.doneOf c)
  let hp := match g.passes with
    | [] => natLE 272 0
    | p :: _ => (match p.rec_ with
      | some r => r.bytes
      | none => natLE 256 0) ++ natLE 8 p.first ++ natLE 8 (p.first + p.count)
  let gran := (s.lrec k.launch).gran
  s.headBytes k g cause at_ image ++ recsBytes (s.segOf k).lr g.ctl.recs ++
    ((List.range 64).map (fun r => le 8 (if r = 0 then 0 else Store.read g.regs.g r))).flatten ++
    ((List.range 16).map (fun r => le 4 (if r = 0 then ~~~0 else Store.read g.regs.m r))).flatten ++
    natLE 1 ((List.range 8).foldl (fun a r => if r = 0 || Store.read g.regs.gp r = 1 then a + 2 ^ r else a) 0) ++
    natLE 7 0 ++ ((List.range 8).map (fun n => xregBytes (g.readX n))).flatten ++
    ((List.range 32).map (fun l => le 4 (g.fb l))).flatten ++ le 8 (g.regs.fpflags.setWidth 64) ++ le 8 g.regs.srseed ++
    cnt 0 ++ cnt 1 ++ cnt 2 ++ mon ++ ((g.marks.map (le 4)).flatten ++ natLE 16 0).take 16 ++ natLE 8 0 ++ natLE 8 g.q ++
    hp ++ ((List.range 32).map (fun l => le 2 (Store.read g.txStat l))).flatten ++
    le 4 (g.txPend.getD 0) ++ natLE 4 (if g.txPend.isSome then 1 else 0) ++ natLE 232 0 ++
    ((List.range (8 * gran)).map (fun r => ((List.range 32).map (fun l => le 4 (Store.read g.regs.v (32 * r + l)))).flatten)).flatten

/-! ## Traps (R371) -/

/-- The report of a group whose cut-back is complete is written at TAIL, and names its image if it is saved; the group
stands stopped. With the trap queue full FULL is set and the report waits. -/
def State.postReport (s : State) (k : GKey) (t : TrapInfo) : State :=
  let c := s.lctx k.launch
  match s.group k with
  | none => s
  | some g =>
    if !(s.ctx c).tqRoom then s.setCtx c { s.ctx c with tqFull := true }
    else
      let i := (s.ctx c).tqTail.toNat % 128
      let s := s.writeReport c (s.reportBytes k g t true)
      let x := s.ctx c
      let s := (s.setCtx c { x with reports := Tbl.set x.reports i k }).modGroup k (fun g =>
        { g with trap := none, reportDue := false, stopped := some i, told := some t })
      let s := if t.cause = Cause.errataDisabled then s.stopPulling (chipletOf (s.coreOf k)) k.launch else s
      match s.launch k.launch with
      | some l => if l.ended = some 6 || l.ended = some 8 then s.endStopped k else s
      | none => s

/-- GROUP_TRAP: a kill of the gang comes first (R390). The cut-back is made and the group stops in place; then its report is written. -/
def State.groupTrap (s : State) (k : GKey) : State :=
  match s.group k with
  | none => s
  | some g =>
    match g.trap with
    | none => s
    | some t =>
      if s.fatal.isSome || s.doomed k then s
      else if g.reportDue then s.postReport k t
      else if g.saved || s.cutBusy k g.last false then s
      else ((s.cutBack k g.last).modGroup k (fun g => { g with reportDue := true, told := some t })).postReport k t

def execGroupTrap (g : GKey) (s : State) : Out := .next (s.groupTrap g)

/-! ## The answer to a report (R375) -/

/-- Lanes that KILL names: with PROTECT bit i is visible lane i (R388). -/
def killLanes (protect : Bool) (m : Mask) : Mask := if protect then maskBy (fun l => m.getLsbD (l / 2)) else m

/-- The stopped group that a report index names. -/
def State.reported (s : State) (c : Nat) (val : BitVec 64) : Option (GKey × Group) :=
  let i := (val.extractLsb' 32 7).toNat
  (Tbl.find (s.ctx c).reports i).bind (fun k =>
    (s.group k).bind (fun g => if g.stopped = some i && s.lctx k.launch = c then some (k, g) else none))

/-- Resume: KILL lanes leave both slots and every record at the boundary, and the group restarts there; with every lane
gone it ends. A removal that would push beyond the stack leaves the group stopped. What it pushes is written with the
effects of the latest task that has still to commit, or at once (R277); the boundary state is that of the removal, its low
mark too (R293). -/
def State.resume (s : State) (c : Nat) (val : BitVec 64) : State :=
  match s.reported c val with
  | none => s
  | some (k, g) =>
    match ctlKill (s.stk k g.q) (killLanes (s.protect k) (val.extractLsb' 0 32)) g.ctl with
    | none => s
    | some x =>
      let lr := (s.segOf k).lr
      let entry (j : Nat) : Path := (Tbl.find x.c.held j).getD ⟨0, 0, 0⟩
      let n := (g.tasks.filter Task.closed).length
      let s := if n = 0 then x.pushed.foldl (fun s j => s.writeLoc (.scr (s.stkAddr k j)) (stkEntry lr (entry j))) s else s
      let ctl : Ctl := if n = 0 then { x.c with held := x.pushed.foldl (fun h j => Tbl.del h j) x.c.held } else x.c
      let bad := s.popBad k x
      let s := (s.clearStopped k).modGroup k (fun g =>
        let g := { g.consume bad with
          ctl, stopped := none, told := none, slotHolds := mergeWaits x.merged g.slotHolds
          tasks := if n = 0 then g.tasks else g.tasks.modify (n - 1) (fun t =>
            { t with effs := t.effs ++ x.pushed.map (fun j => Eff.push j (entry j)) }) }
        (g.joins s.now x.joined).modOpen (fun t =>
          { t with snap := { t.snap with ctl, slotHolds := mergeWaits x.merged t.snap.slotHolds } }))
      let s := s.modGroup k (fun g =>
        let q := s.lowMark k g
        { g with q }.modOpen (fun t => { t with snap := { t.snap with q } }))
      if ctl.exited == 0xFFFFFFFF then
        (s.modGroup k (fun g => { g.modOpen (fun t => { t with closed := true }) with ended := true }))
      else s

/-- Action 1: the group ends. -/
def State.resumeEnd (s : State) (c : Nat) (val : BitVec 64) : State :=
  match s.reported c val with
  | none => s
  | some (k, _) => s.endStopped k

/-- Action 2: the group and its launch end. -/
def State.resumeEndLaunch (s : State) (c : Nat) (val : BitVec 64) : State :=
  match s.reported c val with
  | none => s
  | some (k, _) => (s.endStopped k).endLaunch k.launch 8

def execTskResumeResume (ctx : Nat) (val : BitVec 64) (s : State) : Out := .next (s.resume ctx val)
def execTskResumeEndGroup (ctx : Nat) (val : BitVec 64) (s : State) : Out := .next (s.resumeEnd ctx val)
def execTskResumeEndLaunch (ctx : Nat) (val : BitVec 64) (s : State) : Out := .next (s.resumeEndLaunch ctx val)

/-! ## Saving (R376 to R378) -/

/-- Where a group's image goes in its context's save area: one of the places that no other image overlaps. Which one is
not defined; behind an image or at the area's start one is free whenever one is anywhere. -/
def State.imageAddr (s : State) (k : GKey) : Option Nat :=
  let c := s.lctx k.launch
  let x := s.ctx c
  let base := x.sbase.toNat * 65536
  let n := imageSize (s.lrec k.launch).gran
  let taken : List (Nat × Nat) := s.keys.filterMap (fun q => match s.group q with
    | some g => if g.saved && s.lctx q.launch == c then some (g.image, imageSize (s.lrec q.launch).gran) else none
    | none => none)
  let fits (a : Nat) : Bool := decide (base ≤ a) && decide (a + n ≤ base + x.saveArea) &&
    taken.all (fun p => !overlaps a n p.1 p.2)
  let wish := base + (Config.saveAddr k.launch k.block k.gi).toNat % x.saveArea
  let ends := base :: taken.map (fun p => p.1 + p.2)
  if fits wish then some wish else pickOne (Config.saveAddr k.launch k.block k.gi).toNat (ends.filter fits)

/-- The harp passes of a group leave the engine as resume points (R215). A resumed pass groups its edges into tiles anew from
its first vertex on, whatever tiles were paid for before (DESIGN CHOICE, log entry 116). -/
def State.takePasses (s : State) (k : GKey) : State :=
  let cl := clusterOf (s.coreOf k)
  let c := s.cluster cl
  let mine := (c.harp.filter (fun p => p.key == k && !p.halted)).map (fun p =>
    { p with first := p.first + p.rows.length, count := p.count - p.rows.length, rows := [], bought := 0, begun := 0, started := false, wait := none, damaged := [] })
  if mine.isEmpty then s
  else (s.setCluster cl { c with harp := c.harp.filter (fun p => p.key != k) }).modGroup k (fun g =>
    { g with passes := g.passes ++ mine })

/-- Whether a group can be saved at its open task's boundary: earlier tasks committed, its operations complete, audits
under commit hold resolved, and room for its image. A group that a trap has stopped is saved stopped, its report written
or not. -/
def State.saveReady (s : State) (k : GKey) (g : Group) : Bool :=
  !g.saved && (g.trap.isNone || g.reportDue) && !g.ended && decide (g.tasks.length ≤ 1) && g.effq.isEmpty &&
    !((s.lrec k.launch).commitHold && !g.audits.isEmpty) && !s.cutBusy k g.last true &&
    g.memq.all MemOp.versioned && !g.fallen && !s.doomed k &&
    (s.imageAddr k).isSome

/-- The group is cut back to its boundary and saved: its image is written, and its stopped report names the image. The
monitor of a group that has done nothing else since its boundary stays (R239), and a transaction open there ends (R237). -/
def State.saveGroup (s : State) (k : GKey) : State :=
  match s.group k, s.imageAddr k with
  | some g, some a =>
    let idle := match g.openTask with
      | some t => !t.used
      | none => false
    let mon := g.holds.filter (fun h => idle && (match h.h with
      | .waitw _ _ _ => true
      | _ => false))
    let s := (s.cutBack k g.last).takePasses k
    let s := s.modGroup k (fun x => { x.endTx with holds := x.holds ++ mon.filter (fun h => !x.holds.contains h) })
    let s := s.laWritebackCore (s.coreOf k)
    match s.group k with
    | none => s
    | some g =>
      let s := s.homeWrite a (s.imageBytes k g (BitVec.ofNat 64 a) false)
      let s := match g.stopped with
        | some i => s.homeWrite ((s.ctx (s.lctx k.launch)).tqAddr i + 56) (natLE 8 a)
        | none => s
      (s.setGroup k { g with saved := true, saveWanted := false, issuing := none, image := a }).blockSaved k.launch k.block
  | _, _ => s

/-- A polite save (R376): at a boundary, with nothing issued since but waits and `nop`, while a request stands or a
`yield` met one. -/
def State.politeSave (s : State) (k : GKey) : State :=
  match s.group k with
  | none => s
  | some g =>
    if (s.requested (s.lctx k.launch) || g.saveWanted) && !g.tasks.isEmpty && g.leaves && g.issuing.isNone && g.park.isNone && s.saveReady k g then
      s.saveGroup k
    else s

/-! ## Gang kill (R385, R386) -/

/-- A version line of a group fails: it is logged, and the gang is to be killed (R366, R382, R385). -/
def State.failVersion (s : State) (k : GKey) : State :=
  match s.group k with
  | none => s
  | some g => (s.logConsumed (s.coreOf k) k.launch [(5, (g.verLines.headD 0) * 256)]).modGroup k (fun g => { g with badVersion := true })

/-- Everything of one block that a kill takes away, the mark-log entries of groups that have ended too. Its copies stop at once; a Harp pass stops at its next vertex boundary,
and until then no group is its own any more (R215, R385). -/
def State.killBlock (s : State) (launch block : Nat) : State :=
  let s := (List.range 32).foldl (fun s i => s.endMarks ⟨launch, block, i⟩ true) s
  let s := (s.blockGroups launch block).foldl (fun s k =>
    let s := s.clearStopped k
    match s.group k with
    | some g => s.leaveTail k [] g.remote
    | none => s) s
  match s.block (bkeyOf launch block) with
  | none => s
  | some b =>
    let c := (s.core b.core).dropTeams launch block
    let of_ (k : GKey) : Bool := k.launch == launch && k.block == block
    let s := s.setCore b.core { c with
      copies := c.copies.filter (fun x => !of_ x.key)
      guard := c.guard.filter (fun e => !of_ e.key)
      matched := c.matched.filter (fun x => match x with
        | .team o => !(o.launch == launch && o.block == block)
        | .tile _ _ _ => true) }
    let cl := s.cluster (clusterOf b.core)
    let s := s.setCluster (clusterOf b.core) { cl with
      harp := cl.harp.filterMap (fun p => if !of_ p.key then some p
        else if p.halted || p.atVertex then none
        else some { p with dying := true, key := GKey.leave p.key }) }
    let s := (List.range 8).foldl (fun s j =>
      let n := 8 * clusterOf b.core + j
      let c := s.core n
      let m := c.matched.filterMap (fun x => match x with
        | .team o => some (MxWork.team o)
        | .tile key p i => if !of_ key then some (.tile key p i)
            else if (s.cluster (clusterOf b.core)).harp.any (fun q => q.dying && q.key == GKey.leave key && q.id == p) then
              some (.tile (GKey.leave key) p i)
            else none)
      if m == c.matched then s else s.setCore n { c with matched := m }) s
    let s := { s with
      groups := s.groups.filter (fun g => g.1 / 32 != bkeyOf launch block)
      scr := s.scr.filter (fun p => p.1 / 2 ^ 18 != bkeyOf launch block)
      poisonScr := s.poisonScr.filter (fun p => p.1 / 2 ^ 18 != bkeyOf launch block)
      blocks := Tbl.del s.blocks (bkeyOf launch block) }
    s.segCheck (clusterOf b.core) b.seg

/-- GANG_KILL: the gang of a group that consumed poison or lost a version line or a remote write stops, its uncommitted
versions are discarded with everything it holds, one report with KILL is queued, and the gang is relaunched or its
launch ends with ERR 6. It waits for a clause to end; the report alone waits for room in the trap queue. The errors
consumed are logged (R387). The group may have ended before a port lost its remote writes (R397). -/
def State.gangKill (s : State) (k : GKey) : State :=
  let lost := s.tails.any (fun t => t.key == k && t.lost) && (s.launch k.launch).isSome
  let g := (s.group k).getD default
  let c := s.lctx k.launch
  let n := s.gangNo k.launch k.block
  let bs := s.gangBlocks k.launch n
  let busy := bs.any (fun b => (s.blockGroups k.launch b).any (fun q =>
    match s.group q with
    | some x => x.issuing.isSome && x.park.isNone && x.trap.isNone
    | none => false))
  if !(g.fallen || lost) || busy || s.fatal.isSome then s
  else
    let lanes : Tbl LaneRec := if g.linkDown || lost then [(0, ⟨0, Kind.linkDown, 0, 0, 0⟩)] else []
    let t : TrapInfo := { trapOf Cause.eccUncorrected ⟨0, 0, 0, 0, 0, 0⟩ with kill := true, lanes }
    let g0 := match g.openTask with
      | some x => { g with ctl := x.snap.ctl }
      | none => g
    let s := s.queueReport c (s.reportBytes k g0 t false)
    let s := (bs.flatMap (fun b => s.blockGroups k.launch b)).foldl (fun s q =>
      s.logConsumed (s.coreOf q) k.launch ((s.group q).elim [] Group.errs)) s
    let gk := s.gangKey k
    let cls := (bs.filterMap (fun b => (s.block (bkeyOf k.launch b)).map (fun x => clusterOf x.core)))
    let gone := bs.filter (fun b => (s.block (bkeyOf k.launch b)).isSome)
    let s := bs.foldl (fun s b => s.killBlock k.launch b) s
    let gg := (Tbl.find s.gangs gk).getD ⟨[], 0⟩
    let r := s.lrec k.launch
    let ended := match s.launch k.launch with
      | some x => x.ended.isSome
      | none => true
    let s :=
      if r.relaunch && !ended && decide (gg.relaunches < (s.ctx c).rlmax.toNat) then
        { s with gangs := Tbl.set s.gangs gk ⟨[], gg.relaunches + 1⟩ }.modLaunch k.launch (fun x =>
          { x with returns := gone ++ x.returns })
      else
        ({ s with gangs := Tbl.set s.gangs gk ⟨[], gg.relaunches⟩ }).endLaunch k.launch 6
    cls.foldl (fun s cl => s.retireLaunch cl k.launch)
      { s with tails := s.tails.filterMap (fun t =>
        if !(t.lost && t.key.launch == k.launch && bs.contains t.key.block) then some t
        else if t.effq.isEmpty && t.remote.isEmpty then none
        else some { t with lost := false }) }

def execGangKill (g : GKey) (s : State) : Out := .next (s.gangKill g)

/-! ## Fatal errors (R389, R399) -/

/-- The offsets of the registers of the window, page by page (R393). -/
def windowOffs : List Nat :=
  let page (o : Nat) : List Nat := (List.range 512).map (fun i => o + 8 * i)
  page 0 ++ (List.range 8).flatMap (fun c => page (0x01000000 + c * 0x100000) ++
      (List.range 24).flatMap (fun k => page (0x01010000 + c * 0x100000 + k * 0x1000))) ++
    (List.range 256).flatMap (fun x => page (0x02000000 + x * 0x1000))

/-- What a dump holds, in order: the control registers, the error logs, the contexts' save areas and trap rings, the
Market. -/
def State.dumpParts (s : State) : List (List Byte) :=
  let regs (os : List Nat) : List Byte := os.flatMap (fun o => le 8 (s.regRead o))
  let logs := (List.range 8).flatMap (fun ch => (List.range 8).flatMap (fun n =>
    let r := (s.chiplet ch).rel n
    Store.bytes s.mem (r.lbase.toNat * 4096) (16 * 2 ^ (r.lsize.toNat + 8))))
  let ctxs := (List.range 256).flatMap (fun c =>
    let x := s.ctx c
    Store.bytes s.mem (x.sbase.toNat * 65536) x.saveArea ++ Store.bytes s.mem (x.tqBase.toNat * 131072) 131072)
  [regs windowOffs, logs, ctxs, regs [0x000, 0x008, 0x010, 0x018] ++ natLE 8 s.market.hotcap]

/-- The dump of a region of `size` bytes: cut at its end, its header giving the length written. -/
def State.dumpBytes (s : State) (cause unit size : Nat) : List Byte :=
  let body := s.dumpParts.zipIdx.flatMap (fun x => Config.dumpSection x.2 x.1)
  let n := min size ((Config.dumpHeader cause unit 0).length + body.length)
  (Config.dumpHeader cause unit n ++ body).take size

/-- An error that no gang bears: issue stops until reset, firmware writes the dump, and the fatal interrupt is raised. Which
unit failed is not told by the event. -/
def State.fatalError (s : State) (cause : Nat) : State :=
  match s.fatal with
  | some _ => s
  | none =>
    let bs := s.dumpBytes cause (Config.free s.now 90).toNat (2 ^ (s.host.dsize.toNat + 16))
    ({ s with fatal := some cause }.writeLoc (.mem (s.host.dbase.toNat * 65536)) bs).hostInt 1

def execFatalError (cause : Nat) (s : State) : Out := .next (s.fatalError cause)

end Sys2Proof.Machine
end

