-- ==== Sys2Proof/Machine/Commit.lean ====
section
/-! DEFINITION. Commit: the instant at which a closed task takes effect, the mark log it brings up to date, and the
remote part that follows (R224, R225, R246, R277, R356, R358, R359, R365, R366, R368, R397). -/
namespace Sys2Proof.Machine
open Sys2Proof

/-! ## Page ranges of the mark log (R359) -/

/-- Runs of pages by first page and number, the first pages rising; runs that touch are one. -/
def insRun (a n : Nat) (rs : List (Nat × Nat)) : List (Nat × Nat) :=
  match rs with
  | [] => [(a, n)]
  | (b, m) :: r => if a ≤ b then (a, n) :: (b, m) :: r else (b, m) :: insRun a n r

def joinRuns (rs : List (Nat × Nat)) : List (Nat × Nat) :=
  (rs.foldl (fun (done : List (Nat × Nat)) x =>
    match done with
    | (a, n) :: r => if x.1 ≤ a + n then (a, max (a + n) (x.1 + x.2) - a) :: r else x :: done
    | [] => [x]) []).reverse

/-- A run longer than 2^19 − 1 pages takes several ranges. -/
def splitRun (x : Nat × Nat) : List (Nat × Nat) :=
  let m := 2 ^ 19 - 1
  (List.range ((x.2 + m - 1) / m)).map (fun i => (x.1 + i * m, min m (x.2 - i * m)))

def rangeBytes (x : Nat × Nat) : List Byte := natLE 8 (x.1 % 2 ^ 45 + x.2 * 2 ^ 45)

/-- A mark-log entry as it stands, with a committed task added to it; `first` is set for the run's first task. -/
def markBytes (old : List Byte) (first : Bool) (k : GKey) (sub : BitVec 32) (t : Task) (cseq : BitVec 64) : List Byte :=
  let at_ (lo n : Nat) : Nat := leNat ((old.drop lo).take n)
  let had : List (Nat × Nat) := if first then []
    else (List.range (min (at_ 14 1) 8)).map (fun i => (at_ (64 + 8 * i) 8 % 2 ^ 45, at_ (64 + 8 * i) 8 / 2 ^ 45))
  let runs := t.pages.foldl (fun rs p => insRun (p.1 % 2 ^ 45) 1 rs) (had.foldl (fun rs r => insRun r.1 r.2 rs) [])
  let all := (joinRuns runs).flatMap splitRun
  let kept := all.take 8
  let flags0 : BitVec 8 := if first then 0 else BitVec.ofNat 8 (at_ 13 1)
  let flags := flags0 ||| 1 ||| (if 8 < all.length then 2 else 0) ||| (if t.scrFlag then 4 else 0) |||
    (if t.asyncFlag then 8 else 0)
  let keep (lo n : Nat) (new : List Byte) : List Byte := if first then new else (old.drop lo).take n
  keep 0 4 (le 4 sub) ++ keep 4 4 (natLE 4 (k.launch % 2 ^ 24)) ++ keep 8 4 (natLE 4 k.block) ++
    keep 12 1 (natLE 1 k.gi) ++ [flags, BitVec.ofNat 8 kept.length] ++ keep 15 1 [0] ++ keep 16 4 (le 4 t.tseq) ++
    le 4 t.tseq ++ keep 24 8 (le 8 cseq) ++ le 8 cseq ++ keep 40 24 (natLE 24 0) ++
    ((kept.map rangeBytes).flatten ++ natLE 64 0).take 64

/-- The mark-log entries of a committing task's marks are brought up to date (R358). -/
def State.logMark (s : State) (k : GKey) (t : Task) (sub : BitVec 32) : State :=
  let c := s.lctx k.launch
  let x := s.ctx c
  match x.marks.find? (fun e => e.key == k && e.sub == sub) with
  | none => s
  | some e =>
    let a := x.markAddr e.idx
    let s := s.homeWrite a (markBytes (Store.bytes s.mem a 128) (!e.committed) k sub t x.cseq)
    let x := s.ctx c
    s.setCtx c { x with marks := x.marks.map (fun m =>
      if m.key == k && m.sub == sub then
        { m with committed := true, first := if m.committed then m.first else x.cseq }
      else m) }

/-! ## TASK_COMMIT -/

/-- A key of the local package. -/
def homeKey (key : Nat) : Bool := decide (key < 2 ^ 52)
def Red.home (r : Red) : Bool := match r.acc.loc with
  | .mem key => homeKey key
  | _ => true

/-- A held DEV store of the local package comes to be performed: the stores of a task are the machine's next steps, in issue
order (R99). -/
def State.devStore (s : State) (a : Acc) (n : Nat) : State :=
  match a.loc with
  | .mem key => if homeKey key then { s with agenda := s.agenda ++ [.devWrite key n a.val] } else s
  | _ => s

/-- A DEV store is performed at its home; one to the register window is a write of the register there. -/
def devWindow (key : Nat) : Bool := decide (2 ^ 47 ≤ key) && decide (key < 2 ^ 47 + 2 ^ 30)

/-- The version's writes and held updates take effect together (R246). -/
def State.publish (s : State) (k : GKey) (t : Task) : State :=
  let core := s.coreOf k
  let s := match t.txend with
    | some (x, d, _) => s.resolveTx k core x d
    | none => s
  let s := t.ver.foldl (fun s p => if homeKey p.1 then s.ownWrite core p.1 [p.2] else s) s
  let s := t.reds.foldl (fun s r => if r.home then s.releaseRed core r else s) s
  t.devs.foldl (fun s d => s.devStore d.1 d.2) s

/-- What a committed task leaves to be applied at other packages: its writes and updates, then its DEV stores one by one. A
store to a page with both DEV and RNODE is one of the latter: held outside the version, and performed with the remote part
(DEDUCED, log entry 111). -/
def Task.far (t : Task) : List Remote :=
  let ver := t.ver.filter (fun p => !homeKey p.1)
  let reds := t.reds.filter (fun r => !r.home)
  let devs := t.devs.filterMap (fun d => match d.1.loc with
    | .mem key => if homeKey key then none
        else some (Remote.mk ((natLE d.2 d.1.val.toNat).zipIdx.map (fun x => (key + x.2, x.1))) [])
    | _ => none)
  (if ver.isEmpty && reds.isEmpty then [] else [⟨ver, reds⟩]) ++ devs

/-- The remote packages that some remote writes go to. -/
def Remote.nodes (r : Remote) : List Nat :=
  r.ver.map (fun p => p.1 / 2 ^ 52) ++ r.reds.filterMap (fun x =>
    match x.acc.loc with
    | .mem key => if key < 2 ^ 52 then none else some (key / 2 ^ 52)
    | _ => none)
/-- What is left of remote parts when the writes to some packages are lost: those to the others stay (R385, R397). -/
def cutRemotes (gone : Nat → Bool) (rs : List Remote) : List Remote :=
  (rs.map (fun r => Remote.mk (r.ver.filter (fun p => !gone (p.1 / 2 ^ 52))) (r.reds.filter (fun x =>
    match x.acc.loc with
    | .mem key => decide (key < 2 ^ 52) || !gone (key / 2 ^ 52)
    | _ => true)))).filter (fun r => !(r.ver.isEmpty && r.reds.isEmpty))
/-- No port of a route to one of them is up: the writes there are lost (R397). -/
def State.unreachable (s : State) (rs : List Remote) : Bool := (rs.flatMap Remote.nodes).any s.cutOff

/-- The effects of a closed task's boundary words: stack entries that were held are written, the others wait their turn
(R277, R365). -/
def State.effects (s : State) (k : GKey) (g : Group) (t : Task) (later : List Task) : State × Group :=
  let lr := (s.segOf k).lr
  t.effs.foldl (fun (a : State × Group) e =>
    match e with
    | .push j p =>
      let again := later.any (fun (u : Task) => u.effs.any (fun e => match e with
        | .push i _ => i == j
        | _ => false))
      (a.1.writeLoc (.scr (s.stkAddr k j)) (stkEntry lr p),
        if again then a.2
        else { a.2 with
          ctl := { a.2.ctl with held := Tbl.del a.2.ctl.held j }
          tasks := a.2.tasks.map (fun (u : Task) =>
            { u with snap := { u.snap with ctl := { u.snap.ctl with held := Tbl.del u.snap.ctl.held j } } }) })
    | e => (a.1, { a.2 with effq := a.2.effq ++ [e] })) (s, g)

/-- The group's oldest task can commit: it is closed, its accesses have performed, its audits under commit hold are
resolved. -/
def State.commitReady (s : State) (k : GKey) (g : Group) (t : Task) : Bool :=
  t.closed && !g.saved && s.fatal.isNone && !g.fallen && !s.doomed k &&
    !g.memq.any (fun o => o.tseq == t.tseq && (match o.kind with
      | .inval _ => false
      | _ => true)) &&
    !((s.lrec k.launch).commitHold && g.audits.any (fun a => a.2 == t.tseq))

/-- The oldest closed task commits; then a group that has ended ends, and one that is to be saved is saved. -/
def State.taskCommit (s : State) (k : GKey) : State :=
  match s.group k with
  | none => s
  | some g =>
    match g.tasks with
    | [] => s.maybeEnd k
    | t :: later =>
      if !s.commitReady k g t then s.politeSave k
      else
        let s := s.publish k t
        let c := s.lctx k.launch
        let s := s.setCtx c { s.ctx c with cseq := (s.ctx c).cseq + 1 }
        let s := if (s.lrec k.launch).commitHold then s else t.marks.foldl (fun s m => s.logMark k t m) s
        match s.group k with
        | none => s
        | some g =>
          let lost := s.unreachable t.far
          let r := s.effects k { g with
              tasks := later, remote := g.remote ++ cutRemotes s.cutOff t.far, linkDown := g.linkDown || lost
              saveWanted := g.saveWanted || t.save } t later
          ((r.1.setGroup k r.2).maybeEnd k).politeSave k

def execTaskCommit (g : GKey) (s : State) : Out := .next (s.taskCommit g)

/-! ## REMOTE_ACKNOWLEDGEMENT (R397) -/

/-- A remote part takes effect at its homes. -/
def State.remoteDo (s : State) (core : Nat) (r : Remote) : State :=
  r.reds.foldl (fun s x => s.releaseRed core x) (r.ver.foldl (fun s p => s.writeLoc (.mem p.1) [p.2]) s)

/-- The oldest remote part of the group's committed tasks takes effect and is acknowledged; those that an ended group
with its key has left go first. What of it has no port of its route up is lost. -/
def State.remoteAck (s : State) (k : GKey) : State :=
  match s.tails.findIdx? (fun t => t.key == k && !t.remote.isEmpty) with
  | some i =>
    match s.tails[i]? with
    | some t =>
      let left := { t with remote := t.remote.drop 1, lost := t.lost || s.unreachable (t.remote.take 1) }
      (cutRemotes s.cutOff (t.remote.take 1)).foldl (fun s r => s.remoteDo t.core r)
        { s with tails := if left.effq.isEmpty && left.remote.isEmpty && !left.lost then s.tails.eraseIdx i else s.tails.set i left }
    | none => s
  | none =>
    match s.group k with
    | none => s
    | some g =>
      match g.remote with
      | [] => s
      | r :: rest =>
        ((cutRemotes s.cutOff [r]).foldl (fun s r => s.remoteDo (s.coreOf k) r) s).setGroup k
          { g with remote := rest, linkDown := g.linkDown || s.unreachable [r] }

def execRemoteAcknowledgement (g : GKey) (s : State) : Out := .next (s.remoteAck g)

end Sys2Proof.Machine
end

