-- ==== Sys2Proof/Machine/Power.lean ====
section
/-! DEFINITION. Tokens on their ring, the Market's clearing, phase loss, droop, heat, and the two words that read them
(R325 to R343). -/
namespace Sys2Proof.Machine

open Sys2Proof

/-! ## Wants (R326) -/

/-- The clause that a group waits to issue when it is ready except for tokens: its position and price. A slot that
issues a clause counts with none, and of two the one that did not issue last goes first (R274). -/
noncomputable def State.pricedClause (s : State) (k : GKey) : Option (Nat × Nat) :=
  (s.group k).bind (fun g =>
    let here (slot : Nat) : Bool := match g.issuing with
      | some i => i.slot == slot
      | none => false
    let try_ (slot : Nat) : Option (Nat × Nat) :=
      if here slot || !s.mayRun k { g with issuing := none } then none
      else (s.cursor k g slot).bind (fun i =>
        let g := g.atTurn (s.protect k) (s.core (s.coreOf k)).cycles
        let w : GW := ⟨s, k, { g with issuing := some i }, i⟩
        let p := sumNat (w.pricesOf w.choice)
        if w.bare && p != 0 then some (i.pos, p) else none)
    (try_ (1 - g.ctl.last)).or (try_ g.ctl.last))

/-- PRICE of a clause by its header. -/
def clausePrice (ws : List Word) : Nat :=
  match ws with
  | [] => 0
  | h :: _ => (unpackHdr h).price.toNat

/-- The prices of the Affinage runs that wait on a core: the shadow and audit runs of its guard queue (R351, R354), and the
search runs of its cluster's slots (R349). -/
def State.affWork (s : State) (core : Nat) : List Nat :=
  let c := s.cluster (clusterOf core)
  (((s.core core).guard).map (fun e => clausePrice (if e.audit then (c.slot e.slot).orig else (c.slot e.slot).cand)) ++
    ((List.range 16).filter (fun i => (c.slot i).st == .search && decide ((c.slot i).agree < (c.slot i).samples.length))).map
      (fun i => clausePrice (c.slot i).cand)).filter (· != 0)

/-- The turn of a pipe is one that no group can use: the pipe is between clauses, and no group of it is ready, or its strict
barrel stands at a slot that is empty or not ready (R22, R319, R320). A group of the pipe that waits for a page within a
clause does not hold it. -/
noncomputable def State.idlePipe (s : State) (core pipe : Nat) : Bool :=
  let mine := s.keys.filterMap (fun k => (s.group k).bind (fun g =>
    if !g.saved && s.coreOf k == core && g.sched.pipe == pipe then some (k, g) else none))
  let ready := mine.filter (fun x => s.readyGroup x.1)
  !mine.any (fun x => x.2.issuing.isSome && x.2.park.isNone) &&
    ready.all (fun x => (s.lrec x.1.launch).strict && decide (x.2.sched.waited < 256) &&
      x.2.sched.slot % 24 != s.pointer core pipe % 24)

/-- A turn of some pipe of a core is idle (R22, R328). -/
noncomputable def State.idleTurn (s : State) (core : Nat) : Bool := (List.range 4).any (s.idlePipe core)

/-- What the ring sees as it looks: for each pipe the ready priced group with the greatest claim, the latch's matched
operations, the Harp's next tile, and the cores with an idle turn. -/
noncomputable def State.freshWants (s : State) (cl : Nat) : State :=
  let of_ (k : GKey) : Option (GKey × Group × Nat × Nat) :=
    (s.group k).bind (fun g =>
      if clusterOf (s.coreOf k) == cl && !g.saved then (s.pricedClause k).map (fun p => (k, g, p)) else none)
  let ready := s.keys.filterMap of_
  let pick (st q : Nat) : Option (GKey × Group × Nat × Nat) :=
    let here := ready.filter (fun x => s.coreOf x.1 == 8 * cl + st && x.2.1.sched.pipe == q)
    here.find? (fun x => !here.any (fun y => y.1 != x.1 && s.before (y.1, y.2.1) (x.1, x.2.1)))
  let busy (st q : Nat) : Bool := s.keys.any (fun k => match s.group k with
    | some g => s.coreOf k == 8 * cl + st && g.sched.pipe == q && !g.saved && g.issuing.isSome && g.park.isNone
    | none => false)
  let stations := (List.range 8).flatMap (fun st => (List.range 4).map (fun q => (st, q)))
  let c := s.cluster cl
  let pipes : Tbl (Nat × Nat) := stations.foldl (fun t x =>
    match pick x.1 x.2 with
    | some y => Tbl.set t (stageKey x.1 x.2) (y.2.2.2, y.1.launch)
    | none => t) []
  let stages : Tbl Stage := stations.foldl (fun t x =>
    match pick x.1 x.2 with
    | some y =>
      let e : Stage := match Tbl.find c.ring.stages (stageKey x.1 x.2) with
        | some o => if o.group = GKey.num y.1 ∧ o.pos = y.2.2.1 then o else ⟨GKey.num y.1, y.2.2.1, s.now, false⟩
        | none => ⟨GKey.num y.1, y.2.2.1, s.now, false⟩
      Tbl.set t (stageKey x.1 x.2) { e with busy := busy x.1 x.2 }
    | none => t) []
  let latch (t : Tbl (Nat × Nat)) (st : Nat) : Tbl (Nat × Nat) :=
    (((s.core (8 * cl + st)).tms.filter (fun p => p.2.matched && !p.2.broken)).zipIdx).foldl
      (fun t x => Tbl.set t (stageKey st (4 + x.2)) (x.1.2.charge, x.1.2.launch)) t
  let t := (List.range 8).foldl latch pipes
  let t := match s.nextTile cl with
    | some (p, _, cost) => Tbl.set t (stageKey 8 0) (cost, p.key.launch)
    | none => t
  let shorts := c.ring.shorts.filter (fun x => ready.any (fun y => GKey.num y.1 == x.1 && y.2.2.1 == x.2.1))
  let spare : Tbl (List Nat) := (List.range 8).foldl (fun t st =>
    if s.idleTurn (8 * cl + st) then Tbl.set t st (s.affWork (8 * cl + st)) else t) []
  s.setCluster cl { c with ring := { c.ring with want := t, stages, shorts, spare } }

/-- A station's W, and whether a reservation stands on the ring. -/
def Ring.level (r : Ring) (st : Nat) : Nat :=
  let w := sumNat ((r.wants st).map (fun x => x.2.1))
  if st = 8 then w else min 512 (w + 32)
def Ring.standing (r : Ring) : Bool := r.resvs.any (fun x => !x.complete)

/-! ## A visit (R326 to R328) -/

/-- Tokens enter the bundle; those to be retired go first (R329). -/
def Ring.enter (r : Ring) (n : Nat) : Ring :=
  let x := min n r.retire
  { r with retire := r.retire - x, bundle := r.bundle + (n - x) }

/-- The bundle's tokens are earmarked, the oldest incomplete reservation first. -/
def Ring.earmark (r : Ring) : Ring :=
  r.resvs.foldl (fun a x =>
    if x.complete then { a with resvs := a.resvs ++ [x] }
    else
      let n := min a.bundle (x.amount - x.got)
      { a with bundle := a.bundle - n, resvs := a.resvs ++ [{ x with got := x.got + n }] }) { r with resvs := [] }

/-- A bucket's surplus above W, of which ballast and Affinage take. -/
def Ring.surplus (r : Ring) (st : Nat) : Nat := if r.standing then 0 else r.bucket st - r.level st
def Ring.takeSurplus (r : Ring) (st n : Nat) (affinage : Bool) : Option Ring :=
  if n = 0 then some r
  else if n ≤ r.surplus st then
    some { (r.setBucket st (r.bucket st - n)) with
      held := r.held ++ [⟨r.nextId, st, n, affinage, !affinage⟩], nextId := r.nextId + 1 }
  else none

/-- A completed reservation whose requester waits for nothing: its tokens are the bucket's (R327). -/
def Ring.dropIdle (r : Ring) (st : Nat) : Ring :=
  r.resvs.foldl (fun r x =>
    if x.st == st && x.complete && !(r.wants st).any (fun w => w.1 == x.req) then
      (r.dropResv st x.req).setBucket st (r.bucket st + x.got)
    else r) r

/-- Visits at which the clause that a stage waits to issue has starved. -/
def Ring.shortOf (r : Ring) (x : Stage) : Nat :=
  ((r.shorts.find? (fun y => y.1 == x.group && y.2.1 == x.pos)).map (fun y => y.2.2)).getD 0

/-- The clause that a stage waits to issue has starved at one more visit (R343). -/
def Ring.shortBy (r : Ring) (st q : Nat) : Ring :=
  match Tbl.find r.stages (stageKey st q) with
  | none => r
  | some x =>
    let n := r.shortOf x
    { r with shorts := (x.group, x.pos, min 65535 (n + 1)) :: (r.served x.group x.pos).shorts }

/-- A requester that the visit leaves without its amount starves; the demand counts what it starved for (R327, R332,
R343). One that the visit fills, or that waits for nothing, starves no longer. -/
def Ring.starveAt (r : Ring) (st q : Nat) : Ring :=
  match (r.wants st).find? (fun w => w.1 == q) with
  | none => { r with starved := Tbl.del r.starved (stageKey st q) }
  | some (_, amount, launch) =>
    if r.bucket st + r.mine st q < amount then
      { r.shortBy st q with
        starved := Tbl.set r.starved (stageKey st q) (min 65535 ((Tbl.find r.starved (stageKey st q)).getD 0 + 1))
        demand := addTo r.demand launch amount }
    else { r with starved := Tbl.del r.starved (stageKey st q) }

def Ring.starve (r : Ring) (st : Nat) : Ring := (List.range 32).foldl (fun r q => r.starveAt st q) r

/-- What a station can take as ballast: the cluster's held tokens lack so much of their floor, or its surplus ends. -/
def Ring.gap (r : Ring) (st : Nat) : Nat := min (r.floor - r.heldTotal) (r.surplus st)

/-- Ballast that a station holds for Affinage work of a price. -/
def Ring.given (r : Ring) (st price : Nat) : Nat :=
  (r.held.filter (fun h => h.st == st && h.affinage && h.ballast && h.amount == price)).length
/-- Ballast for Affinage work that waits at a station: its price, unless it holds as much for each of the `n` runs of that
price already. -/
def Ring.giveWork (st n : Nat) (r : Ring) (price : Nat) : Ring :=
  if price == 0 || decide (r.gap st < price) || decide (n ≤ r.given st price) then r
  else
    let r := (r.takeSurplus st price true).getD r
    let given : List Held := (r.held.getLast?.map (fun (h : Held) => { h with ballast := true })).toList
    { r with held := r.held.dropLast ++ given }

/-- Ballast at a visit of a core with an idle turn, up to what the cluster's held tokens lack of their floor: first for
the Affinage work that waits there, then in zero-effect issue (R328, R334). -/
def Ring.ballast (r : Ring) (st : Nat) : Ring :=
  match Tbl.find r.spare st with
  | none => r
  | some work =>
    let r := work.foldl (fun r p => Ring.giveWork st (work.count p) r p) r
    (r.takeSurplus st (r.gap st) false).getD r

/-- The bundle visits the station it has reached and goes on to the next. As it comes to station 0, the pool that the last
clearing gave applies if it does not yet: no pool arrives later than one revolution after its clearing (R330). -/
def Ring.visit (r : Ring) : Ring :=
  let st := r.pos
  let r := if st = 0 then r.change else r
  let r := r.dropIdle st
  let r :=
    if r.standing then
      let n := r.bucket st
      ((r.setBucket st 0).enter n).earmark
    else
      let r := r.ballast st
      let w := r.level st
      let r := (r.setBucket st (min w (r.bucket st))).enter (r.bucket st - w)
      let n := min r.bundle (w - r.bucket st)
      { r.setBucket st (r.bucket st + n) with bundle := r.bundle - n }
  let r := r.starve st
  { r with heldSum := r.heldSum + r.heldTotal, samples := r.samples + 1, pos := (st + 1) % 9 }

def State.modRing (s : State) (cl : Nat) (f : Ring → Ring) : State :=
  let c := s.cluster cl
  s.setCluster cl { c with ring := f c.ring }

/-- A cycle, or more, passes on a cluster and on those of its cores that wait for no word of a clause. -/
def State.tickRing (s : State) (cl : Nat) : State :=
  ((List.range 8).foldl (fun s j =>
    s.countTo (8 * cl + j) ((s.core (8 * cl + j)).cycles + 1 + (Config.free s.now (2000 + j)).toNat)) s).tickCluster cl 1

/-- The bundle passes one station in each cycle of the cluster (R325). -/
def execStationVisit (cl : Nat) (s : State) : Out := .next ((s.modRing cl Ring.visit).tickRing cl)

/-- TOKEN_RETURN: an activity window ends. -/
def execTokenReturn (cl id : Nat) (s : State) : Out := .next (s.modRing cl (fun r => r.give id))

/-- A requester that has starved at 16 successive visits reserves its amount; a stage whose completed reservation has
become too small may make a fresh one, which keeps what it holds. -/
def Ring.reserve (r : Ring) (st req : Nat) : Ring :=
  match (r.wants st).find? (fun w => w.1 == req), r.resv st req with
  | none, _ => r
  | some (_, amount, _), old =>
    if req < 5 && decide (16 ≤ (Tbl.find r.starved (stageKey st req)).getD 0) then
      match old with
      | none => { r with resvs := r.resvs ++ [⟨st, req, amount, 0, false⟩] }
      | some x =>
        if x.complete && decide (x.got < amount) then
          { r.dropResv st req with resvs := (r.dropResv st req).resvs ++ [⟨st, req, amount, x.got, false⟩] }
        else r
    else r

def execReservation (cl st req : Nat) (s : State) : Out := .next (s.modRing cl (fun r => r.reserve st req))

/-- The earmarked tokens arrive: the oldest reservation of the station that the bundle has reached and whose amount is
met completes. -/
def Ring.complete (r : Ring) : Ring :=
  match r.resvs.find? (fun x => x.st == r.pos && !x.complete && x.got == x.amount) with
  | none => r
  | some x =>
    { r with
      resvs := r.resvs.map (fun y => if y.st == x.st && y.req == x.req then { y with complete := true } else y)
      starved := Tbl.del r.starved (stageKey x.st x.req) }

def execReservationComplete (cl : Nat) (s : State) : Out := .next (s.modRing cl Ring.complete)

/-- A ring is to receive a pool within one revolution (R330). One that has still to arrive is due no later for it. -/
def Ring.expect (r : Ring) (n : Nat) (counts : List Nat) : Ring :=
  { r with newPool := n, since := if r.pool = r.newPool then counts else r.since }

/-- POOL_CHANGE (R329). -/
def execPoolChange (cl : Nat) (s : State) : Out := .next (s.modRing cl Ring.change)

/-! ## Budgets (R331, R336) -/

def popNat (n : Nat) (x : Nat) : Nat := ((List.range n).filter (fun i => x.testBit i)).length
def Chiplet.phases (c : Chiplet) : Nat := popNat 8 c.phok.toNat
/-- B_c with `n` phases. -/
def budget (ilim base tkw n : Nat) : Nat := (ilim * n - 8 * base) * 1000 / (8 * tkw)
def progressFloor : Nat := 24 * 2304
def State.budgetOf (s : State) (ch n : Nat) : Nat :=
  let c := s.chiplet ch
  budget c.ilim.toNat c.base.toNat s.market.tkw.toNat n

/-! ## A clearing (R330 to R334, R338 to R342) -/

/-- ALLOW (R339). -/
def allowOf (m : Market) (tdie tdram : Nat) : Nat :=
  4095 - 16 * m.diesl.toNat * (tdie - m.dieknee.toNat) - 16 * m.drsl.toNat * (tdram - 85)
/-- Tc. -/
def tcOf (m : Market) (t : Thermal) : Nat := max (t.tdie.toNat - m.dieoff.toNat) t.tdram.toNat

/-- A cluster's sensors are sampled. -/
def Thermal.sample (m : Market) (t : Thermal) (x : Sample) : Thermal :=
  let t := { t with
    tdram := x.tdram, tdie := x.tdie
    rf2x := if 86 ≤ x.tdram.toNat then true else if x.tdram.toNat ≤ 83 then false else t.rf2x
    allow := allowOf m x.tdie.toNat x.tdram.toNat, sent := false }
  let tc := tcOf m t
  { t with hot := if m.thot.toNat ≤ tc then true else if tc + 3 ≤ m.thot.toNat then false else t.hot }

/-- HOTCAP moves (R342). -/
def Market.step (m : Market) (allhot : Bool) : Market :=
  let d := 16 * m.astep.toNat
  { m with allhot, hotcap := if allhot then m.hotcap - d else min 4095 (m.hotcap + d) }

/-- A cluster's bid: over the launches with blocks on it (R332). -/
def State.bid (s : State) (cl : Nat) : Nat :=
  (s.cluster cl).ring.demand.foldl (fun a p =>
    if s.blocks.any (fun b => b.1 / 2 ^ 32 == p.1 && clusterOf b.2.core == cl && (b.2.st == .live || b.2.st == .held)) then
      a + ((s.lrec p.1).prio + 1) * p.2
    else a) 0

/-- Mean of the tokens held over the interval. -/
def Ring.mean (r : Ring) : Nat := r.heldSum / max r.samples 1
def Ring.largest (r : Ring) : Nat := r.resvs.foldl (fun a x => if x.complete then a else max a x.amount) 0

/-- The pools of one chiplet: bids, caps and floors by cluster (R333). -/
def pools (b : Nat) (bids caps floors : List Nat) : List Nat :=
  let n := List.range 24
  let at_ (xs : List Nat) (k : Nat) : Nat := xs.getD k 0
  let b1 := b - sumNat floors
  let all := sumNat bids
  let lim (k : Nat) : Nat := at_ caps k - at_ floors k
  let raw (k : Nat) : Nat := if all = 0 then 0 else b1 * at_ bids k / all
  let cut := sumNat (n.map (fun k => raw k - lim k))
  let free := n.filter (fun k => decide (raw k ≤ lim k))
  let fb := sumNat (free.map (at_ bids))
  n.map (fun k =>
    at_ floors k +
      (if lim k < raw k then lim k else min (lim k) (raw k + (if fb = 0 then 0 else cut * at_ bids k / fb))))

/-- The Market clears one chiplet: ballast floors, then pools. -/
def State.clearChiplet (s : State) (ch : Nat) : State :=
  let m := s.market
  let ids := (List.range 24).map (fun k => 24 * ch + k)
  let means := ids.map (fun cl => (s.cluster cl).ring.mean)
  let o := sumNat means
  let f := o - m.rdn.toNat * 1000 / m.tkw.toNat
  let bal := means.map (fun x => if o = 0 then 0 else f * x / o)
  let floors := (ids.zip bal).map (fun x => max (s.cluster x.1).ring.largest x.2)
  let caps := ids.map (fun cl => min 4095 (min (s.cluster cl).therm.allow m.hotcap))
  let ps := pools (s.budgetOf ch (s.chiplet ch).phases) (ids.map s.bid) caps floors
  ((ids.zip ps).zip bal).foldl (fun s x =>
    s.modRing x.1.1 (fun r => { r.expect x.1.2 (s.counts x.1.1) with floor := x.2, demand := [], heldSum := 0, samples := 0 })) s

/-- The whole clearing: temperatures and allowances, the all-hot cap, ballast floors, pools. -/
def State.clearing (s : State) (temps : List Sample) : State :=
  let s := (List.range 192).foldl (fun s cl =>
    let c := s.cluster cl
    s.setCluster cl { c with therm := c.therm.sample s.market (temps.getD cl ⟨0, 0⟩) }) s
  let allhot := (List.range 192).all (fun cl => (s.cluster cl).therm.hot)
  let s := { s with market := s.market.step allhot }
  let s := (List.range 8).foldl (fun s ch => s.clearChiplet ch) s
  { s with market := { s.market with epoch := s.market.epoch + 1 } }

/-- MARKET_CLEARING: none is made before HD_BOOT.STATE is READY. -/
def execMarketClearing (temps : List Sample) (s : State) : Out :=
  .next (if s.host.state = 2 && s.fatal.isNone then s.clearing temps else s)

/-! ## Phase loss and droop (R336, R337) -/

/-- A chiplet leaves service: the blocks it has claimed and not released return to their launches, and it pulls no
more. The groups on it are saved by forced cuts. -/
def State.chipletOff (s : State) (ch : Nat) : State :=
  let mine (b : Nat × Block) : Bool := b.2.st == BlockSt.held && chipletOf b.2.core == ch
  let back := s.blocks.filter mine
  let s := s.setChiplet ch { s.chiplet ch with off := true }
  let s := { s with blocks := s.blocks.filter (fun b => !mine b), market := { s.market with choff := true } }
  back.foldl (fun s b => (s.modLaunch (b.1 / 2 ^ 32) (fun x => { x with returns := x.returns ++ [b.1 % 2 ^ 32] })).retireLaunch
    (clusterOf b.2.core) (b.1 / 2 ^ 32)) s

def execRegulatorPhaseLoss (ch phase : Nat) (s : State) : Out :=
  .next (
    let c := s.chiplet ch
    if 8 ≤ ch || 8 ≤ phase || !c.phok.getLsbD phase then s
    else
      let c := { c with phok := c.phok &&& ~~~((1 : BitVec 8) <<< phase), loss := true }
      let n := c.phases
      let s := s.setChiplet ch c
      let s := ({ s with market := { s.market with phloss := true } }).hostInt 0
      let s := (List.range 24).foldl (fun s k => s.modRing (24 * ch + k) (fun r =>
        { r.expect (r.newPool * n / 8) (s.counts (24 * ch + k)) with floor := r.floor * n / 8, heldSum := r.heldSum * n / 8 })) s
      if s.budgetOf ch n < progressFloor && !c.off then s.chipletOff ch else s)

def execDroopStart (cl : Nat) (s : State) : Out :=
  .next (
    let c := s.cluster cl
    if c.therm.stretched then s
    else s.setCluster cl { c with
      therm := { c.therm with stretched := true, since := c.cycles, events := c.therm.events + 1 } })

/-- The cluster runs `cycles` more cycles, and the stretch ends once it has lasted at least 64. -/
def execDroopEnd (cl cycles : Nat) (s : State) : Out :=
  .next (
    let c := s.cluster cl
    let n := c.cycles + cycles
    if !c.therm.stretched then s
    else if n - c.therm.since < 64 then (s.setCluster cl { c with cycles := n }).poolDue cl
    else (s.setCluster cl { c with
      cycles := n, therm := { c.therm with stretched := false, strcyc := c.therm.strNow n } }).poolDue cl)

/-! ## `tkpool` and `tkstat` (R343) -/

def GW.poolWord (w : GW) : BitVec 64 :=
  let c := w.s.cluster (clusterOf w.core)
  fld (w.s.market.epoch.setWidth 16) 48 ||| fld (BitVec.ofNat 12 c.therm.allow) 36 |||
    fld (BitVec.ofNat 12 c.ring.idle) 24 ||| fld (BitVec.ofNat 12 c.ring.pool) 0

/-- `tkstat`: the starved visits are those of the priced clause that the stage waits to issue; none while no clause
waits. -/
def GW.statWord (w : GW) : BitVec 64 :=
  let r := (w.s.cluster (clusterOf w.core)).ring
  let st := w.core % 8
  let starved := match Tbl.find r.stages (stageKey st w.g.sched.pipe) with
    | some x => r.shortOf x
    | none => 0
  let mine := match r.resv st w.g.sched.pipe with
    | some x => !x.complete
    | none => false
  fld w.g.sched.taken 32 ||| bit (r.held.any Held.ballast) 17 ||| bit mine 16 |||
    BitVec.ofNat 64 starved

def execTkpool (f : VI) (s : State) : Out :=
  grp s fun w => w.grpOp (w.predBits f.mask) (w.put (w.g.resultG f.d w.poolWord 2))
def execTkstat (f : VI) (s : State) : Out :=
  grp s fun w => w.grpOp (w.predBits f.mask) (w.put (w.g.resultG f.d w.statWord 2))

end Sys2Proof.Machine
end

