-- ==== Sys2Proof/Machine/Affinage.lean ====
section
/-! DEFINITION. What Affinage does in idle turns: search, shadow runs, audits, culls, and its clocks (R345 to R357,
R361). -/
namespace Sys2Proof.Machine
open Sys2Proof

/-- HEAT_DECAY: every count of the core's heat table is halved. -/
def execHeatDecay (core : Nat) (s : State) : Out :=
  .next (
    let c := s.core core
    s.setCore core { c with heat := c.heat.map (fun p => (p.1, { p.2 with count := p.2.count >>> 1 })) })

def State.setSlot (s : State) (cl i : Nat) (t : SubSlot) : State :=
  let c := s.cluster cl
  s.setCluster cl { c with slots := Tbl.set c.slots i t }

/-- SAMPLING_TIMEOUT: a slot with 16 samples or more goes on to SEARCH. -/
def execSamplingTimeout (cl slot : Nat) (s : State) : Out :=
  .next (
    let t := (s.cluster cl).slot slot
    if t.st == .sampling && decide (16 ≤ t.samples.length) then s.setSlot cl slot { t with st := .search } else s)

/-! ## Candidates (R348, R349) -/

/-- Engine class of an eligible word; none for `nop`, which any clause may hold. -/
def wordClass (w : Word) : Option Nat := if w == nopWord then none else some (classOf (opOf w))
/-- CLASS under R32: the one class of the words, or mixed. -/
def clauseClass (ws : List Word) : BitVec 4 :=
  match ws.filterMap wordClass with
  | [] => 15
  | c :: r => if r.all (· == c) then BitVec.ofNat 4 c else 15

/-- PRICE and latency: the greatest k + L over the synchronous words. -/
def clauseCost (ws : List Word) : Nat × Nat :=
  (sumNat (ws.map wordPrice),
    ws.zipIdx.foldl (fun a p => if (eligSig p.1).isSome then max a (p.2 + wordLat p.1) else a) 0)
def cheaper (a b : Nat × Nat) : Bool := decide (a.1 < b.1) || (a.1 == b.1 && decide (a.2 < b.2))

def RW.reads (a b : RW) : Bool :=
  a.rv.any (b.wv.contains ·) || a.rg.any (fun r => r != 0 && b.wg.contains r) ||
    a.rm.any (fun r => r != 0 && b.wm.contains r) || a.rp.any (fun r => r != 0 && b.wp.contains r)

/-- The distance rule of R71. -/
def distances (ws : List Word) : Bool :=
  ws.zipIdx.all (fun k => ws.zipIdx.all (fun i =>
    !decide (i.2 < k.2) || !(wordRW k.1).reads (wordRW i.1) || decide (wordLat i.1 ≤ k.2 - i.2)))

/-- A word that the errata mask disables (R301). -/
def Chiplet.disablesRaw (c : Chiplet) (w : Word) : Bool :=
  let op := opOf w
  let vi := op == 0x05 || op == 0x0C || op == 0x13 || op == 0x32
  let fn : BitVec 8 := if vi then (fn6Of w).setWidth 8 else fn8Of w
  c.activeErrata.any (fun e =>
    e.extractLsb' 0 6 == op && e.extractLsb' 6 8 == fn &&
      (e.getLsbD 19 || e.extractLsb' 14 5 == (if vi then 0 else (unpackV3 w).ty)))

/-- Whether a clause is a candidate for an original, by every test that needs no sample. -/
def Chiplet.candidateOk (c : Chiplet) (orig cand : List Word) : Bool :=
  match orig, cand with
  | oh :: ow, ch :: cw =>
    let h := unpackHdr oh
    let want : Hdr := { h with
      cls := clauseClass cw, count := BitVec.ofNat 4 (cw.length - 1), ns := 0, price := BitVec.ofNat 12 (clauseCost cw).1 }
    let lo := liveOf ow
    let lc := liveOf cw
    decide (1 ≤ cw.length) && decide (cw.length ≤ 16) && ch == packHdr want && cw.all eligWord && distances cw &&
      cheaper (clauseCost cw) (clauseCost ow) && !cw.any c.disablesRaw &&
      lc.rv.all (fun r => lo.rv.contains r || lo.wv.contains r) && lc.rg.all (fun r => lo.rg.contains r || lo.wg.contains r) &&
      lc.rm.all (fun r => lo.rm.contains r || lo.wm.contains r) && lc.rp.all (fun r => lo.rp.contains r || lo.wp.contains r)
  | _, _ => false

/-- Two lists name the same registers. -/
def sameRegs (a b : List Nat) : Bool := a.all b.contains && b.all a.contains

/-- A word comes of a word of the original by an operator of R348: it stands as it was, or it writes the same registers under
the same masks and reads no other register, and either it reads fewer, whose values it then folds, or it costs less.
Deleting and reordering leave the words themselves alone. What strength reduction may make of a word is not defined
beyond that (DESIGN CHOICE, log entry 20). -/
def wordFrom (o c : Word) : Bool :=
  let x := wordRW o
  let y := wordRW c
  c == o ||
    (sameRegs x.wv y.wv && sameRegs x.wg y.wg && sameRegs x.wm y.wm && sameRegs x.wp y.wp && sameRegs x.rm y.rm &&
      sameRegs x.rp y.rp && y.rv.all x.rv.contains && y.rg.all x.rg.contains &&
      (!x.rv.all y.rv.contains || !x.rg.all y.rg.contains || cheaper (clauseCost [c]) (clauseCost [o])))

/-- The words of a candidate come each of another word of the original. -/
def derived (ow : List Word) (cw : List (Nat × Word)) : Bool :=
  decide ((cw.map Prod.fst).Nodup) && cw.all (fun x => (ow[x.1]?).any (fun o => wordFrom o x.2))

/-- The live-ins that a candidate folds: lane registers (true) and `g` registers that a word no longer reads. -/
def foldsOf (ow : List Word) (cw : List (Nat × Word)) : List (Bool × Nat) :=
  let live := liveOf ow
  cw.flatMap (fun x =>
    let o := wordRW (ow.getD x.1 0)
    let c := wordRW x.2
    ((live.rv.filter (fun r => o.rv.contains r && !c.rv.contains r)).map (fun r => (true, r))) ++
      ((live.rg.filter (fun r => o.rg.contains r && !c.rg.contains r)).map (fun r => (false, r))))

/-! ## Samples and envelopes (R350, R353) -/

/-- The live-in set of a sample. -/
def Exec.liveSet (x : Exec) (r : RW) : Exec :=
  { x with
    v := x.v.filter (fun p => r.rv.contains p.1), g := x.g.filter (fun p => r.rg.contains p.1)
    m := x.m.filter (fun p => r.rm.contains p.1), gp := x.gp.filter (fun p => r.rp.contains p.1)
    out := [], flags := 0 }

def distinct (xs : List Exec) : Nat := (xs.foldl (fun (ys : List Exec) x => if ys.contains x then ys else x :: ys) []).length

/-- The values of a live-in in the lanes that count. -/
def Exec.vVals (x : Exec) (r : Nat) : List (BitVec 32) := x.lanes.map (fun l => ((Tbl.find x.v r).getD []).getD l 0)
def Exec.gVals (x : Exec) (r : Nat) : List (BitVec 64) := if x.lanes.isEmpty then [] else [(Tbl.find x.g r).getD 0]

/-- An execution's live-ins enter the envelope, every lane of them (R353). -/
def SubSlot.widen (t : SubSlot) (x : Exec) : SubSlot :=
  { t with
    envV := t.envV.map (fun p => (p.1, ((Tbl.find x.v p.1).getD []).foldl (fun e v => e.add v.toInt) p.2))
    envG := t.envG.map (fun p => (p.1, p.2.add ((Tbl.find x.g p.1).getD 0).toInt)) }

/-- A value that every lane of every sample held. -/
def oneValue {w : Nat} (xs : List (BitVec w)) : Option (BitVec 64) :=
  match xs with
  | [] => none
  | x :: r => if r.all (· == x) then some (x.setWidth 64) else none

/-- The envelope of a candidate's slot as its samples give it; a folded live-in has its one value (R353). -/
def SubSlot.envelope (t : SubSlot) : SubSlot :=
  let lo := liveOf (t.orig.drop 1)
  let e : Env := ⟨false, false, 0, none⟩
  let fv (r : Nat) : Env :=
    if t.folds.contains (true, r) then { e with folded := oneValue (t.samples.flatMap (fun x => x.vVals r)) } else e
  let fg (r : Nat) : Env :=
    if t.folds.contains (false, r) then { e with folded := oneValue (t.samples.flatMap (fun x => x.gVals r)) } else e
  let t := { t with
    envV := lo.rv.foldl (fun m r => Tbl.set m r (fv r)) []
    envG := lo.rg.foldl (fun m r => Tbl.set m r (fg r)) [] }
  t.samples.foldl SubSlot.widen t

/-- The folding condition (R348): a folded live-in held one value in every lane that counts of every sample. -/
def SubSlot.foldsOk (t : SubSlot) (folds : List (Bool × Nat)) : Bool :=
  let lo := liveOf (t.orig.drop 1)
  folds.all (fun p =>
    if p.1 then lo.rv.contains p.2 && (oneValue (t.samples.flatMap (fun x => x.vVals p.2))).isSome
    else lo.rg.contains p.2 && (oneValue (t.samples.flatMap (fun x => x.gVals p.2))).isSome)

/-! ## SEARCH (R348 to R350) -/

/-- Ballast that waits for Affinage work at a station is used before the bucket's surplus (R328, R334). -/
def Ring.runTokens (r : Ring) (st n : Nat) : Option Ring :=
  match r.held.find? (fun h => h.st == st && h.affinage && h.ballast && decide (n ≤ h.amount)) with
  | some h =>
    some { (r.setBucket st (r.bucket st + (h.amount - n))) with
      held := r.held.map (fun (x : Held) => if x.id = h.id then { x with amount := n, ballast := false } else x) }
  | none => r.takeSurplus st n true

/-- An Affinage run on a core: in a turn that no ready group can use, for its price (R22, R328). -/
def State.buyRun (s : State) (cl st n : Nat) : Option State :=
  let c := s.cluster cl
  if !Tbl.has c.ring.spare st then none
  else
    (c.ring.runTokens st n).map (fun r => s.setCluster cl { c with ring := r })

/-- The slot is given up and its clause is not tried again. -/
def State.giveUp (s : State) (cl i : Nat) : State :=
  let t := (s.cluster cl).slot i
  ((s.retireSlot cl i).setTried cl t.orig)

/-- What the rewrite checker finds of a kept candidate (R350): it shows it equal to the original only where it gives equal
outputs for every input, and only within its steps. -/
noncomputable def State.checkKept (s : State) (cl i : Nat) : State :=
  let t := (s.cluster cl).slot i
  let eq := @decide (∀ x : Exec, s.agrees ⟨t.launch, 0, 0⟩ x (t.orig.drop 1) (t.kept.drop 1) = true) (Classical.propDecidable _)
  if t.kept.isEmpty then s else s.setSlot cl i { t with keptProved := Config.proves t.orig t.kept && eq }

/-- The search ends: the kept candidate goes on to RIPENING if the policy allows its evidence. With MLEN clear a SAMPLED
one does not (R360), and the slot is given up as it is without evidence (R346). -/
def State.endSearch (s : State) (cl i : Nat) : State :=
  let t := (s.cluster cl).slot i
  let r := s.lrec t.launch
  if t.kept.isEmpty then s.giveUp cl i
  else
    let proved := t.keptProved
    let sets := distinct (t.samples.map (fun e => e.liveSet (liveOf (t.orig.drop 1))))
    if proved || (r.aff == 2 && decide (min (max r.cover 1) 64 ≤ sets) && (s.ctx (s.lctx t.launch)).mlen) then
      let t : SubSlot := { t with st := .ripening, cand := t.kept, folds := t.keptFolds, proved, agree := 0 }
      s.setSlot cl i t.envelope
    else s.giveUp cl i

/-- A candidate that agrees with every sample is kept if it is the first or costs less than the one kept (R349). -/
def SubSlot.keep (t : SubSlot) : SubSlot :=
  let t1 : SubSlot := { t with cand := [], folds := [], agree := 0 }
  if t.kept.isEmpty || cheaper (clauseCost (t.cand.drop 1)) (clauseCost (t.kept.drop 1)) then
    { t1 with kept := t.cand, keptFolds := t.folds }
  else t1

/-- One act of the search: it forms a candidate or ends, or runs the candidate on the next of the samples, or keeps or
drops the candidate that has met them all. When it ends is not defined. -/
def State.search (s : State) (cl i : Nat) : State :=
  let t := (s.cluster cl).slot i
  if t.st != .search then s
  else if t.cand.isEmpty then
    if s.coin 62 then s.endSearch cl i
    else
      let x := Config.candidate t.orig s.now
      let cand := x.1 :: x.2.map Prod.snd
      let folds := foldsOf (t.orig.drop 1) x.2
      if (s.chiplet (chipletOfCl cl)).candidateOk t.orig cand && derived (t.orig.drop 1) x.2 && t.foldsOk folds then
        s.setSlot cl i { t with cand, folds, agree := 0 }
      else s
  else
    match t.samples[t.agree]? with
    | none => s.setSlot cl i t.keep
    | some e =>
      match s.buyRun cl ((Config.free s.now 63).toNat % 8) (clauseCost (t.cand.drop 1)).1 with
      | none => s
      | some s =>
        s.setSlot cl i (if s.agrees ⟨t.launch, 0, 0⟩ e (t.orig.drop 1) (t.cand.drop 1) then { t with agree := t.agree + 1 }
          else { t with cand := [], folds := [], agree := 0 })

def execAffinageSearch (cl slot : Nat) (s : State) : Out := .next (s.search cl slot)

/-! ## Shadow runs (R351) -/

def State.dropGuardEnt (s : State) (core : Nat) (e : GuardEnt) : State :=
  let c := s.core core
  s.setCore core { c with guard := c.guard.filter (fun x => x.id != e.id) }

/-- Maturity: the envelope takes in the captures that still wait too (R353). -/
def State.mature (s : State) (cl i : Nat) (t : SubSlot) : State :=
  let left := (List.range 8).flatMap (fun j =>
    (s.core (8 * cl + j)).guard.filter (fun e => !e.audit && e.slot == i))
  s.setSlot cl i { left.foldl (fun t e => t.widen e.ex) t with st := .mature, execs := 0 }

/-- The candidate runs on the first captured execution of a ripening slot. -/
def State.shadow (s : State) (core : Nat) : State :=
  let cl := clusterOf core
  match (s.core core).guard.find? (fun e => !e.audit) with
  | none => s
  | some e =>
    let t := (s.cluster cl).slot e.slot
    if t.st != .ripening then s.dropGuardEnt core e
    else
      match s.buyRun cl (core % 8) (clauseCost (t.cand.drop 1)).1 with
      | none => s
      | some s =>
        let s := s.dropGuardEnt core e
        if s.agrees e.key e.ex (t.orig.drop 1) (t.cand.drop 1) then
          let t := { t.widen e.ex with agree := t.agree + 1 }
          let n := (s.cluster cl).ripen.toNat
          if n ≤ t.agree then s.mature cl e.slot t else s.setSlot cl e.slot t
        else s.giveUp cl e.slot

def execShadowRun (core : Nat) (s : State) : Out := .next (s.shadow core)

/-! ## Culls (R357) -/

/-- The oldest uncommitted task of a group that carries a mark. -/
def Group.markedFrom (g : Group) (sub : BitVec 32) : Option Nat :=
  (g.tasks.zipIdx.find? (fun p => p.1.marks.contains sub)).map (fun p => p.2)

/-- Resident groups that a cull cuts back, with the task each returns to. -/
def State.cullTargets (s : State) (launch : Nat) (sub : BitVec 32) : List (GKey × Nat) :=
  s.keys.filterMap (fun k =>
    if k.launch != launch then none
    else (s.group k).bind (fun g => if g.saved then none else (g.markedFrom sub).map (fun i => (k, i))))

/-- Entries in ascending order of first commit sequence number. -/
def insEnt (e : MarkEnt) (es : List MarkEnt) : List MarkEnt :=
  match es with
  | [] => [e]
  | x :: r => if e.first.toNat < x.first.toNat then e :: x :: r else x :: insEnt e r

/-- A failed audit culls its substitution at one instant: its slot enters CULLED, every uncommitted marked task restarts
on the original, and every entry whose run has committed is recalled. The slot is free again once no entry is left to
recall a second time (R346). -/
def State.cull (s : State) (cl i : Nat) : State :=
  let t := (s.cluster cl).slot i
  let sub := subId cl t.serial
  let c := s.lctx t.launch
  let s := (s.cullTargets t.launch sub).foldl (fun s x => s.cutBack x.1 x.2) s
  let x := s.ctx c
  let mine := (x.marks.filter (fun e => e.sub == sub && e.committed)).foldl (fun es e => insEnt e es) []
  let s := mine.foldl (fun s e => s.recallEntry c e false) s
  let x := s.ctx c
  let s := s.setCtx c { x with
    marks := (x.marks.filter (fun e => !(e.sub == sub && (!e.committed || (s.group e.key).isNone)))).map (fun e =>
      if e.sub == sub then { e with recalled := true } else e) }
  let y := s.cluster cl
  ((s.setCluster cl { y with
    slots := Tbl.set y.slots i { t with st := .culled, samples := [], cand := [], kept := [] }
    culls := y.culls + 1 }).dropGuard cl i).leaveCulled c sub

/-- A kill of the gang and a trap that a group has met come before an Affinage cut-back (R390). -/
def State.yields (s : State) (k : GKey) : Bool :=
  s.doomed k || (s.group k).any (fun g => g.trap.isSome && !g.reportDue)

/-- A cull waits while a group it cuts back is inside a clause or has operations of its own running, or is to be killed or
to trap first. -/
def State.cullReady (s : State) (cl i : Nat) : Bool :=
  let t := (s.cluster cl).slot i
  !(s.cullTargets t.launch (subId cl t.serial)).any (fun x => s.yields x.1 || s.cutBusy x.1 x.2 false)

/-! ## Audits (R354 to R356) -/

/-- An audit ends: it holds neither a guard entry nor its group any longer. -/
def State.endAudit (s : State) (core : Nat) (e : GuardEnt) : State :=
  (s.dropGuardEnt core e).modGroup e.key (fun g => { g with audits := g.audits.filter (fun a => a.1 != e.id) })

/-- The original runs on the first captured execution that is due for audit. -/
def State.audit (s : State) (core : Nat) : State :=
  let cl := clusterOf core
  match (s.core core).guard.find? (fun e => e.audit) with
  | none => s
  | some e =>
    let t := (s.cluster cl).slot e.slot
    if t.st != .mature then s.endAudit core e
    else
      match s.buyRun cl (core % 8) (clauseCost (t.orig.drop 1)).1 with
      | none => s
      | some s1 =>
        let x := s1.runOut e.key e.ex (t.orig.drop 1) (joinRW (liveOf (t.orig.drop 1)) (liveOf (t.cand.drop 1)))
        if x.out == e.ex.out && x.flags == e.ex.flags then s1.endAudit core e
        else if s1.cullReady cl e.slot then (s1.endAudit core e).cull cl e.slot
        else s

def execAuditRun (core : Nat) (s : State) : Out := .next (s.audit core)

/-- AUDIT_OVERDUE: the audit is discarded; its task is cut back if it has not committed, and counted in AUDDROP if it
has. -/
def State.auditLate (s : State) (core : Nat) : State :=
  match (s.core core).guard.find? (fun e => e.audit) with
  | none => s
  | some e =>
    match (s.group e.key).bind (fun g => (g.tasks.zipIdx.find? (fun p => p.1.tseq == e.tseq)).map (fun p => p.2)) with
    | some i => if s.yields e.key || s.cutBusy e.key i false then s else (s.endAudit core e).cutBack e.key i
    | none =>
      let s := s.endAudit core e
      let c := s.cluster (clusterOf core)
      s.setCluster (clusterOf core) { c with auddrop := c.auddrop + 1 }

def execAuditOverdue (core : Nat) (s : State) : Out := .next (s.auditLate core)

end Sys2Proof.Machine
end

