-- ==== Sys2Proof/Machine/Links.lean ====
section
/-! DEFINITION. Clezil link ports, and errors of storage elements: their logs and the sweeps that look for them (R382 to
R387, R396, R397), and the caches' own evictions and fills (R100, R225, R229). -/
namespace Sys2Proof.Machine
open Sys2Proof

/-! ## Ports (R396, R397) -/

/-- The lowest port of a set. -/
def lowestPort (ports : BitVec 12) : Option Nat := (List.range 12).find? (fun i => ports.getLsbD i)

/-- Whether committed remote writes of a group on their way to a package are lost with a port: always where no other port
of the route is up. Where another is, it is not defined. -/
def State.lostOver (s : State) (port : Nat) (k : GKey) (n : Nat) : Bool :=
  let up := Store.read s.host.routes n &&& s.host.up
  lowestPort up == some port && (up &&& ~~~((1 : BitVec 12) <<< port) == 0 || s.coin (300 + GKey.num k))

/-- A port goes down: DOWN, UP and the link interrupt; the gangs of groups, ended ones too, whose committed writes it took
with it are to be killed; writes to other packages stay (R385). -/
def State.portDown (s : State) (port : Nat) : State :=
  let s0 := s
  let m := (1 : BitVec 12) <<< port
  let lost := s.keys.filter (fun k => match s.group k with
    | some g => (g.remote.flatMap Remote.nodes).any (s.lostOver port k)
    | none => false)
  let h := s.host
  let s := { s with host := { h with down := h.down ||| m, up := h.up &&& ~~~m, fails := Tbl.del h.fails port } }
  let s := if h.down = 0 then s.hostInt 4 else s
  let s := { s with tails := s.tails.map (fun (t : Tail) =>
    if (t.remote.flatMap Remote.nodes).any (s0.lostOver port t.key) then
      { t with remote := cutRemotes (s0.lostOver port t.key) t.remote, lost := true }
    else t) }
  lost.foldl (fun s k => s.modGroup k (fun g =>
    { g with linkDown := true, remote := cutRemotes (s0.lostOver port k) g.remote })) s

/-- LINK_FLIT_RETRY: a flit that failed its CRC is re-sent; it passes, or one more consecutive re-send has failed. -/
def execLinkFlitRetry (port : Nat) (s : State) : Out :=
  .next (
    if 12 ≤ port || !s.host.up.getLsbD port || 16 ≤ (Tbl.find s.host.fails port).getD 0 then s
    else
      let f := s.host.fails
      let f := if s.coin 301 then Tbl.del f port else Tbl.set f port (min 16 ((Tbl.find f port).getD 0 + 1))
      { s with host := { s.host with fails := f } })

/-- LINK_PORT_DOWN: after 16 consecutive failed re-sends. -/
def execLinkPortDown (port : Nat) (s : State) : Out :=
  .next (
    if 12 ≤ port || !s.host.up.getLsbD port || (Tbl.find s.host.fails port).getD 0 < 16 then s
    else s.portDown port)

/-! ## SCRUB_SWEEP (R387) -/

/-- First bytes of the units of `n` bytes that a table of damaged bytes touches. -/
def unitsOf (t : Tbl Unit) (n : Nat) : List Nat := t.foldl (fun us p => insertNat (p.1 / n * n) us) []

/-- The core that holds a scratch byte's block. -/
def State.scrCore (s : State) (key : Nat) : Option Nat := (s.block (key / 2 ^ 18)).map (fun b => b.core)

/-- Damaged locations of a level that a sweep of a chiplet meets: launch and WHERE. -/
def State.damaged (s : State) (ch level : Nat) : List (Nat × BitVec 64) :=
  match level with
  | 0 => s.keys.flatMap (fun k => match s.group k with
      | some g => if chipletOf (s.coreOf k) == ch && !g.saved then
          g.badRegs.map (fun r => (k.launch, wherReg (s.coreOf k) r.1)) else []
      | none => [])
  | 2 => (unitsOf s.poisonScr 4).filterMap (fun key => (s.scrCore key).bind (fun core =>
      if chipletOf core == ch then some (key / 2 ^ 18 / 2 ^ 32, BitVec.ofNat 64 (core % 8 * 2 ^ 18 + key % 2 ^ 18)) else none))
  | 3 => (s.clusters.filter (fun c => chipletOfCl c.1 == ch)).flatMap (fun c => c.2.descs.flatMap (fun d =>
      (d.2.words.filter (fun w => w.2.bad)).map (fun w => (0, wherReg (8 * c.1 + w.1 / 16384) 0))))
  | 5 => (unitsOf s.poisonVlt 32).filterMap (fun a => if a / 2 ^ 28 == ch then some (0, BitVec.ofNat 64 a) else none)
  | 6 => (unitsOf s.poisonMem 32).filterMap (fun a => if a < 2 ^ 39 && a / 2 ^ 36 == ch then some (0, BitVec.ofNat 64 a) else none)
  | _ => []

/-- A sweep while SCRUB is not 0: every location is read and rewritten corrected; an uncorrectable error is found and
logged, and stays. -/
def State.scrub (s : State) (ch level : Nat) : State :=
  if 8 ≤ ch || ((s.chiplet ch).rel level).scrub = 0 || s.host.state != 2 then s
  else (s.damaged ch level).foldl (fun s d => s.relEntry ch level (relBytes d.1 3 d.2 0 level) true false) s

def execScrubSweep (ch level : Nat) (s : State) : Out := .next (s.scrub ch level)

/-! ## Errors and evictions that no row of the table names (R100, R225, R229, R366, R382 to R384) -/

/-- The word that a group is about to issue, and what follows in its clause, issue 4 cycles later (R383). -/
def State.replayWord (s : State) (k : GKey) : State :=
  s.modGroup k (fun g => if g.issuing.isSome then { g with clk := g.clk + 4 } else g)

/-- A queue's entry is sent again, up to three times; each is logged, and counts as corrected. -/
def State.resent (s : State) (ch launch : Nat) (wher : BitVec 64) (fails : Nat) : State :=
  (List.range (min fails 3)).foldl (fun s _ => s.relEntry ch 7 (relBytes launch 4 wher 0 7) false true) s

/-- An uncorrectable error in a sector of L1: a clean sector is filled again; what a U or LA line holds of it is lost, and the
sector is poisoned at its home (R382). -/
def State.l1Error (s : State) (core sec : Nat) : State :=
  let c := s.core core
  let line := sec / 4
  let keep {α : Type} (t : Tbl α) : Tbl α := t.filter (fun p => sectorOf p.1 != sec)
  let found (s : State) : State := s.relEntry (chipletOf core) 4 (relBytes 0 3 (BitVec.ofNat 64 (64 * sec)) 0 4) true false
  if Tbl.has c.ulines line || Tbl.has c.la line then
    let us := ((Tbl.find c.ulines line).getD []).map (fun u => { u with parts := keep u.parts })
    let c := { c.dropSector sec with
      ulines := if Tbl.has c.ulines line then Tbl.set c.ulines line us else c.ulines
      la := match Tbl.find c.la line with
        | some l => Tbl.set c.la line { l with elems := keep l.elems }
        | none => c.la }
    found ((List.range 64).foldl (fun s i => s.poison (.mem (64 * sec + i))) (s.setCore core c))
  else if Tbl.has c.l1 sec then found (s.fillSector core sec)
  else s

/-- What an event of the storage elements or caches does. -/
def State.upset (s : State) (u : Upset) : State :=
  match u with
  | .evictU core line => s.uSend core line
  | .evictLA core line => s.laWriteback core line
  | .prefetch core ctx va => s.prefetch ctx core 0 va 1000
  | .strPrefetch cl ctx va =>
    match s.xlate ctx (.chiplet (chipletOfCl cl)) va 1000 .prefetch with
    | (s1, .ok t) => if t.x && !t.attr.dev && t.attr.rnode == 0 then s1 else s
    | _ => s
  | .corrected ch level wher syn => s.relEntry ch level (relBytes 0 1 wher syn level) false true
  | .correctedAt k level n syn => (s.relEntry (chipletOf (s.coreOf k)) level
      (relBytes k.launch 1 (wherReg (s.coreOf k) n) syn level) false true).replayWord k
  | .l1Sector core sec => s.l1Error core sec
  | .queue k q fails =>
    let core := s.coreOf k
    let t := s.resent (chipletOf core) k.launch (wherReg core q) fails
    if fails ≤ 3 then t.replayWord k else t.modGroup k (fun g => g.consume [(7, q)])
  | .fabric ch q fails =>
    let t := s.resent ch 0 (BitVec.ofNat 64 (q % 256)) fails
    if fails ≤ 3 then t else (t.relEntry ch 7 (relBytes 0 3 (BitVec.ofNat 64 (q % 256)) 0 7) true false).fatalError 7
  | .poisonMem key => s.damage (.mem key)
  | .poisonScr key => s.damage (.scr key)
  | .poisonVlt key => s.damage (.vlt key)
  | .laneReg k r => s.modGroup k (fun g => { g with badRegs := Tbl.set g.badRegs r () })
  | .groupState k => s.modGroup k (fun g => g.consume [(1, 0)])
  | .vatWord core d pos =>
    let cl := clusterOf core
    let x := s.desc cl d
    let i := 16384 * (core % 8) + pos
    match Tbl.find x.words i with
    | some w => s.setDesc cl d { x with words := Tbl.set x.words i { w with bad := true } }
    | none => s
  | .versionLine k => s.failVersion k
  | .harpOperand cl e l i => s.modPass cl (fun p => { p with lost := p.lost ++ [(e, l, i)] })
  | .starterReg cl j => s.setStarter cl j { s.starter cl j with bad := true }

end Sys2Proof.Machine
end

