-- ==== Sys2Proof/Machine/Start.lean ====
section
/-! DEFINITION. Launch records and their acceptance, and the start of a block's groups (R25, R146, R265, R291, R304 to
R308, R316, R317). -/
namespace Sys2Proof.Machine
open Sys2Proof

/-! ## Launch records (R305 to R307) -/

def recBytesAt (bs : List Byte) (lo n : Nat) : Nat := leNat ((bs.drop lo).take n)

def lrecOf (bs : List Byte) : LRec :=
  let d (lo : Nat) : BitVec 64 := BitVec.ofNat 64 (recBytesAt bs lo 8)
  let w (lo : Nat) : BitVec 32 := BitVec.ofNat 32 (recBytesAt bs lo 4)
  { gentry := d 0, imgbase := d 8, tmplbase := d 16, imghash := d 24, consthash := d 32, srseed := d 40
    blocks := w 48, shape := w 52, policy := w 56, resv := w 60
    args := (List.range 8).map (fun i => d (64 + 8 * i)) }

def LRec.arg (r : LRec) (i : Nat) : BitVec 64 := r.args.getD i 0

/-- ERR codes 2 to 4, the first that applies. -/
def LRec.err (r : LRec) : Option Nat :=
  let aff := (r.policy.extractLsb' 8 2).toNat
  if r.resv ≠ 0 || r.shape.extractLsb' 10 7 ≠ 0 || r.policy.extractLsb' 13 11 ≠ 0 || r.policy.extractLsb' 5 3 ≠ 0 ||
      r.policy.getLsbD 3 then some 2
  else if r.blocks = 0 || decide (8 < (r.shape.extractLsb' 20 4).toNat) || aff = 3 || (r.cover ≠ 0 && aff ≠ 2) then some 3
  else if decide (512 < r.groups * r.gran) || decide (r.scrBytes < 16 * r.dstk * r.groups) then some 4
  else none

/-- A launch identifier: the package counter's next, identifiers of live launches skipped (R308). -/
def State.freeId (fuel : Nat) (s : State) (n : BitVec 24) : BitVec 24 :=
  match fuel with
  | 0 => n
  | f + 1 => if Tbl.has s.launches n.toNat then s.freeId f (n + 1) else n

/-- A launch enters the launch table; gives its identifier. -/
def State.addLaunch (s : State) (ctx home : Nat) (r : LRec) (addr : BitVec 64) (checked : Bool)
    (replay : Option (Nat × Nat × Nat × Nat)) : State × Nat :=
  let id := s.freeId (s.launches.length + 1) s.launchCtr
  ({ s.setLaunch id.toNat
      { ctx, home, rec_ := r, addr, order := s.acceptCtr, next := 0, returns := [], ended := none, checked
        replay } with
    launchCtr := id + 1, acceptCtr := s.acceptCtr + 1 }, id.toNat)

/-- LASTID follows an accepted launch. -/
def State.accepted (s : State) (c id : Nat) : State := s.setCtx c { s.ctx c with lastid := BitVec.ofNat 24 id }

/-- STR_LPORT (R304): a write queues the address; with 64 queued it is discarded and ERR becomes 5. Context pages take
no write before READY (R399). -/
def State.lportWrite (s : State) (c : Nat) (val : BitVec 64) : State :=
  let x := s.ctx c
  if s.host.state ≠ 2 then s
  else if 64 ≤ x.lport.length then s.launchErr c 5 none
  else s.setCtx c { x with lport := x.lport ++ [((val.extractLsb' 7 50) ++ (0 : BitVec 7)).signExtend 64] }

def execStrLport (ctx : Nat) (val : BitVec 64) (s : State) : Out := .next (s.lportWrite ctx val)

/-- Cores of a chiplet that hold no group. -/
def State.idleCores (s : State) (ch : Nat) : Nat :=
  192 - ((s.blocks.filter (fun b => chipletOf b.2.core == ch && (b.2.st == .live || b.2.st == .held))).foldl
    (fun cs b => insertNat b.2.core cs) []).length

/-- The home of a host launch (R308). -/
def State.homeOf (s : State) : Nat :=
  (List.range 8).foldl (fun b ch => if s.idleCores b < s.idleCores ch then ch else b) 0

/-- The record at an address, read through the context's page table by a chiplet (R307): its bytes, a page to wait for,
or ERR 1. -/
inductive RecRead where
  | ok (bs : List Byte)
  | wait (page : Nat)
  | bad

def State.readRecord (s : State) (c ch : Nat) (va : BitVec 64) : State × RecRead :=
  match s.accessVa c (.chiplet ch) va 128 false 4000 with
  | (s, .ok (.mem key) a) =>
    if a.dev then
      let r := s.devRead key 128
      (r.1, .ok (natLE 128 r.2.1))
    else if a.rnode = 0 then
      let r := s.homeRead key 128
      (r.1, .ok r.2)
    else (s, .ok (Store.bytes s.mem key 128))
  | (s, .demand page) => (s, .wait page)
  | (s, _) => (s, .bad)

/-- The record at the head of the port is accepted or rejected; while its page is missing it waits (R97). Its fault-queue entry
has access kind 0, LOC 0 and no launch, which no rule gives (DESIGN CHOICE, log entry 92). -/
def State.acceptHost (s : State) (c : Nat) : State :=
  match (s.ctx c).lport with
  | [] => s
  | va :: rest =>
    let pop (s : State) : State := s.setCtx c { s.ctx c with lport := rest, lwait := false }
    match s.readRecord c 0 va with
    | (s, .wait page) =>
      let s := s.wantPage c page 0 0 0
      s.setCtx c { s.ctx c with lwait := true }
    | (s, .bad) => (pop s).launchErr c 1 none
    | (s, .ok bs) =>
      let r := lrecOf bs
      match r.err with
      | some e => (pop s).launchErr c e none
      | none =>
        let (s, id) := (pop s).addLaunch c s.homeOf r va true none
        s.accepted c id

/-! ## Graph replays (R298, R316, R317) -/

/-- A graph object whose first replay has a record to submit: no launch of the object stands. -/
def State.dueGraph (s : State) (c : Nat) : Option (Nat × Replay) :=
  s.graphs.findSome? (fun g =>
    match g.2 with
    | r :: _ =>
      if r.ctx == c && decide (r.next < r.nrec) && !s.launches.any (fun l =>
          match l.2.replay with
          | some (k, _) => k == g.1
          | none => false)
      then some (g.1, r) else none
    | [] => none)

/-- The first replay of an object ends; its slot is free (R316). -/
def State.endReplay (s : State) (key : Nat) : State :=
  match Tbl.find s.graphs key with
  | some (_ :: r :: rest) => { s with graphs := Tbl.set s.graphs key (r :: rest) }
  | _ => { s with graphs := Tbl.del s.graphs key }

/-- The next record of a replay is launched with its ARG7 replaced by the address of the replay's copy. A missing page is
posted with the Starter's access kind, the home chiplet in LOC and no launch, which no rule gives (DESIGN CHOICE, log
entry 92). -/
def State.submitReplay (s : State) (key : Nat) (r : Replay) : State :=
  let va := r.rbase + BitVec.ofNat 64 (128 * r.next)
  match s.readRecord r.ctx r.home va with
  | (s, .wait page) => s.wantPage r.ctx page 4 (BitVec.ofNat 8 r.home ++ (0 : BitVec 24)) 0
  | (s, .bad) => (s.launchErr r.ctx 1 none).endReplay key
  | (s, .ok bs) =>
    let x := lrecOf bs
    let x := { x with args := x.args.set 7 r.slotAddr }
    let s := (s.addLaunch r.ctx r.home x va false (some (key, r.seq, r.slot, r.next))).1
    match Tbl.find s.graphs key with
    | some (_ :: rest) => { s with graphs := Tbl.set s.graphs key ({ r with next := r.next + 1 } :: rest) }
    | _ => s

/-- LAUNCH_ACCEPT: the head of the port, or a record of a replay that is due. -/
def execLaunchAccept (ctx : Nat) (s : State) : Out :=
  .next (
    if s.fatal.isSome then s
    else
      match s.dueGraph ctx, (s.ctx ctx).lport with
      | some (k, r), [] => s.submitReplay k r
      | some (k, r), _ => if s.coin 64 then s.submitReplay k r else s.acceptHost ctx
      | none, _ => s.acceptHost ctx)

/-! ## The start of a group (R25, R146, R265, R364) -/

def argRegs (r : LRec) : Store 64 := (List.range 8).foldl (fun t i => Store.write t (i + 1) (r.arg i)) []

/-- A group as it starts: slot 0 at the entry with all lanes, its first task open. -/
def Group.start (r : LRec) (gen : BitVec 64) (entry clk : Nat) (x : Sched) : Group :=
  let ctl : Ctl := { slot0 := some ⟨entry, 0xFFFFFFFF, 0⟩, slot1 := none, exited := 0, recs := [], depth := 0, held := [], last := 1 }
  let rs : Regs :=
    { v := [], g := argRegs r, m := [], gp := [], x := (List.range 8).map (fun i => (i, XReg.start gen))
      fb := seedFb r.protect r.srseed, fpflags := 0, srseed := r.srseed, mxflags := 0 }
  let g : Group :=
    { regs := rs, pend := [], clk, ctl, issuing := none, tasks := [], memq := [], effq := [], closed := [], ops := []
      holds := [], slotHolds := [], deferred := [], trap := none, stopped := none, told := none, park := none, parkFlag := false
      tx := none, txPend := none, txStat := (List.range 32).foldl (fun t l => Store.write t l txAbsent) []
      marks := [], audits := [], saved := false, saveWanted := false, ended := false, sched := x, badRegs := []
      badState := false, badVersion := false, linkDown := false, remote := [], nextId := 0, q := entry, passes := []
      reportDue := false, image := 0, epoch := 0, orders := [], errs := [] }
  { g with tasks := [Task.fresh 0 (g.snapshot r.protect [])] }

/-- Every group of a held block starts in a segment at its entry, behind an acquire that drops its core's L1 (R259,
R291). -/
def State.startBlock (s : State) (launch block d entry : Nat) : State :=
  match s.block (bkeyOf launch block) with
  | none => s
  | some b =>
    let r := s.lrec launch
    let gen := (s.ctx (s.lctx launch)).gen
    let clk := (s.core b.core).cycles
    let s := (List.range r.groups).foldl (fun s i =>
      let (p, sl) := b.slots.getD i (0, 0)
      s.setGroup ⟨launch, block, i⟩ (Group.start r gen entry clk
        { pipe := p, slot := sl, placed := b.placed, u := 0, waited := 0, taken := 0 })) s
    (s.setBlock (bkeyOf launch block) { b with st := .live, seg := d }).dropL1 b.core

end Sys2Proof.Machine
end

