-- ==== Sys2Proof/Machine/Starter.lean ====
section
/-! DEFINITION. Starter contexts: fetch, binding and end, scalar words, their loads and stores, and level-1 faults
(R54, R56, R58, R175, R258, R279 to R283, R299 to R303, R384). -/
namespace Sys2Proof.Machine
open Sys2Proof

def SW.launch (w : SW) : Nat := w.c.launch.getD 0
def SW.ctx (w : SW) : Nat := w.s.lctx w.launch
def SW.ch (w : SW) : Nat := chipletOfCl w.cl
def SW.rec_ (w : SW) : LRec := w.s.lrec w.launch

/-- Register `s r`; `s0` reads zero and discards writes (R25). -/
def SCtx.rd (c : SCtx) (r : BitVec 6) : BitVec 64 := if r = 0 then 0 else Store.read c.s r.toNat
def SCtx.wr (c : SCtx) (r : BitVec 6) (v : BitVec 64) : SCtx := if r = 0 then c else { c with s := Store.write c.s r.toNat v }
def SW.rd (w : SW) (r : BitVec 6) : BitVec 64 := w.c.rd r

/-- The Starter's next turn begins with the context after this one (R280). -/
def State.strPass (s : State) (cl j : Nat) : State := s.setCluster cl { s.cluster cl with strTurn := (j + 1) % 4 }
/-- The word is done: the context goes on at `pc`, and the Starter's next turn begins with the context after it (R280). -/
def SW.goto (w : SW) (s : State) (pc : BitVec 64) (f : SCtx → SCtx) : State :=
  (s.setStarter w.cl w.j { f (s.starter w.cl w.j) with pc, part := 0 }).strPass w.cl w.j
def SW.next (w : SW) (s : State) (f : SCtx → SCtx) : State := w.goto s (w.c.pc + 8) f
def SW.fault (w : SW) (s : State) (sub kind : BitVec 8) (addr : BitVec 64) : State :=
  (s.starterFault w.cl w.j Cause.starterFault sub kind addr 0 0)

/-! ## Segments as contexts hold them (R284, R292, R295) -/

/-- Code-cache entries of another errata mask go once they are unreferenced (R302). -/
def State.purgeCC (s : State) (cl : Nat) : State :=
  let c := s.cluster cl
  let now := (s.chiplet (chipletOfCl cl)).errata
  let old := c.cc.filter (fun e => e.2.errata != now && (c.desc e.2.desc).refs == 0)
  if old.isEmpty then s
  else
    (s.setCluster cl { c with cc := c.cc.filter (fun e => !(e.2.errata != now && (c.desc e.2.desc).refs == 0)) }).segCheckAll cl

/-- A context gives up `n` references to a segment. -/
def State.dropRefs (s : State) (cl d n : Nat) : State :=
  let x := s.desc cl d
  ((s.setDesc cl d { x with refs := x.refs - n }).segCheck cl d).purgeCC cl

/-- An open unsealed static segment is freed at once. -/
def State.freeSeg (s : State) (cl d : Nat) : State :=
  s.setDesc cl d { Desc.reset with gen := (s.desc cl d).gen + 1 }

/-- The open unsealed static segments of a context (R303). -/
def Cluster.openStatic (c : Cluster) (j : Nat) : List Nat :=
  (List.range 32).filter (fun d =>
    let x := c.desc d
    x.used && x.owner == some j && x.kind == .static && !x.sealed)

/-! ## Binding and end (R279, R292) -/

/-- The context's own registers as it is bound to a launch; its fault registers stay. -/
def SCtx.bound (c : SCtx) (launch : Nat) (entry : BitVec 64) : SCtx :=
  { SCtx.reset with
    launch := some launch, pc := entry, fvalid := c.fvalid, kind := c.kind, sub := c.sub, cause := c.cause
    fcore := c.fcore, fpos := c.fpos, fpc := c.fpc, faddr := c.faddr }
def SCtx.unbound (c : SCtx) : SCtx := { c.bound 0 0 with launch := none }

/-- A launch is bound to a free context of a cluster, or waits for one; a launch holds one context at most. -/
def State.bind (s : State) (cl launch : Nat) : State :=
  let c := s.cluster cl
  if (List.range 4).any (fun j => (c.starter j).launch == some launch) || c.unbound.contains launch then s
  else
    match pickOne (Config.free s.now 65).toNat ((List.range 4).filter (fun j => (c.starter j).launch.isNone)) with
    | some j => s.setStarter cl j ((c.starter j).bound launch (s.lrec launch).gentry)
    | none => s.setCluster cl { c with unbound := c.unbound ++ [launch] }

/-- A context ends: its open static segments are freed, its references dropped, and a launch that waits for a context is
bound. -/
def State.endContext (s : State) (cl j : Nat) : State :=
  let x := s.starter cl j
  let gone := (s.cluster cl).openStatic j
  let s := gone.foldl (fun s d => s.freeSeg cl d) s
  let s := s.setStarter cl j x.unbound
  let s := x.refs.foldl (fun s r => if gone.contains r.1 then s else s.dropRefs cl r.1 r.2) s
  let s := (List.range 32).foldl (fun s d =>
    let y := s.desc cl d
    if y.used && y.owner == some j then s.setDesc cl d { y with owner := none } else s) s
  let s := match x.launch with
    | some l => s.retireLaunch cl l
    | none => s
  let c := s.cluster cl
  let waits (l : Nat) : Bool := match s.launch l with
    | some y => y.ended.isNone
    | none => false
  let left := c.unbound.filter waits
  let s := s.setCluster cl { c with unbound := left.drop 1 }
  match left with
  | [] => s
  | l :: _ => s.bind cl l

/-- An error consumed by a Starter, of a level at a place, is logged and ends the context, and its launch with ERR 6 (R384,
R387). -/
def State.endPoisoned (s : State) (cl j level : Nat) (wher : BitVec 64) : State :=
  match (s.starter cl j).launch with
  | none => s
  | some l =>
    ((s.relEntry (chipletOfCl cl) level (relBytes l 2 wher 0 level) true false).endContext cl j).endLaunch l 6

/-! ## Accesses (R281, R282, R97) -/

inductive StrRead where
  | ok (bs : List Byte)
  | fault (sub kind : BitVec 8)
  | wait
  | poison (key : Nat)

/-- A stall on a missing page: its fault is posted with the Starter's bit (R97). -/
def State.strWait (s : State) (cl j : Nat) (va : BitVec 64) (st : Bool) : State :=
  let c := s.starter cl j
  let l := c.launch.getD 0
  let loc : BitVec 32 := BitVec.ofNat 8 (chipletOfCl cl) ++ BitVec.ofNat 8 (cl % 24) ++ (0 : BitVec 16)
  (s.wantPage (s.lctx l) (pageOf va) (if st then 5 else 4) loc l).setStarter cl j { c with wait := some va.toNat }

/-- The checks of one access of `n` bytes: alignment first, then R103. -/
def State.strCheck (s : State) (c ch : Nat) (va : BitVec 64) (n : Nat) (st : Bool) (k : Nat) : State × Chk :=
  if va.toNat % n ≠ 0 then (s, .bad Cause.align 0) else s.accessVa c (.chiplet ch) va n st k

/-- The bytes at a checked place, read at their home (R258), and whether they are poisoned. -/
def State.strBytes (s : State) (l : Loc) (a : Attr) (n : Nat) : State × StrRead :=
  match l with
  | .mem key =>
    if a.dev then
      let (s, v, bad) := s.devRead key n
      (s, if bad then .poison key else .ok (natLE n v))
    else if s.poisoned l n then (s, .poison key)
    else if a.rnode = 0 then
      let r := s.homeRead key n
      (r.1, .ok r.2)
    else (s, .ok (Store.bytes s.mem key n))
  | l => (s, .ok (s.readLoc l n))

def State.strRead (s : State) (c ch : Nat) (va : BitVec 64) (n k : Nat) : State × StrRead :=
  match s.strCheck c ch va n false k with
  | (s, .ok l a) => s.strBytes l a n
  | (s, .demand _) => (s, .wait)
  | (s, .bad cause kind) => (s, .fault (if kind = 0 && cause = Cause.align then Sub.align else Sub.memory) kind)

/-- What follows a read: its use, or a stall, a level-1 fault, or the context's end. -/
def SW.onRead (w : SW) (r : State × StrRead) (va : BitVec 64) (k : State → List Byte → State) : State :=
  match r.2 with
  | .ok bs => k r.1 bs
  | .fault sub kind => w.fault r.1 sub kind va
  | .wait => r.1.strWait w.cl w.j va false
  | .poison key => (r.1.endPoisoned w.cl w.j 6 (BitVec.ofNat 64 key)).strPass w.cl w.j

/-- A store takes effect at its home (R282): a register of the window is written as the machine's next step. -/
def State.strStore (s : State) (l : Loc) (a : Attr) (bs : List Byte) : State :=
  match l with
  | .mem key =>
    if a.dev && decide (2 ^ 47 ≤ key) && decide (key < 2 ^ 47 + 2 ^ 30) then
      { s with agenda := s.agenda ++ [.regWrite (key - 2 ^ 47) (BitVec.ofNat 64 (leNat bs))] }
    else if a.rnode = 0 then s.homeWrite key bs
    else s.writeLoc l bs
  | l => s.writeLoc l bs

/-- What follows the checks of a store. -/
def SW.onStore (w : SW) (r : State × Chk) (va : BitVec 64) (k : State → Loc → Attr → State) : State :=
  match r.2 with
  | .ok l a => k r.1 l a
  | .demand _ => r.1.strWait w.cl w.j va true
  | .bad cause kind => w.fault r.1 (if kind = 0 && cause = Cause.align then Sub.align else Sub.memory) kind va

/-! ## Fetch (R281, R58) -/

inductive Fetch where
  | word (w : Word)
  | fault (sub kind : BitVec 8)
  | wait
  | poison (key : Nat)

/-- The word at a context's PC. -/
def State.strFetch (s : State) (cl j : Nat) : State × Fetch :=
  let c := s.starter cl j
  let x := s.lctx (c.launch.getD 0)
  if c.pc.toNat % 8 ≠ 0 then (s, .fault Sub.align 0)
  else
    match s.xlate x (.chiplet (chipletOfCl cl)) c.pc 4100 .access with
    | (s, .demand) => (s, .wait)
    | (s, .bad kind) => (s, .fault Sub.memory kind)
    | (s, .ok t) =>
      let pa := t.pa + (c.pc - t.va).setWidth 52
      if !t.x || t.attr.dev then (s, .fault Sub.memory Kind.noExec)
      else
        match s.paFault x pa t.attr 8 with
        | some kind => (s, .fault Sub.memory kind)
        | none =>
          match s.strBytes (.mem (memKey t.attr.rnode pa)) t.attr 8 with
          | (s, .ok bs) => (s, .word (BitVec.ofNat 64 (leNat bs)))
          | (s, .fault sub kind) => (s, .fault sub kind)
          | (s, .wait) => (s, .wait)
          | (s, .poison key) => (s, .poison key)

/-- Legality of a word on the Starter, read from the word itself (R54 to R56). -/
def strReject (w : Word) : Option Reject :=
  let op := (opOf w).toNat
  let fn := (fn8Of w).toNat
  let f := unpackS w
  let chk (bad : Bool) : Option Reject := if bad then some .reservedField else none
  let num := immNum f.imm
  if w = 0 then some .illegalZero
  else
    match op, fn with
    | 0x32, 3 => chk (packS 0x32 3 ⟨0, 0, 0, 0⟩ != w)
    | 0x12, fn => if 0x13 < fn then some .illegalOpcode else chk (f.reservedGroup 0 (fn8Of w))
    | 0x13, fn => if 0x0B < fn then some .illegalOpcode else chk (f.reservedGroup 1 (fn8Of w))
    | 0x38, fn =>
      if fn ≤ 6 then chk (f.reserved true true false false)
      else if 8 ≤ fn ∧ fn ≤ 11 then chk (f.reserved false true true false)
      else if 16 ≤ fn ∧ fn ≤ 21 then chk (f.reserved false true true false)
      else if fn = 22 then chk (f.reserved true false false false)
      else if fn = 23 then chk (f.reserved true true false false)
      else if fn = 24 then chk (f.reserved false false false (f.imm != 0))
      else if fn = 25 then chk (f.reserved true false false (!immBelow f.imm 12 || !csrOk num))
      else if fn = 26 then
        if csrOk num && num != 0x00E && num != 0x00D then some .illegalOpcode
        else chk (f.reserved false true false (!immBelow f.imm 12 || !csrOk num))
      else some .illegalOpcode
    | 0x39, 0 => chk (f.reserved false true true (!immBelow f.imm 9))
    | 0x39, 1 => chk (f.reserved false true true (f.imm.toNat / 256 % 256 != 0 || !immBelow f.imm 24))
    | 0x39, 2 => chk (f.reserved true true true false)
    | 0x3A, 0 => chk (f.reserved true true true (f.imm != 0))
    | 0x3A, 1 => chk (f.reserved true true true (f.imm != 0))
    | 0x3A, 2 => chk (f.reserved false true false (f.imm != 0))
    | 0x3A, 3 => chk (f.reserved false true false (f.imm != 0))
    | 0x3A, 4 => chk (f.reserved true true true (f.imm != 0))
    | 0x3A, 5 => chk (f.reserved false true true (f.imm != 0))
    | 0x3B, 0 => chk (f.reserved true true false (f.imm != 0))
    | 0x3B, 1 => chk (f.reserved true true true (256 < f.imm.toNat))
    | 0x3B, 2 => chk (f.reserved true true true (!immBelow f.imm 8))
    | _, _ => some .illegalOpcode

/-- A Starter word that the errata mask disables (R301). -/
def Chiplet.disablesStr (c : Chiplet) (w : Word) : Bool :=
  c.activeErrata.any (fun e => e.extractLsb' 0 6 == opOf w && e.extractLsb' 6 8 == fn8Of w &&
    (e.getLsbD 19 || e.extractLsb' 14 5 == 0))

/-- GENERATOR_FAULT: the context reaches a word that fails to fetch, does not decode or is disabled. A missing page
stalls it, and poison ends it. -/
def State.generatorFault (s : State) (cl j : Nat) : State :=
  match s.strFetch cl j with
  | (s, .wait) => s.strWait cl j (s.starter cl j).pc false
  | (s, .poison key) => (s.endPoisoned cl j 6 (BitVec.ofNat 64 key)).strPass cl j
  | (s, .fault sub kind) => s.starterFault cl j Cause.starterFault sub kind (s.starter cl j).pc 0 0
  | (s, .word w) =>
    match strReject w with
    | some r => s.starterReject cl j r
    | none =>
      if (s.chiplet (chipletOfCl cl)).disablesStr w then s.starterFault cl j Cause.errataDisabled 0 0 0 0 0 else s

/-- Whether a context can execute: bound, neither stopped nor waiting nor saved. -/
def State.strRuns (s : State) (cl j : Nat) : Bool :=
  let c := s.starter cl j
  c.launch.isSome && !c.stopped && c.wait.isNone && !c.saved && s.fatal.isNone

def execGeneratorFault (cl j : Nat) (s : State) : Out := .next (if s.strRuns cl j then s.generatorFault cl j else s)

/-- What comes before a context's next word: the context of an ended launch ends (R418), a polite request saves one that
holds no open static segment and stands at an instruction boundary (R303), an uncorrectable error in a register ends it (R384). True when the word goes on. -/
def State.strPrep (s : State) (cl j : Nat) : State × Bool :=
  let c := s.starter cl j
  let l := c.launch.getD 0
  let ended := match s.launch l with
    | some x => x.ended == some 6 || x.ended == some 8
    | none => true
  if !s.strRuns cl j then (s, false)
  else if ended then (s.endContext cl j, false)
  else if c.bad then (s.endPoisoned cl j 7 (wherReg (8 * cl) j), false)
  else if (s.ctx (s.lctx l)).preq && c.part == 0 && (((s.cluster cl).openStatic j).isEmpty) then
    (s.setStarter cl j { c with saved := true }, false)
  else (s, true)

/-! ## STR_FCTL (R299) -/

/-- ABORT ends the context, and its launch with ERR 8. -/
def State.strAbort (s : State) (cl j : Nat) : State :=
  match (s.starter cl j).launch with
  | none => s
  | some l => (s.endContext cl j).endLaunch l 8

/-- RESUME clears FVALID and resumes a stopped context at FPC. -/
def State.strResume (s : State) (cl j : Nat) : State :=
  let c := s.starter cl j
  if c.stopped then s.setStarter cl j { c with stopped := false, fvalid := false, pc := c.fpc, part := 0 }
  else s.setStarter cl j { c with fvalid := false }

def execStrFctlAbort (cl j : Nat) (s : State) : Out := .next (s.strAbort cl j)
def execStrFctlResume (cl j : Nat) (s : State) : Out := .next (s.strResume cl j)

/-! ## Scalar words (R175, R282, R283) -/

/-- The group-wide functions on `s` registers: 0x12, or 0x13 with an immediate. -/
def execStarterGroupOp (imm : BitVec 1) (fn : BitVec 8) (f : S) (s : State) : Out :=
  str s fun w =>
    let v := if imm = 0 then gArith fn.toNat (w.rd f.a) (w.rd f.b) (w.rd f.d) else gImm fn.toNat (w.rd f.a) (w.rd f.d) f.imm
    w.next w.s (fun c => c.wr f.d v)

def SW.ea (w : SW) (f : S) : BitVec 64 := w.rd f.a + f.imm.signExtend 64

def strLoad (n : Nat) (sext : Bool) (f : S) (s : State) : Out :=
  str s fun w =>
    let ea := w.ea f
    w.onRead (w.s.strRead w.ctx w.ch ea n 4000) ea (fun s bs =>
      let v := leNat bs
      let x : BitVec 64 := if sext && 2 ^ (8 * n - 1) ≤ v then BitVec.ofInt 64 ((v : Int) - 2 ^ (8 * n)) else BitVec.ofNat 64 v
      w.next s (fun c => c.wr f.d x))

def execLd8 (f : S) (s : State) : Out := strLoad 1 false f s
def execLd16 (f : S) (s : State) : Out := strLoad 2 false f s
def execLd32 (f : S) (s : State) : Out := strLoad 4 false f s
def execLd64 (f : S) (s : State) : Out := strLoad 8 false f s
def execLdx8 (f : S) (s : State) : Out := strLoad 1 true f s
def execLdx16 (f : S) (s : State) : Out := strLoad 2 true f s
def execLdx32 (f : S) (s : State) : Out := strLoad 4 true f s

def strStoreW (n : Nat) (f : S) (s : State) : Out :=
  str s fun w =>
    let ea := w.ea f
    w.onStore (w.s.strCheck w.ctx w.ch ea n true 4000) ea (fun s l a =>
      w.next (s.strStore l a (natLE n (w.rd f.b).toNat)) id)

def execSt8 (f : S) (s : State) : Out := strStoreW 1 f s
def execSt16 (f : S) (s : State) : Out := strStoreW 2 f s
def execSt32 (f : S) (s : State) : Out := strStoreW 4 f s
def execSt64 (f : S) (s : State) : Out := strStoreW 8 f s

/-- P + 8·(1 + sext(imm32)). -/
def SW.target (w : SW) (f : S) : BitVec 64 := w.c.pc + 8 * (1 + f.imm.signExtend 64)

def strBranch (c : BitVec 64 → BitVec 64 → Bool) (f : S) (s : State) : Out :=
  str s fun w => w.goto w.s (if c (w.rd f.a) (w.rd f.b) then w.target f else w.c.pc + 8) id

def execBeq (f : S) (s : State) : Out := strBranch (fun a b => a == b) f s
def execBne (f : S) (s : State) : Out := strBranch (fun a b => a != b) f s
def execBlt (f : S) (s : State) : Out := strBranch (fun a b => decide (a.toInt < b.toInt)) f s
def execBltn (f : S) (s : State) : Out := strBranch (fun a b => decide (a.toNat < b.toNat)) f s
def execBge (f : S) (s : State) : Out := strBranch (fun a b => decide (b.toInt ≤ a.toInt)) f s
def execBgen (f : S) (s : State) : Out := strBranch (fun a b => decide (b.toNat ≤ a.toNat)) f s

def execJal (f : S) (s : State) : Out :=
  str s fun w => w.goto w.s (w.target f) (fun c => c.wr f.d (w.c.pc + 8))
/-- `jalr` reads its base before it writes its link. -/
def execJalr (f : S) (s : State) : Out :=
  str s fun w => w.goto w.s (w.rd f.a + f.imm.signExtend 64) (fun c => c.wr f.d (w.c.pc + 8))

/-- `fence`: every earlier access of the context has completed, one word after another (R280). -/
def execFence (_f : S) (s : State) : Out := str s fun w => w.next w.s id

/-- `nop` changes no state (R53); on the Starter the PC moves past it (R281). -/
def execNop (f : NopForm) (s : State) : Out :=
  match f with
  | .clause _ => grp s fun w => w.s
  | .starter _ => str s fun w => w.next w.s id

/-- Control and status registers (R283). -/
def SW.csr (w : SW) (n : Nat) : BitVec 64 :=
  let r := w.rec_
  let ch := w.s.chiplet w.ch
  match n with
  | 0x00 => BitVec.ofNat 64 w.j
  | 0x01 => BitVec.ofNat 64 (w.s.cluster w.cl).cycles
  | 0x02 => BitVec.ofNat 64 ch.reftime
  | 0x03 => (match w.s.launch w.launch with
    | some x => x.addr
    | none => 0)
  | 0x04 => BitVec.ofNat 64 (w.launch % 2 ^ 24)
  | 0x05 => r.imghash
  | 0x06 => r.consthash
  | 0x07 => r.imgbase
  | 0x08 => r.tmplbase
  | 0x09 => ch.features
  | 0x0A => ch.errata
  | 0x0B => if (w.s.ctx w.ctx).preq then 1 else 0
  | 0x0C => w.c.emitser.setWidth 64
  | 0x0E => w.c.dlcyc.setWidth 64
  | n =>
    if 0x20 ≤ n ∧ n ≤ 0x27 then r.arg (n - 0x20)
    else if 0x40 ≤ n ∧ n ≤ 0x7F then ((Store.read ch.entries (n - 0x40)).setWidth 21).setWidth 64
    else 0

def execCsrr (f : S) (s : State) : Out :=
  str s fun w => w.next w.s (fun c => c.wr f.d (w.csr (immNum f.imm).toNat))

/-- `csrw` to STR_DLCYC, the one register it can write beside STR_END. -/
def execCsrw (f : S) (s : State) : Out :=
  str s fun w => w.next w.s (fun c => { c with dlcyc := (w.rd f.a).setWidth 32 })

/-- A write to STR_END (R292). -/
def execStrEnd (_f : S) (s : State) : Out := str s fun w => (w.s.endContext w.cl w.j).strPass w.cl w.j

end Sys2Proof.Machine
end

