-- ==== Sys2Proof/Machine/Segment.lean ====
section
/-! DEFINITION. Segments, the code cache and launches from a generator, major opcodes 0x39 to 0x3B (R284 to R298,
R302, R417). -/
namespace Sys2Proof.Machine
open Sys2Proof

/-! ## Handles and masks (R284, R285) -/

def handleOf (d : Nat) (x : Desc) : BitVec 64 := fld x.gen 16 ||| BitVec.ofNat 64 d

/-- The segment a handle names; none when it is stale. -/
def Cluster.named (c : Cluster) (h : BitVec 64) : Option (Nat × Desc) :=
  let d := (h.extractLsb' 0 5).toNat
  let x := c.desc d
  if x.used && h == handleOf d x then some (d, x) else none

/-- The cores field: 0 is the segment's whole mask. -/
def coresOf (imm : BitVec 32) (x : Desc) : BitVec 8 :=
  let m := imm.extractLsb' 0 8
  if m = 0 then x.mask else m
def outside (m x : BitVec 8) : Bool := m &&& ~~~x != 0
def coresIn (m : BitVec 8) : List Nat := (List.range 8).filter (fun i => m.getLsbD i)

def SW.cluster (w : SW) : Cluster := w.s.cluster w.cl
def SW.bad (w : SW) (sub : BitVec 8) : State := w.fault w.s sub 0 0
/-- A segment that the context itself opened and that is not sealed. -/
def SW.own (w : SW) (h : BitVec 64) : Option (Nat × Desc) :=
  (w.cluster.named h).bind (fun x => if x.2.owner == some w.j && !x.2.sealed then some x else none)

/-! ## `segopen`, `segstrm` (R286) -/

/-- A run of positions that every named core has free. -/
def Cluster.fits (c : Cluster) (mask : BitVec 8) (off len : Nat) : Bool :=
  decide (off + len ≤ 16384) &&
    !c.descs.any (fun p => p.2.used && p.2.mask &&& mask != 0 && decide (off < p.2.offset + p.2.len) &&
      decide (p.2.offset < off + len))

/-- A free descriptor and a free run. If any run is free, one is that begins where a segment ends, or at 0. -/
def Cluster.room (c : Cluster) (n m : Nat) (mask : BitVec 8) (len : Nat) : Option (Nat × Nat) :=
  (pickOne n ((List.range 32).filter (fun d => !(c.desc d).used))).bind (fun d =>
    (((m % 16384) :: 0 :: c.descs.map (fun p => p.2.offset + p.2.len)).find? (fun o => c.fits mask o len)).map (fun o => (d, o)))

/-- The unreferenced code-cache entry that was least recently found. -/
def Cluster.oldestCC (c : Cluster) : Option Nat :=
  (c.cc.foldl (fun (b : Option (Nat × CCEnt)) p =>
    if (c.desc p.2.desc).refs != 0 then b
    else
      match b with
      | some x => if p.2.found < x.2.found then some p else b
      | none => some p) none).map (fun p => p.1)

/-- A code-cache entry goes. -/
def State.dropCC (s : State) (cl i : Nat) : State :=
  let c := s.cluster cl
  match Tbl.find c.cc i with
  | none => s
  | some e => (s.setCluster cl { c with cc := Tbl.del c.cc i }).segCheck cl e.desc

/-- Room for a segment, after evicting as many entries as that needs. -/
def State.segRoom (fuel : Nat) (s : State) (cl : Nat) (mask : BitVec 8) (len : Nat) : Option (State × Nat × Nat) :=
  match (s.cluster cl).room (Config.free s.now 66).toNat (Config.free s.now 67).toNat mask len with
  | some (d, o) => some (s, d, o)
  | none =>
    match fuel, (s.cluster cl).oldestCC with
    | f + 1, some i => (s.dropCC cl i).segRoom f cl mask len
    | _, _ => none

def openSeg (kind : SegKind) (f : S) (s : State) : Out :=
  str s fun w =>
    let len := (w.rd f.a).toNat
    let cm := w.rd f.b
    let mask := cm.extractLsb' 0 8
    let okLen := match kind with
      | .static => decide (1 ≤ len) && decide (len ≤ 16384)
      | .stream => decide (64 ≤ len) && decide (len ≤ 4096) && len % 64 == 0
    if cm.toNat ≠ mask.toNat || mask = 0 || !okLen then w.bad Sub.badarg
    else
      match w.s.segRoom 64 w.cl mask len with
      | none => w.next w.s (fun c => c.wr f.d (~~~0))
      | some (s, d, o) =>
        let x : Desc :=
          { gen := (s.desc w.cl d).gen, used := true, kind, mask, offset := o, len, e := 0, sealed := false
            owner := some w.j, refs := 1, words := [], written := [] }
        w.next (s.setDesc w.cl d x) (fun c =>
          let c := { c with
            refs := addTo c.refs d 1
            snaps := if kind = SegKind.static then c.snaps ++ [(d, w.c.s, w.c.pc)] else c.snaps }
          c.wr f.d (handleOf d x))

def execSegopen (f : S) (s : State) : Out := openSeg .static f s
def execSegstrm (f : S) (s : State) : Out := openSeg .stream f s

/-! ## `emit`, `emitm`, `patch` (R287 to R289, R293, R294) -/

/-- The side-band that a word emitted now carries. -/
def SW.offset (w : SW) : BitVec 24 := (w.c.pc - w.rec_.imgbase).extractLsb' 3 24
def SW.prov (w : SW) (d : Nat) (serial : BitVec 32) : BitVec 64 :=
  BitVec.ofNat 2 w.j ++ (0 : BitVec 1) ++ BitVec.ofNat 5 d ++ w.offset ++ serial

/-- A word written at E on some cores; E then moves on, unless it is held, and leaves the zero word on the cores that
were not written there. -/
def Desc.emit (x : Desc) (cores : BitVec 8) (v : VatWord) (hold : Bool) : Desc :=
  let i := if x.kind = .stream then x.e % x.len else x.e
  let ws := (coresIn cores).foldl (fun t c => Tbl.set t (16384 * c + i) v) x.words
  let wr := (coresIn cores).foldl (fun t c => Tbl.set t (16384 * c + i) ()) x.written
  if hold then { x with words := ws, written := wr }
  else
    { x with
      words := (coresIn x.mask).foldl (fun t c => if Tbl.has wr (16384 * c + i) then t else Tbl.del t (16384 * c + i)) ws
      written := [], e := x.e + 1 }

/-- Groups released into a segment, resident or saved. -/
def State.segGroups (s : State) (cl d : Nat) : List (GKey × Group) :=
  s.keys.filterMap (fun k =>
    match s.block (GKey.bkey k), s.group k with
    | some b, some g =>
      if b.seg == d && clusterOf b.core == cl && (b.st == .live || b.st == .saved) then some (k, g) else none
    | _, _ => none)

/-- Groups that hold an emit back: their low mark would be overwritten (R294). -/
def State.holders (s : State) (cl d : Nat) : List (GKey × Group) :=
  let x := s.desc cl d
  if x.kind = .stream then (s.segGroups cl d).filter (fun g => decide (g.2.q + x.len ≤ x.e)) else []

/-- One word is emitted, or the context stalls (false). -/
def SW.emitOne (w : SW) (s : State) (d : Nat) (cores : BitVec 8) (v : Word) (hold : Bool) : State :=
  let c := s.starter w.cl w.j
  let x := s.desc w.cl d
  (s.setDesc w.cl d (x.emit cores ⟨v, w.prov d c.emitser, false⟩ hold)).setStarter w.cl w.j { c with emitser := c.emitser + 1 }

def execEmit (f : S) (s : State) : Out :=
  str s fun w =>
    match w.own (w.rd f.a) with
    | none => w.bad Sub.badseg
    | some (d, x) =>
      let cores := coresOf f.imm x
      if outside cores x.mask then w.bad Sub.badarg
      else if x.kind = .static && decide (x.len ≤ x.e) then
        w.s.starterFault w.cl w.j Cause.emitOverflow 0 0 0 0 0
      else if !(w.s.holders w.cl d).isEmpty then w.s
      else w.next (w.emitOne w.s d cores (w.rd f.b) (f.imm.getLsbD 8)) id

/-- The words of an `emitm` from word `i` on; a stall keeps how many it has emitted. -/
def SW.emitMany (fuel : Nat) (w : SW) (s : State) (d : Nat) (cores : BitVec 8) (va : BitVec 64) (i : Nat) : State :=
  match fuel with
  | 0 => w.next s id
  | f + 1 =>
    let stall (s : State) : State := s.setStarter w.cl w.j { s.starter w.cl w.j with part := i }
    if !(s.holders w.cl d).isEmpty then stall s
    else
      let a := va + BitVec.ofNat 64 (8 * i)
      match s.strRead w.ctx w.ch a 8 (4200 + 16 * i) with
      | (s, .ok bs) => w.emitMany f (w.emitOne s d cores (BitVec.ofNat 64 (leNat bs)) false) d cores va (i + 1)
      | (s, .fault sub kind) =>
        (s.setStarter w.cl w.j { s.starter w.cl w.j with part := 0 }).starterFault w.cl w.j Cause.starterFault sub kind a 0 0
      | (s, .wait) => (stall s).strWait w.cl w.j a false
      | (s, .poison key) => (s.endPoisoned w.cl w.j 6 (BitVec.ofNat 64 key)).strPass w.cl w.j

/-- `emitm` (R287). Of several faults the first of BADSEG, BADARG, ALIGN and EMIT_OVERFLOW is reported; the spec gives no
order (DESIGN CHOICE, log entry 128). -/
def execEmitm (f : S) (s : State) : Out :=
  str s fun w =>
    let n := (f.imm.extractLsb' 16 8).toNat + 1
    let va := w.rd f.b
    match w.own (w.rd f.a) with
    | none => w.bad Sub.badseg
    | some (d, x) =>
      let cores := coresOf f.imm x
      if outside cores x.mask then w.bad Sub.badarg
      else if va.toNat % 8 ≠ 0 then w.fault w.s Sub.align 0 va
      else if x.kind = .static && decide (x.len < x.e + (n - w.c.part)) then
        w.s.starterFault w.cl w.j Cause.emitOverflow 0 0 0 0 0
      else w.emitMany (n - w.c.part) w.s d cores va w.c.part

/-- The low bits of a word that a patch point replaces. -/
def patchBits (f : Nat) : Nat := if f = 2 then 14 else if f = 4 then 24 else 32
def patchWord (f : Nat) (w v : Word) : Word :=
  BitVec.ofNat 64 (w.toNat / 2 ^ patchBits f * 2 ^ patchBits f + v.toNat % 2 ^ patchBits f)

/-- PATCHED is set and OFFSET is the patch's; CTX, SEG and SERIAL stay. -/
def patchProv (p : BitVec 64) (off : BitVec 24) : BitVec 64 :=
  p.extractLsb' 62 2 ++ (1 : BitVec 1) ++ p.extractLsb' 56 5 ++ off ++ p.extractLsb' 0 32

def execPatch (f : S) (s : State) : Out :=
  str s fun w =>
    match w.own (w.rd f.a) with
    | none => w.bad Sub.badseg
    | some (d, x) =>
      let fld := (f.imm.extractLsb' 0 8).toNat
      let pos := (w.rd f.b).toNat + (f.imm.extractLsb' 8 24).toNat
      if x.kind = .stream then w.bad Sub.badseg
      else if fld = 0 || 4 < fld || x.e ≤ pos then w.bad Sub.badarg
      else
        let ws := (coresIn x.mask).foldl (fun t c =>
          let v := (Tbl.find t (16384 * c + pos)).getD ⟨0, 0, false⟩
          Tbl.set t (16384 * c + pos) { v with w := patchWord fld v.w (w.rd f.d), prov := patchProv v.prov w.offset }) x.words
        w.next (w.s.setDesc w.cl d { x with words := ws }) id

/-! ## `seal`, `segfree` (R290, R292) -/

/-- Price of a word by its opcode, function, type, size and rounding (R34, R46 to R52); an unassigned word counts as 0. -/
def rawPrice (w : Word) : Nat :=
  let op := (opOf w).toNat
  match eligSig w with
  | some g =>
    if op = 0x05 || op = 0x0C || op = 0x13 then g.price
    else
      let f := unpackV3 w
      if g.types != 0 && decide (f.ty.toNat < 16) && !g.types.getLsbD f.ty.toNat then 0
      else if op = 0x0A && decide ((fn8Of w).toNat < 16) && !cvtPair (fn8Of w).toNat f.ty.toNat then 0
      else (if bracket f.ty then g.price2 else g.price) + (if g.rs && f.rm == 5 then 1 else 0)
  | none =>
    let fn := (fn6Of w).toNat
    let fn8 := (fn8Of w).toNat
    let size := (unpackM w).size
    let real (fn : Nat) : Bool := fn == (if op = 0x28 then 0x0A else 8) && (unpackX w).asize == 3
    match op with
    | 0x18 => if 1 < fn || (fn == 1 && (size == 3 || size == 4)) then 0 else memPrice size
    | 0x19 => if fn = 0 then memPrice size else 0
    | 0x1A => if 5 < fn || ((fn == 1 || fn == 4) && (size == 3 || size == 4)) then 0 else memPrice size
    | 0x20 => if fn8 ≤ 4 then 3 else 0
    | 0x28 => if fn8 ≤ 0x0A && !real fn8 then 1 else 0
    | 0x29 => if fn8 % 0x20 ≤ 8 && fn8 < 0x40 && !real (fn8 % 0x20) then 1 else 0
    | 0x2A => if fn = 1 then 1 else 0
    | 0x2C => if fn8 = 0 then 2 else 0
    | _ => 0
where
  memPrice (size : BitVec 3) : Nat := if size = 3 then 2 else if size = 4 then 4 else 0

/-- The first position of one core that fails the checks from header position `h` on. -/
def sealCheck (fuel : Nat) (word : Nat → Word) (e h : Nat) : Option Nat :=
  match fuel with
  | 0 => none
  | n + 1 =>
    if h = e then (if e = 0 then some 0 else none)
    else
      let x := word h
      let hd := unpackHdr x
      let last := h + 1 + hd.count.toNat
      let ws := (List.range (hd.count.toNat + 1)).map (fun i => h + 1 + i)
      if opOf x ≠ 0x3E || !(decide (hd.cls.toNat ≤ 8) || hd.cls == 15) || bits x 0 32 ≠ 0 || e ≤ last then some h
      else if sumNat (ws.map (fun p => rawPrice (word p))) ≠ hd.price.toNat then some h
      else
        match ws.find? (fun p => opOf (word p) == 0x3E || (opOf (word p) == 0x30 && p != last)) with
        | some p => some p
        | none => sealCheck n word e (last + 1)

/-- The first core and position that fail. -/
def Desc.sealBad (x : Desc) : Option (Nat × Nat) :=
  (coresIn x.mask).findSome? (fun c =>
    (sealCheck (x.e + 1) (fun p => ((Tbl.find x.words (16384 * c + p)).getD ⟨0, 0, false⟩).w) x.e 0).map (fun p => (c, p)))

def execSeal (f : S) (s : State) : Out :=
  str s fun w =>
    match w.own (w.rd f.a) with
    | none => w.bad Sub.badseg
    | some (d, x) =>
      if x.kind = .stream then w.next (w.s.setDesc w.cl d { x with sealed := true }) id
      else
        match x.sealBad with
        | some (c, p) =>
          w.s.starterFault w.cl w.j Cause.sealInvalid 0 0 0 (BitVec.ofNat 3 c) (BitVec.ofNat 14 p)
        | none =>
          let x := { x with
            sealed := true, len := x.e, written := []
            words := x.words.filter (fun p => decide (p.1 % 16384 < x.e)) }
          w.next (w.s.setDesc w.cl d x) (fun c => { c with snaps := c.snaps.filter (fun q => q.1 != d) })

def execSegfree (f : S) (s : State) : Out :=
  str s fun w =>
    match w.cluster.named (w.rd f.a) with
    | none => w.bad Sub.badseg
    | some (d, _) =>
      let n := (Tbl.find w.c.refs d).getD 0
      if n = 0 then w.next w.s id
      else
        let s := w.s.setStarter w.cl w.j { w.c with refs := if n = 1 then Tbl.del w.c.refs d else Tbl.set w.c.refs d (n - 1) }
        let s := s.dropRefs w.cl d 1
        let freed := !(s.desc w.cl d).used || (s.desc w.cl d).owner != some w.j
        w.next s (fun c => if freed then { c with snaps := c.snaps.filter (fun q => q.1 != d) } else c)

/-! ## The code cache (R295) -/

/-- An entry's key is the context's image, constants, the errata mask of the instant, a selector and a core mask. -/
def SW.keyIs (w : SW) (sel : BitVec 64) (mask : BitVec 64) (e : CCEnt) : Bool :=
  e.imghash == w.rec_.imghash && e.consthash == w.rec_.consthash && e.errata == (w.s.chiplet w.ch).errata &&
    e.sel == sel && e.mask.setWidth 64 == mask

def execCcfind (f : S) (s : State) : Out :=
  str s fun w =>
    match w.cluster.cc.find? (fun p => w.keyIs (w.rd f.a) (w.rd f.b) p.2) with
    | none => w.next w.s (fun c => c.wr f.d (~~~0))
    | some (i, e) =>
      let c := w.cluster
      let x := c.desc e.desc
      let s := (w.s.setCluster w.cl { c with cc := Tbl.set c.cc i { e with found := c.ccFound + 1 }, ccFound := c.ccFound + 1 }).setDesc
        w.cl e.desc { x with refs := x.refs + 1 }
      w.next s (fun c => { c with refs := addTo c.refs e.desc 1 }.wr f.d (handleOf e.desc x))

/-- A sealed static segment is entered: over an equal key, in a free entry, or in place of the unreferenced entry least
recently found; else nowhere. -/
def execCcput (f : S) (s : State) : Out :=
  str s fun w =>
    match w.cluster.named (w.rd f.a) with
    | none => w.bad Sub.badseg
    | some (d, x) =>
      if x.kind = .stream || !x.sealed then w.bad Sub.badseg
      else
        let c := w.cluster
        let e : CCEnt :=
          { imghash := w.rec_.imghash, consthash := w.rec_.consthash, errata := (w.s.chiplet w.ch).errata, sel := w.rd f.b
            mask := x.mask, desc := d, found := c.ccFound + 1 }
        let at_ := ((c.cc.find? (fun p => w.keyIs (w.rd f.b) (x.mask.setWidth 64) p.2)).map (fun p => p.1)).or
          ((pickOne (Config.free w.s.now 68).toNat ((List.range 64).filter (fun i => !Tbl.has c.cc i))).or c.oldestCC)
        match at_ with
        | none => w.next w.s id
        | some i =>
          let old := (Tbl.find c.cc i).map (fun e => e.desc)
          let s := w.s.setCluster w.cl { c with cc := Tbl.set c.cc i e, ccFound := c.ccFound + 1 }
          w.next (match old with
            | some o => s.segCheck w.cl o
            | none => s) id

/-! ## `release` (R291) -/

/-- Whether the cluster can claim no further block of a launch. -/
def State.noMoreBlocks (s : State) (cl launch : Nat) : Bool :=
  match s.launch launch with
  | none => true
  | some x =>
    let ch := s.chiplet (chipletOfCl cl)
    (decide (x.rec_.blocks.toNat ≤ x.next) && x.returns.isEmpty) || Tbl.has ch.stops launch || ch.off || x.ended.isSome

def execRelease (f : S) (s : State) : Out :=
  str s fun w =>
    match w.cluster.named (w.rd f.a) with
    | none => w.bad Sub.badseg
    | some (d, x) =>
      let cores := coresOf f.imm x
      let entry := (w.rd f.b).toNat
      if x.kind = .static && !x.sealed then w.bad Sub.badseg
      else if outside cores x.mask || (x.kind = .stream && decide (entry + x.len < x.e)) then w.bad Sub.badarg
      else
        let mine := w.s.blocks.filter (fun b => b.1 / 2 ^ 32 == w.launch && b.2.st == BlockSt.held &&
          clusterOf b.2.core == w.cl && cores.getLsbD (b.2.core % 8))
        if mine.isEmpty then
          if w.s.noMoreBlocks w.cl w.launch then w.next w.s (fun c => c.wr f.d 0) else w.s
        else
          let s := mine.foldl (fun s b => s.startBlock w.launch (b.1 % 2 ^ 32) d entry) w.s
          w.next s (fun c => c.wr f.d (BitVec.ofNat 64 mine.length))

/-! ## `launch`, `greplay` (R297, R298) -/

def execLaunch (f : S) (s : State) : Out :=
  str s fun w =>
    let a := w.rd f.a
    if a.toNat % 128 ≠ 0 then w.fault w.s Sub.align 0 a
    else if 16 ≤ w.cluster.children.length then w.s
    else
      w.onRead (w.s.strRead w.ctx w.ch a 128 4000) a (fun s bs =>
        let (s, id) := s.addLaunch w.ctx w.ch (lrecOf bs) a false none
        let c := s.cluster w.cl
        w.next (s.setCluster w.cl { c with children := c.children ++ [id] }) (fun c => c.wr f.d (BitVec.ofNat 64 id)))

/-- Reads `n` words of 8 bytes one after another, then goes on. -/
def SW.words (fuel : Nat) (w : SW) (s : State) (va : BitVec 64) (draw : Nat) (got : List Byte) (k : State → List Byte → State) :
    State :=
  match fuel with
  | 0 => k s got
  | n + 1 =>
    w.onRead (s.strRead w.ctx w.ch va 8 draw) va (fun s bs => w.words n s (va + 8) (draw + 16) (got ++ bs) k)

/-- Writes bytes one after another, once every place has passed its checks. -/
def SW.places (bs : List Byte) (w : SW) (s : State) (va : BitVec 64) (draw : Nat) (got : List (Loc × Attr × Byte))
    (k : State → List (Loc × Attr × Byte) → State) : State :=
  match bs with
  | [] => k s got
  | b :: r =>
    w.onStore (s.strCheck w.ctx w.ch va 1 true draw) va (fun s l a => w.places r s (va + 1) (draw + 16) (got ++ [(l, a, b)]) k)

/-- A patch entry applied to the parameter block; none when it is malformed. -/
def patchEntry (block ent : List Byte) : Option (List Byte) :=
  let off := recBytesAt ent 0 4
  let wid := recBytesAt ent 4 1
  let n := 2 ^ wid
  if recBytesAt ent 5 3 ≠ 0 || 3 < wid || off % n ≠ 0 || block.length < off + n then none
  else some (block.take off ++ (ent.drop 8).take n ++ block.drop (off + n))

def patchAll (fuel : Nat) (block ents : List Byte) : Option (List Byte) :=
  match fuel with
  | 0 => some block
  | n + 1 => (patchEntry block (ents.take 16)).bind (fun b => patchAll n b (ents.drop 16))

/-- The fields of a graph object (R316); none when it is malformed. -/
def graphOk (bs : List Byte) : Bool :=
  let psize := recBytesAt bs 8 4
  let nrec := recBytesAt bs 12 4
  let nslot := recBytesAt bs 32 4
  recBytesAt bs 0 8 % 8 == 0 && psize % 8 == 0 && decide (8 ≤ psize) && decide (psize ≤ 4096) && decide (1 ≤ nrec) &&
    decide (nrec ≤ 64) && decide (1 ≤ nslot) && decide (nslot ≤ 16) && recBytesAt bs 40 24 == 0

def execGreplay (f : S) (s : State) : Out :=
  str s fun w =>
    let ga := w.rd f.a
    let pa := w.rd f.b
    let n := f.imm.toNat % 512
    if n ≠ 0 && pa.toNat % 8 ≠ 0 then w.fault w.s Sub.align 0 pa
    else if ga.toNat % 64 ≠ 0 then w.bad Sub.badpatch
    else
      w.onRead (w.s.strRead w.ctx w.ch ga 64 4000) ga (fun s ob =>
        if !graphOk ob then w.fault s Sub.badpatch 0 0
        else
          let psize := recBytesAt ob 8 4
          let seq := recBytesAt ob 36 4
          let key := w.ctx * 2 ^ 64 + ga.toNat
          w.words (2 * n) s pa 4200 [] (fun s ents =>
            w.words (psize / 8) s (BitVec.ofNat 64 (recBytesAt ob 0 8)) 16384 [] (fun s block =>
              match patchAll n block ents with
              | none => w.fault s Sub.badpatch 0 0
              | some copy =>
                let queue := (Tbl.find s.graphs key).getD []
                let free := (List.range (recBytesAt ob 32 4)).filter (fun i => !queue.any (fun r => r.slot == i))
                match pickOne (Config.free s.now 69).toNat free with
                | none => s
                | some slot =>
                  let base := BitVec.ofNat 64 (recBytesAt ob 24 8 + slot * psize)
                  w.places copy s base 32768 [] (fun s ps =>
                    w.places (natLE 4 (seq + 1)) s (ga + 36) 131072 [] (fun s qs =>
                      let s := (ps ++ qs).foldl (fun s p => s.strStore p.1 p.2.1 [p.2.2]) s
                      let r : Replay :=
                        { seq, slot, nrec := recBytesAt ob 12 4, rbase := BitVec.ofNat 64 (recBytesAt ob 16 8)
                          slotAddr := base, ctx := w.ctx, home := w.ch, next := 0 }
                      w.next { s with graphs := Tbl.set s.graphs key (queue ++ [r]) } (fun c =>
                        c.wr f.d (BitVec.ofNat 64 seq)))))))

/-! ## EMIT_DEADLOCK (R296) -/

/-- A resident group waits for words at or beyond the emit pointer of a streaming segment of a context: no slot's clause
has all its words. A word that is no header traps and waits for none. -/
def State.starved (s : State) (cl j : Nat) (k : GKey) (g : Group) : Bool :=
  let x := s.segOf k
  let core := s.coreOf k % 8
  let lacks (p : Path) : Bool :=
    match x.word core p.pc with
    | none => true
    | some v => opOf v.w == 0x3E && decide (x.e ≤ p.pc + 1 + (unpackHdr v.w).count.toNat)
  let paths := g.ctl.slot0.toList ++ g.ctl.slot1.toList
  g.issuing.isNone && !g.saved && g.trap.isNone && g.stopped.isNone && x.kind == .stream && !x.sealed &&
    x.owner == some j && clusterOf (s.coreOf k) == cl && !paths.isEmpty && paths.all lacks

/-- The emit at a context's PC that the low marks of some groups hold back: it is legal and would otherwise emit. -/
def State.emitHeld (s : State) (cl j : Nat) : Option Nat :=
  match (s.strFetch cl j).2 with
  | .word v =>
    let f := unpackS v
    let w : SW := ⟨s, cl, j, s.starter cl j⟩
    if opOf v != 0x39 || decide (1 < (fn8Of v).toNat) || (strReject v).isSome || (s.chiplet (chipletOfCl cl)).disablesStr v ||
        (fn8Of v == 1 && (w.rd f.b).toNat % 8 != 0) then none
    else (w.own (w.rd f.a)).bind (fun x =>
      if outside (coresOf f.imm x.2) x.2.mask || (s.holders cl x.1).isEmpty then none else some x.1)
  | _ => none

/-- Every group that holds the emit back waits for words the same context has yet to emit: a level-1 fault (R296). An `emitm`
that has emitted some of its words keeps them and E past them, as R287 has it for a memory fault; a RESUME makes the whole
`emitm` anew (DESIGN CHOICE, log entry 46). -/
def State.emitDeadlock (s : State) (cl j : Nat) : State :=
  let c := s.starter cl j
  if !(s.strPrep cl j).2 || c.dlcyc = 0 then s
  else
    match s.emitHeld cl j with
    | none => s
    | some d =>
      if (s.holders cl d).all (fun g => s.starved cl j g.1 g.2) then
        (s.setStarter cl j { c with part := 0 }).starterFault cl j Cause.emitDeadlock 0 0 0 0 0
      else s

def execEmitDeadlock (cl j : Nat) (s : State) : Out := .next (s.emitDeadlock cl j)

end Sys2Proof.Machine
end

