-- ==== Sys2Proof/Machine/Place.lean ====
section
/-! DEFINITION. Where blocks stand: pulls, restores, eviction, migration, the end of launches, pre-emption requests and
forced cuts, and the host's answers to page faults and whey faults (R97, R302, R303, R308 to R314, R323, R324, R336,
R341, R367, R376 to R378, R418). -/
namespace Sys2Proof.Machine
open Sys2Proof

/-! ## What a core holds (R309) -/

/-- Group slots, granules and scratch in use on a core, and the modes of its launches. -/
structure Use where
  slots : List Nat
  gran : Nat
  scr : Nat
  modes : List Bool
  deriving DecidableEq, Repr

/-- Resident groups of a block. -/
def State.resident (s : State) (launch block : Nat) : List (GKey × Group) :=
  (s.blockGroups launch block).filterMap (fun k =>
    (s.group k).bind (fun g => if g.saved then none else some (k, g)))

/-- The groups of a block that stand saved. -/
def State.savedOf (s : State) (launch block : Nat) : List (GKey × Group) :=
  (s.blockGroups launch block).filterMap (fun k =>
    (s.group k).bind (fun g => if g.saved then some (k, g) else none))

def Use.add (u : Use) (r : LRec) (sl : List Nat) : Use :=
  { slots := sl ++ u.slots, gran := u.gran + sl.length * r.gran, scr := u.scr + r.scrBytes, modes := r.strict :: u.modes }

def State.coreUse (s : State) (core : Nat) : Use :=
  s.blocks.foldl (fun u b =>
    let l := b.1 / 2 ^ 32
    if b.2.core != core then u
    else if b.2.st == .held then u.add (s.lrec l) (b.2.slots.map (fun x => x.2))
    else if b.2.st == .live then u.add (s.lrec l) ((s.resident l (b.1 % 2 ^ 32)).map (fun x => x.2.sched.slot))
    else u) ⟨[], 0, 0, []⟩

/-- Whether `n` groups of a launch, and the scratch of a whole block, fit beside what a core holds. -/
def Use.fits (u : Use) (r : LRec) (n : Nat) (whole : Bool) : Bool :=
  decide (u.slots.length + n ≤ 96) && decide (u.gran + n * r.gran ≤ 512) &&
    (!whole || decide (u.scr + r.scrBytes ≤ 262144)) && u.modes.all (· == r.strict)

def State.fits (s : State) (core launch : Nat) : Bool := (s.coreUse core).fits (s.lrec launch) (s.lrec launch).groups true

/-- Free slots of a pipe, lowest first. -/
def freeSlots (used : List Nat) (pipe : Nat) : List Nat :=
  ((List.range 24).map (fun i => 24 * pipe + i)).filter (fun x => !used.contains x)

/-- Each group in turn takes the lowest free slot of the pipe with the most free slots. -/
def takeSlots (used : List Nat) (n : Nat) : List (Nat × Nat) :=
  match n with
  | 0 => []
  | n + 1 =>
    let p := (List.range 4).foldl (fun b p => if (freeSlots used b).length < (freeSlots used p).length then p else b) 0
    match freeSlots used p with
    | [] => []
    | x :: _ => (p, x) :: takeSlots (x :: used) n

/-! ## Claims (R310) -/

/-- A core claims a block: it is held, with the slots that its groups will take, and with scratch that holds nothing of a
former run (R386) and that L1 gives up (R16). -/
def State.claimBlock (s : State) (launch block core : Nat) : State :=
  let key := bkeyOf launch block
  let s := s.setBlock key
    { st := .held, core, seg := 0, slots := takeSlots (s.coreUse core).slots (s.lrec launch).groups, placed := s.placeCtr
      residence := (s.chiplet (chipletOf core)).reftime, bars := [], teams := [] }
  { s with
    placeCtr := s.placeCtr + 1
    scr := s.scr.filter (fun p => p.1 / 2 ^ 18 != key)
    poisonScr := s.poisonScr.filter (fun p => p.1 / 2 ^ 18 != key) }.l1Trim core none

/-- NEXT to NEXT + k − 1, for as many as fit on the core. -/
def State.claimRange (fuel : Nat) (s : State) (launch core : Nat) : State :=
  match fuel with
  | 0 => s
  | f + 1 =>
    match s.launch launch with
    | none => s
    | some x =>
      if x.next < x.rec_.blocks.toNat && s.fits core launch then
        ((s.claimBlock launch x.next core).modLaunch launch (fun x => { x with next := x.next + 1 })).claimRange f launch core
      else s

/-- Cores of a cluster that each fit one block of a launch, in ascending order. -/
def State.fitting (s : State) (cl launch : Nat) : List Nat :=
  ((List.range 8).map (fun i => 8 * cl + i)).filter (fun c => s.fits c launch)

/-- A gang's blocks go to as many cores of the cluster as it has blocks. -/
def State.claimGang (s : State) (cl launch : Nat) (bs : List Nat) : Option State :=
  let cs := s.fitting cl launch
  if cs.length < bs.length || bs.isEmpty then none
  else some ((bs.zip cs).foldl (fun s x => s.claimBlock launch x.1 x.2) s)

/-- What a core claims from a launch: the head of the return list, else a range of NEXT. -/
def State.claimFrom (s : State) (core launch : Nat) (x : Launch) : Option State :=
  let g := x.rec_.gang
  match x.returns with
  | b :: rest =>
    if g = 1 then
      if s.fits core launch then
        some ((s.claimBlock launch b core).modLaunch launch (fun x => { x with returns := rest }))
      else none
    else
      let bs := x.returns.takeWhile (fun c => c / g == b / g)
      (s.claimGang (clusterOf core) launch bs).map (fun s =>
        s.modLaunch launch (fun x => { x with returns := x.returns.drop bs.length }))
  | [] =>
    if x.rec_.blocks.toNat ≤ x.next then none
    else if g = 1 then if s.fits core launch then some (s.claimRange 96 launch core) else none
    else
      let bs := s.gangBlocks launch (x.next / g)
      (s.claimGang (clusterOf core) launch bs).map (fun s =>
        s.modLaunch launch (fun x => { x with next := x.next + bs.length }))

/-! ## Children (R297, R307) -/

/-- A child leaves the child queue that holds it. -/
def State.dropChild (s : State) (launch : Nat) : State :=
  { s with clusters := s.clusters.map (fun c => (c.1, { c.2 with children := c.2.children.filter (· != launch) })) }

/-- A child's record fails its checks: nothing of it starts, and a replay of it ends. -/
def State.rejectChild (s : State) (launch : Nat) (x : Launch) (code : Nat) : State :=
  let s := ({ s with launches := Tbl.del s.launches launch }.dropChild launch).launchErr x.ctx code none
  match x.replay with
  | some (key, _) => s.endReplay key
  | none => s

/-! ## Restores (R311, R324) -/

/-- A saved group stands again in a slot: its Harp passes are at the head of the cluster's engine (R215), it counts cycles
on its new core (R311), its report names no image (R373), the barriers it has joined are looked at again (R324), and its
monitor reads its word (R239). A pass that the engine had started stands behind the restored ones, and no longer waits for
a page (DESIGN CHOICE, log entry 117). The restored ones take their places at the head even of an engine that holds 16
(DESIGN CHOICE, log entry 66). -/
def State.resumeGroup (s : State) (k : GKey) (at_ : Nat × Nat) : State :=
  let core := s.coreOf k
  let cl := clusterOf core
  match s.group k with
  | none => s
  | some g =>
    let c := s.cluster cl
    let s := if g.passes.isEmpty then s
      else s.setCluster cl { c with harp := g.passes.map (fun (p : Pass) => { p with core }) ++ modHead (fun (p : Pass) => { p with wait := none, damaged := [] }) c.harp }
    let s := match g.stopped with
      | some i => s.homeWrite ((s.ctx (s.lctx k.launch)).tqAddr i + 56) (natLE 8 0)
      | none => s
    ((s.setGroup k { g with
      saved := false, passes := [], image := 0, clk := (s.core core).cycles
      sched := { g.sched with pipe := at_.1, slot := at_.2, placed := s.placeCtr, waited := 0 } }).settleBars k).monitorWake k
where
  modHead {α : Type} (f : α → α) (xs : List α) : List α :=
    match xs with
    | [] => []
    | x :: r => f x :: r

/-- Saved groups of a block that stands on a core with others of its groups. -/
def State.resumePart (s : State) (launch block : Nat) (b : Block) : Option State :=
  let out := s.savedOf launch block
  let u := s.coreUse b.core
  if b.st != .live || out.isEmpty || !u.fits (s.lrec launch) out.length false then none
  else
    let s := (out.zip (takeSlots u.slots out.length)).foldl (fun s x => s.resumeGroup x.1.1 x.2) s
    some ({ s with placeCtr := s.placeCtr + 1 }.dropL1 b.core)

/-- Whether a saved block can stand on a core: its core number, its team registers, its room. -/
def State.canRestore (s : State) (core launch : Nat) (b : Block) : Bool :=
  b.st == .saved && b.core % 8 == core % 8 && b.teams.all (fun t => !Tbl.has (s.core core).tms t.1) && s.fits core launch

/-- The segment of a block on the cluster it comes to: its own descriptor where the cluster is the same, else a copy. A
streaming segment that is still being emitted does not leave its cluster. `done` lists the copies made for this move. -/
def State.segFor (s : State) (old new seg : Nat) (done : List (Nat × Nat)) : Option (State × Nat × List (Nat × Nat)) :=
  let x := s.desc old seg
  if old = new then some (s, seg, done)
  else
    match done.find? (fun p => p.1 == seg) with
    | some p => some (s, p.2, done)
    | none =>
      if !x.sealed && x.owner.isSome then none
      else (s.segRoom 64 new x.mask x.len).map (fun r =>
        (r.1.setDesc new r.2.1 { x with gen := (r.1.desc new r.2.1).gen, offset := r.2.2, owner := none, refs := 0 }, r.2.1,
          (seg, r.2.1) :: done))

/-- A saved block stands on a core, with its groups, team registers and scratch. Those of its groups that have not ended
take slots in index order (R309). -/
def State.placeSaved (s : State) (launch block : Nat) (b : Block) (core : Nat) (done : List (Nat × Nat)) :
    Option (State × List (Nat × Nat)) :=
  (s.segFor (clusterOf b.core) (clusterOf core) b.seg done).map (fun r =>
    let (s, seg, done) := r
    let out := s.savedOf launch block
    let slots := takeSlots (s.coreUse core).slots out.length
    let c := s.core core
    let s := s.setCore core { c with tms := b.teams.foldl (fun t p => Tbl.set t p.1 p.2) c.tms }
    let s := s.setBlock (bkeyOf launch block)
      { b with st := .live, core, seg, slots, placed := s.placeCtr, teams := []
               residence := (s.chiplet (chipletOf core)).reftime }
    let s := (out.zip slots).foldl (fun s x => s.resumeGroup x.1.1 x.2) s
    ((({ s with placeCtr := s.placeCtr + 1 }.dropL1 core).l1Trim core none).segCheckAll (clusterOf b.core), done))

/-- Saved blocks of one gang are restored onto one cluster, each on the core of its own number, beside those of its
blocks that stand there. -/
def State.restoreGang (s : State) (cl launch gang : Nat) : Option State :=
  let all := (s.gangBlocks launch gang).filterMap (fun b => (s.block (bkeyOf launch b)).map (fun x => (b, x)))
  let out := all.filter (fun b => b.2.st == BlockSt.saved)
  let here (b : Nat × Block) : Bool := (b.2.st != .live && b.2.st != .held) || clusterOf b.2.core == cl
  if out.isEmpty || !all.all here || !out.all (fun b => s.canRestore (8 * cl + b.2.core % 8) launch b.2) then none
  else
    (out.foldl (fun (r : Option (State × List (Nat × Nat))) b =>
      r.bind (fun r => r.1.placeSaved launch b.1 b.2 (8 * cl + b.2.core % 8) r.2)) (some (s, []))).map (fun r => r.1)

/-- A saved block, or saved groups, of a launch that a core can take back. -/
def State.restoreOn (s : State) (core launch : Nat) : Option State :=
  let mine := s.blocks.filter (fun b => b.1 / 2 ^ 32 == launch && b.2.core % 8 == core % 8)
  mine.findSome? (fun b =>
    let n := b.1 % 2 ^ 32
    if b.2.st == .saved then s.restoreGang (clusterOf core) launch (s.gangNo launch n)
    else if b.2.core == core then s.resumePart launch n b.2
    else none)

/-! ## BLOCK_PULL (R310, R312) -/

/-- Launches in order of PRIO, highest first, then of acceptance. -/
def State.launchOrder (s : State) : List (Nat × Launch) :=
  let before (a b : Nat × Launch) : Bool :=
    decide (b.2.rec_.prio < a.2.rec_.prio) || (a.2.rec_.prio == b.2.rec_.prio && decide (a.2.order < b.2.order))
  s.launches.foldl (fun ls l => ls.takeWhile (fun x => before x l) ++ l :: ls.dropWhile (fun x => before x l)) []

/-- What a core takes from a launch: a saved block, or a claim. A launch that ended, or that the chiplet has stopped
pulling, has only its saved blocks to give. -/
def State.pullFrom (s : State) (core launch : Nat) (x : Launch) : Option State :=
  let c := s.ctx x.ctx
  let cl := clusterOf core
  if c.preq || !c.cut.isEmpty then none
  else
    (s.restoreOn core launch).or (
      if x.ended.isSome || Tbl.has (s.chiplet (chipletOf core)).stops launch then none
      else
        match x.checked, x.rec_.err with
        | false, some e => some (s.rejectChild launch x e)
        | _, _ =>
          (s.claimFrom core launch x).map (fun s =>
            let s := if x.checked then s
              else ((s.modLaunch launch (fun x => { x with checked := true })).dropChild launch).accepted x.ctx launch
            s.bind cl launch))

/-- One core's request is served. -/
def State.serve (s : State) (core : Nat) : State :=
  if 1536 ≤ core || s.fatal.isSome || (s.chiplet (chipletOf core)).off || (s.cluster (clusterOf core)).therm.allow = 0 then s
  else (s.launchOrder.findSome? (fun l => s.pullFrom core l.1 l.2)).getD s

/-- The requests that reach the homes together with a core's: which cores of other clusters make them, and when within
that time, is not defined. Core and time. -/
def State.asking (s : State) (core : Nat) : List (Nat × Nat) :=
  let when (cl : Nat) : Nat := (Config.free s.now (1000 + cl)).toNat
  (core, when (clusterOf core)) :: (List.range 192).filterMap (fun cl =>
    if cl != clusterOf core && s.coin (600 + cl) then some (8 * cl + (Config.free s.now (800 + cl)).toNat % 8, when cl) else none)

/-- The order in which they are served: the cluster's thermal allowance, then the time, then the cluster (R312). -/
def State.servedFirst (s : State) (a b : Nat × Nat) : Bool :=
  let al (x : Nat × Nat) : Nat := (s.cluster (clusterOf x.1)).therm.allow
  decide (al b < al a) || (al a == al b && (decide (a.2 < b.2) || (a.2 == b.2 && decide (a.1 < b.1))))

def State.pull (s : State) (core : Nat) : State :=
  let order := (s.asking core).foldl (fun xs x =>
    xs.takeWhile (fun y => s.servedFirst y x) ++ x :: xs.dropWhile (fun y => s.servedFirst y x)) []
  order.foldl (fun s x => s.serve x.1) s

def execBlockPull (core : Nat) (s : State) : Out := .next (s.pull core)

/-! ## Eviction (R323, R324) -/

/-- Some groups can be saved: their images fit in the save areas of their contexts together (R378). -/
def State.readyToSave (s : State) (ks : List GKey) : Bool :=
  ks.all (fun k => s.imagesFit (s.lctx k.launch) (fun q _ => ks.contains q)) && ks.all (fun k => match s.group k with
    | some g => s.saveReady k g
    | none => false)

/-- The groups are saved, all of them or none. -/
def State.saveAll (s : State) (ks : List GKey) : Option State :=
  if !s.readyToSave ks then none
  else
    let t := ks.foldl (fun s k => s.saveGroup k) s
    if ks.all (fun k => match t.group k with
      | some g => g.saved
      | none => false) then some t else none

/-- Resident groups of the gang of a group. -/
def State.gangGroups (s : State) (k : GKey) : List GKey :=
  (s.gangBlocks k.launch (s.gangNo k.launch k.block)).flatMap (fun b => (s.resident k.launch b).map (fun x => x.1))

/-- Resident groups of a core, youngest first: last placed, then highest group index. -/
def State.youngest (s : State) (core : Nat) : List (GKey × Group) :=
  let mine := s.keys.filterMap (fun k => (s.group k).bind (fun g =>
    if g.saved || s.coreOf k != core then none else some (k, g)))
  let before (a b : GKey × Group) : Bool :=
    decide (b.2.sched.placed < a.2.sched.placed) || (a.2.sched.placed == b.2.sched.placed && decide (b.1.gi < a.1.gi))
  mine.foldl (fun xs x => xs.takeWhile (fun y => before y x) ++ x :: xs.dropWhile (fun y => before y x)) []

/-- A group leaves with its gang when its gang has more than one block. -/
def State.leaves (s : State) (k : GKey) : List GKey := if (s.lrec k.launch).gang = 1 then [k] else s.gangGroups k

/-- What a core holds once some groups are gone: a block's scratch with its last group. -/
def State.useWithout (s : State) (core : Nat) (gone : List GKey) : Use :=
  s.blocks.foldl (fun u b =>
    let l := b.1 / 2 ^ 32
    let left := (s.resident l (b.1 % 2 ^ 32)).filter (fun x => !gone.contains x.1)
    if b.2.core != core || b.2.st != .live || left.isEmpty then u
    else u.add (s.lrec l) (left.map (fun x => x.2.sched.slot))) ⟨[], 0, 0, []⟩

/-- The fewest of a core's groups, youngest first, whose leaving makes room for a block. -/
def State.victims (s : State) (core launch : Nat) : Option (List GKey) :=
  let ys := (s.youngest core).map (fun x => x.1)
  (List.range ys.length).findSome? (fun n =>
    let gone := ((ys.take (n + 1)).flatMap s.leaves).foldl (fun ks k => if ks.contains k then ks else ks ++ [k]) []
    let r := s.lrec launch
    if (s.useWithout core gone).fits r r.groups true then some gone else none)

/-- The launch of a context whose next block fits on no core. -/
def State.crowded (s : State) (ctx : Nat) : Option (Nat × Launch) :=
  s.launchOrder.find? (fun l => l.2.ctx == ctx && l.2.ended.isNone &&
    (!l.2.returns.isEmpty || decide (l.2.next < l.2.rec_.blocks.toNat)) &&
    !(List.range 1536).any (fun c =>
      let ch := s.chiplet (chipletOf c)
      !ch.off && !Tbl.has ch.stops l.1 && s.fits c l.1))

def State.evict (s : State) (core ctx : Nat) : State :=
  match s.crowded ctx with
  | none => s
  | some (l, x) =>
    let here := s.blocks.filter (fun b => b.2.core == core && (b.2.st == BlockSt.held || b.2.st == BlockSt.live))
    let lower := here.all (fun b =>
      b.2.st == BlockSt.live && decide ((s.lrec (b.1 / 2 ^ 32)).prio < x.rec_.prio) &&
        (s.lrec (b.1 / 2 ^ 32)).strict == x.rec_.strict)
    match s.victims core l with
    | none => s
    | some ks =>
      if (s.ctx ctx).preq || s.fatal.isSome || !lower then s else (s.saveAll ks).getD s

def execEviction (core ctx : Nat) (s : State) : Out := .next (s.evict core ctx)

/-! ## Migration (R341) -/

/-- A cluster that a gang may move to. -/
def State.cooler (s : State) (cl launch : Nat) (bs : List (Nat × Block)) (t : Nat) : Bool :=
  let a := (s.cluster cl).therm
  let b := (s.cluster t).therm
  t != cl && !b.hot && !(s.chiplet (chipletOfCl t)).off && decide (tcOf s.market b + 4 ≤ tcOf s.market a) &&
    bs.all (fun x =>
      let core := 8 * t + x.2.core % 8
      let held := x.2.teams ++ (s.core x.2.core).tms.filter (fun p => p.2.launch == launch && p.2.block == x.1)
      held.all (fun p => !Tbl.has (s.core core).tms p.1) && s.fits core launch)

/-- A block whose gang has a stopped group does not migrate (R391). -/
def State.halts (s : State) (launch block : Nat) : Bool :=
  (s.gangBlocks launch (s.gangNo launch block)).any (fun b =>
    (s.blockGroups launch b).any (fun k => (s.group k).any (fun g => g.trap.isSome || g.stopped.isSome)))

/-- The block of a cluster that has resided there longest, if it has for 2 ms at least: launch and block. -/
def State.resides (s : State) (cl : Nat) : Option (Nat × Nat) :=
  let mine := s.blocks.filter (fun b => b.2.st == BlockSt.live && clusterOf b.2.core == cl &&
    !s.halts (b.1 / 2 ^ 32) (b.1 % 2 ^ 32))
  (mine.foldl (fun (b : Option (Nat × Block)) x =>
    match b with
    | some y => if x.2.residence < y.2.residence then some x else b
    | none => some x) none).bind (fun b =>
      if b.2.residence + 2000000 ≤ (s.chiplet (chipletOfCl cl)).reftime then some (b.1 / 2 ^ 32, b.1 % 2 ^ 32) else none)

/-- A gang moves: what stands of it is saved and placed at once on the cluster with the most allowance that can take it.
One that is being pre-empted, or that has a block claimed and not released, stays. -/
def State.migrate (s : State) (cl : Nat) : State :=
  let t := (s.cluster cl).therm
  if !t.hot || s.market.allhot || t.sent || s.fatal.isSome then s
  else
    match s.resides cl with
    | none => s
    | some (l, b) =>
      let x := s.ctx (s.lctx l)
      let gang := s.gangNo l b
      let bs := (s.gangBlocks l gang).filterMap (fun n =>
        (s.block (bkeyOf l n)).bind (fun x => if x.st == .ended then none else some (n, x)))
      let ks := bs.flatMap (fun x => (s.resident l x.1).map (fun y => y.1))
      let dest := (List.range 192).foldl (fun (best : Option Nat) c =>
        if !s.cooler cl l bs c then best
        else
          match best with
          | some y => if (s.cluster y).therm.allow < (s.cluster c).therm.allow then some c else best
          | none => some c) none
      if x.preq || !x.cut.isEmpty || bs.any (fun b => b.2.st == .held) then s
      else
        match dest.bind (fun c => (s.saveAll ks).bind (fun s => s.restoreGang c l gang)) with
        | none => s
        | some s =>
          let x := s.cluster cl
          s.setCluster cl { x with therm := { x.therm with sent := true } }

def execBlockMigration (cl : Nat) (s : State) : Out := .next (s.migrate cl)

/-! ## LAUNCH_COMPLETE (R308, R314, R316, R418) -/

/-- An accepted launch whose every block has exited, whose every context has ended, and that has no block left to
claim. -/
def State.completes (s : State) (l : Nat) (x : Launch) : Bool :=
  !s.blocks.any (fun b => b.1 / 2 ^ 32 == l && b.2.st != BlockSt.ended) &&
    (x.ended.isSome || (x.checked && x.returns.isEmpty && decide (x.rec_.blocks.toNat ≤ x.next))) &&
    !s.clusters.any (fun c => c.2.sctx.any (fun y => y.2.launch == some l))

/-- The copies and passes that the groups of a launch have left run on without it: no group is theirs any more (DESIGN
CHOICE, log entry 100). -/
def State.orphan (s : State) (l : Nat) : State :=
  let key (k : GKey) : GKey := if k.launch = l then GKey.leave k else k
  { s with
    cores := s.cores.map (fun (c : Nat × Core) => (c.1, { c.2 with
      copies := c.2.copies.map (fun x => { x with key := key x.key })
      matched := c.2.matched.map (fun x => match x with
        | .tile k p n => .tile (key k) p n
        | .team o => .team o) }))
    clusters := s.clusters.map (fun (c : Nat × Cluster) => (c.1, { c.2 with
      harp := c.2.harp.map (fun p => { p with key := key p.key }) })) }

/-- The launch leaves the launch table with what stands under its identifier. What its blocks' scratch held stays until a block
of that name is placed anew (R411). -/
def State.forget (s : State) (l : Nat) : State :=
  let s := s.orphan l
  { s with
    launches := Tbl.del s.launches l
    blocks := s.blocks.filter (fun b => b.1 / 2 ^ 32 != l)
    gangs := s.gangs.filter (fun g => g.1 / 2 ^ 32 != l)
    chiplets := s.chiplets.map (fun (c : Nat × Chiplet) => (c.1, { c.2 with stops := Tbl.del c.2.stops l }))
    clusters := s.clusters.map (fun (c : Nat × Cluster) => (c.1, { c.2 with unbound := c.2.unbound.filter (· != l) })) }.dropChild l

/-- A record of a replay is done: with the last one, or one that no chiplet can place, the replay ends. -/
def State.recordDone (s : State) (x : Launch) : State :=
  match x.replay with
  | none => s
  | some (key, _, _, i) =>
    let last := match Tbl.find s.graphs key with
      | some (r :: _) => decide (r.nrec ≤ i + 1)
      | _ => true
    if last || x.ended = some 7 then s.endReplay key else s

def execLaunchComplete (launch : Nat) (s : State) : Out :=
  .next (match s.launch launch with
    | none => s
    | some x =>
      if !s.completes launch x || s.fatal.isSome then s
      else
        let s := (s.forget launch).recordDone x
        if x.ended = some 7 then s
        else (s.setCtx x.ctx { s.ctx x.ctx with done := (s.ctx x.ctx).done + 1 }).ctxInt x.ctx 4)

/-! ## Pre-emption requests (R376) -/

/-- Cores that hold groups of a context, and a core of each cluster that binds one of its Starter contexts. -/
def State.ctxCores (s : State) (c : Nat) : List Nat :=
  let cs := s.blocks.foldl (fun cs b =>
    if b.2.st == BlockSt.live && s.lctx (b.1 / 2 ^ 32) == c then insertNat b.2.core cs else cs) []
  s.clusters.foldl (fun cs x =>
    if x.2.sctx.any (fun y => match y.2.launch with
        | some l => s.lctx l == c
        | none => false)
    then insertNat (8 * x.1) cs else cs) cs

/-- PREQ is set, and the request reaches every core at the count it shows: groups that issued nothing since their boundary
are saved at once. -/
def State.preempt (s : State) (c : Nat) : State :=
  let x := s.ctx c
  if x.preq then s
  else
    let s := s.setCtx c { x with preq := true, preqAt := s.cores.map (fun p => (p.1, p.2.cycles)) }
    s.keys.foldl (fun s k => if s.lctx k.launch == c then s.politeSave k else s) s

def execPreqSet (ctx : Nat) (s : State) : Out := .next (s.preempt ctx)

/-- Starter contexts of a context go on where they were saved. -/
def State.wakeStarters (s : State) (c : Nat) : State :=
  { s with clusters := s.clusters.map (fun x => (x.1, { x.2 with sctx := x.2.sctx.map (fun y =>
      (y.1, if (match y.2.launch with
          | some l => s.lctx l == c
          | none => false) then { y.2 with saved := false, wait := if y.2.saved then none else y.2.wait } else y.2)) })) }

/-- PREQ is cleared: what is not yet cut is withdrawn, and pulls bring saved blocks back (R310). -/
def State.withdrawPreq (s : State) (c : Nat) : State :=
  let x := s.ctx c
  let s := s.setCtx c { x with preq := false, preqAt := [], rindOp := if x.rindOp = 8 then 0 else x.rindOp }
  let s := s.keys.foldl (fun s k =>
    if s.lctx k.launch != c then s
    else s.modGroup k (fun g => { g with
      saveWanted := false, tasks := g.tasks.map (fun (t : Task) => { t with save := false }) })) s
  s.wakeStarters c

def execPreqClear (ctx : Nat) (s : State) : Out := .next (s.withdrawPreq ctx)

/-- FORCE: the forced cut is due at every core that holds the context. -/
def State.force (s : State) (c : Nat) : State :=
  let x := s.ctx c
  s.setCtx c { x with cut := (s.ctxCores c).foldl (fun t k => if Tbl.has t k then t else Tbl.set t k false) x.cut }

def execTskCtlForce (ctx : Nat) (s : State) : Out := .next (s.force ctx)

/-! ## FORCED_CUT (R303, R336, R377) -/

/-- A Starter context meets a forced cut: its open static segments are discarded and it stands at its snapshot. A word that
waited for a page is made anew as the context goes on (R97). On a
chiplet that leaves service it ends. -/
def State.cutStarter (s : State) (cl j : Nat) (off stay : Bool) : State :=
  if off then s.endContext cl j
  else
    let gone := (s.cluster cl).openStatic j
    let s := gone.foldl (fun s d => s.freeSeg cl d) s
    let x := s.starter cl j
    let x := { x with refs := x.refs.filter (fun r => !gone.contains r.1), saved := stay, wait := none }
    s.setStarter cl j (match x.snaps.find? (fun n => gone.contains n.1) with
      | some (_, regs, pc) => { x with s := regs, pc, snaps := [], part := 0 }
      | none => x)

/-- Starter contexts of a context on a cluster, but for those saved already. -/
def State.cutStarters (s : State) (c cl : Nat) (off stay : Bool) : State :=
  let s := if off then s.setCluster cl { s.cluster cl with unbound := [] } else s
  (List.range 4).foldl (fun s j =>
    let x := s.starter cl j
    match x.launch with
    | some l => if s.lctx l == c && (off || !x.saved) then s.cutStarter cl j off stay else s
    | none => s) s

/-- Groups of a context on a core that are not saved. -/
def State.unsaved (s : State) (c core : Nat) : List GKey :=
  s.keys.filter (fun k => s.lctx k.launch == c && s.coreOf k == core && (match s.group k with
    | some g => !g.saved
    | none => false))

/-- Whether a forced cut is due at a core: PRECYC cycles after the request, by FORCE, or as its chiplet leaves service. -/
def State.cutDue (s : State) (c core : Nat) : Bool :=
  let x := s.ctx c
  (s.chiplet (chipletOf core)).off || Tbl.has x.cut core ||
    (x.preq && decide ((Tbl.find x.preqAt core).getD 0 + x.precyc.toNat ≤ (s.core core).cycles))

/-- A forced cut begins once the images of everything that is to be cut fit; the groups issue nothing more, each is saved
as it comes to rest, and the cut ends with the last. -/
def State.forcedCut (s : State) (c core : Nat) : State :=
  let x := s.ctx c
  let ks := s.unsaved c core
  let off := (s.chiplet (chipletOf core)).off
  let begun := Tbl.find x.cut core == some true
  if s.fatal.isSome || !s.cutDue c core then s
  else if !begun && !s.imagesFit c (fun k _ => !off || x.preq || chipletOf (s.coreOf k) == chipletOf core) then s
  else
    let s := if begun then s
      else (s.setCtx c { x with cut := Tbl.set x.cut core true }).cutStarters c (clusterOf core) off x.preq
    let s := ks.foldl (fun s k => match s.group k with
      | some g => if s.saveReady k g then s.saveGroup k else s
      | none => s) s
    if (s.unsaved c core).isEmpty then
      let x := s.ctx c
      s.setCtx c { x with cut := Tbl.del x.cut core }
    else s

def execForcedCut (ctx core : Nat) (s : State) : Out := .next (s.forcedCut ctx core)

/-! ## Parked groups (R97, R367) -/

/-- A parked group retries the word it stands at, in its unfinished lanes. -/
def Group.retryPark (g : Group) : Group :=
  match g.park with
  | none => g
  | some p =>
    { g with park := none, issuing := g.issuing.map (fun i => { i with retry := some (maskOf (p.lanes.map (fun x => x.1))) }) }

/-- A parked group traps PERM in the lanes that `hit` picks; every unfinished lane is entered (R374). -/
def State.failPark (s : State) (k : GKey) (kind : BitVec 8) (hit : ParkLane → Bool) : State :=
  match s.group k with
  | none => s
  | some g =>
    match g.park, g.issuing with
    | some p, some i =>
      let recs := p.lanes.map (fun x =>
        let f : BitVec 8 := if x.2.st then 12 else 8
        (x.1, if hit x.2 then LaneRec.mk x.2.addr kind Cause.perm 0 f else LaneRec.mk x.2.addr 0 0 0 f))
      let w : GW := ⟨s, k, { g with park := none }, i⟩
      (w.trapWith { trapOf Cause.perm p.word with lanes := recs.foldl (fun t r => Tbl.set t r.1 r.2) p.helpers }).modGroup k (fun g => { g with issuing := none })
    | _, _ => s

/-- Groups of a context parked in a way that `hit` picks. -/
def State.parkedIn (s : State) (c : Nat) (hit : ParkLane → Bool) : List GKey :=
  s.keys.filter (fun k => s.lctx k.launch == c && (match s.group k with
    | some g => (match g.park with
      | some p => p.lanes.any (fun x => hit x.2)
      | none => false)
    | none => false))

def ParkLane.whey (l : ParkLane) : Bool := l.page.isNone

/-- FULL is cleared. -/
def State.clearFull (s : State) (c : Nat) : State := s.setCtx c { s.ctx c with full := false }

/-- GO: groups parked for whey space retry. -/
def State.wheyGo (s : State) (c : Nat) : State :=
  ((s.parkedIn c ParkLane.whey).foldl (fun s k => s.modGroup k Group.retryPark) s).clearFull c

/-- FAIL: they trap WHEYFULL in the lanes that need space. -/
def State.wheyFail (s : State) (c : Nat) : State :=
  ((s.parkedIn c ParkLane.whey).foldl (fun s k => s.failPark k Kind.wheyFull ParkLane.whey) s).clearFull c

def execTskWheyGo (ctx : Nat) (s : State) : Out := .next (s.wheyGo ctx)
def execTskWheyFail (ctx : Nat) (s : State) : Out := .next (s.wheyFail ctx)

/-! ## XLT_REPLAY (R97, R98) -/

/-- Whether a write of XLT_REPLAY answers a page: PAGE holds bits 56:12 of its addresses. -/
def answers (val : BitVec 64) (page : Nat) : Bool :=
  val.getLsbD 0 || page % 2 ^ 45 == (val.extractLsb' 12 45).toNat
def ParkLane.on (val : BitVec 64) (l : ParkLane) : Bool :=
  match l.page with
  | some p => answers val p
  | none => false

/-- The answered pages are outstanding no more. -/
def State.answered (s : State) (c : Nat) (val : BitVec 64) : State :=
  let x := s.ctx c
  s.setCtx c { x with
    posted := x.posted.filter (fun p => !answers val p.1)
    waiting := x.waiting.filter (fun e => !answers val e.1)
    lwait := x.lwait && !(match x.lport with
      | va :: _ => answers val (pageOf va)
      | [] => false) }

/-- Copies of a context that wait for an answered page: core and place in its queue. -/
def State.waitingCopies (s : State) (c : Nat) (val : BitVec 64) : List (Nat × Nat × BitVec 64) :=
  s.cores.flatMap (fun x => x.2.copies.zipIdx.filterMap (fun y =>
    y.1.wait.bind (fun va => if y.1.ctx == c && answers val (pageOf va) then some (x.1, y.2, va) else none)))

/-- Clusters whose head pass waits for an answered page, with the vertex it stands at. -/
def State.waitingPasses (s : State) (c : Nat) (val : BitVec 64) : List (Nat × Nat) :=
  s.clusters.filterMap (fun x =>
    match x.2.harp with
    | p :: _ => p.wait.bind (fun w => if p.ctx == c && answers val w.1 then some (x.1, w.2) else none)
    | [] => none)

/-- Starter contexts that wait for an answered page. -/
def State.waitingStarters (s : State) (c : Nat) (val : BitVec 64) : List (Nat × Nat × Nat) :=
  s.clusters.flatMap (fun x => x.2.sctx.filterMap (fun y =>
    y.2.wait.bind (fun va => y.2.launch.bind (fun l =>
      if s.lctx l == c && answers val (va / 4096) then some (x.1, y.1, va) else none))))

/-- Everything that waits for an answered page goes on. -/
def State.replayRetry (s : State) (c : Nat) (val : BitVec 64) : State :=
  let s := (s.parkedIn c (ParkLane.on val)).foldl (fun s k => s.modGroup k Group.retryPark) s
  let s := (s.waitingCopies c val).foldl (fun s x => s.modCopy x.1 x.2.1 (fun c => { c with wait := none })) s
  let s := (s.waitingPasses c val).foldl (fun s x => s.modPass x.1 (fun p => { p with wait := none, damaged := [] })) s
  let s := (s.waitingStarters c val).foldl (fun s x =>
    s.setStarter x.1 x.2.1 { s.starter x.1 x.2.1 with wait := none }) s
  s.answered c val

def execXltReplayRetry (ctx : Nat) (val : BitVec 64) (s : State) : Out := .next (s.replayRetry ctx val)

/-- The record at the head of the port, or of a replay, whose page is answered FAIL cannot be read: ERR 1 (R307). -/
def State.failRecords (s : State) (c : Nat) (val : BitVec 64) : State :=
  let x := s.ctx c
  let asked (page : Nat) : Bool := answers val page && (Tbl.has x.posted page || x.waiting.any (fun e => e.1 == page))
  let s := match x.lwait, x.lport with
    | true, va :: rest =>
      if asked (pageOf va) then (s.setCtx c { x with lport := rest, lwait := false }).launchErr c 1 none else s
    | _, _ => s
  match s.dueGraph c with
  | some (key, r) =>
    if asked (pageOf (r.rbase + BitVec.ofNat 64 (128 * r.next))) then (s.launchErr c 1 none).endReplay key else s
  | none => s

/-- Everything that waits for an answered page fails there: NOTMAPPED. -/
def State.replayFail (s : State) (c : Nat) (val : BitVec 64) : State :=
  let s := (s.parkedIn c (ParkLane.on val)).foldl (fun s k => s.failPark k Kind.notmapped (fun _ => true)) s
  let s := (s.waitingCopies c val).foldl (fun s x => s.copyFault x.1 x.2.1 Kind.notmapped) s
  let s := (s.waitingPasses c val).foldl (fun s x => s.passFail x.1 x.2) s
  let s := (s.waitingStarters c val).foldl (fun s x =>
    (s.setStarter x.1 x.2.1 { s.starter x.1 x.2.1 with wait := none }).starterFault x.1 x.2.1 Cause.starterFault Sub.memory
      Kind.notmapped (BitVec.ofNat 64 x.2.2) 0 0) s
  (s.failRecords c val).answered c val

def execXltReplayFail (ctx : Nat) (val : BitVec 64) (s : State) : Out := .next (s.replayFail ctx val)

end Sys2Proof.Machine
end

