-- ==== Sys2Proof/Machine/Rind.lean ====
section
/-! DEFINITION. The rind of a context: its bytes, taking it and restoring it (R379 to R381). -/
namespace Sys2Proof.Machine
open Sys2Proof

/-! ## CRC-64 (R379) -/

/-- 0x42F0_E1EB_A9EA_3693, reflected. -/
def crcPoly : BitVec 64 := 0xC96C5795D7870F42

def crcBits (n : Nat) (c : BitVec 64) : BitVec 64 :=
  match n with
  | 0 => c
  | n + 1 => crcBits n (if c.getLsbD 0 then (c >>> 1) ^^^ crcPoly else c >>> 1)

def crc64 (bs : List Byte) : BitVec 64 := ~~~(bs.foldl (fun c b => crcBits 8 (c ^^^ b.setWidth 64)) (~~~0))

/-! ## What a context's rind holds -/

def State.ofCtx (s : State) (c launch : Nat) : Bool :=
  match s.launch launch with
  | some x => x.ctx == c
  | none => false

/-- The cluster whose vault holds a vault address (R81). -/
def vaultCluster (a : Nat) : Nat := 24 * (a / 2 ^ 28) + a / 2 ^ 23 % 32

/-- Whether a descriptor of a cluster serves a context: one of its Starter contexts opened it or refers to it, or a block
of it was released into it. -/
def State.descOf (s : State) (c cl d : Nat) : Bool :=
  let k := s.cluster cl
  let x := k.desc d
  let mine (j : Nat) : Bool := match (k.starter j).launch with
    | some l => s.ofCtx c l
    | none => false
  x.used && ((match x.owner with
      | some j => mine j
      | none => false) ||
    (List.range 4).any (fun j => mine j && Tbl.has (k.starter j).refs d) ||
    s.blocks.any (fun b => s.ofCtx c (b.1 / 2 ^ 32) && b.2.seg == d && clusterOf b.2.core == cl && b.2.st == BlockSt.saved))

/-- Blocks that a launch has claimed and not released go to the head of its return list in the rind. -/
def State.rindLaunch (s : State) (l : Nat) (x : Launch) : Launch :=
  let held := s.blocks.filterMap (fun b => if b.1 / 2 ^ 32 == l && b.2.st == BlockSt.held then some (b.1 % 2 ^ 32) else none)
  { x with returns := held ++ x.returns }

def State.rindOf (s : State) (c : Nat) (gen : BitVec 64) : Rind :=
  let owns (a : Nat) : Bool := (s.cluster (vaultCluster a)).vltCtx.toNat == c
  { ctx := c, gen
    groups := s.groups.filter (fun g => s.ofCtx c (g.1 / 32 / 2 ^ 32))
    blocks := s.blocks.filter (fun b => s.ofCtx c (b.1 / 2 ^ 32) && b.2.st != BlockSt.held)
    gangs := s.gangs.filter (fun g => s.ofCtx c (g.1 / 2 ^ 32))
    launches := (s.launches.filter (fun l => l.2.ctx == c)).map (fun l => (l.1, s.rindLaunch l.1 l.2))
    graphs := s.graphs.filter (fun g => g.2.all (fun r => r.ctx == c))
    scr := s.scr.filter (fun p => s.ofCtx c (p.1 / 2 ^ 18 / 2 ^ 32))
    vlt := s.vlt.filter (fun p => owns p.1)
    poisonScr := s.poisonScr.filter (fun p => s.ofCtx c (p.1 / 2 ^ 18 / 2 ^ 32))
    poisonVlt := s.poisonVlt.filter (fun p => owns p.1)
    vcfg := (List.range 192).filterMap (fun cl =>
      let x := s.cluster cl
      if x.vltCtx.toNat == c then some (cl, (x.vltCtx, x.vltScr)) else none)
    sctx := s.clusters.flatMap (fun k => k.2.sctx.filterMap (fun y => match y.2.launch with
      | some l => if s.ofCtx c l then some (4 * k.1 + y.1, y.2) else none
      | none => none))
    descs := s.clusters.flatMap (fun k => k.2.descs.filterMap (fun d =>
      if s.descOf c k.1 d.1 then some (32 * k.1 + d.1, d.2) else none))
    subs := s.clusters.flatMap (fun k => k.2.slots.filterMap (fun t =>
      if t.2.st != SubSt.free && s.ofCtx c t.2.launch then some (16 * k.1 + t.1, t.2) else none))
    marks := (s.ctx c).marks, rqTail := (s.ctx c).rqTail, rqHead := (s.ctx c).rqHead
    bytes := [] }

/-! ## Its bytes (R379, R380) -/

/-- The sections: type and bytes, which the saved state gives. A block's section ends with its group images. -/
def State.rindSections (s : State) (r : Rind) : List (Nat × List Byte) :=
  let images (b : Nat) : List Byte := (r.groups.filter (fun x => x.1 / 32 == b)).flatMap (fun x =>
    let k : GKey := ⟨b / 2 ^ 32, b % 2 ^ 32, x.1 % 32⟩
    s.imageBytes k x.2 (BitVec.ofNat 64 x.2.image) true)
  let parts : List (Nat × List Byte) :=
    r.launches.map (fun _ => (1, [])) ++ r.blocks.map (fun b => (2, images b.1)) ++ [(3, [])] ++
      r.sctx.map (fun _ => (4, [])) ++ r.descs.map (fun _ => (5, [])) ++ [(6, []), (7, [])]
  parts.zipIdx.map (fun p => (p.1.1, Config.rindLayout Rind r p.2 ++ p.1.2))

/-- The header with a given CRC field. -/
def rindHeader (gen : BitVec 64) (len : Nat) (crc : BitVec 64) (ctx nsect : Nat) : List Byte :=
  natLE 4 0x444E4952 ++ natLE 4 1 ++ le 8 gen ++ natLE 8 len ++ le 8 crc ++ natLE 4 ctx ++ natLE 4 nsect ++ natLE 24 0

def State.rindBytes (s : State) (r : Rind) : List Byte :=
  let secs := s.rindSections r
  let start := 64 + 16 * secs.length
  let dir := (secs.foldl (fun (a : Nat × List Byte) x =>
    (a.1 + x.2.length, a.2 ++ natLE 4 x.1 ++ natLE 8 a.1 ++ natLE 4 x.2.length)) (start, [])).2
  let body := dir ++ (secs.map (fun x => x.2)).flatten
  let len := 64 + body.length
  let crc := crc64 (rindHeader r.gen len 0 r.ctx secs.length ++ body)
  rindHeader r.gen len crc r.ctx secs.length ++ body

/-- Memory stands behind a range of physical addresses. -/
def State.backed (s : State) (pa n : Nat) : Bool :=
  let ok (p : Nat) : Bool := match s.paKind (BitVec.ofNat 52 p) with
    | .dram => decide (p < 2 ^ 52)
    | .host => decide (p < 2 ^ 52)
    | _ => false
  n == 0 || (decide (n ≤ 2 ^ 36) && ok pa && ok (pa + n - 1))

/-! ## Taking a rind (R381) -/

/-- Everything of a context is saved. -/
def State.ctxSaved (s : State) (c : Nat) : Bool :=
  s.groups.all (fun g => g.2.saved || !s.ofCtx c (g.1 / 32 / 2 ^ 32)) && (s.ctx c).cut.isEmpty &&
    s.tails.all (fun t => !s.ofCtx c t.key.launch) && s.clusters.all (fun k => k.2.sctx.all (fun y => match y.2.launch with
      | some l => y.2.saved || !s.ofCtx c l
      | none => true))

/-- The rind is written, and the context is restored or stays saved. -/
def State.rindFinish (s : State) (c op : Nat) : State :=
  let x := s.ctx c
  let gen := x.rindGen + 1
  let r := s.rindOf c gen
  let bs := s.rindBytes r
  let before := decide (4 ≤ x.rindOp)
  let hold := !before && op == 2
  let s :=
    if s.backed (x.rbase.toNat * 4096) bs.length then
      let s := { s with rinds := s.rinds.filter (fun (q : Rind) => q.bytes != bs) ++ [{ r with bytes := bs }] }.homeWrite (x.rbase.toNat * 4096) bs
      s.setCtx c { s.ctx c with rindGen := gen, result := 0 }
    else s.setCtx c { x with result := 5 }
  let s := s.setCtx c { s.ctx c with busy := false, rindOp := if hold then 8 else 0 }
  if before || hold then s else s.withdrawPreq c

/-- A take begins with a polite request; it ends once the forced cuts have left nothing unsaved. -/
def State.rindTake (s : State) (c op : Nat) : State :=
  if s.fatal.isSome then s
  else
    let x := s.ctx c
    let s := if x.busy then s
      else
        let s := s.preempt c
        s.setCtx c { s.ctx c with busy := true, rindOp := op + (if x.preq && x.rindOp != 8 then 4 else 0) }
    if (s.ctx c).rindOp % 4 == op && s.ctxSaved c then s.rindFinish c op else s

def execRindTakeContinue (ctx : Nat) (s : State) : Out := .next (s.rindTake ctx 1)
def execRindTakeStay (ctx : Nat) (s : State) : Out := .next (s.rindTake ctx 2)

/-! ## Restoring a rind (R381) -/

/-- The first check that a rind in the buffer fails, or its generation and its bytes. -/
def State.rindCheck (s : State) (c : Nat) : Nat ⊕ (BitVec 64 × List Byte) :=
  let x := s.ctx c
  let a := x.rbase.toNat * 4096
  if !s.backed a 64 then .inl 5
  else
    let h := Store.bytes s.mem a 64
    let len := recBytesAt h 16 8
    let gen := BitVec.ofNat 64 (recBytesAt h 8 8)
    if recBytesAt h 0 4 ≠ 0x444E4952 || recBytesAt h 4 4 ≠ 1 then .inl 1
    else if len < 64 || !s.backed a len then .inl 5
    else if recBytesAt h 24 8 ≠ (crc64 (h.take 24 ++ natLE 8 0 ++ (Store.bytes s.mem a len).drop 32)).toNat then .inl 2
    else if gen.toNat < x.rindGen.toNat then .inl 3
    else .inr (gen, Store.bytes s.mem a len)

/-- Blocks of a context that stand on cores. -/
def State.anyResident (s : State) (c : Nat) : Bool :=
  s.blocks.any (fun b => b.2.st == BlockSt.live && s.ofCtx c (b.1 / 2 ^ 32))

/-- What stands under a context's launches goes: the rind takes its place. -/
def State.clearCtx (s : State) (c : Nat) : State :=
  let s := s.clusters.foldl (fun s k => (List.range 4).foldl (fun s j =>
    match (s.starter k.1 j).launch with
    | some l => if s.ofCtx c l then s.endContext k.1 j else s
    | none => s) s) s
  let ls := (s.launches.filter (fun l => l.2.ctx == c)).map (fun l => l.1)
  let s := { s with
    groups := s.groups.filter (fun g => !ls.contains (g.1 / 32 / 2 ^ 32))
    graphs := s.graphs.filter (fun g => g.2.any (fun r => r.ctx != c)) }
  let s := ls.foldl (fun s l => s.clusters.foldl (fun s k => s.retireLaunch k.1 l) (s.forget l)) s
  s.clusters.foldl (fun s k => s.segCheckAll k.1) (s.setCtx c { s.ctx c with marks := [] })

/-- Whether everything that a rind names is free to stand again: its launch identifiers, Starter contexts, descriptors
with their positions. -/
def State.rindRoom (s : State) (r : Rind) : Bool :=
  r.launches.all (fun l => !Tbl.has s.launches l.1) &&
    r.sctx.all (fun y => (s.starter (y.1 / 4) (y.1 % 4)).launch.isNone) &&
    r.descs.all (fun d =>
      let k := s.cluster (d.1 / 32)
      !(k.desc (d.1 % 32)).used && k.fits d.2.mask d.2.offset d.2.len)

def mergeTbl {α : Type} (t u : Tbl α) : Tbl α := u.foldl (fun t p => Tbl.set t p.1 p.2) t

/-- The rind's contents stand as saved blocks and contexts. Reports of its stopped groups name them again. The scratch of its
launches is what the rind holds of it, and nothing that launches of their identifiers have left before. -/
def State.rindPlace (s : State) (c : Nat) (r : Rind) : State :=
  let own (g : Group) : Group := { g with passes := g.passes.map (fun p => { p with ctx := c }) }
  let s := { s with
    groups := mergeTbl s.groups (r.groups.map (fun (g : Nat × Group) => (g.1, own g.2))), blocks := mergeTbl s.blocks r.blocks, gangs := mergeTbl s.gangs r.gangs
    launches := mergeTbl s.launches (r.launches.map (fun (l : Nat × Launch) => (l.1, { l.2 with ctx := c })))
    graphs := mergeTbl s.graphs r.graphs
    scr := mergeTbl (s.scr.filter (fun p => !Tbl.has r.launches (p.1 / 2 ^ 18 / 2 ^ 32))) r.scr
    poisonScr := mergeTbl (s.poisonScr.filter (fun p => !Tbl.has r.launches (p.1 / 2 ^ 18 / 2 ^ 32))) r.poisonScr
    vlt := mergeTbl (s.vlt.filter (fun p => !Tbl.has r.vcfg (vaultCluster p.1))) r.vlt
    poisonVlt := mergeTbl (s.poisonVlt.filter (fun p => !Tbl.has r.vcfg (vaultCluster p.1))) r.poisonVlt }
  let s := r.sctx.foldl (fun s y => s.setStarter (y.1 / 4) (y.1 % 4) { y.2 with saved := true }) s
  let s := r.descs.foldl (fun s d => s.setDesc (d.1 / 32) (d.1 % 32) d.2) s
  let s := r.subs.foldl (fun s t =>
    let k := s.cluster (t.1 / 16)
    if (k.slot (t.1 % 16)).st == .free then s.setCluster (t.1 / 16) { k with slots := Tbl.set k.slots (t.1 % 16) t.2 } else s) s
  let reports : Tbl GKey := r.groups.foldl (fun t g => match g.2.stopped with
    | some i => Tbl.set t i (GKey.mk (g.1 / 32 / 2 ^ 32) (g.1 / 32 % 2 ^ 32) (g.1 % 32))
    | none => t) (s.ctx c).reports
  s.setCtx c { s.ctx c with marks := r.marks, rqTail := r.rqTail, rqHead := r.rqHead, reports }

def State.rindResult (s : State) (c n : Nat) : State :=
  s.setCtx c { s.ctx c with result := BitVec.ofNat 4 n, busy := false, rindOp := if (s.ctx c).rindOp = 8 then 8 else 0 }

/-- What a rind holds belongs to its launches and vaults, and its memories are canonical. -/
def Rind.sound (r : Rind) : Bool :=
  let mine (l : Nat) : Bool := Tbl.has r.launches l
  Store.wf r.scr && Store.wf r.vlt && r.groups.all (fun g => mine (g.1 / 32 / 2 ^ 32)) &&
    r.blocks.all (fun b => mine (b.1 / 2 ^ 32)) && r.gangs.all (fun g => mine (g.1 / 2 ^ 32)) &&
    r.scr.all (fun p => mine (p.1 / 2 ^ 18 / 2 ^ 32)) && r.poisonScr.all (fun p => mine (p.1 / 2 ^ 18 / 2 ^ 32)) &&
    r.vlt.all (fun p => Tbl.has r.vcfg (vaultCluster p.1)) && r.poisonVlt.all (fun p => Tbl.has r.vcfg (vaultCluster p.1)) &&
    r.sctx.all (fun y => y.2.launch.any mine)

/-- The rind that stands in a buffer: one that this part has written, by its bytes, else what the Herot finds there, whose
layout the spec leaves to it (DESIGN CHOICE, log entry 13). -/
def State.rindIn (s : State) (bytes : List Byte) : Rind :=
  match s.rinds.find? (fun r => r.bytes == bytes), Config.rindRead Rind bytes with
  | some r, _ => r
  | none, some r => if r.sound then r else default
  | none, none => default

/-- OP 3. While something that the rind names is in use elsewhere, the restore goes on waiting. -/
def State.rindRestore (s : State) (c : Nat) : State :=
  let x := s.ctx c
  if s.fatal.isSome || (x.busy && x.rindOp % 8 != 3) then s
  else
    match s.rindCheck c with
    | .inl n => s.rindResult c n
    | .inr (gen, bytes) =>
        let r := s.rindIn bytes
        if !r.vcfg.all (fun v => (s.cluster v.1).vltCtx == v.2.1 && (s.cluster v.1).vltScr == v.2.2) then s.rindResult c 4
        else if s.anyResident c then s.rindResult c 6
        else
          let t := s.clearCtx c
          if !t.rindRoom r then s.setCtx c { x with busy := true, rindOp := 3 }
          else
            let held := x.rindOp = 8
            let t := (t.rindPlace c r).setCtx c { (t.rindPlace c r).ctx c with rindGen := gen, result := 0, busy := false, rindOp := 0 }
            if held || !x.preq then t.withdrawPreq c else t

def execRindRestore (ctx : Nat) (s : State) : Out := .next (s.rindRestore ctx)

end Sys2Proof.Machine
end

