-- ==== Sys2Proof/Machine/HostRegs.lean ====
section
/-! DEFINITION. Writes of the register window, accesses from outside, and bring-up (R6, R7, R80, R95, R217, R231, R299,
R302, R331, R362, R366, R376, R381, R389, R392 to R401). -/
namespace Sys2Proof.Machine
open Sys2Proof

/-- A field of a written value. -/
def fieldAt (val : BitVec 64) (lo w : Nat) : BitVec w := val.extractLsb' lo w

/-! ## The Market's registers (R331, R336, R339) -/

/-- The least ILIM that leaves the progress floor to a chiplet with eight phases. -/
def leastIlim (base tkw : Nat) : Nat := base + (progressFloor * tkw + 999) / 1000

/-- A chiplet's ILIM under a token current: as written, or raised to meet the progress floor; none where 16 bits cannot. -/
def Chiplet.fit (c : Chiplet) (tkw : BitVec 8) : Option Chiplet :=
  if progressFloor ≤ budget c.ilim.toNat c.base.toNat tkw.toNat 8 then some c
  else
    let n := leastIlim c.base.toNat tkw.toNat
    if n < 2 ^ 16 then some { c with ilim := BitVec.ofNat 16 n } else none

/-- MKT_ILIMc. -/
def State.ilimWrite (s : State) (ch : Nat) (val : BitVec 64) : State :=
  if 8 ≤ ch then s
  else
    match { s.chiplet ch with base := fieldAt val 16 16, ilim := fieldAt val 0 16 : Chiplet }.fit s.market.tkw with
    | some c => s.setChiplet ch c
    | none => s

def execMktIlim (ch : Nat) (val : BitVec 64) (s : State) : Out := .next (s.ilimWrite ch val)

/-- MKT_CFG: a TKW of 0 leaves TKW as it was. -/
def State.mktCfgWrite (s : State) (val : BitVec 64) : State :=
  let t : BitVec 8 := fieldAt val 0 8
  let tkw := if t = 0 then s.market.tkw else t
  let cs := (List.range 8).map (fun ch => (s.chiplet ch).fit tkw)
  if cs.any Option.isNone then s
  else
    let s := { s with market := { s.market with rdn := fieldAt val 8 16, tkw } }
    cs.zipIdx.foldl (fun s c => match c.1 with
      | some x => if x = s.chiplet c.2 then s else s.setChiplet c.2 x
      | none => s) s

def execMktCfg (val : BitVec 64) (s : State) : Out := .next (s.mktCfgWrite val)

/-- MKT_THCFG. -/
def State.thcfgWrite (s : State) (val : BitVec 64) : State :=
  { s with market := { s.market with
    dieoff := fieldAt val 40 8, thot := fieldAt val 32 8, astep := fieldAt val 24 8, drsl := fieldAt val 16 8
    diesl := fieldAt val 8 8, dieknee := fieldAt val 0 8 } }

/-! ## Cluster registers (R79, R80, R299, R361, R362) -/

/-- Whether a context is resident on a cluster: a block stands or is held there, or a Starter context is bound. A saved
Starter context, still bound, counts, and a saved block does not (DESIGN CHOICE, log entry 113). -/
def State.clusterInUse (s : State) (cl : Nat) : Bool :=
  s.blocks.any (fun b => clusterOf b.2.core == cl && (b.2.st == BlockSt.live || b.2.st == BlockSt.held)) ||
    (s.cluster cl).sctx.any (fun c => c.2.launch.isSome)

/-- VLT_CFG: when the split changes, the new vault scratch reads zero. -/
def State.vltWrite (s : State) (cl : Nat) (val : BitVec 64) : State :=
  if 192 ≤ cl || s.clusterInUse cl then s
  else
    let c := s.cluster cl
    let scr : BitVec 3 := fieldAt val 0 3
    let scr := if scr = 7 then c.vltScr else scr
    let s := s.setCluster cl { c with vltCtx := fieldAt val 8 8, vltScr := scr }
    if scr = c.vltScr then s
    else { s with
      vlt := s.vlt.filter (fun p => vaultCluster p.1 != cl)
      poisonVlt := s.poisonVlt.filter (fun p => vaultCluster p.1 != cl) }

def execVltCfg (cl : Nat) (val : BitVec 64) (s : State) : Out := .next (s.vltWrite cl val)

/-- AFF_CFG: EN = 0 retires every slot. -/
def State.affWrite (s : State) (cl : Nat) (val : BitVec 64) : State :=
  if 192 ≤ cl then s
  else
    let least (x m : BitVec 16) : BitVec 16 := if x < m then m else x
    let c := s.cluster cl
    let s := s.setCluster cl { c with
      ripen := least (fieldAt val 48 16) 256, hot := least (fieldAt val 32 16) 1, dlate := least (fieldAt val 16 16) 256
      affEn := val.getLsbD 0 }
    if val.getLsbD 0 then s
    else (List.range 16).foldl (fun s i => if ((s.cluster cl).slot i).st == .free then s else s.retireSlot cl i) s

def execAffCfg (cl : Nat) (val : BitVec 64) (s : State) : Out := .next (s.affWrite cl val)

/-- A Starter context's registers: STR_FSTAT, STR_FPC, STR_FCTL. -/
def State.starterWrite (s : State) (cl o : Nat) (val : BitVec 64) : State :=
  let j := (o - 0x100) / 0x20
  let x := s.starter cl j
  if o % 0x20 = 0 then if val.getLsbD 63 then s.setStarter cl j { x with fvalid := false } else s
  else if o % 0x20 = 8 then s.setStarter cl j { x with fpc := val }
  else if o % 0x20 = 0x18 then
    if val.getLsbD 1 then s.strAbort cl j else if val.getLsbD 0 then s.strResume cl j else s
  else s

def State.clusterWrite (s : State) (cl o : Nat) (val : BitVec 64) : State :=
  if o = 0 then s.vltWrite cl val
  else if o = 8 then s.affWrite cl val
  else if 0x100 ≤ o ∧ o < 0x180 then s.starterWrite cl o val
  else s

/-! ## Chiplet registers (R301, R302, R361, R387) -/

/-- The errata mask as firmware writes it: a change retires the chiplet's slots, and cached code of the old mask goes
once nothing refers to it. -/
def State.errataWrite (s : State) (ch : Nat) (val : BitVec 64) : State :=
  let c := s.chiplet ch
  if 8 ≤ ch || c.errata = val then s
  else
    let s := s.setChiplet ch { c with errata := val }
    (List.range 24).foldl (fun s k =>
      let cl := 24 * ch + k
      let s := (List.range 16).foldl (fun s i => if ((s.cluster cl).slot i).st == .free then s else s.retireSlot cl i) s
      s.purgeCC cl) s

def execErrataMask (ch : Nat) (val : BitVec 64) (s : State) : Out := .next (s.errataWrite ch val)

/-- TSK_RELn and TSK_RELPTRn. -/
def State.relWrite (s : State) (ch o : Nat) (val : BitVec 64) : State :=
  let n := (o - 0x800) / 16
  let c := s.chiplet ch
  let r := c.rel n
  let r :=
    if o % 16 = 0 then
      let size : BitVec 4 := fieldAt val 8 4
      let scrub : BitVec 6 := fieldAt val 0 6
      { r with lbase := fieldAt val 12 40, lsize := if size < 8 then size else r.lsize
               scrub := if scrub ≤ 16 then scrub else r.scrub }
    else { r with head := fieldAt val 0 16 }
  s.setChiplet ch { c with rels := Tbl.set c.rels n r }

def State.chipletWrite (s : State) (fw : Bool) (ch o : Nat) (val : BitVec 64) : State :=
  if o = 0 then if fw then s.errataWrite ch val else s
  else if 0x100 ≤ o ∧ o < 0x300 then
    let c := s.chiplet ch
    if fw then s.setChiplet ch { c with entries := Store.write c.entries ((o - 0x100) / 8) (fieldAt val 0 21 |>.setWidth 32) }
    else s
  else if 0x800 ≤ o ∧ o < 0x880 then s.relWrite ch o val
  else s

/-! ## Host registers (R389, R392 to R396, R399, R401) -/

/-- HD_INV: 2^LOG pages from PAGE, or the whole context. A write while GO reads 1 is discarded. -/
def State.invWrite (s : State) (val : BitVec 64) : State :=
  if s.host.inv.getLsbD 0 then s
  else
    let s := { s with host := { s.host with inv := val &&& 0xFFFFFFFFFFFFFFC1 } }
    if !val.getLsbD 0 then s
    else
      let log := (fieldAt val 6 5).toNat
      let va : BitVec 64 := ((fieldAt val 11 45) ++ (0 : BitVec 12)).signExtend 64
      s.startInval (fieldAt val 56 8).toNat s.now va (if log = 31 then 0 else 2 ^ log * 4096) true

def execHdInv (val : BitVec 64) (s : State) : Out := .next (s.invWrite val)

/-- HD_ATTEST as it is written. -/
def State.attestWrite (s : State) (val : BitVec 64) : State :=
  if s.host.ago then s
  else { s with host := { s.host with abase := fieldAt val 12 40, ago := val.getLsbD 0 } }

/-- Bytes 183:0 of an attestation report over a nonce (R401). -/
def State.attestBody (s : State) (nonce : List Byte) : List Byte :=
  nonce ++ natLE 4 (Config.orderCode % 2) ++ le 4 s.host.svn ++ le 48 s.host.digest ++
    ((List.range 8).map (fun ch => le 8 (s.chiplet ch).errata)).flatten ++ le 32 Config.keyHash
/-- The report: its body and both signatures over it. -/
def State.attestReport (s : State) (nonce : List Byte) : List Byte :=
  let b := s.attestBody nonce
  b ++ (List.range 64).map (Config.edSign b) ++ (List.range 3309).map (Config.mlSign s.now b)

/-- HD_ATTEST: a write that sets GO starts a report; firmware writes it over the buffer. -/
def State.attest (s : State) (val : BitVec 64) : State :=
  let s := s.attestWrite val
  if !s.host.ago then s
  else
    let a := s.host.abase.toNat * 4096
    let s := s.homeWrite a (s.attestReport (Store.bytes s.mem a 32))
    { s with host := { s.host with ago := false } }.hostInt 5

def execHdAttest (val : BitVec 64) (s : State) : Out := .next (s.attest val)

def State.globalWrite (s : State) (fw : Bool) (o : Nat) (val : BitVec 64) : State :=
  let h := s.host
  let m := s.market
  if o = 0x000 then s.mktCfgWrite val
  else if o = 0x008 then
    { s with market := { m with phloss := m.phloss && !val.getLsbD 63, choff := m.choff && !val.getLsbD 62 } }
  else if o = 0x018 then s.thcfgWrite val
  else if 0x040 ≤ o ∧ o < 0x080 then s.ilimWrite ((o - 0x040) / 8) val
  else if 0x080 ≤ o ∧ o < 0x0C0 then
    let ch := (o - 0x080) / 8
    if val.getLsbD 8 then s.setChiplet ch { s.chiplet ch with loss := false } else s
  else if o = 0x100 then
    { s with host := { h with intstat := h.intstat &&& ~~~(fieldAt val 0 6) } }
  else if o = 0x108 then { s with host := { h with inten := fieldAt val 0 6 } }
  else if o = 0x110 then s.invWrite val
  else if o = 0x120 then { s with host := { h with dbase := fieldAt val 16 36, dsize := fieldAt val 0 5 } }
  else if o = 0x128 then { s with host := { h with down := h.down &&& ~~~(fieldAt val 32 12) } }
  else if o = 0x130 then s.attestWrite val
  else if o = 0x138 then if fw then { s with host := { h with hostlim := fieldAt val 16 32 } } else s
  else if 0x400 ≤ o ∧ o < 0xC00 then
    { s with host := { h with routes := Store.write h.routes ((o - 0x400) / 8) (fieldAt val 0 12) } }
  else s

/-! ## A context's page (R98, R304, R360, R366 to R368, R374, R375, R378, R381, R394, R399) -/

/-- TSK_CTL. -/
def State.tskCtlWrite (s : State) (c : Nat) (val : BitVec 64) : State :=
  let q : BitVec 16 := fieldAt val 16 16
  let s := s.setCtx c { s.ctx c with
    precyc := fieldAt val 32 32, vquota := if q = 0 then 1 else q, rlmax := fieldAt val 12 4, dbgen := val.getLsbD 2 }
  let s := if val.getLsbD 0 then s.preempt c else if (s.ctx c).preq then s.withdrawPreq c else s
  if val.getLsbD 1 then s.force c else s

/-- TSK_WHEY: a move or a shrinking while lines lie in the area discards the write. With GO and FAIL both written, which
acts is not defined. -/
def State.tskWheyWrite (s : State) (c : Nat) (val : BitVec 64) : State :=
  let x := s.ctx c
  let base : BitVec 36 := fieldAt val 16 36
  let size : BitVec 5 := fieldAt val 5 5
  let size := if 20 < size then x.wsize else size
  if (base ≠ x.wbase || size < x.wsize) && s.wheyNeed c [] ≠ 0 then s
  else
    let s := s.setCtx c { x with wbase := base, wsize := size }
    let go := val.getLsbD 0
    let fail := val.getLsbD 1
    if go && (!fail || s.coin 310) then s.wheyGo c else if fail then s.wheyFail c else s

def State.ctxWrite (s : State) (c o : Nat) (val : BitVec 64) : State :=
  let x := s.ctx c
  if o = 0x000 then s.lportWrite c val
  else if o = 0x008 then if val.getLsbD 63 then s.setCtx c { x with errv := false } else s
  else if o = 0x010 then s.setCtx c { x with root := fieldAt val 12 40, en := val.getLsbD 0 }
  else if o = 0x020 then
    let n : BitVec 4 := fieldAt val 0 4
    s.setCtx c { x with fqBase := fieldAt val 12 40, fqSize := if n < 12 then n else x.fqSize }
  else if o = 0x028 then s.setCtx c { x with fqHead := fieldAt val 16 16, fqOvf := x.fqOvf && !val.getLsbD 32 }
  else if o = 0x030 then if val.getLsbD 1 then s.replayFail c val else s.replayRetry c val
  else if o = 0x038 then s.tskCtlWrite c val
  else if o = 0x040 then s.tskWheyWrite c val
  else if o = 0x048 then s.setCtx c { x with tqBase := fieldAt val 17 35 }
  else if o = 0x050 then (s.setCtx c { x with tqHead := fieldAt val 0 8 }).flushReports x.lateReports.length c
  else if o = 0x058 then
    match (fieldAt val 62 2).toNat with
    | 0 => s.resume c val
    | 1 => s.resumeEnd c val
    | 2 => s.resumeEndLaunch c val
    | _ => s
  else if o = 0x060 then s.setCtx c { x with sbase := fieldAt val 16 36, ssize := fieldAt val 0 5 }
  else if o = 0x068 then
    if x.busy then s
    else
      let s := s.setCtx c { x with rbase := fieldAt val 12 40 }
      match (fieldAt val 1 2).toNat with
      | 1 => s.rindTake c 1
      | 2 => s.rindTake c 2
      | 3 => s.rindRestore c
      | _ => s
  else if o = 0x070 then s.setCtx c { x with rindGen := val }
  else if o = 0x078 then s.setCtx c { x with rqBase := fieldAt val 15 37 }
  else if o = 0x080 then s.setCtx c { x with rqHead := fieldAt val 0 9, rqOvf := x.rqOvf && !val.getLsbD 63 }
  else if o = 0x088 then
    let n : BitVec 4 := fieldAt val 1 4
    s.setCtx c { x with mlBase := fieldAt val 12 40, mlSize := if n < 9 then n else x.mlSize, mlen := val.getLsbD 0 }
  else if o = 0x090 then s.setCtx c { x with int_ := x.int_ &&& ~~~(fieldAt val 0 5) }
  else s

/-! ## REGISTER_WRITE (R6, R7, R393, R399) -/

/-- A write of 8 bytes at a window offset, by host-die firmware or another agent. Context pages take none before READY. -/
def State.regWrite (s : State) (fw : Bool) (o : Nat) (val : BitVec 64) : State :=
  if o % 8 ≠ 0 then s
  else if o < 0x1000 then s.globalWrite fw o val
  else if 0x01000000 ≤ o ∧ o < 0x01800000 then
    let ch := (o - 0x01000000) / 0x100000
    let p := (o - 0x01000000) % 0x100000
    if p < 0x1000 then s.chipletWrite fw ch p val
    else if 0x10000 ≤ p ∧ (p - 0x10000) / 0x1000 < 24 then s.clusterWrite (24 * ch + (p - 0x10000) / 0x1000) (p % 0x1000) val
    else s
  else if 0x02000000 ≤ o ∧ o < 0x02100000 then
    if s.host.state = 2 then s.ctxWrite ((o - 0x02000000) / 0x1000) (o % 0x1000) val else s
  else s

def execRegisterWrite (fw : Bool) (off : Nat) (val : BitVec 64) (s : State) : Out := .next (s.regWrite fw off val)

/-! ## Accesses from outside (R217, R231, R392, R393, R396) -/

def State.setData (s : State) (v : BitVec 64) : State := { s with host := { s.host with data := v } }

/-- An access of 1, 2, 4 or 8 bytes to memory: at its home slice for device DRAM, at the host-coherent point for host
memory. No update is applied while a local-atomic copy of its line is outstanding (R228). A host processor's atomic is
applied at the home on an SA = 0 page too (DESIGN CHOICE, log entry 119). -/
def State.outsideMem (s : State) (a : HostAccess) : State :=
  let key := a.pa.toNat
  let n := szBytes a.size
  let r := s.homeRead key n
  let old := leNat r.2
  let s := r.1
  match a.op with
  | 0 => s.setData (BitVec.ofNat 64 old)
  | 1 => s.homeWrite key (natLE n a.val.toNat)
  | f + 2 =>
    let m := 2 ^ (8 * n)
    let s := s.laRecall (lineOf key)
    let old := leNat (Store.bytes s.mem key n)
    let new := if f = 10 && n ≠ 4 then old else atomNew f (8 * n) old (a.val.toNat % m) (a.cmp.toNat % m)
    (s.homeWrite key (natLE n new)).setData (BitVec.ofNat 64 old)

/-- A host processor's access. In the register window only aligned 8-byte reads and writes act. -/
def State.hostAccess (s : State) (a : HostAccess) : State :=
  let ok := decide (a.size < 4) && a.pa.toNat % szBytes a.size == 0 && decide (a.op < 13)
  match s.paKind a.pa with
  | .window =>
    let o := a.pa.toNat - 2 ^ 47
    if !ok || a.size ≠ 3 then s.setData 0
    else
      match a.op with
      | 0 => s.setData (s.regRead o)
      | 1 => s.regWrite false o a.val
      | _ => s.setData (Config.free s.now 320)
  | .none => s.setData (Config.free s.now 321)
  | _ =>
    if !ok then s.setData (Config.free s.now 322)
    else s.outsideMem a

def execHostMemoryAccess (a : HostAccess) (s : State) : Out := .next (s.hostAccess a)

/-- A remote package's access to this package's memory. -/
def State.remoteAccess (s : State) (a : HostAccess) : State :=
  let ok := decide (a.size < 4) && a.pa.toNat % szBytes a.size == 0 && decide (a.op < 13)
  match s.paKind a.pa with
  | .window => s
  | .none => s
  | _ => if ok then s.outsideMem a else s

def execRemotePackageAccess (a : HostAccess) (s : State) : Out := .next (s.remoteAccess a)

/-! ## POWER_ON_RESET (R399, R400) -/

/-- Memory that is not the package's own: host memory and other packages'. -/
def outsideKey (key : Nat) : Bool := decide (2 ^ 39 ≤ key)

/-- The machine as the ROM starts: what the package held is gone; what stands outside it, and rinds copied there, stay. -/
def State.powerUp (s : State) : State :=
  { State.reset with
    mem := s.mem.filter (fun p => outsideKey p.1), poisonMem := s.poisonMem.filter (fun p => outsideKey p.1)
    rinds := s.rinds, now := s.now }

/-- Firmware's writes of step 4. -/
def State.setup (s : State) (f : Firmware) : State :=
  let s := (f.ilim.take 8).zipIdx.foldl (fun s x => s.regWrite true (0x040 + 8 * x.2) (x.1.setWidth 64)) s
  let s := (s.regWrite true 0x000 (f.mktcfg.setWidth 64)).regWrite true 0x018 f.thcfg
  let s := (f.errEnts.take 512).zipIdx.foldl (fun s x =>
    s.regWrite true (0x01000000 + x.2 / 64 * 0x100000 + 0x100 + 8 * (x.2 % 64)) (x.1.setWidth 64)) s
  let s := (f.errata.take 8).zipIdx.foldl (fun s x => s.regWrite true (0x01000000 + x.2 * 0x100000) x.1) s
  let s := (f.rels.take 64).zipIdx.foldl (fun s x =>
    s.regWrite true (0x01000000 + x.2 / 8 * 0x100000 + 0x800 + 16 * (x.2 % 8)) x.1) s
  (s.regWrite true 0x120 f.dump).regWrite true 0x138 f.hostlim

/-- The ROM takes an image: both signatures hold, and its SVN is not below the fused minimum (R400). -/
def romTakes (i : FwImage) : Bool := i.ed25519 && i.mldsa && decide (Config.fusedSvn ≤ i.svn)

/-- The image that the ROM starts: slot 0's, else slot 1's. -/
def bootImage (f : Firmware) : Option FwImage :=
  if romTakes f.slot0 then some f.slot0 else if romTakes f.slot1 then some f.slot1 else none

/-- Bring-up: with both image slots bad STATE is FAILED and no chiplet is powered; else firmware sets the part up, trains
its ports, and reaches READY, where the Market makes its first clearing (R330). -/
def State.bringUp (s : State) (f : Firmware) : State :=
  let s := s.powerUp
  match bootImage f with
  | none => { s with host := { s.host with state := 15 } }
  | some i =>
    let s := { s with host := { s.host with state := 1, svn := i.svn, digest := i.digest } }
    let s := (List.range 8).foldl (fun s ch => s.setChiplet ch { s.chiplet ch with powered := true, reftime := 0 }) s
    let s := s.setup f
    let s := { s with host := { s.host with up := f.portsUp, state := 2 } }
    s.clearing ((List.range 192).map (fun cl =>
      ⟨(Config.free s.now (400 + 2 * cl)).setWidth 8, (Config.free s.now (401 + 2 * cl)).setWidth 8⟩))

def execPowerOnReset (fw : Firmware) (s : State) : Out := .next (s.bringUp fw)

end Sys2Proof.Machine
end

