-- ==== Sys2Proof/Machine/Special.lean ====
section
/-! DEFINITION. Special registers, major opcode 0x33 (R28, R29, R146, R179, R180). -/
namespace Sys2Proof.Machine
open Sys2Proof

/-- `$fpflags` as read while flags wait to be written: each pending write is seen or not (R149, R35). -/
def Group.readFpflags (g : Group) (n : Nat) : BitVec 6 :=
  g.pend.foldl (fun old p =>
    match p.dest with
    | .fpflags => (choose n (8700 + 16384 * p.due) (old.setWidth 64) (p.vals.getD 0 0)).setWidth 6
    | .flags => (choose n (8701 + 16384 * p.due) (old.setWidth 64) (old.setWidth 64 ||| p.vals.getD 0 0)).setWidth 6
    | _ => old) g.regs.fpflags

/-- `$mxflags` as read while a write to it waits (R35). -/
def Group.readMxflags (g : Group) (n : Nat) : BitVec 1 :=
  g.pend.foldl (fun old p =>
    if p.dest = .mxflags then
      (choose n (8702 + 16384 * p.due) (old.setWidth 64) ((old &&& ~~~((p.vals.getD 0 0).setWidth 1)).setWidth 64)).setWidth 1
    else old) g.regs.mxflags

/-- The value of special register `n` as lane `l` receives it (R28, R180). -/
def GW.special (w : GW) (n l : Nat) : BitVec 64 :=
  let c := w.core
  let ch := w.s.chiplet (chipletOf c)
  match n with
  | 0x000 => BitVec.ofNat 64 (if w.protect then l / 2 else l)
  | 0x001 => BitVec.ofNat 64 w.key.gi
  | 0x002 => BitVec.ofNat 64 w.key.block
  | 0x003 => BitVec.ofNat 64 (c % 8)
  | 0x004 => BitVec.ofNat 64 (c / 8 % 24)
  | 0x005 => BitVec.ofNat 64 (chipletOf c)
  | 0x006 => BitVec.ofNat 64 w.g.clk
  | 0x007 => BitVec.ofNat 64 ch.reftime
  | 0x008 => (w.s.thermal (clusterOf c)).setWidth 64
  | 0x009 => (compressMask w.protect w.iss.act).setWidth 64
  | 0x00A => BitVec.ofNat 64 (w.key.launch % 2 ^ 24)
  | 0x00B => w.g.tseq.setWidth 64
  | 0x00C => (w.g.readFpflags w.n).setWidth 64
  | 0x00D => w.g.regs.srseed
  | 0x00E => if (w.s.ctx w.ctx).preq then 1 else 0
  | 0x00F => ch.features
  | 0x010 => ch.errata
  | 0x011 => (w.g.readMxflags w.n).setWidth 64
  | _ => 0

def execVsr (f : VI) (s : State) : Out :=
  grp s fun w =>
    let n := immNum f.imm
    w.laneOp f.d (special64 n) (w.eff f.mask 0) 2 fun l => (w.special n.toNat l, 0)

def execGsr (f : VI) (s : State) : Out :=
  grp s fun w => w.grpOp (w.predBits f.mask)
    (w.put (w.g.resultG f.d (w.special (f.imm.extractLsb' 0 12).toNat 0) 2))

/-- `gsw` (R179): the named RW or W1C register takes `g[A]` in the result-write cycle. `$mxflags` bits written 1 are
cleared (R6). -/
def execGsw (f : VI) (s : State) : Out :=
  grp s fun w => w.grpOp (w.predBits f.mask)
    (w.put (w.g.result (if f.imm.extractLsb' 0 12 = 0x00C then .fpflags else .mxflags) 0 [w.opdG f.a] 2))

/-- `gsw` to `$srseed`: the register takes all 64 bits and every lane's feedback register is reseeded in the
result-write cycle (R146). -/
def execSrseed (f : VI) (s : State) : Out :=
  grp s fun w => w.grpOp (w.predBits f.mask) (w.put (w.g.result .srseed 0 [w.opdG f.a] 2))

end Sys2Proof.Machine
end

