-- ==== Sys2Proof/Machine/Dispatch.lean ====
section
/-! DEFINITION. The dispatch: one direct call of a meaning for each instruction. -/
namespace Sys2Proof.Machine
open Sys2Proof

def exec (i : Instr) (s : State) : Host.Outcome State Fault Refusal :=
  match i with
  | .clauseHeader f => Sys2Proof.Machine.execClauseHeader f s
  | .vadd f => Sys2Proof.Machine.execVadd f s
  | .vsub f => Sys2Proof.Machine.execVsub f s
  | .vmin f => Sys2Proof.Machine.execVmin f s
  | .vmax f => Sys2Proof.Machine.execVmax f s
  | .vabs f => Sys2Proof.Machine.execVabs f s
  | .vneg f => Sys2Proof.Machine.execVneg f s
  | .vabsd f => Sys2Proof.Machine.execVabsd f s
  | .vavg f => Sys2Proof.Machine.execVavg f s
  | .vand f => Sys2Proof.Machine.execVand f s
  | .vor f => Sys2Proof.Machine.execVor f s
  | .vxor f => Sys2Proof.Machine.execVxor f s
  | .vandn f => Sys2Proof.Machine.execVandn f s
  | .vnot f => Sys2Proof.Machine.execVnot f s
  | .vshl f => Sys2Proof.Machine.execVshl f s
  | .vshr f => Sys2Proof.Machine.execVshr f s
  | .vsra f => Sys2Proof.Machine.execVsra f s
  | .vrol f => Sys2Proof.Machine.execVrol f s
  | .vbext f => Sys2Proof.Machine.execVbext f s
  | .vbins f => Sys2Proof.Machine.execVbins f s
  | .vpopc f => Sys2Proof.Machine.execVpopc f s
  | .vclz f => Sys2Proof.Machine.execVclz f s
  | .vbrev f => Sys2Proof.Machine.execVbrev f s
  | .vperm f => Sys2Proof.Machine.execVperm f s
  | .vceq f => Sys2Proof.Machine.execVceq f s
  | .vcne f => Sys2Proof.Machine.execVcne f s
  | .vclt f => Sys2Proof.Machine.execVclt f s
  | .vcle f => Sys2Proof.Machine.execVcle f s
  | .vcgt f => Sys2Proof.Machine.execVcgt f s
  | .vcge f => Sys2Proof.Machine.execVcge f s
  | .vtest f => Sys2Proof.Machine.execVtest f s
  | .vmul f => Sys2Proof.Machine.execVmul f s
  | .vmulhi f => Sys2Proof.Machine.execVmulhi f s
  | .vmad f => Sys2Proof.Machine.execVmad f s
  | .vmadhi f => Sys2Proof.Machine.execVmadhi f s
  | .vmulw f => Sys2Proof.Machine.execVmulw f s
  | .vmadw f => Sys2Proof.Machine.execVmadw f s
  | .vdiv f => Sys2Proof.Machine.execVdiv f s
  | .vrem f => Sys2Proof.Machine.execVrem f s
  | .vdot4 f => Sys2Proof.Machine.execVdot4 f s
  | .vaddi f => Sys2Proof.Machine.execVaddi f s
  | .vandi f => Sys2Proof.Machine.execVandi f s
  | .vori f => Sys2Proof.Machine.execVori f s
  | .vxori f => Sys2Proof.Machine.execVxori f s
  | .vshli f => Sys2Proof.Machine.execVshli f s
  | .vshri f => Sys2Proof.Machine.execVshri f s
  | .vsrai f => Sys2Proof.Machine.execVsrai f s
  | .vminiI32 f => Sys2Proof.Machine.execVminiI32 f s
  | .vmaxiI32 f => Sys2Proof.Machine.execVmaxiI32 f s
  | .vminiN32 f => Sys2Proof.Machine.execVminiN32 f s
  | .vmaxiN32 f => Sys2Proof.Machine.execVmaxiN32 f s
  | .vmuli f => Sys2Proof.Machine.execVmuli f s
  | .vmovi f => Sys2Proof.Machine.execVmovi f s
  | .vceqi f => Sys2Proof.Machine.execVceqi f s
  | .vcltiI32 f => Sys2Proof.Machine.execVcltiI32 f s
  | .vcltiN32 f => Sys2Proof.Machine.execVcltiN32 f s
  | .vcgtiI32 f => Sys2Proof.Machine.execVcgtiI32 f s
  | .vcgtiN32 f => Sys2Proof.Machine.execVcgtiN32 f s
  | .vfadd f => Sys2Proof.Machine.execVfadd f s
  | .vfsub f => Sys2Proof.Machine.execVfsub f s
  | .vfmul f => Sys2Proof.Machine.execVfmul f s
  | .vfma f => Sys2Proof.Machine.execVfma f s
  | .vfmin f => Sys2Proof.Machine.execVfmin f s
  | .vfmax f => Sys2Proof.Machine.execVfmax f s
  | .vfabs f => Sys2Proof.Machine.execVfabs f s
  | .vfneg f => Sys2Proof.Machine.execVfneg f s
  | .vfrnd f => Sys2Proof.Machine.execVfrnd f s
  | .vfceq f => Sys2Proof.Machine.execVfceq f s
  | .vfcne f => Sys2Proof.Machine.execVfcne f s
  | .vfclt f => Sys2Proof.Machine.execVfclt f s
  | .vfcle f => Sys2Proof.Machine.execVfcle f s
  | .vfcgt f => Sys2Proof.Machine.execVfcgt f s
  | .vfcge f => Sys2Proof.Machine.execVfcge f s
  | .vfcun f => Sys2Proof.Machine.execVfcun f s
  | .vfclass f => Sys2Proof.Machine.execVfclass f s
  | .vcvt src f => Sys2Proof.Machine.execVcvt src f s
  | .vpack2 f => Sys2Proof.Machine.execVpack2 f s
  | .vpack4 f => Sys2Proof.Machine.execVpack4 f s
  | .vpack8 f => Sys2Proof.Machine.execVpack8 f s
  | .vunpk f => Sys2Proof.Machine.execVunpk f s
  | .vmxscale f => Sys2Proof.Machine.execVmxscale f s
  | .vrcp f => Sys2Proof.Machine.execVrcp f s
  | .vrsq f => Sys2Proof.Machine.execVrsq f s
  | .vsqrt f => Sys2Proof.Machine.execVsqrt f s
  | .vexp2 f => Sys2Proof.Machine.execVexp2 f s
  | .vlog2 f => Sys2Proof.Machine.execVlog2 f s
  | .vsin f => Sys2Proof.Machine.execVsin f s
  | .vcos f => Sys2Proof.Machine.execVcos f s
  | .vtanh f => Sys2Proof.Machine.execVtanh f s
  | .vsigm f => Sys2Proof.Machine.execVsigm f s
  | .vfdiv f => Sys2Proof.Machine.execVfdiv f s
  | .vfaddi f => Sys2Proof.Machine.execVfaddi f s
  | .vfmuli f => Sys2Proof.Machine.execVfmuli f s
  | .vfmini f => Sys2Proof.Machine.execVfmini f s
  | .vfmaxi f => Sys2Proof.Machine.execVfmaxi f s
  | .vfmovi f => Sys2Proof.Machine.execVfmovi f s
  | .vqxh f => Sys2Proof.Machine.execVqxh f s
  | .vqxv f => Sys2Proof.Machine.execVqxv f s
  | .vqxd f => Sys2Proof.Machine.execVqxd f s
  | .vqbc f => Sys2Proof.Machine.execVqbc f s
  | .vshfl f => Sys2Proof.Machine.execVshfl f s
  | .vshup f => Sys2Proof.Machine.execVshup f s
  | .vshdn f => Sys2Proof.Machine.execVshdn f s
  | .vshxor f => Sys2Proof.Machine.execVshxor f s
  | .vbcast f => Sys2Proof.Machine.execVbcast f s
  | .vsel f => Sys2Proof.Machine.execVsel f s
  | .mand f => Sys2Proof.Machine.execMand f s
  | .mor f => Sys2Proof.Machine.execMor f s
  | .mxor f => Sys2Proof.Machine.execMxor f s
  | .mandn f => Sys2Proof.Machine.execMandn f s
  | .mnot f => Sys2Proof.Machine.execMnot f s
  | .mmov f => Sys2Proof.Machine.execMmov f s
  | .mfromv f => Sys2Proof.Machine.execMfromv f s
  | .mtov f => Sys2Proof.Machine.execMtov f s
  | .mfromg f => Sys2Proof.Machine.execMfromg f s
  | .mtog f => Sys2Proof.Machine.execMtog f s
  | .mpopc f => Sys2Proof.Machine.execMpopc f s
  | .mffs f => Sys2Proof.Machine.execMffs f s
  | .gadd f => Sys2Proof.Machine.execGadd f s
  | .gsub f => Sys2Proof.Machine.execGsub f s
  | .gand f => Sys2Proof.Machine.execGand f s
  | .gor f => Sys2Proof.Machine.execGor f s
  | .gxor f => Sys2Proof.Machine.execGxor f s
  | .gshl f => Sys2Proof.Machine.execGshl f s
  | .gshr f => Sys2Proof.Machine.execGshr f s
  | .gsra f => Sys2Proof.Machine.execGsra f s
  | .gmin f => Sys2Proof.Machine.execGmin f s
  | .gmax f => Sys2Proof.Machine.execGmax f s
  | .gminn f => Sys2Proof.Machine.execGminn f s
  | .gmaxn f => Sys2Proof.Machine.execGmaxn f s
  | .gmov f => Sys2Proof.Machine.execGmov f s
  | .gsel f => Sys2Proof.Machine.execGsel f s
  | .gmul f => Sys2Proof.Machine.execGmul f s
  | .gmulhi f => Sys2Proof.Machine.execGmulhi f s
  | .gdiv f => Sys2Proof.Machine.execGdiv f s
  | .gdivn f => Sys2Proof.Machine.execGdivn f s
  | .grem f => Sys2Proof.Machine.execGrem f s
  | .gremn f => Sys2Proof.Machine.execGremn f s
  | .gaddi f => Sys2Proof.Machine.execGaddi f s
  | .gandi f => Sys2Proof.Machine.execGandi f s
  | .gori f => Sys2Proof.Machine.execGori f s
  | .gxori f => Sys2Proof.Machine.execGxori f s
  | .gshli f => Sys2Proof.Machine.execGshli f s
  | .gshri f => Sys2Proof.Machine.execGshri f s
  | .gsrai f => Sys2Proof.Machine.execGsrai f s
  | .gmini f => Sys2Proof.Machine.execGmini f s
  | .gmaxi f => Sys2Proof.Machine.execGmaxi f s
  | .gmovi f => Sys2Proof.Machine.execGmovi f s
  | .gmovhi f => Sys2Proof.Machine.execGmovhi f s
  | .gmuli f => Sys2Proof.Machine.execGmuli f s
  | .starterGroupOp imm fn f => Sys2Proof.Machine.execStarterGroupOp imm fn f s
  | .gceq f => Sys2Proof.Machine.execGceq f s
  | .gcne f => Sys2Proof.Machine.execGcne f s
  | .gclt f => Sys2Proof.Machine.execGclt f s
  | .gcle f => Sys2Proof.Machine.execGcle f s
  | .gcltn f => Sys2Proof.Machine.execGcltn f s
  | .gclen f => Sys2Proof.Machine.execGclen f s
  | .gpand f => Sys2Proof.Machine.execGpand f s
  | .gpor f => Sys2Proof.Machine.execGpor f s
  | .gpxor f => Sys2Proof.Machine.execGpxor f s
  | .gpnot f => Sys2Proof.Machine.execGpnot f s
  | .gpany f => Sys2Proof.Machine.execGpany f s
  | .gpall f => Sys2Proof.Machine.execGpall f s
  | .vtog f => Sys2Proof.Machine.execVtog f s
  | .gtov f => Sys2Proof.Machine.execGtov f s
  | .vredadd f => Sys2Proof.Machine.execVredadd f s
  | .vredmin f => Sys2Proof.Machine.execVredmin f s
  | .vredmax f => Sys2Proof.Machine.execVredmax f s
  | .vredand f => Sys2Proof.Machine.execVredand f s
  | .vredor f => Sys2Proof.Machine.execVredor f s
  | .vredxor f => Sys2Proof.Machine.execVredxor f s
  | .vscanadd f => Sys2Proof.Machine.execVscanadd f s
  | .vfredadd f => Sys2Proof.Machine.execVfredadd f s
  | .vfredmin f => Sys2Proof.Machine.execVfredmin f s
  | .vfredmax f => Sys2Proof.Machine.execVfredmax f s
  | .vld f => Sys2Proof.Machine.execVld f s
  | .vldx f => Sys2Proof.Machine.execVldx f s
  | .vst f => Sys2Proof.Machine.execVst f s
  | .vsld f => Sys2Proof.Machine.execVsld f s
  | .vsldx f => Sys2Proof.Machine.execVsldx f s
  | .vsst f => Sys2Proof.Machine.execVsst f s
  | .vvld f => Sys2Proof.Machine.execVvld f s
  | .vvldx f => Sys2Proof.Machine.execVvldx f s
  | .vvst f => Sys2Proof.Machine.execVvst f s
  | .gld f => Sys2Proof.Machine.execGld f s
  | .gst f => Sys2Proof.Machine.execGst f s
  | .gsld f => Sys2Proof.Machine.execGsld f s
  | .gsst f => Sys2Proof.Machine.execGsst f s
  | .gvld f => Sys2Proof.Machine.execGvld f s
  | .gvst f => Sys2Proof.Machine.execGvst f s
  | .xlat f => Sys2Proof.Machine.execXlat f s
  | .xrel f => Sys2Proof.Machine.execXrel f s
  | .xget f => Sys2Proof.Machine.execXget f s
  | .tlbinv f => Sys2Proof.Machine.execTlbinv f s
  | .tlbInvalidationComplete ctx id => Sys2Proof.Machine.execTlbInvalidationComplete ctx id s
  | .vpf f => Sys2Proof.Machine.execVpf f s
  | .gpf f => Sys2Proof.Machine.execGpf f s
  | .l1inv f => Sys2Proof.Machine.execL1inv f s
  | .loadReturn g id lanes => Sys2Proof.Machine.execLoadReturn g id lanes s
  | .storePerform g id lanes => Sys2Proof.Machine.execStorePerform g id lanes s
  | .faultQueuePost ctx => Sys2Proof.Machine.execFaultQueuePost ctx s
  | .cpy f => Sys2Proof.Machine.execCpy f s
  | .cpy2d f => Sys2Proof.Machine.execCpy2d f s
  | .cpyfill f => Sys2Proof.Machine.execCpyfill f s
  | .cpyadd f => Sys2Proof.Machine.execCpyadd f s
  | .cpyxor f => Sys2Proof.Machine.execCpyxor f s
  | .copyStart core id => Sys2Proof.Machine.execCopyStart core id s
  | .copyPieceArrival core id k => Sys2Proof.Machine.execCopyPieceArrival core id k s
  | .copyComplete core id => Sys2Proof.Machine.execCopyComplete core id s
  | .bfence f => Sys2Proof.Machine.execBfence f s
  | .bwait f => Sys2Proof.Machine.execBwait f s
  | .bget f => Sys2Proof.Machine.execBget f s
  | .bcinit f => Sys2Proof.Machine.execBcinit f s
  | .bcexpect f => Sys2Proof.Machine.execBcexpect f s
  | .bcarrive f => Sys2Proof.Machine.execBcarrive f s
  | .bcwait f => Sys2Proof.Machine.execBcwait f s
  | .bctest f => Sys2Proof.Machine.execBctest f s
  | .bcEffect g => Sys2Proof.Machine.execBcEffect g s
  | .vmma ty sat f => Sys2Proof.Machine.execVmma ty sat f s
  | .vmmaz ty sat f => Sys2Proof.Machine.execVmmaz ty sat f s
  | .vouts f => Sys2Proof.Machine.execVouts f s
  | .tmset f => Sys2Proof.Machine.execTmset f s
  | .tmclr f => Sys2Proof.Machine.execTmclr f s
  | .tmget f => Sys2Proof.Machine.execTmget f s
  | .latchMatch core tm => Sys2Proof.Machine.execLatchMatch core tm s
  | .latchTokensTaken core tm => Sys2Proof.Machine.execLatchTokensTaken core tm s
  | .matrixOpComplete core id => Sys2Proof.Machine.execMatrixOpComplete core id s
  | .vaadd f => Sys2Proof.Machine.execVaadd f s
  | .vaand f => Sys2Proof.Machine.execVaand f s
  | .vaor f => Sys2Proof.Machine.execVaor f s
  | .vaxor f => Sys2Proof.Machine.execVaxor f s
  | .vamin f => Sys2Proof.Machine.execVamin f s
  | .vamax f => Sys2Proof.Machine.execVamax f s
  | .vaminn f => Sys2Proof.Machine.execVaminn f s
  | .vamaxn f => Sys2Proof.Machine.execVamaxn f s
  | .vaxchg f => Sys2Proof.Machine.execVaxchg f s
  | .vacas f => Sys2Proof.Machine.execVacas f s
  | .vafadd f => Sys2Proof.Machine.execVafadd f s
  | .atomicPerform g => Sys2Proof.Machine.execAtomicPerform g s
  | .vradd f => Sys2Proof.Machine.execVradd f s
  | .vrand f => Sys2Proof.Machine.execVrand f s
  | .vror f => Sys2Proof.Machine.execVror f s
  | .vrxor f => Sys2Proof.Machine.execVrxor f s
  | .vrmin f => Sys2Proof.Machine.execVrmin f s
  | .vrmax f => Sys2Proof.Machine.execVrmax f s
  | .vrminn f => Sys2Proof.Machine.execVrminn f s
  | .vrmaxn f => Sys2Proof.Machine.execVrmaxn f s
  | .vrfadd f => Sys2Proof.Machine.execVrfadd f s
  | .vraddArv f => Sys2Proof.Machine.execVraddArv f s
  | .vrandArv f => Sys2Proof.Machine.execVrandArv f s
  | .vrorArv f => Sys2Proof.Machine.execVrorArv f s
  | .vrxorArv f => Sys2Proof.Machine.execVrxorArv f s
  | .vrminArv f => Sys2Proof.Machine.execVrminArv f s
  | .vrmaxArv f => Sys2Proof.Machine.execVrmaxArv f s
  | .vrminnArv f => Sys2Proof.Machine.execVrminnArv f s
  | .vrmaxnArv f => Sys2Proof.Machine.execVrmaxnArv f s
  | .vrfaddArv f => Sys2Proof.Machine.execVrfaddArv f s
  | .txbegin f => Sys2Proof.Machine.execTxbegin f s
  | .txend f => Sys2Proof.Machine.execTxend f s
  | .txabort f => Sys2Proof.Machine.execTxabort f s
  | .txstat f => Sys2Proof.Machine.execTxstat f s
  | .waitw f => Sys2Proof.Machine.execWaitw f s
  | .monitorWake g => Sys2Proof.Machine.execMonitorWake g s
  | .barblk f => Sys2Proof.Machine.execBarblk f s
  | .bargng f => Sys2Proof.Machine.execBargng f s
  | .barrierArrival g => Sys2Proof.Machine.execBarrierArrival g s
  | .harp f => Sys2Proof.Machine.execHarp f s
  | .harpPassStart cl => Sys2Proof.Machine.execHarpPassStart cl s
  | .harpTilePurchase cl => Sys2Proof.Machine.execHarpTilePurchase cl s
  | .harpRowComplete cl v => Sys2Proof.Machine.execHarpRowComplete cl v s
  | .harpPassComplete cl => Sys2Proof.Machine.execHarpPassComplete cl s
  | .bra f => Sys2Proof.Machine.execBra f s
  | .brau f => Sys2Proof.Machine.execBrau f s
  | .join f => Sys2Proof.Machine.execJoin f s
  | .brk f => Sys2Proof.Machine.execBrk f s
  | .cont f => Sys2Proof.Machine.execCont f s
  | .call f => Sys2Proof.Machine.execCall f s
  | .ret f => Sys2Proof.Machine.execRet f s
  | .exit f => Sys2Proof.Machine.execExit f s
  | .tmark f => Sys2Proof.Machine.execTmark f s
  | .gfenceRel f => Sys2Proof.Machine.execGfenceRel f s
  | .gfenceAcq f => Sys2Proof.Machine.execGfenceAcq f s
  | .gfenceAcqrel f => Sys2Proof.Machine.execGfenceAcqrel f s
  | .trap f => Sys2Proof.Machine.execTrap f s
  | .yield f => Sys2Proof.Machine.execYield f s
  | .dbgbrk f => Sys2Proof.Machine.execDbgbrk f s
  | .nop f => Sys2Proof.Machine.execNop f s
  | .vsr f => Sys2Proof.Machine.execVsr f s
  | .gsr f => Sys2Proof.Machine.execGsr f s
  | .gsw f => Sys2Proof.Machine.execGsw f s
  | .srseed f => Sys2Proof.Machine.execSrseed f s
  | .affcnt f => Sys2Proof.Machine.execAffcnt f s
  | .affpop f => Sys2Proof.Machine.execAffpop f s
  | .affpopPerform g => Sys2Proof.Machine.execAffpopPerform g s
  | .affwait f => Sys2Proof.Machine.execAffwait f s
  | .tkpool f => Sys2Proof.Machine.execTkpool f s
  | .tkstat f => Sys2Proof.Machine.execTkstat f s
  | .ld8 f => Sys2Proof.Machine.execLd8 f s
  | .ld16 f => Sys2Proof.Machine.execLd16 f s
  | .ld32 f => Sys2Proof.Machine.execLd32 f s
  | .ld64 f => Sys2Proof.Machine.execLd64 f s
  | .ldx8 f => Sys2Proof.Machine.execLdx8 f s
  | .ldx16 f => Sys2Proof.Machine.execLdx16 f s
  | .ldx32 f => Sys2Proof.Machine.execLdx32 f s
  | .st8 f => Sys2Proof.Machine.execSt8 f s
  | .st16 f => Sys2Proof.Machine.execSt16 f s
  | .st32 f => Sys2Proof.Machine.execSt32 f s
  | .st64 f => Sys2Proof.Machine.execSt64 f s
  | .beq f => Sys2Proof.Machine.execBeq f s
  | .bne f => Sys2Proof.Machine.execBne f s
  | .blt f => Sys2Proof.Machine.execBlt f s
  | .bltn f => Sys2Proof.Machine.execBltn f s
  | .bge f => Sys2Proof.Machine.execBge f s
  | .bgen f => Sys2Proof.Machine.execBgen f s
  | .jal f => Sys2Proof.Machine.execJal f s
  | .jalr f => Sys2Proof.Machine.execJalr f s
  | .fence f => Sys2Proof.Machine.execFence f s
  | .csrr f => Sys2Proof.Machine.execCsrr f s
  | .csrw f => Sys2Proof.Machine.execCsrw f s
  | .strEnd f => Sys2Proof.Machine.execStrEnd f s
  | .emit f => Sys2Proof.Machine.execEmit f s
  | .emitm f => Sys2Proof.Machine.execEmitm f s
  | .patch f => Sys2Proof.Machine.execPatch f s
  | .segopen f => Sys2Proof.Machine.execSegopen f s
  | .segstrm f => Sys2Proof.Machine.execSegstrm f s
  | .seal f => Sys2Proof.Machine.execSeal f s
  | .segfree f => Sys2Proof.Machine.execSegfree f s
  | .ccfind f => Sys2Proof.Machine.execCcfind f s
  | .ccput f => Sys2Proof.Machine.execCcput f s
  | .launch f => Sys2Proof.Machine.execLaunch f s
  | .greplay f => Sys2Proof.Machine.execGreplay f s
  | .release f => Sys2Proof.Machine.execRelease f s
  | .emitDeadlock cl j => Sys2Proof.Machine.execEmitDeadlock cl j s
  | .strLport ctx val => Sys2Proof.Machine.execStrLport ctx val s
  | .launchAccept ctx => Sys2Proof.Machine.execLaunchAccept ctx s
  | .blockPull core => Sys2Proof.Machine.execBlockPull core s
  | .eviction core ctx => Sys2Proof.Machine.execEviction core ctx s
  | .launchComplete launch => Sys2Proof.Machine.execLaunchComplete launch s
  | .taskCommit g => Sys2Proof.Machine.execTaskCommit g s
  | .groupTrap g => Sys2Proof.Machine.execGroupTrap g s
  | .gangKill g => Sys2Proof.Machine.execGangKill g s
  | .fatalError cause => Sys2Proof.Machine.execFatalError cause s
  | .tokenReturn cl id => Sys2Proof.Machine.execTokenReturn cl id s
  | .stationVisit cl => Sys2Proof.Machine.execStationVisit cl s
  | .reservation cl st req => Sys2Proof.Machine.execReservation cl st req s
  | .reservationComplete cl => Sys2Proof.Machine.execReservationComplete cl s
  | .poolChange cl => Sys2Proof.Machine.execPoolChange cl s
  | .marketClearing temps => Sys2Proof.Machine.execMarketClearing temps s
  | .blockMigration cl => Sys2Proof.Machine.execBlockMigration cl s
  | .regulatorPhaseLoss ch phase => Sys2Proof.Machine.execRegulatorPhaseLoss ch phase s
  | .droopStart cl => Sys2Proof.Machine.execDroopStart cl s
  | .droopEnd cl cycles => Sys2Proof.Machine.execDroopEnd cl cycles s
  | .linkFlitRetry port => Sys2Proof.Machine.execLinkFlitRetry port s
  | .linkPortDown port => Sys2Proof.Machine.execLinkPortDown port s
  | .heatDecay core => Sys2Proof.Machine.execHeatDecay core s
  | .scrubSweep ch level => Sys2Proof.Machine.execScrubSweep ch level s
  | .forcedCut ctx core => Sys2Proof.Machine.execForcedCut ctx core s
  | .samplingTimeout cl slot => Sys2Proof.Machine.execSamplingTimeout cl slot s
  | .affinageSearch cl slot => Sys2Proof.Machine.execAffinageSearch cl slot s
  | .shadowRun core => Sys2Proof.Machine.execShadowRun core s
  | .auditRun core => Sys2Proof.Machine.execAuditRun core s
  | .auditOverdue core => Sys2Proof.Machine.execAuditOverdue core s
  | .powerOnReset fw => Sys2Proof.Machine.execPowerOnReset fw s
  | .xltReplayRetry ctx val => Sys2Proof.Machine.execXltReplayRetry ctx val s
  | .xltReplayFail ctx val => Sys2Proof.Machine.execXltReplayFail ctx val s
  | .preqSet ctx => Sys2Proof.Machine.execPreqSet ctx s
  | .preqClear ctx => Sys2Proof.Machine.execPreqClear ctx s
  | .tskCtlForce ctx => Sys2Proof.Machine.execTskCtlForce ctx s
  | .tskWheyGo ctx => Sys2Proof.Machine.execTskWheyGo ctx s
  | .tskWheyFail ctx => Sys2Proof.Machine.execTskWheyFail ctx s
  | .tskResumeResume ctx val => Sys2Proof.Machine.execTskResumeResume ctx val s
  | .tskResumeEndGroup ctx val => Sys2Proof.Machine.execTskResumeEndGroup ctx val s
  | .tskResumeEndLaunch ctx val => Sys2Proof.Machine.execTskResumeEndLaunch ctx val s
  | .rindTakeContinue ctx => Sys2Proof.Machine.execRindTakeContinue ctx s
  | .rindTakeStay ctx => Sys2Proof.Machine.execRindTakeStay ctx s
  | .rindRestore ctx => Sys2Proof.Machine.execRindRestore ctx s
  | .strFctlAbort cl j => Sys2Proof.Machine.execStrFctlAbort cl j s
  | .strFctlResume cl j => Sys2Proof.Machine.execStrFctlResume cl j s
  | .hdInv val => Sys2Proof.Machine.execHdInv val s
  | .hdAttest val => Sys2Proof.Machine.execHdAttest val s
  | .vltCfg cl val => Sys2Proof.Machine.execVltCfg cl val s
  | .affCfg cl val => Sys2Proof.Machine.execAffCfg cl val s
  | .mktIlim ch val => Sys2Proof.Machine.execMktIlim ch val s
  | .mktCfg val => Sys2Proof.Machine.execMktCfg val s
  | .errataMask ch val => Sys2Proof.Machine.execErrataMask ch val s
  | .registerWrite fw off val => Sys2Proof.Machine.execRegisterWrite fw off val s
  | .generatorFault cl j => Sys2Proof.Machine.execGeneratorFault cl j s
  | .hostMemoryAccess a => Sys2Proof.Machine.execHostMemoryAccess a s
  | .remotePackageAccess a => Sys2Proof.Machine.execRemotePackageAccess a s
  | .remoteAcknowledgement g => Sys2Proof.Machine.execRemoteAcknowledgement g s

end Sys2Proof.Machine
end

