-- ==== Sys2Proof/Machine/Fetch.lean ====
section
/-! DEFINITION. What one act of the schedule does: the choice of a clause, the next word of a clause, the next word of a
Starter context, a step of the device, and the machine on which one given word comes to run (R33, R58, R274, R280, R318,
R389). -/
namespace Sys2Proof.Machine
open Sys2Proof

/-- The issuing agent of the word that runs. -/
def State.as (s : State) (a : Agent) : State := { s with cur := some a }

noncomputable section

/-- The turn goes to a slot of a group, which selects the clause there (R274, R318). A turn that selects nothing passes
(R11). -/
def runIssue (k : GKey) (slot : Nat) (s : State) : Out :=
  match (s.group k).bind Group.issuing with
  | some _ => .next (s.tickCore (s.coreOf k))
  | none =>
    let s := (s.freshWants (clusterOf (s.coreOf k))).turn k slot
    match (s.group k).bind Group.issuing with
    | none => .next s
    | some i => exec (.clauseHeader i.hdr) (s.as (.grp k))

/-- The instruction of the word that a group issues next, while its turn lasts (R33). -/
def State.nextWord (s : State) (k : GKey) : Option (Except Reject Instr) :=
  (s.group k).bind (fun g => g.issuing.bind (fun i =>
    if s.wordTurn k g i then some (decodeWord (i.words.getD i.k i.head).w) else none))

/-- What is fresh when a group's word runs: its reads, and for `tkstat` what its ring waits for. -/
def State.before_ (s : State) (k : GKey) (i : Instr) : State :=
  let s := s.wordReady k i
  match i with
  | .tkstat _ => s.freshWants (clusterOf (s.coreOf k))
  | _ => s

/-- The next word of the clause that a group issues. A word that does not decode traps (R56, R57). -/
def runWord (k : GKey) (s : State) : Out :=
  match s.nextWord k with
  | none => .next s
  | some (.error r) =>
    .next ((s.modGroup k (fun g => match g.issuing with
      | some i => g.raise (trapOf (causeOf r) (i.wordAt (i.k + 1)))
      | none => g)).wordDone k)
  | some (.ok i) =>
    match exec i ((s.before_ k i).as (.grp k)) with
    | .next t => .next (t.wordDone k)
    | o => o

/-- The instruction that a Starter context fetches, if it decodes and is not disabled (R281, R301). -/
def State.strWord (s : State) (cl j : Nat) : State × Option Instr :=
  match s.strFetch cl j with
  | (t, .word w) =>
    match decodeStarter w with
    | .ok i => if (s.chiplet (chipletOfCl cl)).disablesStr w then (s, none) else (t, some i)
    | .error _ => (s, none)
  | _ => (s, none)

/-- The next word of a Starter context; what keeps it from running is a level-1 fault or a wait (R280, R281, R299). -/
def starterWord (cl j : Nat) (s : State) : Out :=
  match s.strPrep cl j with
  | (s, false) => .next s
  | (s, true) =>
    match s.strWord cl j with
    | (s, some i) => exec i (s.as (.str cl j))
    | (s, none) => exec (.generatorFault cl j) s

/-- A context is ready: its next word completes, faults or ends it. One that stalls is not (R280). -/
def State.strReady (s : State) (cl j : Nat) : Bool :=
  s.strRuns cl j &&
    (match starterWord cl j (s.setCluster cl { s.cluster cl with strTurn := 4 }) with
      | .next t => (t.cluster cl).strTurn != 4 || (t.starter cl j).stopped || (t.starter cl j).launch.isNone
      | _ => false)

/-- A context that the round robin puts before another is ready (R280). -/
def State.strRival (s : State) (cl j : Nat) : Bool :=
  let d (i : Nat) : Nat := (i + 4 - (s.cluster cl).strTurn % 4) % 4
  (List.range 4).any (fun i => decide (d i < d j) && s.strReady cl i)

/-- A cycle of the cluster's Starter: a context whose turn it is issues its next word. -/
def runStarter (cl j : Nat) (s : State) : Out :=
  if s.strRival cl j then .next s
  else
    match starterWord cl j (s.tickCluster cl 1) with
    | .next t => .next (if (t.starter cl j).stopped || (t.starter cl j).launch.isNone then t.strPass cl j else t)
    | o => o

/-- What a requester waits for is looked at before the ring or Affinage acts on it (R326, R349). -/
def State.refresh (s : State) (i : Instr) : State :=
  match i with
  | .stationVisit cl => s.freshWants cl
  | .reservation cl _ _ => s.freshWants cl
  | .affinageSearch cl slot => (s.freshWants cl).checkKept cl slot
  | .shadowRun core => s.freshWants (clusterOf core)
  | .auditRun core => s.freshWants (clusterOf core)
  | .latchTokensTaken core _ => s.freshWants (clusterOf core)
  | _ => s

/-- Steps that still happen after a fatal error: reset, and the host's own accesses (R389). -/
def afterFatal (i : Instr) : Bool :=
  match i with
  | .powerOnReset _ => true
  | .hostMemoryAccess _ => true
  | _ => false

/-- A step of the device. A word is no step of the device; a Starter's word that faults is met in its turn (R280). -/
def runEvent (i : Instr) (s : State) : Out :=
  if i.body != .ev || (s.fatal.isSome && !afterFatal i) then .next s
  else
    match i with
    | .generatorFault cl j => if (s.strWord cl j).2.isSome then .next s else runStarter cl j s
    | i => exec i (s.refresh i)

/-- Version lines of some context lie in its whey area. -/
def State.wheyUsed (s : State) : List Nat :=
  (s.launches.foldl (fun cs (l : Nat × Launch) => insertNat l.2.ctx cs) []).filter (fun c => s.wheyNeed c [] != 0)

/-- A byte of a context's whey area has changed from one state to another. -/
def State.wheyWritten (s t : State) (c : Nat) : Bool :=
  let lo := (t.ctx c).wbase.toNat * 65536
  let here (m : Store 8) : Store 8 := m.filter (fun p => decide (lo ≤ p.1) && decide (p.1 < lo + 2 ^ ((t.ctx c).wsize.toNat + 16)))
  here s.mem != here t.mem

/-- A write into a whey area that lines lie in may meet one of them, whose tag check then fails as it is read back (R366):
where lines lie, and so whose is met, is not defined. -/
def State.wheySpoil (s t : State) : State :=
  t.wheyUsed.foldl (fun t c =>
    let owners := t.keys.filter (fun k => t.lctx k.launch == c && (match t.group k with
      | some g => !g.verLines.isEmpty
      | none => false))
    match s.wheyWritten t c && t.coin (330 + c), owners[(Config.free t.now 329).toNat % max owners.length 1]? with
    | true, some k => t.failVersion k
    | _, _ => t) t

/-- An act by itself. -/
def doAct (a : Act) (s : State) : Out :=
  match a with
  | .issue k slot => runIssue k slot s
  | .word k => runWord k s
  | .starter cl j => runStarter cl j s
  | .event i => runEvent i s
  | .regWrite off val => exec (.registerWrite false off val) s
  | .devWrite key n val =>
    if devWindow key then exec (.registerWrite false (key - 2 ^ 47) (val.setWidth 64)) s
    else .next (s.homeWrite key (natLE n val.toNat))
  | .upset u => .next (s.upset u)

/-- An act, with what its writes do to lines in whey areas. -/
def runAct (a : Act) (s : State) : Out :=
  match doAct a s with
  | .next t => .next (s.wheySpoil t)
  | o => o

end

/-- The act is taken from the agenda, or else from the schedule. -/
def State.act (s : State) : Act × State :=
  match s.agenda with
  | a :: rest => (a, { s with agenda := rest })
  | [] => (Config.schedule s.now, s)

/-- The step is over. -/
def State.tick (s : State) : State := { s with now := s.now + 1, cur := none }

/-! ## A machine on which one word comes to run -/

/-- A launch of one block of one group with 32 granules, in context 0 of a part that has reached READY. -/
def fetchLaunch : Launch :=
  { ctx := 0, home := 0, rec_ := { lrecEmpty with blocks := 1, shape := 0x1F }, addr := 0, order := 0, next := 1, returns := [],
    ended := none, checked := true, replay := none }

def fetchKey : GKey := ⟨0, 0, 0⟩

def fetchBlock : Block :=
  { st := .live, core := 0, seg := 0, slots := [(0, 0)], placed := 0, residence := 0, bars := [], teams := [] }

def fetchSched : Sched := { pipe := 0, slot := 0, placed := 0, u := 0, waited := 0, taken := 0 }

/-- A segment that holds a word and zeros behind it. -/
def fetchDesc (w : Word) : Desc :=
  { Desc.reset with
    used := true, mask := 0xFF, len := 32, e := 32, sealed := true
    words := [(0, ⟨w, 0, false⟩)] }

/-- A clause that holds one word, about to issue it. -/
def fetchIssuing (w : Word) : Issuing :=
  { slot := 0, pos := 0, hdr := ⟨0, 0, 0, 0, 0, 0, 0, 0, 0⟩, head := ⟨0, 0, 0, 0, 0, 0⟩, words := [⟨w, 0, 1, 0, 0, 0⟩]
    verdict := ⟨none, none, [], [], 0, 0, false, false, false, false, [], [], [], [], [], [], [], [], [], [], [], [], [], []⟩
    k := 0, m := 0xFFFFFFFF, act := 0xFFFFFFFF, start := 0, boundary := false, moved := false, halted := false
    subst := none, retry := none, outside := false, txOps := [] }

/-- READY, with the launch, its block and its group. -/
def State.withGroup (s : State) (w : Word) (iss : Option Issuing) : State :=
  let g := { Group.start fetchLaunch.rec_ 0 0 0 fetchSched with issuing := iss }
  { s with
    host := { s.host with state := 2 }
    launches := Tbl.set s.launches 0 fetchLaunch, blocks := Tbl.set s.blocks 0 fetchBlock
    groups := Tbl.set s.groups 0 g
    clusters := Tbl.set s.clusters 0 { s.cluster 0 with descs := Tbl.set (s.cluster 0).descs 0 (fetchDesc w) } }

/-- The virtual page that holds a Starter context's word, and the page tables that map it to physical page 6. -/
def fetchPc : BitVec 64 := 0x1000000000000
def fetchTables : List (Nat × Nat) :=
  [(0x1008, 0x2001), (0x2000, 0x3001), (0x3000, 0x4001), (0x4000, 0x5001), (0x5000, 0x6045)]

/-- READY, with the launch and a Starter context of it at the word. -/
def State.withContext (s : State) (w : Word) : State :=
  let mem := (fetchTables ++ [(0x6000, w.toNat)]).foldl (fun (m : Store 8) (p : Nat × Nat) => Store.putBytes m p.1 (natLE 8 p.2)) s.mem
  let c := s.cluster 0
  let x := { SCtx.reset with launch := some 0, pc := fetchPc }
  { s with
    host := { s.host with state := 2 }, mem
    launches := Tbl.set s.launches 0 fetchLaunch
    ctxs := Tbl.set s.ctxs 0 { s.ctx 0 with root := 1, en := true }
    clusters := Tbl.set s.clusters 0 { c with sctx := Tbl.set c.sctx 0 x } }

/-- The word stands where the next step takes it: a header at a group's program counter, a Starter word at a context's,
any other word in the clause that a group issues. -/
def State.placeWord (s : State) (w : Word) : State :=
  if opOf w = 0x3E then { s.withGroup w none with agenda := [.issue fetchKey 0] }
  else if starterOnly w then { s.withContext w with agenda := [.starter 0 0] }
  else { s.withGroup w (some (fetchIssuing w)) with agenda := [.word fetchKey] }

end Sys2Proof.Machine
end

