-- ==== Sys2Proof/Machine/Step.lean ====
section
/-! DEFINITION. One step of the machine: the next act of the agenda, or else of the schedule. -/
namespace Sys2Proof.Machine
open Sys2Proof

/-- One step. Where it answers a next state, the count of steps has risen and no agent is issuing. -/
noncomputable def step (s : State) : Host.Outcome State Fault Refusal :=
  match runAct s.act.1 s.act.2 with
  | .next t => .next t.tick
  | o => o

/-- The state with an instruction word placed where the next step takes it. Every word is 64 bits. -/
def State.withFetchWord (s : State) (_nbits w : Nat) : State := s.placeWord (BitVec.ofNat 64 w)

end Sys2Proof.Machine
end

