-- ==== Sys2Proof/Safety.lean ====
section
/-! DEFINITION. The terms in which claims are stated: the word that issues, the results a word leaves pending, the
canonical forms that every step keeps. -/
namespace Sys2Proof.Machine
open Sys2Proof

/-! ## The word that runs -/

/-- `w` is the group, the clause and the word that issue in `w.s`. -/
def GW.Issues (w : GW) : Prop := w.s.cur = some (.grp w.key) ∧ w.s.group w.key = some w.g ∧ w.g.issuing = some w.iss

/-- `w` is the Starter context whose word executes in `w.s`. -/
def SW.Runs (w : SW) : Prop := w.s.cur = some (.str w.cl w.j) ∧ w.c = w.s.starter w.cl w.j

/-! ## Results that wait for their cycle (R35) -/

/-- Exactly these results are added to those that wait: nothing else of the machine changes. -/
def GW.gives (w : GW) (ps : List Pend) : State := w.put { w.g with pend := ps.foldl pendInsert w.g.pend }

/-- A lane result: one register, or the pair of a 64-bit result. -/
def lanePends (d : BitVec 8) (wide : Bool) (lanes : Mask) (due : Nat) (v : Nat → BitVec 64) : List Pend :=
  ⟨.v d.toNat, lanes, byLane v, due⟩ ::
    (if wide then [⟨.v (d.toNat + 1), lanes, byLane (fun l => v l >>> 32), due⟩] else [])
/-- Flags raised with a result (R149). -/
def flagPends (f : Flags) (due : Nat) : List Pend := if f = 0 then [] else [⟨.flags, 0, [f.setWidth 64], due⟩]

/-! ## Canonical forms -/

/-- Memory, scratch and vault in their canonical form. -/
def State.Canonical (s : State) : Prop := Store.wf s.mem = true ∧ Store.wf s.scr = true ∧ Store.wf s.vlt = true

/-- What every step keeps: the memories are canonical, and so are the copies that rinds hold of scratch and vault. -/
def State.Inv (s : State) : Prop :=
  s.Canonical ∧ ∀ r ∈ s.rinds, Store.wf r.scr = true ∧ Store.wf r.vlt = true

namespace Memory
/-- The canonical form of memory: addresses rising, no entry equal to what an unlisted address reads as. -/
def wf (m : Store 8) : Bool := Store.wf m
end Memory

end Sys2Proof.Machine
end

