-- ==== Sys2Proof/WellFormed.lean ====
section
/-! DEFINITION. Well-formed instructions: the terms of `Instr` that the spec's encodings admit (R37 to R55,
R56). The checks themselves are `Instr.illegal` and `Instr.reserved` in `Decode.lean`. -/
namespace Sys2Proof

/-- No check of R56 rejects the instruction. Steps of the device have no word and pass. -/
def WellFormed (i : Instr) : Prop := i.check = none

/-- The same as a Boolean. -/
def wellFormed (i : Instr) : Bool := i.check.isNone

/-- A group whose launch has `granules` granules may issue the instruction (R26). -/
def InRange (i : Instr) (granules : Nat) : Prop := i.outOfRange granules = false

end Sys2Proof
end

