-- ==== Sys2Proof/Certificates/Slice0/Obligations.lean ====
section
/-! DEFINITION. The statements for the provers. The tables before a statement say, in the spec's terms, what each
instruction it names computes; `exec i s = .next t` in a conclusion says that the instruction completes. -/
open Sys2Proof
open Sys2Proof.Machine

namespace Sys2Proof.Claims

/-! ## Lane instructions: shapes shared by the statements -/

/-- The instruction completes, and leaves pending exactly its lane result, due `lat` cycles after its issue, and the
flags it raises. `P` says what an active lane receives, `F` which flags are raised. -/
def LaneResult (w : GW) (i : Instr) (d : BitVec 8) (wide : Bool) (eff : Mask) (lat : Nat) (P : Nat → BitVec 64 → Prop)
    (F : Flags → Prop) : Prop :=
  ∃ (v : Nat → BitVec 64) (fl : Flags),
    exec i w.s = .next (w.gives (lanePends d wide eff (w.g.clk + lat) v ++ flagPends fl (w.g.clk + lat))) ∧
    (∀ l, l < 32 → eff.getLsbD l = true → P l (v l)) ∧ F fl

/-- A register that holds the integer `y` of a type (R130): two's complement in 32 bits, or in the 64 of a pair. -/
def holdsInt (ty : BitVec 5) (y : Int) : BitVec 64 :=
  if is64 ty then BitVec.ofInt 64 y else (BitVec.ofInt 32 y).setWidth 64

/-- `r` holds the exact result `x` brought into a type: clamped with `.sat`, else the value of the type that is
congruent to it modulo 2^w (R131, R156). -/
def Narrowed (ty : BitVec 5) (sat : Bool) (x : Int) (r : BitVec 64) : Prop :=
  ∃ y : Int, minOf ty.toNat ≤ y ∧ y ≤ maxOf ty.toNat ∧ r = holdsInt ty y ∧
    (sat = true → y = max (minOf ty.toNat) (min (maxOf ty.toNat) x)) ∧
    (sat = false → (2 ^ tyWidth ty.toNat : Int) ∣ x - y)

/-- Bit 5 of `$fpflags`, and no other, is raised exactly where `.sat` changes a value in a lane that is no helper. -/
def SatFlag (w : GW) (ty : BitVec 5) (sat : Bool) (eff : Mask) (x : Nat → Int) (fl : Flags) : Prop :=
  (fl = 0 ∨ fl = flIntSat) ∧
    (fl = flIntSat ↔ sat = true ∧ ∃ l, l < 32 ∧ eff.getLsbD l = true ∧ w.helpers.getLsbD l = false ∧
      (x l < minOf ty.toNat ∨ maxOf ty.toNat < x l))

/-! ## Integer arithmetic (R156) -/

/-- `vadd` to `vavg` with the result before width is applied. -/
def intRows : List ((V3 → Instr) × (Int → Int → Int)) :=
  [(.vadd, fun a b => a + b), (.vsub, fun a b => a - b), (.vmin, fun a b => min a b), (.vmax, fun a b => max a b),
    (.vabs, fun a _ => |a|), (.vneg, fun a _ => -a), (.vabsd, fun a b => |a - b|),
    (.vavg, fun a b => (a + b + 1) / 2)]

/-! ## Logic, shifts and bitfields (R157) -/

/-- Width, shift amount or control, and the bits of the operands. -/
structure Bits where
  w : Nat
  n : Nat
  a : Nat → Bool
  b : Nat → Bool
  c : Nat → Bool

/-- The result of each row, bit by bit. -/
def bitRows : List ((V3 → Instr) × (Bits → Nat → Bool)) :=
  [(.vand, fun x i => x.a i && x.b i), (.vor, fun x i => x.a i || x.b i), (.vxor, fun x i => x.a i != x.b i),
    (.vandn, fun x i => x.a i && !x.b i), (.vnot, fun x i => !x.a i),
    (.vshl, fun x i => decide (x.n ≤ i) && x.a (i - x.n)),
    (.vshr, fun x i => decide (i + x.n < x.w) && x.a (i + x.n)),
    (.vsra, fun x i => if i + x.n < x.w then x.a (i + x.n) else x.a (x.w - 1)),
    (.vrol, fun x i => x.a ((i + x.w - x.n % x.w) % x.w)),
    (.vbext, fun x i => decide (i < x.n / 256 % 256) && (decide (i + x.n % 256 < x.w) && x.a (i + x.n % 256))),
    (.vbins, fun x i => if x.n % 256 ≤ i ∧ i < x.n % 256 + x.n / 256 % 256 then x.a (i - x.n % 256) else x.c i),
    (.vbrev, fun x i => x.a (x.w - 1 - i))]

/-- Bits of a lane's operands. -/
def bitsOf (w : GW) (f : V3) (l : Nat) : Bits :=
  { w := wOf f, n := (w.opd1 f.b l).toNat, a := (w.nat f f.a l).testBit, b := (w.nat f f.b l).testBit
    c := (w.nat f f.c l).testBit }

/-! ## Multiply and divide (R159) -/

/-- `vmul` and `vmad` with their exact results. -/
def mulRows : List ((V3 → Instr) × (Int → Int → Int → Int)) :=
  [(.vmul, fun a b _ => a * b), (.vmad, fun a b c => a * b + c)]
/-- `vmulhi` and `vmadhi`: the part above the type's width. -/
def mulHiRows : List ((V3 → Instr) × (Int → Int → Int → Int)) :=
  [(.vmulhi, fun a b _ => a * b), (.vmadhi, fun a b c => a * b + c)]

/-- Quotient and remainder under the division rule. -/
def quotient (ty : BitVec 5) (a b : Int) : Int :=
  if b = 0 then (if ty.toNat < 4 then -1 else 2 ^ tyWidth ty.toNat - 1)
  else if ty.toNat < 4 ∧ a = minOf ty.toNat ∧ b = -1 then minOf ty.toNat
  else Int.tdiv a b
def remainder (ty : BitVec 5) (a b : Int) : Int :=
  if b = 0 then a else if ty.toNat < 4 ∧ a = minOf ty.toNat ∧ b = -1 then 0 else Int.tmod a b
def divRows : List ((V3 → Instr) × (BitVec 5 → Int → Int → Int)) := [(.vdiv, quotient), (.vrem, remainder)]

/-! ## Immediate forms (R160) -/

def immRows : List ((VI → Instr) × Nat × (BitVec 32 → BitVec 32 → BitVec 32)) :=
  [(.vaddi, 2, fun a i => a + i), (.vandi, 2, fun a i => a &&& i), (.vori, 2, fun a i => a ||| i),
    (.vxori, 2, fun a i => a ^^^ i), (.vshli, 2, fun a i => a <<< i), (.vshri, 2, fun a i => a >>> i),
    (.vsrai, 2, fun a i => BitVec.sshiftRight' a i),
    (.vminiI32, 2, fun a i => if a.slt i then a else i), (.vmaxiI32, 2, fun a i => if a.slt i then i else a),
    (.vminiN32, 2, fun a i => if a < i then a else i), (.vmaxiN32, 2, fun a i => if a < i then i else a),
    (.vmuli, 4, fun a i => a * i), (.vmovi, 2, fun _ i => i)]
def cmpImmRows : List ((VI → Instr) × (BitVec 32 → BitVec 32 → Bool)) :=
  [(.vceqi, fun a i => a == i), (.vcltiI32, fun a i => a.slt i), (.vcltiN32, fun a i => a.ult i),
    (.vcgtiI32, fun a i => i.slt a), (.vcgtiN32, fun a i => i.ult a)]

/-! ## Compares (R158, R164) -/

def cmpRows : List ((V3 → Instr) × (Int → Int → Nat → Nat → Prop)) :=
  [(.vceq, fun a b _ _ => a = b), (.vcne, fun a b _ _ => a ≠ b), (.vclt, fun a b _ _ => a < b),
    (.vcle, fun a b _ _ => a ≤ b), (.vcgt, fun a b _ _ => a > b), (.vcge, fun a b _ _ => a ≥ b),
    (.vtest, fun _ _ x y => ∃ i, x.testBit i = true ∧ y.testBit i = true)]

/-- The value of a finite number. -/
def rat (x : FVal) : ℚ :=
  match x with
  | .fin s m e => (if s then -1 else 1) * (m : ℚ) * (2 : ℚ) ^ e
  | _ => 0
/-- The order of the numbers and infinities; a NaN is less than nothing and nothing is less than it. -/
def below (a b : FVal) : Prop :=
  match a, b with
  | .nan _, _ => False
  | _, .nan _ => False
  | .inf n, .inf k => n = true ∧ k = false
  | .inf n, .fin _ _ _ => n = true
  | .fin _ _ _, .inf k => k = false
  | .fin s m e, .fin u k f => rat (.fin s m e) < rat (.fin u k f)
def alike (a b : FVal) : Prop := fIsNaN a = false ∧ fIsNaN b = false ∧ ¬ below a b ∧ ¬ below b a

/-! ## Rounding (R138 to R145, R148) -/

def signed (neg : Bool) (x : ℝ) : ℝ := if neg then -x else x
def withSign (ty : Nat) (neg : Bool) (n : Nat) : Nat := (if neg then fSignBit ty else 0) + n
/-- A finite value as a real number. -/
def val (x : FVal) : ℝ := (rat x : ℝ)
def finite (x : FVal) : Prop := ∃ n m e, x = .fin n m e

/-- The n-th magnitude of a format of R132 whose exponents go on without end: the code n, up to the largest finite one,
stands for it. -/
noncomputable def mag (ty n : Nat) : ℝ :=
  if n < 2 ^ fM ty then n * (2 : ℝ) ^ fQ ty
  else ((2 ^ fM ty + n % 2 ^ fM ty : Nat) : ℝ) * (2 : ℝ) ^ (fQ ty + (n / 2 ^ fM ty : Nat) - 1)

/-- Whether x goes to the greater of its neighbours lo and hi in the mode (R142, R145); `tie` and `away` say what a tie
does in `.rn` and in `.rna`. -/
def goesUp (rm u : Nat) (neg : Bool) (tie away : Prop) (x lo hi : ℝ) : Prop :=
  match rm with
  | 0 => lo + hi < 2 * x ∨ (lo + hi = 2 * x ∧ tie)
  | 1 => False
  | 2 => neg = true
  | 3 => neg = false
  | 4 => lo + hi < 2 * x ∨ (lo + hi = 2 * x ∧ away)
  | _ => 2 ^ 24 ≤ ⌊(x - lo) / (hi - lo) * 2 ^ 24⌋₊ + u

/-- What stands for a magnitude beyond the largest finite one (R144): that one, or the code after it, which is the
infinity, or the NaN of `e4m3`. -/
def beyond (ty rm : Nat) (sat neg : Bool) : Nat :=
  withSign ty neg (fMaxBits ty +
    if ty = 13 ∨ sat = true ∨ rm = 1 ∨ (rm = 2 ∧ neg = false) ∨ (rm = 3 ∧ neg = true) then 0 else 1)

/-- `r` is ± the magnitude x rounded once to the type, with its flags. A tie goes to the even code, in `.rna` away from
zero except in `e2m1`. -/
def Rounded (ty rm : Nat) (sat : Bool) (u : Nat) (neg : Bool) (x : ℝ) (r : Nat × Flags) : Prop :=
  ∃ n k : Nat, mag ty n ≤ x ∧ x < mag ty (n + 1) ∧
    (x = mag ty n → k = n) ∧
    (x ≠ mag ty n →
      let up := goesUp rm u neg (n % 2 = 1) (ty ≠ 13 ∨ n % 2 = 1) x (mag ty n) (mag ty (n + 1))
      (up → k = n + 1) ∧ (¬up → k = n)) ∧
    (fMaxBits ty < k → r = (beyond ty rm sat neg, flOverflow ||| flInexact)) ∧
    (k ≤ fMaxBits ty → r.1 = withSign ty neg k ∧ (x = mag ty n → r.2 = 0) ∧
      (x ≠ mag ty n → r.2 = if 0 < k ∧ k < 2 ^ fM ty then flInexact ||| flUnderflow else flInexact))

/-- `r` is the exact value x rounded once; `zero` is the sign of an exact zero (R142, R161). -/
def OnceRounded (ty rm : Nat) (sat : Bool) (u : Nat) (zero : Bool) (x : ℝ) (r : Nat × Flags) : Prop :=
  (x = 0 → r = (withSign ty zero 0, 0)) ∧ (0 < x → Rounded ty rm sat u false x r) ∧
    (x < 0 → Rounded ty rm sat u true (-x) r)

/-- The magnitude x rounded to an integer in the mode. -/
def RoundedInt (rm u : Nat) (neg : Bool) (x : ℝ) (k : Nat) : Prop :=
  ∃ n : Nat, (n : ℝ) ≤ x ∧ x < n + 1 ∧ (x = n → k = n) ∧
    (x ≠ n → let up := goesUp rm u neg (n % 2 = 1) True x n (n + 1)
      (up → k = n + 1) ∧ (¬up → k = n))

/-- What a TS8 code stands for (R139), its non-zero terms, and whether it is canonical (R140). -/
noncomputable def ts8Part (s k : Nat) : ℝ := if k = 0 then 0 else signed (s == 1) ((2 : ℝ) ^ (1 - (k : ℤ)))
noncomputable def ts8 (c : Nat) : ℝ := ts8Part (c / 128 % 2) (c / 16 % 8) + ts8Part (c / 8 % 2) (c % 8)
def terms (c : Nat) : Nat := (if c / 16 % 8 = 0 then 0 else 1) + (if c % 8 = 0 then 0 else 1)
def Canonical (c : Nat) : Prop :=
  c < 256 ∧
    let s := c / 128
    let a := c / 16 % 8
    let t := c / 8 % 2
    let b := c % 8
    c = 0 ∨ (a ≠ 0 ∧ t = 0 ∧ b = 0) ∨ (s = t ∧ ((1 ≤ a ∧ a < b) ∨ (a = 1 ∧ b = 1))) ∨ (s ≠ t ∧ 1 ≤ a ∧ a + 3 ≤ b)

/-- `r` is ± the magnitude x rounded to TS8 (R141). -/
def Ts8Rounded (rm u : Nat) (neg : Bool) (x : ℝ) (r : Nat × Flags) : Prop :=
  let gives (y : ℝ) : Prop := Canonical r.1 ∧ ts8 r.1 = signed neg y
  (2 < x → gives 2 ∧ r.2 = flOverflow ||| flInexact) ∧
    (∀ c, Canonical c → ts8 c = x → gives x ∧ r.2 = 0) ∧
    (∀ c d, Canonical c → Canonical d → 0 ≤ ts8 c → ts8 c < x → x < ts8 d →
      (∀ e, Canonical e → ts8 e ≤ ts8 c ∨ ts8 d ≤ ts8 e) →
      let up := goesUp rm u neg (terms d < terms c) (terms d < terms c) x (ts8 c) (ts8 d)
      r.2 = flInexact ∧ (up → gives (ts8 d)) ∧ (¬up → gives (ts8 c)))

/-- `vfceq` to `vfcun`: when the bit is set, and which operands raise invalid. -/
def fcmpRows : List ((V3 → Instr) × (FVal → FVal → Prop) × (FVal → Bool)) :=
  [(.vfceq, alike, fIsSNaN), (.vfcne, fun a b => ¬ alike a b, fIsSNaN),
    (.vfclt, below, fIsNaN), (.vfcle, fun a b => below a b ∨ alike a b, fIsNaN),
    (.vfcgt, fun a b => below b a, fIsNaN), (.vfcge, fun a b => below b a ∨ alike a b, fIsNaN),
    (.vfcun, fun a b => fIsNaN a = true ∨ fIsNaN b = true, fIsSNaN)]

/-! ## Lanes in pairs (R388) -/

/-- A group that has stopped at a trap of its word: the cause, and no other change than the halt of its clause. -/
def Trapped (g g' : Group) (cause : BitVec 8) : Prop :=
  ∃ t : TrapInfo, t.cause = cause ∧
    g' = { g with trap := some t, issuing := g.issuing.map (fun i => { i with halted := true }) }

/-- Under PROTECT the two lanes of pair `i` differ in `lanes`, or by `same` in what is compared. -/
def PairDiffers (w : GW) (lanes : Mask) (same : Nat → Nat → Prop) (i : Nat) : Prop :=
  w.protect = true ∧ i < 16 ∧ (lanes.getLsbD (2 * i) = true ∨ lanes.getLsbD (2 * i + 1) = true) ∧
    ¬(lanes.getLsbD (2 * i) = lanes.getLsbD (2 * i + 1) ∧ same (2 * i) (2 * i + 1))
/-- No pair differs; so it is without PROTECT. -/
def PairsSame (w : GW) (lanes : Mask) (same : Nat → Nat → Prop) : Prop := ∀ i, ¬PairDiffers w lanes same i
/-- SHADOW_MISMATCH: the word traps, and each pair that differs carries the cause in its primary lane's record. -/
def ShadowTrap (w : GW) (i : Instr) (differs : Nat → Prop) : Prop :=
  w.g.trap = none → ∃ g', exec i w.s = .next (w.put g') ∧ Trapped w.g g' Cause.shadowMismatch ∧
    ∀ t, g'.trap = some t → ∀ k, differs k → ∃ r, Tbl.find t.lanes (2 * k) = some r ∧ r.cause = Cause.shadowMismatch
/-- What holds if no pair differs; else the word traps. -/
def Compared (w : GW) (i : Instr) (lanes : Mask) (same : Nat → Nat → Prop) (runs : Prop) : Prop :=
  (PairsSame w lanes same → runs) ∧ (¬PairsSame w lanes same → ShadowTrap w i (PairDiffers w lanes same))
/-- The sixteen visible bits of a mask under PROTECT, else the mask. -/
def Visible (w : GW) (m : Mask) (x : BitVec 32) : Prop :=
  ∀ i, i < 32 → x.getLsbD i = if w.protect then decide (i < 16) && m.getLsbD (2 * i) else m.getLsbD i

/-- A compare: it completes and leaves pending bit L of the mask for each active lane, and its flags. `P` says when a
lane's bit is set. Under PROTECT the bits of each pair are compared (R388). -/
def MaskResult (w : GW) (i : Instr) (d : BitVec 8) (eff : Mask) (P : Nat → Prop) (F : Flags → Prop) : Prop :=
  Compared w i eff (fun l m => P l ↔ P m)
    (∃ (x : Mask) (fl : Flags),
      exec i w.s = .next (w.gives (⟨.m d.toNat, eff, [x.setWidth 64], w.g.clk + 2⟩ :: flagPends fl (w.g.clk + 2))) ∧
      (∀ l, l < 32 → eff.getLsbD l = true → (x.getLsbD l = true ↔ P l)) ∧ F fl)

/-! ## Floating point (R162 to R169) -/

/-- Value and flags of each row from the operands' bits in a lane and U; whether it rounds. -/
def floatRows : List ((V3 → Instr) × Nat × Bool × (GW → V3 → Nat → Nat → Nat × Flags)) :=
  [(.vfadd, 4, true, fun w f l u => fAdd f.ty.toNat f.rm.toNat u (w.fval f f.a l) (w.fval f f.b l)),
    (.vfsub, 4, true, fun w f l u => fAdd f.ty.toNat f.rm.toNat u (w.fval f f.a l) (fNegV (w.fval f f.b l))),
    (.vfmul, 4, true, fun w f l u => fMul f.ty.toNat f.rm.toNat u (w.fval f f.a l) (w.fval f f.b l)),
    (.vfma, 4, true, fun w f l u =>
      fFma f.ty.toNat f.rm.toNat u (w.fval f f.a l) (w.fval f f.b l) (w.fval f f.c l)),
    (.vfmin, 2, false, fun w f l _ => fMinMax false f.ty.toNat (w.fbits f f.a l) (w.fbits f f.b l)),
    (.vfmax, 2, false, fun w f l _ => fMinMax true f.ty.toNat (w.fbits f f.a l) (w.fbits f f.b l)),
    (.vfabs, 2, false, fun w f l _ => (w.fbits f f.a l % 2 ^ (tyWidth f.ty.toNat - 1), 0)),
    (.vfneg, 2, false, fun w f l _ => (w.fbits f f.a l ^^^ 2 ^ (tyWidth f.ty.toNat - 1), 0)),
    (.vfrnd, 4, true, fun w f l u => fRint f.ty.toNat f.rm.toNat u (w.fval f f.a l)),
    (.vfclass, 2, false, fun w f l _ => (fClass f.ty.toNat (w.fbits f f.a l), 0)),
    (.vrcp, 8, false, fun w f l _ => fSpecial 0 f.ty.toNat (w.fbits f f.a l)),
    (.vrsq, 8, false, fun w f l _ => fSpecial 1 f.ty.toNat (w.fbits f f.a l)),
    (.vsqrt, 8, true, fun w f l u => fSqrt f.ty.toNat f.rm.toNat u (w.fval f f.a l)),
    (.vexp2, 8, false, fun w f l _ => fSpecial 3 f.ty.toNat (w.fbits f f.a l)),
    (.vlog2, 8, false, fun w f l _ => fSpecial 4 f.ty.toNat (w.fbits f f.a l)),
    (.vsin, 8, false, fun w f l _ => fSpecial 5 f.ty.toNat (w.fbits f f.a l)),
    (.vcos, 8, false, fun w f l _ => fSpecial 6 f.ty.toNat (w.fbits f f.a l)),
    (.vtanh, 8, false, fun w f l _ => fSpecial 7 f.ty.toNat (w.fbits f f.a l)),
    (.vsigm, 8, false, fun w f l _ => fSpecial 8 f.ty.toNat (w.fbits f f.a l)),
    (.vfdiv, 12, true, fun w f l u => fDiv f.ty.toNat f.rm.toNat u (w.fval f f.a l) (w.fval f f.b l))]

/-- The immediate rows round to nearest in f32. -/
def floatImmRows : List ((VI → Instr) × Nat × (Nat → Nat → Nat × Flags)) :=
  [(.vfaddi, 4, fun a i => fAdd 10 0 0 (fDecode 10 a) (fDecode 10 i)),
    (.vfmuli, 4, fun a i => fMul 10 0 0 (fDecode 10 a) (fDecode 10 i)),
    (.vfmini, 2, fun a i => fMinMax false 10 a i), (.vfmaxi, 2, fun a i => fMinMax true 10 a i),
    (.vfmovi, 2, fun _ i => (i, 0))]

/-- The flags of the lanes that are no helper lanes, together (R148, R154). -/
def laneFlags (w : GW) (eff : Mask) (f : Nat → Flags) : Flags := orFlags (eff &&& ~~~w.helpers) f

/-- The conversions, packs and block scale: the source of element `i`, its type and the packed width (R150, R165). -/
def packSrc (w : GW) (f : V3) (l i : Nat) : BitVec 64 := (w.g.readV w.n (f.a.toNat + i) l).setWidth 64

/-! ## Movement (R170) -/

/-- The source lane of lane `i` among `n` lanes. -/
def moveRows : List ((V3 → Instr) × (V3 → Nat → Nat → Nat)) :=
  [(.vqxh, fun _ _ i => i ^^^ 1), (.vqxv, fun _ _ i => i ^^^ 2), (.vqxd, fun _ _ i => i ^^^ 3),
    (.vqbc, fun f _ i => i / 4 * 4 + f.c.toNat), (.vshup, fun f _ i => if i < f.c.toNat then i else i - f.c.toNat),
    (.vshdn, fun f n i => if i + f.c.toNat > n - 1 then i else i + f.c.toNat), (.vshxor, fun f _ i => i ^^^ f.c.toNat),
    (.vbcast, fun f _ _ => f.c.toNat)]

/-! ## Masks, group registers and predicates (R171 to R174) -/

def maskRows : List ((V3 → Instr) × (GW → V3 → Mask)) :=
  [(.mand, fun w f => w.mreg f.a &&& w.mreg f.b), (.mor, fun w f => w.mreg f.a ||| w.mreg f.b),
    (.mxor, fun w f => w.mreg f.a ^^^ w.mreg f.b), (.mandn, fun w f => w.mreg f.a &&& ~~~ w.mreg f.b),
    (.mnot, fun w f => ~~~ w.mreg f.a), (.mmov, fun w f => w.mreg f.a),
    (.mfromg, fun w f => if w.protect then maskBy (fun l => (w.opdG f.a).getLsbD (l / 2)) else (w.opdG f.a).setWidth 32)]

/-- Latency and result of the rows that write a `g` register; `gsel` writes only when bit 0 of b is set. -/
def gRows : List ((V3 → Instr) × Nat × (BitVec 64 → BitVec 64 → BitVec 64)) :=
  [(.gadd, 2, fun a b => a + b), (.gsub, 2, fun a b => a - b), (.gand, 2, fun a b => a &&& b),
    (.gor, 2, fun a b => a ||| b), (.gxor, 2, fun a b => a ^^^ b),
    (.gshl, 2, fun a b => if b.toNat < 64 then a <<< b.toNat else 0),
    (.gshr, 2, fun a b => if b.toNat < 64 then a >>> b.toNat else 0),
    (.gsra, 2, fun a b => a.sshiftRight (min b.toNat 64)),
    (.gmin, 2, fun a b => if a.slt b then a else b), (.gmax, 2, fun a b => if a.slt b then b else a),
    (.gminn, 2, fun a b => if a < b then a else b), (.gmaxn, 2, fun a b => if a < b then b else a),
    (.gmov, 2, fun a _ => a), (.gmul, 4, fun a b => a * b),
    (.gmulhi, 4, fun a b => BitVec.ofInt 64 (a.toInt * b.toInt / 2 ^ 64)),
    (.gdiv, 20, fun a b => if b = 0 then ~~~0 else a.sdiv b),
    (.gdivn, 20, fun a b => if b = 0 then ~~~0 else a / b),
    (.grem, 20, fun a b => a.srem b), (.gremn, 20, fun a b => a % b)]

/-- The rows with an immediate: `a`, the old `d` and imm32. -/
def gImmRows : List ((VI → Instr) × Nat × (BitVec 64 → BitVec 64 → BitVec 32 → BitVec 64)) :=
  [(.gaddi, 2, fun a _ i => a + i.signExtend 64), (.gandi, 2, fun a _ i => a &&& i.signExtend 64),
    (.gori, 2, fun a _ i => a ||| i.signExtend 64), (.gxori, 2, fun a _ i => a ^^^ i.signExtend 64),
    (.gshli, 2, fun a _ i => a <<< i.toNat), (.gshri, 2, fun a _ i => a >>> i.toNat),
    (.gsrai, 2, fun a _ i => a.sshiftRight i.toNat),
    (.gmini, 2, fun a _ i => if a.slt (i.signExtend 64) then a else i.signExtend 64),
    (.gmaxi, 2, fun a _ i => if a.slt (i.signExtend 64) then i.signExtend 64 else a),
    (.gmovi, 2, fun _ _ i => i.signExtend 64), (.gmovhi, 2, fun _ d i => i ++ d.extractLsb' 0 32),
    (.gmuli, 4, fun a _ i => a * i.signExtend 64)]

def predRows : List ((V3 → Instr) × (GW → V3 → Prop)) :=
  [(.gceq, fun w f => w.opdG f.a = w.opdG f.b), (.gcne, fun w f => w.opdG f.a ≠ w.opdG f.b),
    (.gclt, fun w f => (w.opdG f.a).toInt < (w.opdG f.b).toInt),
    (.gcle, fun w f => (w.opdG f.a).toInt ≤ (w.opdG f.b).toInt),
    (.gcltn, fun w f => (w.opdG f.a).toNat < (w.opdG f.b).toNat),
    (.gclen, fun w f => (w.opdG f.a).toNat ≤ (w.opdG f.b).toNat),
    (.gpand, fun w f => w.gpreg f.a = true ∧ w.gpreg f.b = true),
    (.gpor, fun w f => w.gpreg f.a = true ∨ w.gpreg f.b = true),
    (.gpxor, fun w f => ¬(w.gpreg f.a = true ↔ w.gpreg f.b = true)), (.gpnot, fun w f => w.gpreg f.a = false),
    (.gpany, fun w f => ∃ l, l < 32 ∧ w.iss.m.getLsbD l = true ∧ (w.mreg f.a).getLsbD l = true),
    (.gpall, fun w f => ∀ l, l < 32 → w.iss.m.getLsbD l = true → (w.mreg f.a).getLsbD l = true)]

/-- Under a false predicate a group-wide word changes nothing (R42). -/
def Predicated (w : GW) (i : Instr) (p : Bool) (t : State) : Prop := exec i w.s = .next (if p then t else w.s)

/-! ## Reductions (R177) -/

def redRows : List ((V3 → Instr) × (V3 → List Int → Int)) :=
  [(.vredadd, fun _ xs => xs.sum), (.vredmin, fun f xs => xs.foldr min (maxOf f.ty.toNat)),
    (.vredmax, fun f xs => xs.foldr max (minOf f.ty.toNat))]
/-- The bitwise rows by what they make of the bits at one place: the empty AND is all ones. -/
def redBitRows : List ((V3 → Instr) × (List Bool → Bool)) :=
  [(.vredand, fun bs => bs.all id), (.vredor, fun bs => bs.any id), (.vredxor, fun bs => bs.foldr xor false)]

end Sys2Proof.Claims
namespace Sys2Proof.Claims
/-- A form of integer type. -/
def IntType (f : V3) : Prop := f.ty.toNat < 8
end Sys2Proof.Claims
open Sys2Proof.Claims

/-! ## Lane instructions -/

/-- R156 (and R130, R131, R153, R154): each lane of the effective mask receives the exact result brought into the type;
every other register, flag and byte of memory is as before. -/
def Obligations.IntegerArithmetic : Prop :=
  (∀ (w : GW) (f : V3), w.Issues → IntType f → ∀ r ∈ intRows,
    let x (l : Nat) : Int := r.2 (w.int f f.a l) (w.int f f.b l)
    LaneResult w (r.1 f) f.d (is64 f.ty) (w.eff f.mask f.neg) 2 (fun l v => Narrowed f.ty (f.sat == 1) (x l) v)
      (SatFlag w f.ty (f.sat == 1) (w.eff f.mask f.neg) x)) ∧
  (∀ f : V3, IntType f → f.sat = 1 → ∀ i ∈ [Instr.vmin f, .vmax f, .vavg f],
    i.check = some .reservedField)

/-- R157: the result of each row bit by bit, extended as the type is signed or not (R130); no flag.
R157: the number of set bits, the leading zeros and the byte permute, into one register of 32 bits. -/
def Obligations.LogicShiftsAndBitfields : Prop :=
  (∀ (w : GW) (f : V3), w.Issues → IntType f → ∀ r ∈ bitRows,
     LaneResult w (r.1 f) f.d (is64 f.ty) (w.eff f.mask f.neg) 2
       (fun l v => v = writeNat f.ty.toNat (readNat f.ty.toNat v) ∧
         ∀ i, i < wOf f → (readNat f.ty.toNat v).testBit i = r.2 (bitsOf w f l) i)
       (fun fl => fl = 0)) ∧
  (∀ (w : GW) (f : V3), w.Issues → IntType f →
     LaneResult w (.vpopc f) f.d false (w.eff f.mask f.neg) 2
       (fun l v => v.toNat = ((List.range 64).filter (bitsOf w f l).a).length) (fun fl => fl = 0) ∧
     LaneResult w (.vclz f) f.d false (w.eff f.mask f.neg) 2
       (fun l v => v.toNat ≤ wOf f ∧ w.nat f f.a l < 2 ^ (wOf f - v.toNat) ∧
         (v.toNat < wOf f → 2 ^ (wOf f - v.toNat - 1) ≤ w.nat f f.a l)) (fun fl => fl = 0) ∧
     LaneResult w (.vperm f) f.d false (w.eff f.mask f.neg) 2
       (fun l v => v.toNat < 2 ^ 32 ∧ ∀ i, i < 4 →
         v.toNat / 256 ^ i % 256 =
           (let sel := (w.opd1 f.b l).toNat / 16 ^ i % 16
            if 8 ≤ sel then 0
            else if sel < 4 then (w.opd1 f.a l).toNat / 256 ^ sel % 256
            else (w.opd1 f.c l).toNat / 256 ^ (sel - 4) % 256)) (fun fl => fl = 0)) ∧
  (∀ f : V3, f.sat ≠ 0 ∨ f.rm ≠ 0 →
    (IntType f → ∀ i ∈ [Instr.vshl f, .vshr f, .vsra f, .vrol f], i.check = some .reservedField) ∧
    (f.ty = 6 ∨ f.ty = 7 → ∀ i ∈ (bitRows.map (fun r => r.1 f)) ++ [Instr.vpopc f, .vclz f],
      i.check = some .reservedField) ∧
    (f.ty = 6 → (Instr.vperm f).check = some .reservedField))

/-- R158: bit L of the mask for each lane of the effective mask, the other bits and `m0` as they were; no flag. Under PROTECT the pairs are compared (R388). -/
def Obligations.IntegerCompare : Prop :=
  (∀ (w : GW) (f : V3), w.Issues → ∀ r ∈ cmpRows,
    MaskResult w (r.1 f) f.d (w.eff f.mask f.neg)
      (fun l => r.2 (w.int f f.a l) (w.int f f.b l) (w.nat f f.a l) (w.nat f f.b l)) (fun fl => fl = 0)) ∧
  (∀ (pr : Bool) (rs : Regs) (p : Pend), (p.dest = .m 0 → rs.land pr p = rs) ∧
    ∀ d l, p.dest = .m d → Store.wf rs.m = true → p.lanes.getLsbD l = false →
      (Store.read (rs.land pr p).m d).getLsbD l = (Store.read rs.m d).getLsbD l)

/-- R159: products, division that never traps, and the dot product. -/
def Obligations.MultiplyAndDivide : Prop :=
  ∀ (w : GW) (f : V3), w.Issues → IntType f →
    let a := w.int f f.a
    let b := w.int f f.b
    let c := w.int f f.c
    let lat (n m : Nat) : Nat := if is64 f.ty then m else n
    let eff := w.eff f.mask f.neg
    (∀ r ∈ mulRows, LaneResult w (r.1 f) f.d (is64 f.ty) eff (lat 4 6)
      (fun l v => Narrowed f.ty (f.sat == 1) (r.2 (a l) (b l) (c l)) v)
      (SatFlag w f.ty (f.sat == 1) eff (fun l => r.2 (a l) (b l) (c l)))) ∧
    (∀ r ∈ mulHiRows, LaneResult w (r.1 f) f.d (is64 f.ty) eff (lat 4 6)
      (fun l v => v = holdsInt f.ty (r.2 (a l) (b l) (c l) / 2 ^ wOf f)) (fun fl => fl = 0)) ∧
    (∀ r ∈ divRows, LaneResult w (r.1 f) f.d (is64 f.ty) eff (lat 20 36)
      (fun l v => v = holdsInt f.ty (r.2 f.ty (a l) (b l))) (fun fl => fl = 0)) ∧
    LaneResult w (.vmulw f) f.d true eff 6 (fun l v => v = BitVec.ofInt 64 (a l * b l)) (fun fl => fl = 0) ∧
    LaneResult w (.vmadw f) f.d true eff 6
      (fun l v => v = BitVec.ofInt 64 (a l * b l) + w.g.readPair w.n f.c.toNat l) (fun fl => fl = 0) ∧
    ((f.ty = 0 ∨ f.ty = 4) →
      let x (l : Nat) : Int := readInt (f.ty.toNat + 2) (w.opd1 f.c l) +
        ((List.range 4).map (fun i =>
          readInt f.ty.toNat (w.opd1 f.a l >>> (8 * i)) * readInt f.ty.toNat (w.opd1 f.b l >>> (8 * i)))).sum
      LaneResult w (.vdot4 f) f.d false eff 4 (fun l v => Narrowed (f.ty + 2) (f.sat == 1) (x l) v)
        (SatFlag w (f.ty + 2) (f.sat == 1) eff x))

/-- R161, R162, R164, R168: each row's value in every active lane, the flags of the lanes that are no helpers, and the
step of the feedback registers by a rounding row in mode `.rs` (R145).
R132, R134: what the codes of the formats stand for. R142 to R145, R161, R168: sum, product, fused sum, quotient and root
are the exact result rounded once; `vfrnd` rounds to an integer (R162). -/
def Obligations.FloatArithmetic : Prop :=
  (∀ (ty n : Nat) (s : Bool), 8 ≤ ty → ty ≤ 13 → n ≤ fMaxBits ty →
    ∃ m e, fDecode ty (withSign ty s n) = .fin s m e ∧ val (.fin s m e) = signed s (mag ty n)) ∧
  (∀ (ty rm u : Nat) (a b c : FVal), 8 ≤ ty → ty ≤ 10 → rm ≤ 5 → u < 2 ^ 24 →
    let nan (r : Nat × Flags) (bad : Bool) : Prop := r = (fNaN ty, if bad then flInvalid else 0)
    let inf (r : Nat × Flags) (n : Bool) : Prop := r = (withSign ty n (fMaxBits ty + 1), 0)
    let once (z : Bool) (x : ℝ) (r : Nat × Flags) : Prop := OnceRounded ty rm false u z x r
    let sn := fIsSNaN a || fIsSNaN b
    let pn := fNeg a != fNeg b
    let num (x : FVal) : Prop := fIsNaN x = false
    let some_ (p : FVal → Prop) : Prop := p a ∨ p b
    -- a + b
    ((¬num a ∨ ¬num b → nan (fAdd ty rm u a b) sn) ∧
      (num a → num b → some_ (¬finite ·) →
        (¬finite a → ¬finite b → pn = true → nan (fAdd ty rm u a b) true) ∧
        (finite b ∨ (¬finite a ∧ pn = false) → inf (fAdd ty rm u a b) (fNeg a)) ∧
        (finite a → inf (fAdd ty rm u a b) (fNeg b))) ∧
      (finite a → finite b → once ((fNeg a && fNeg b) || (rm == 2 && (fNeg a || fNeg b))) (val a + val b)
        (fAdd ty rm u a b))) ∧
    -- a · b
    ((¬num a ∨ ¬num b → nan (fMul ty rm u a b) sn) ∧
      (num a → num b → some_ (¬finite ·) →
        (some_ (fun x => finite x ∧ val x = 0) → nan (fMul ty rm u a b) true) ∧
        (¬some_ (fun x => finite x ∧ val x = 0) → inf (fMul ty rm u a b) pn)) ∧
      (finite a → finite b → once pn (val a * val b) (fMul ty rm u a b))) ∧
    -- a · b + c
    (let zi : Prop := num a ∧ num b ∧ some_ (¬finite ·) ∧ some_ (fun x => finite x ∧ val x = 0)
      let r := fFma ty rm u a b c;
      (zi → nan r true) ∧
      (¬zi → ¬num a ∨ ¬num b ∨ ¬num c → nan r (sn || fIsSNaN c)) ∧
      (¬zi → num a → num b → num c →
        (some_ (¬finite ·) → (¬finite c → pn ≠ fNeg c → nan r true) ∧ (finite c ∨ pn = fNeg c → inf r pn)) ∧
        (finite a → finite b → ¬finite c → inf r (fNeg c)) ∧
        (finite a → finite b → finite c →
          once ((pn && fNeg c) || (rm == 2 && (pn || fNeg c))) (val a * val b + val c) r))) ∧
    -- a / b
    (let r := fDiv ty rm u a b;
      (¬num a ∨ ¬num b → nan r sn) ∧
      (num a → num b →
        (¬finite a → ¬finite b → nan r true) ∧ (¬finite a → finite b → inf r pn) ∧
        (finite a → ¬finite b → r = (withSign ty pn 0, 0)) ∧
        (finite a → finite b →
          (val b = 0 → val a = 0 → nan r true) ∧
          (val b = 0 → val a ≠ 0 → r = (withSign ty pn (fMaxBits ty + 1), flDivZero)) ∧
          (val b ≠ 0 → once pn (val a / val b) r)))) ∧
    -- √a
    (let r := fSqrt ty rm u a;
      (¬num a → nan r (fIsSNaN a)) ∧ (num a → ¬finite a → fNeg a = false → inf r false) ∧
      (num a → fNeg a = true → ¬(finite a ∧ val a = 0) → nan r true) ∧
      (finite a → 0 ≤ val a → once (fNeg a) (Real.sqrt (val a)) r)) ∧
    -- to an integer
    (∀ raw n m e, raw < 2 ^ tyWidth ty → fDecode ty raw = .fin n m e →
      let r := fRint ty rm u (.fin n m e);
      r.2 = 0 ∧ ∃ k m' e', RoundedInt rm u n |val (.fin n m e)| k ∧
        fDecode ty r.1 = .fin n m' e' ∧ val (.fin n m' e') = signed n k)) ∧
  ∀ (w : GW) (f : V3), w.Issues → ∀ r ∈ floatRows,
    let eff := w.eff f.mask f.neg
    let y (l : Nat) : Nat × Flags := r.2.2.2 w f l (fbU (w.g.fb l))
    let due := w.g.clk + r.2.1
    ∃ v : Nat → BitVec 64, (∀ l, l < 32 → eff.getLsbD l = true → v l = BitVec.ofNat 64 (y l).1) ∧
      exec (r.1 f) w.s = .next (w.put (Group.stepFb
        { w.g with pend := (lanePends f.d false eff due v ++
            flagPends (laneFlags w eff (fun l => (y l).2)) due).foldl pendInsert w.g.pend }
        (if r.2.2.1 then f.rm else 0) eff 1))

/-- R163: `vfmin` and `vfmax` by the values of their operands.
R164: the bits of the floating compares in the order of the numbers, and who raises invalid. -/
def Obligations.FloatMinMaxAndCompare : Prop :=
  (∀ (ty x y : Nat), ty = 8 ∨ ty = 9 ∨ ty = 10 → x < 2 ^ tyWidth ty → y < 2 ^ tyWidth ty →
     let a := fDecode ty x
     let b := fDecode ty y
     (fIsSNaN a = true ∨ fIsSNaN b = true → fMinMax false ty x y = (fNaN ty, flInvalid) ∧ fMinMax true ty x y = (fNaN ty, flInvalid)) ∧
     (fIsSNaN a = false → fIsSNaN b = false →
       (fIsNaN a = true → fIsNaN b = true → fMinMax false ty x y = (fNaN ty, 0) ∧ fMinMax true ty x y = (fNaN ty, 0)) ∧
       (fIsNaN a = true → fIsNaN b = false → fMinMax false ty x y = (y, 0) ∧ fMinMax true ty x y = (y, 0)) ∧
       (fIsNaN a = false → fIsNaN b = true → fMinMax false ty x y = (x, 0) ∧ fMinMax true ty x y = (x, 0)) ∧
       (below a b → fMinMax false ty x y = (x, 0) ∧ fMinMax true ty x y = (y, 0)) ∧
       (below b a → fMinMax false ty x y = (y, 0) ∧ fMinMax true ty x y = (x, 0)) ∧
       (alike a b → fNeg a = true → fNeg b = false →
         fMinMax false ty x y = (x, 0) ∧ fMinMax true ty x y = (y, 0)) ∧
       (alike a b → fNeg a = false → fNeg b = true →
         fMinMax false ty x y = (y, 0) ∧ fMinMax true ty x y = (x, 0)))) ∧
  (∀ (w : GW) (f : V3), w.Issues → ∀ r ∈ fcmpRows,
     MaskResult w (r.1 f) f.d (w.eff f.mask f.neg) (fun l => r.2.1 (w.fval f f.a l) (w.fval f f.b l))
       (fun fl => (fl = 0 ∨ fl = flInvalid) ∧
         (fl = flInvalid ↔ ∃ l, l < 32 ∧ (w.eff f.mask f.neg).getLsbD l = true ∧ w.helpers.getLsbD l = false ∧
           (r.2.2 (w.fval f f.a l) = true ∨ r.2.2 (w.fval f f.b l) = true))))

/-- R150, R165, R166, R167: conversions, packs, unpack and the block scale. A pack steps the feedback registers once for
each element, and its flags are those of all its elements and lanes.
R135, R136, R139 to R144, R151: what `cvt` computes by classes of types, each result rounded once; R138: the scale; R166: the
element that `vunpk` widens, exactly. -/
def Obligations.ConversionsAndPacks : Prop :=
  (∀ c, c < 256 → val (fDecode 14 c) = ts8 c ∧
    (c < 255 → val (fDecode 15 c) = (2 : ℝ) ^ ((c : ℤ) - 127)) ∧ (c = 255 → fDecode 15 c = .nan false)) ∧
  (∀ (src dst rm u : Nat) (sat : Bool) (raw : BitVec 64), src < 16 → rm ≤ 5 → u < 2 ^ 24 →
    let r := cvt src dst rm sat u raw
    let t : BitVec 5 := BitVec.ofNat 5 dst
    let y := readInt src raw
    let x := fDecode src (raw.toNat % 2 ^ 32)
    let bits (b : Nat) : BitVec 64 := BitVec.ofNat 64 b
    let inside (z : Int) : Int := max (minOf dst) (min (maxOf dst) z)
    -- integer to integer, integer to floating point
    (src < 8 → dst < 8 → Narrowed t sat y r.1 ∧
      r.2 = if sat = true ∧ (y < minOf dst ∨ maxOf dst < y) then flIntSat else 0) ∧
    (src < 8 → 8 ≤ dst → dst ≤ 10 → ∃ b, OnceRounded dst rm sat u false (y : ℝ) (b, r.2) ∧ r.1 = bits b) ∧
    -- floating point to integer
    (8 ≤ src → dst < 8 →
      (fIsNaN x = true → r = (0, flInvalid)) ∧
      (∀ n, x = .inf n → r = (holdsInt t (if n then minOf dst else maxOf dst), flInvalid)) ∧
      (∀ n m e, x = .fin n m e → ∃ k : Nat, RoundedInt rm u n |val x| k ∧
        let z : Int := if n then -(k : Int) else k
        r.1 = holdsInt t (inside z) ∧ (inside z ≠ z → r.2 = flInvalid) ∧
        (inside z = z → (val x = (z : ℝ) → r.2 = 0) ∧ (val x ≠ (z : ℝ) → r.2 = flInexact)))) ∧
    -- floating point to a format of R132
    (8 ≤ src → 8 ≤ dst → dst ≤ 13 →
      (fIsNaN x = true → r = if dst = 13 then (0, flInvalid) else (bits (fNaN dst), if fIsSNaN x then flInvalid else 0)) ∧
      (∀ n, x = .inf n →
        (dst ≠ 11 → dst ≠ 13 → sat = false → r = (bits (withSign dst n (fMaxBits dst + 1)), 0)) ∧
        (dst = 11 ∨ dst = 13 ∨ sat = true → r = (bits (beyond dst rm sat n),
          if beyond dst rm sat n = withSign dst n (fMaxBits dst) then flInexact else flInvalid))) ∧
      (∀ n m e, x = .fin n m e → ∃ b, OnceRounded dst rm sat u n (val x) (b, r.2) ∧ r.1 = bits b)) ∧
    -- floating point to TS8
    (8 ≤ src → dst = 14 →
      (fIsNaN x = true → r = (0, flInvalid)) ∧
      (∀ n, x = .inf n → ∃ c, Canonical c ∧ ts8 c = signed n 2 ∧ r = (bits c, flInexact)) ∧
      (∀ n m e, x = .fin n m e → ∃ c, Ts8Rounded rm u n |val x| (c, r.2) ∧ r.1 = bits c))) ∧
  (∀ xs : List FVal,
    let r := mxScale xs;
    (r.2 = if ∃ x ∈ xs, fIsSNaN x = true then flInvalid else 0) ∧
    ((∃ x ∈ xs, ¬finite x) → r.1 = 255) ∧
    ((∀ x ∈ xs, finite x) →
      ((∀ x ∈ xs, val x = 0) → r.1 = 127) ∧
      ∀ x ∈ xs, val x ≠ 0 → (∀ y ∈ xs, |val y| ≤ |val x|) →
        r.1 = (max 0 (min 254 (Int.log 2 |val x| - 2 + 127))).toNat)) ∧
  (∀ (ty c : Nat) (raw : BitVec 64), ty ∈ [0, 4, 8, 9, 11, 12, 13, 14, 15] →
    let x := raw.toNat / 2 ^ (tyWidth ty * c) % 2 ^ tyWidth ty
    let a := fDecode ty x
    let r := unpackElem ty c raw;
    (ty = 0 → r = (((BitVec.ofNat 8 x).signExtend 32).setWidth 64, 0)) ∧ (ty = 4 → r = (BitVec.ofNat 64 x, 0)) ∧
    (8 ≤ ty →
      (fIsNaN a = true → r = (0x7FC00000, if fIsSNaN a then flInvalid else 0)) ∧
      (∀ n, a = .inf n → r = (BitVec.ofNat 64 (withSign 10 n (fMaxBits 10 + 1)), 0)) ∧
      (finite a → ∃ b, r = (BitVec.ofNat 64 b, 0) ∧ b < 2 ^ 32 ∧ finite (fDecode 10 b) ∧ val (fDecode 10 b) = val a ∧
        fNeg (fDecode 10 b) = fNeg a))) ∧
  ∀ (w : GW) (f : V3), w.Issues →
    let eff := w.eff f.mask f.neg
    let due := w.g.clk + 4
    let sat := f.sat == 1
    let after (v : Nat → BitVec 64) (wide : Bool) (fl : Flags) : Group :=
      { w.g with pend := (lanePends f.d wide eff due v ++ flagPends fl due).foldl pendInsert w.g.pend }
    (∀ src : BitVec 4,
      let a (l : Nat) : BitVec 64 := if src = 3 ∨ src = 7 then w.g.readPair w.n f.a.toNat l else w.opd1 f.a l
      let y (l : Nat) := cvt src.toNat f.ty.toNat f.rm.toNat sat (w.g.u l 0) (a l)
      ∃ v : Nat → BitVec 64, (∀ l, l < 32 → eff.getLsbD l = true → v l = (y l).1) ∧
        exec (.vcvt src f) w.s = .next (w.put ((after v (is64 f.ty) (laneFlags w eff (fun l => (y l).2))).stepFb f.rm eff 1))) ∧
    (∀ p ∈ [(Instr.vpack2 f, 2, 16, 10, fun (l i : Nat) => w.opd1 (if i = 0 then f.a else f.b) l),
        (.vpack4 f, 4, 8, if f.ty = 0 then 2 else if f.ty = 4 then 6 else 10, packSrc w f),
        (.vpack8 f, 8, 4, 10, packSrc w f)],
      let e (l i : Nat) := cvt p.2.2.2.1 f.ty.toNat f.rm.toNat sat (w.g.u l i) (p.2.2.2.2 l i)
      ∃ (v : Nat → BitVec 64) (fl : Flags),
        (∀ l, l < 32 → eff.getLsbD l = true →
          v l = BitVec.ofNat 64 (((List.range p.2.1).map (fun i =>
            (e l i).1.toNat % 2 ^ p.2.2.1 * 2 ^ (p.2.2.1 * i))).sum)) ∧
        (∀ b, fl.getLsbD b = true ↔ ∃ l i, l < 32 ∧ i < p.2.1 ∧ eff.getLsbD l = true ∧ w.helpers.getLsbD l = false ∧
          (e l i).2.getLsbD b = true) ∧
        exec p.1 w.s = .next (w.put ((after v false fl).stepFb f.rm eff p.2.1))) ∧
    (∃ v : Nat → BitVec 64,
      (∀ l, l < 32 → eff.getLsbD l = true → v l = (unpackElem f.ty.toNat f.c.toNat (w.opd1 f.a l)).1) ∧
      exec (.vunpk f) w.s = .next (w.put (after v false
        (laneFlags w eff (fun l => (unpackElem f.ty.toNat f.c.toNat (w.opd1 f.a l)).2))))) ∧
    (let m := mxScale ((lanesOf (eff &&& ~~~w.helpers)).map (fun l => fDecode 10 (w.opd1 f.a l).toNat))
     exec (.vmxscale f) w.s = .next (w.gives (lanePends f.d false eff (w.g.clk + 8) (fun _ => BitVec.ofNat 64 m.1) ++
       flagPends m.2 (w.g.clk + 8))))

/-- R160: the immediate forms act on 32 bits and raise no flag; a shift immediate of 32 or more is rejected.
R169: f32 immediates, rounded to nearest; `vfmovi` takes no a. -/
def Obligations.ImmediateForms : Prop :=
  (∀ (w : GW) (f : VI), w.Issues →
     (∀ r ∈ immRows, (f.imm.toNat < 32 ∨ r.2.1 = 4 ∨ r.1 f ∉ [Instr.vshli f, .vshri f, .vsrai f]) →
       LaneResult w (r.1 f) f.d false (w.eff f.mask 0) r.2.1
         (fun l v => v = (r.2.2 (w.g.readV w.n f.a.toNat l) f.imm).setWidth 64) (fun fl => fl = 0)) ∧
     (∀ r ∈ cmpImmRows, MaskResult w (r.1 f) f.d (w.eff f.mask 0)
       (fun l => r.2 (w.g.readV w.n f.a.toNat l) f.imm = true) (fun fl => fl = 0))) ∧
  (∀ (w : GW) (f : VI), w.Issues → ∀ r ∈ floatImmRows,
     let y (l : Nat) := r.2.2 (w.opd1 f.a l).toNat f.imm.toNat
     LaneResult w (r.1 f) f.d false (w.eff f.mask 0) r.2.1 (fun l v => v = BitVec.ofNat 64 (y l).1)
       (fun fl => fl = laneFlags w (w.eff f.mask 0) (fun l => (y l).2))) ∧
  (∀ f : VI, (32 ≤ f.imm.toNat → ∀ i ∈ [Instr.vshli f, .vshri f, .vsrai f], i.check = some .reservedField) ∧
     (f.a ≠ 0 → (Instr.vmovi f).check = some .reservedField ∧ (Instr.vfmovi f).check = some .reservedField))

/-- R170, and R388 for the visible lanes of a launch with PROTECT: the source lane's register, whatever that lane's mask
state. -/
def Obligations.LaneMovement : Prop :=
  ∀ (w : GW) (f : V3), w.Issues →
    let eff := w.eff f.mask f.neg
    let b (l : Nat) := (w.opd1 f.b l).toNat
    (w.protect = false →
      (∀ r ∈ moveRows, LaneResult w (r.1 f) f.d false eff 4 (fun l v => v = w.opd1 f.a (r.2 f 32 l)) (fun fl => fl = 0)) ∧
      LaneResult w (.vshfl f) f.d false eff 4 (fun l v => v = w.opd1 f.a (b l % 32)) (fun fl => fl = 0)) ∧
    (w.protect = true →
      (∀ r ∈ moveRows,
        LaneResult w (r.1 f) f.d false eff 4 (fun l v => v = w.opd1 f.a (2 * r.2 f 16 (l / 2) + l % 2)) (fun fl => fl = 0)) ∧
      LaneResult w (.vshfl f) f.d false eff 4 (fun l v => v = w.opd1 f.a (2 * (b l % 16) + l % 2)) (fun fl => fl = 0)) ∧
    LaneResult w (.vsel f) f.d (is64 f.ty) eff 2
      (fun l v => v = if (w.mreg f.c).getLsbD l then w.opd f.ty f.a l else w.opd f.ty f.b l) (fun fl => fl = 0)

/-! ## Masks, group registers, predicates, transfers -/

/-- R171, with the comparison of pairs and the sixteen visible bits of a launch with PROTECT (R388). That `mtog`, `mpopc`
and `mffs` read the bits of helper lanes as any other is the model's choice (R154 against R171: DESIGN CHOICE, log entry
81).
R172 and R173: the group-wide arithmetic on 64 bits, under its predicate; it raises no flag.
R174: compares to predicates and predicate logic; `gpany` and `gpall` leave helper lanes out. -/
def Obligations.MasksGroupArithmeticAndPredicates : Prop :=
  (∀ (w : GW) (f : V3), w.Issues →
    let p := w.predV3 f
    let g (x : BitVec 64) : State := w.gives [⟨.g f.d.toNat, 0, [x], w.g.clk + 2⟩]
    (∀ r ∈ maskRows,
      (p = false → exec (r.1 f) w.s = .next w.s) ∧
      (p = true → Compared w (r.1 f) (~~~0) (fun l m => (r.2 w f).getLsbD l = (r.2 w f).getLsbD m)
        (exec (r.1 f) w.s = .next (w.gives [⟨.m f.d.toNat, ~~~0, [(r.2 w f).setWidth 64], w.g.clk + 2⟩])))) ∧
    (p = true →
      MaskResult w (.mfromv f) f.d w.iss.act (fun l => w.opd1 f.a l ≠ 0) (fun fl => fl = 0) ∧
      LaneResult w (.mtov f) f.d false w.iss.act 2 (fun l v => v = if (w.mreg f.a).getLsbD l then 1 else 0)
        (fun fl => fl = 0)) ∧
    (p = false → exec (.mfromv f) w.s = .next w.s ∧ exec (.mtov f) w.s = .next w.s) ∧
    (∃ x : BitVec 32, Visible w (w.mreg f.a) x ∧
      Predicated w (.mtog f) p (g (x.setWidth 64)) ∧
      Predicated w (.mpopc f) p (g (BitVec.ofNat 64 ((List.range 32).filter (fun i => x.getLsbD i)).length)) ∧
      ∃ n, n ≤ 32 ∧ (n < 32 → x.getLsbD n = true) ∧ (∀ i, i < n → x.getLsbD i = false) ∧
        Predicated w (.mffs f) p (g (BitVec.ofNat 64 n)))) ∧
  (∀ (w : GW), w.Issues →
     (∀ f : V3, (∀ r ∈ gRows, Predicated w (r.1 f) (w.predV3 f)
         (w.gives [⟨.g f.d.toNat, 0, [r.2.2 (w.opdG f.a) (w.opdG f.b)], w.g.clk + r.2.1⟩])) ∧
       Predicated w (.gsel f) (w.predV3 f && (w.opdG f.b).getLsbD 0)
         (w.gives [⟨.g f.d.toNat, 0, [w.opdG f.a], w.g.clk + 2⟩])) ∧
     (∀ f : VI, ∀ r ∈ gImmRows, (f.imm.toNat < 64 ∨ r.1 f ∉ [Instr.gshli f, .gshri f, .gsrai f]) →
       Predicated w (r.1 f) (w.predBits f.mask)
         (w.gives [⟨.g f.d.toNat, 0, [r.2.2 (w.opdG f.a) (w.opdG f.d) f.imm], w.g.clk + r.2.1⟩]))) ∧
  (∀ (w : GW) (f : V3), w.Issues → ∀ r ∈ predRows, ∃ b : Bool, (b = true ↔ r.2 w f) ∧
     Predicated w (r.1 f) (w.predV3 f)
       (w.gives [⟨.gp f.d.toNat, 0, [if b then 1 else 0], w.g.clk + 2⟩]))

namespace Sys2Proof.Claims
/-- The codes of 1 and of 1/2. -/
def oneCode (ty : Nat) : Nat := (fBias ty).toNat * 2 ^ fM ty
def halfCode (ty : Nat) : Nat := ((fBias ty).toNat - 1) * 2 ^ fM ty

/-- R168's table: function number, then result and flags for a zero and for an infinity, each of sign `n`. -/
def specialInputs (ty : Nat) (n : Bool) : List (Nat × (Nat × Flags) × (Nat × Flags)) :=
  let inf (n : Bool) : Nat := withSign ty n (fMaxBits ty + 1)
  let bad : Nat × Flags := (fNaN ty, flInvalid)
  [(0, (inf n, flDivZero), (withSign ty n 0, 0)), (1, (inf n, flDivZero), if n then bad else (0, 0)),
    (3, (oneCode ty, 0), (if n then 0 else inf false, 0)), (4, (inf true, flDivZero), if n then bad else (inf false, 0)),
    (5, (withSign ty n 0, 0), bad), (6, (oneCode ty, 0), bad),
    (7, (withSign ty n 0, 0), (withSign ty n (oneCode ty), 0)), (8, (halfCode ty, 0), (if n then 0 else oneCode ty, 0))]

/-- The functions of R168. -/
noncomputable def exactFn (fn : Nat) (x : ℝ) : ℝ :=
  match fn with
  | 0 => 1 / x
  | 1 => 1 / Real.sqrt x
  | 3 => (2 : ℝ) ^ x
  | 4 => Real.logb 2 x
  | 5 => Real.sin (2 * Real.pi * x)
  | 6 => Real.cos (2 * Real.pi * x)
  | 7 => Real.tanh x
  | _ => 1 / (1 + Real.exp (-x))

/-- `r` has the sign of `y` and lies within `n` steps of the type's codes of its magnitude, an infinity standing for what is
beyond them; the magnitude is known to a relative 2^-64. -/
def WithinUlps (ty n : Nat) (y : ℝ) (r : Nat) : Prop :=
  ∃ (z : ℝ) (m k : Nat), abs (z - |y|) ≤ |y| * (2 : ℝ) ^ (-64 : ℤ) ∧ mag ty m ≤ z ∧ z < mag ty (m + 1) ∧ k ≤ m + n ∧
    (z = mag ty m → m ≤ k + n) ∧ (z ≠ mag ty m → m + 1 ≤ k + n) ∧
    ∃ neg : Bool, (neg = true ↔ y < 0) ∧ r = withSign ty neg (min k (fMaxBits ty + 1))
end Sys2Proof.Claims

/-- R168: the special inputs of the bounded functions and their flags, the exact values at quarter turns, the signs of their
zeros, and the error bounds, which a value below 1 or above 0 keeps off their far ends; every other input raises no flag. R164: the ten classes.
The result inside a bound is a free function of the input (log entry 12). That a bound of ulps counts codes is the model's
choice (log entry 115), and so is that its bounds hold up to the fineness of the model's fixed point: a relative 2^-64 of the
exact value, or an absolute 2^-100. -/
def Obligations.SpecialFunctions : Prop :=
  (∀ ty raw : Nat, ty = 8 ∨ ty = 9 ∨ ty = 10 → raw < 2 ^ tyWidth ty →
    let a := fDecode ty raw
    ∃ i, fClass ty raw = 2 ^ i ∧ i < 10 ∧ (i = 8 ↔ fIsSNaN a = true) ∧ (i = 9 ↔ fIsNaN a = true ∧ fIsSNaN a = false) ∧
      (i = 0 ↔ a = .inf true) ∧ (i = 7 ↔ a = .inf false) ∧
      (finite a → let big := mag ty (2 ^ fM ty) ≤ |val a|
        (i = 1 ↔ val a < 0 ∧ big) ∧ (i = 2 ↔ val a < 0 ∧ ¬big) ∧ (i = 3 ↔ val a = 0 ∧ fNeg a = true) ∧
        (i = 4 ↔ val a = 0 ∧ fNeg a = false) ∧ (i = 5 ↔ 0 < val a ∧ ¬big) ∧ (i = 6 ↔ 0 < val a ∧ big))) ∧
  (∀ ty raw fn : Nat, ty = 8 ∨ ty = 9 ∨ ty = 10 → raw < 2 ^ tyWidth ty → fn ∈ [0, 1, 3, 4, 5, 6, 7, 8] →
    let a := fDecode ty raw
    let x := val a
    let r := fSpecial fn ty raw
    (fIsNaN a = true → r = (fNaN ty, if fIsSNaN a then flInvalid else 0)) ∧
    (∀ row ∈ specialInputs ty (fNeg a), row.1 = fn →
      (finite a → x = 0 → r = row.2.1) ∧ (fIsNaN a = false → ¬finite a → r = row.2.2)) ∧
    (finite a → x < 0 → fn = 1 ∨ fn = 4 → r = (fNaN ty, flInvalid)) ∧
    (finite a → x ≠ 0 → (0 < x ∨ (fn ≠ 1 ∧ fn ≠ 4)) →
      r.2 = 0 ∧
      (∀ q : ℤ, 4 * x = q →
        (fn = 5 → r.1 = if q % 4 = 1 then oneCode ty else if q % 4 = 3 then withSign ty true (oneCode ty)
          else withSign ty (fNeg a) 0) ∧
        (fn = 6 → r.1 = if q % 4 = 0 then oneCode ty else if q % 4 = 2 then withSign ty true (oneCode ty) else 0)) ∧
      ((fn = 5 ∨ fn = 6 → ∀ q : ℤ, 4 * x ≠ q) →
        let near := fn = 4 ∧ 1 / 2 ≤ x ∧ x ≤ 2
        (∀ b : ℤ, ty = 10 → (near ∧ b = 22) ∨ (fn, b) ∈ [(5, (22 : ℤ)), (6, 22), (7, 21), (8, 22)] →
          finite (fDecode ty r.1) ∧
            |val (fDecode ty r.1) - exactFn fn x| ≤ (2 : ℝ) ^ (-b) + (2 : ℝ) ^ (-100 : ℤ) ∧
            (fn ≠ 4 → |val (fDecode ty r.1)| < 1 + (2 : ℝ) ^ (-b)) ∧ (fn = 8 → -(2 : ℝ) ^ (-b) < val (fDecode ty r.1))) ∧
        (fn = 5 ∨ fn = 6 → val (fDecode ty r.1) = 0 → fNeg (fDecode ty r.1) = (fn == 5 && fNeg a)) ∧
        (ty ≠ 10 ∨ fn ≤ 3 ∨ (fn = 4 ∧ ¬near) →
          WithinUlps ty (if ty = 10 ∧ fn ≠ 0 then 2 else 1) (exactFn fn x) r.1))))

/-- R176: between one lane and a `g` register. That `vtog` names a visible lane under PROTECT (DEDUCED, log entry 55) and
reads a helper lane as any other (DESIGN CHOICE, log entry 81) is the model's.
R177 and R178: reductions and the scan over the lanes of the effective mask that are no helpers; the sum is exact and
rounded once. Under PROTECT a visible lane counts once, and what is read is compared (R388). The flag of `vfredadd` for a
quiet NaN beside both infinities is the model's choice (DESIGN CHOICE, log entry 80). -/
def Obligations.TransfersAndReductions : Prop :=
  (∀ (w : GW) (f : V3), w.Issues →
     (let c := f.c.toNat
      let t (l : Nat) : State := w.gives [⟨.g f.d.toNat, 0, [w.opd1 f.a l], w.g.clk + 2⟩]
      (w.protect = false → exec (.vtog f) w.s = .next (t c)) ∧
      (w.protect = true → c < 16 →
        (w.opd1 f.a (2 * c) = w.opd1 f.a (2 * c + 1) → exec (.vtog f) w.s = .next (t (2 * c))) ∧
        (w.opd1 f.a (2 * c) ≠ w.opd1 f.a (2 * c + 1) → ShadowTrap w (.vtog f) (fun i => i = c)))) ∧
     (f.c = 0 → LaneResult w (.gtov f) f.d false (w.eff f.mask f.neg) 2
       (fun _ v => v = ((w.opdG f.a).extractLsb' 0 32).setWidth 64) (fun fl => fl = 0)) ∧
     (f.c = 1 → LaneResult w (.gtov f) f.d false (w.eff f.mask f.neg) 2
       (fun _ v => v = ((w.opdG f.a).extractLsb' 32 32).setWidth 64) (fun fl => fl = 0))) ∧
  (∀ (w : GW) (f : V3), w.Issues →
     let S := (List.range 32).filter (fun l =>
       (w.eff f.mask f.neg).getLsbD l && !w.helpers.getLsbD l && !(w.protect && l % 2 == 1))
     let live := w.eff f.mask f.neg &&& ~~~w.helpers
     let same (l m : Nat) : Prop := w.opd f.ty f.a l = w.opd f.ty f.a m
     let due := w.g.clk + 6
     let flag (x : Int) : Flags :=
       if f.sat = 1 ∧ (x < minOf f.ty.toNat ∨ maxOf f.ty.toNat < x) then flIntSat else 0
     let g (y : Int) (fl : Flags) : State := w.gives (⟨.g f.d.toNat, 0, [BitVec.ofInt 64 y], due⟩ :: flagPends fl due)
     (IntType f →
       (∀ r ∈ redRows, Compared w (r.1 f) live same
         (∃ y : Int, Narrowed f.ty (f.sat == 1) (r.2 f (S.map (w.int f f.a))) (holdsInt f.ty y) ∧
           minOf f.ty.toNat ≤ y ∧ y ≤ maxOf f.ty.toNat ∧
           exec (r.1 f) w.s = .next (g y (flag (r.2 f (S.map (w.int f f.a))))))) ∧
       (f.sat = 0 → ∀ r ∈ redBitRows, Compared w (r.1 f) live same
         (∃ y : Int, minOf f.ty.toNat ≤ y ∧ y ≤ maxOf f.ty.toNat ∧
           (∀ i, i < wOf f → (readNat f.ty.toNat (holdsInt f.ty y)).testBit i =
             r.2 (S.map (fun l => (w.nat f f.a l).testBit i))) ∧
           exec (r.1 f) w.s = .next (g y 0))) ∧
       (let x (l : Nat) : Int := ((S.filter (fun i => decide (i ≤ l))).map (w.int f f.a)).sum
        LaneResult w (.vscanadd f) f.d (is64 f.ty) (w.eff f.mask f.neg) 6
          (fun l v => Narrowed f.ty (f.sat == 1) (x l) v) (SatFlag w f.ty (f.sat == 1) (w.eff f.mask f.neg) x))) ∧
     (IntType f → f.sat = 1 → ∀ i ∈ [Instr.vredmin f, .vredmax f, .vredand f, .vredor f, .vredxor f],
       i.check = some .reservedField) ∧
     ((∀ l ∈ S, finite (w.fval f f.a l)) → f.ty = 8 ∨ f.ty = 9 ∨ f.ty = 10 → f.rm.toNat ≤ 4 → S ≠ [] →
      OnceRounded f.ty.toNat f.rm.toNat false 0
        (decide (∀ l ∈ S, fNeg (w.fval f f.a l) = true) || (f.rm == 2 && decide (∃ l ∈ S, fNeg (w.fval f f.a l) = true)))
        (S.map (fun l => val (w.fval f f.a l))).sum
        (fOut f.ty.toNat f.rm.toNat 0 (fSum (f.rm == 2) (S.map (w.fval f f.a))).1)) ∧
     (f.ty = 8 ∨ f.ty = 9 ∨ f.ty = 10 →
      (¬PairsSame w live same → ∀ i ∈ [Instr.vfredadd f, .vfredmin f, .vfredmax f], ShadowTrap w i (PairDiffers w live same)) ∧
      (PairsSame w live same →
      let fl (x : Nat × Flags) : State :=
        w.gives (⟨.g f.d.toNat, 0, [BitVec.ofNat 64 x.1], w.g.clk + 8⟩ :: flagPends x.2 (w.g.clk + 8))
      let sn := S.any (fun l => fIsSNaN (w.fval f f.a l))
      (S = [] → exec (.vfredadd f) w.s = .next (fl (0, 0)) ∧ exec (.vfredmin f) w.s = .next (fl (fNaN f.ty.toNat, 0)) ∧
        exec (.vfredmax f) w.s = .next (fl (fNaN f.ty.toNat, 0))) ∧
      (S ≠ [] →
        (let x := fSum (f.rm == 2) (S.map (w.fval f f.a))
         let r := fOut f.ty.toNat f.rm.toNat 0 x.1
         exec (.vfredadd f) w.s = .next (fl (r.1, x.2 ||| r.2))) ∧
        (sn = true → exec (.vfredmin f) w.s = .next (fl (fNaN f.ty.toNat, flInvalid)) ∧
          exec (.vfredmax f) w.s = .next (fl (fNaN f.ty.toNat, flInvalid))) ∧
        (sn = false → ∃ a b : Nat,
          exec (.vfredmin f) w.s = .next (fl (a, 0)) ∧ exec (.vfredmax f) w.s = .next (fl (b, 0)) ∧
          ((∀ l ∈ S, fIsNaN (w.fval f f.a l) = true) → a = fNaN f.ty.toNat ∧ b = fNaN f.ty.toNat) ∧
          ((∃ l ∈ S, fIsNaN (w.fval f f.a l) = false) →
            (∃ l ∈ S, a = w.fbits f f.a l) ∧ (∃ l ∈ S, b = w.fbits f f.a l) ∧
            ∀ l ∈ S, ¬ below (w.fval f f.a l) (fDecode f.ty.toNat a) ∧
              ¬ below (fDecode f.ty.toNat b) (w.fval f f.a l)))))))

/-! ## Loads and stores -/
namespace Sys2Proof.Claims
/-- Visible lanes, whose checks count: helper lanes are left out (R104). -/
def visible (w : GW) (rs : List LaneChk) : List LaneChk := rs.filter (fun r => !w.helpers.getLsbD r.1)
/-- Every visible lane passes its checks. -/
def AllOk (w : GW) (rs : List LaneChk) : Prop := ∀ r ∈ visible w rs, ∃ l a, r.2.2 = .ok l a
/-- The accesses of the lanes that pass, in ascending lane order. -/
def places (w : GW) (rs : List LaneChk) : List (Nat × BitVec 64 × Loc × Attr) :=
  (visible w rs).filterMap (fun r => match r.2.2 with | .ok l a => some (r.1, r.2.1, l, a) | _ => none)
/-- An access as its checks formed it. -/
def Acc.placed (a : Acc) : Nat × BitVec 64 × Loc × Attr := (a.lane, a.addr, a.loc, a.attr)

/-- The checks of a lane memory word of space 0 (global), 1 (scratch) or 2 (vault): the group and state after them, and
each lane's address and verdict. -/
def laneRun (w : GW) (space : Nat) (f : M) (st : Bool) : GW × List LaneChk :=
  w.laneChecks space f.x.toNat f.lane.toNat (f.off.signExtend 64) (szBytes f.size.toNat) st
    (w.memLanes (w.eff f.mask 0) st)

/-- Instruction, space, and whether the value is sign-extended. -/
def loadRows : List ((M → Instr) × Nat × Bool) :=
  [(.vld, 0, false), (.vldx, 0, true), (.vsld, 1, false), (.vsldx, 1, true), (.vvld, 2, false), (.vvldx, 2, true)]
def storeRows : List ((M → Instr) × Nat) := [(.vst, 0), (.vsst, 1), (.vvst, 2)]
def groupLoadRows : List ((M → Instr) × Nat) := [(.gld, 0), (.gsld, 1), (.gvld, 2)]
def groupStoreRows : List ((M → Instr) × Nat) := [(.gst, 0), (.gsst, 1), (.gvst, 2)]

/-- No byte of `t` differs from `s`, but that A and D, bits 6 and 7 of a page-table entry, may have come to be set (R91);
that U copies of table lines come home first (R225) is left out by the hypothesis. -/
def SameBytes (s t : State) : Prop :=
  t.scr = s.scr ∧ t.vlt = s.vlt ∧ (s.Canonical → (∀ c ∈ s.cores, c.2.ulines = []) → ∀ key,
    ∃ b ∈ [(0 : Byte), 0x40, 0x80, 0xC0], Store.read t.mem key = Store.read s.mem key ||| b)

/-- The lanes of a store agree within each pair under PROTECT (R388). -/
def PairsAgree (w : GW) (space : Nat) (f : M) : Prop :=
  pairDiffs w.protect (w.eff f.mask 0 &&& ~~~w.helpers)
    (w.pairKey space f.lane (f.off.signExtend 64) (w.laneValue f.data f.size.toNat)) = []

end Sys2Proof.Claims

/-- R101 to R105: a lane load whose visible lanes pass their checks joins the operations in flight with one access for
each of them, and changes no register and no byte of memory yet, but that a DEV page is read as the load issues (R99). A byte
of it that a held store of the group covers is the latest such store's (R107), which is read from the spec by inference (log
entry 114).
R101 to R106: a lane store outside a transaction, whose visible lanes pass their checks and whose versions have room
(R367), joins the operations in flight with each lane's value; a store to a DEV page is held with the task (R99), and its
page counts among those the task wrote (R359). No byte of scratch, of a vault or of memory changes as either issues, but for the
bits A and D of page-table entries, which the checks of a global access set (R91): the state is that of the checks, and of the
device reads of a load, with the group in it. -/
def Obligations.LaneAccessesIssue : Prop :=
  (∀ (w : GW) (f : M), w.Issues → ∀ r ∈ loadRows,
     let c := laneRun w r.2.1 f false
     let d := (c.1.takeDev f.size.toNat (places w c.2)).1
     AllOk w c.2 →
     (r.2.1 ≠ 0 → d = w) ∧ SameBytes w.s d.s ∧
     ((∀ p ∈ places w c.2, p.2.2.2.dev = false) → d = c.1) ∧
     ∃ g : Group, exec (r.1 f) w.s = .next (d.s.setGroup w.key g) ∧ d.g.regs = c.1.g.regs ∧
       (places w c.2 = [] → g = c.1.g) ∧
       (places w c.2 ≠ [] → ∃ o : MemOp,
         g = { d.g with memq := g.memq, nextId := c.1.g.nextId + 1, tx := g.tx, issuing := g.issuing } ∧
         g.memq.map (fun p => { p with tx := none }) = (c.1.g.memq ++ [o]).map (fun p => { p with tx := none }) ∧
         o.id = c.1.g.nextId ∧ o.kind = .load r.2.2 ∧ o.dest = f.data.toNat ∧ o.size = f.size.toNat ∧ o.hint = f.hint ∧
         o.write = w.eff f.mask 0 &&& ~~~w.helpers ∧ o.tseq = c.1.g.tseq ∧ o.accs.map Acc.placed = places w c.2 ∧
         (∀ a ∈ o.accs, a.attr.dev = true → ∀ key, a.loc = .mem key → ∀ i b, i < szBytes f.size.toNat → i < 16 →
           c.1.g.heldByte (key + i) = some b → BitVec.ofNat 8 (a.val.toNat / 256 ^ i) = b) ∧
         (c.1.g.tx = none → g.tx = none ∧ o.tx = none ∧ g.memq = c.1.g.memq ++ [o] ∧ g.issuing = c.1.g.issuing))) ∧
  (∀ (w : GW) (f : M), w.Issues → ∀ r ∈ storeRows,
     let c := laneRun w r.2 f true
     let oks := places w c.2
     PairsAgree w r.2 f → AllOk w c.2 → c.1.g.tx = none → c.1.s.wheyFull w.key c.1.g (accLines oks) = false →
     let acc (o : Nat × BitVec 64 × Loc × Attr) : Acc :=
       ⟨o.1, o.2.2.1, o.2.1, o.2.2.2, w.laneValue f.data f.size.toNat o.1⟩
     let dev := (oks.filter (fun o => o.2.2.2.dev)).map (fun o => (acc o, szBytes f.size.toNat))
     let rest := (oks.filter (fun o => !o.2.2.2.dev)).map acc
     (r.2 ≠ 0 → c.1 = w) ∧ SameBytes w.s c.1.s ∧
     ∃ g : Group, exec (r.1 f) w.s = .next (c.1.s.setGroup w.key g) ∧
       g.regs = c.1.g.regs ∧ g.pend = c.1.g.pend ∧ g.ctl = c.1.g.ctl ∧
       (∀ k, k + 1 < c.1.g.tasks.length → g.tasks[k]? = c.1.g.tasks[k]?) ∧
       (∀ k, c.1.g.openTask = some k → g.openTask = some { k with
         devs := k.devs ++ dev
         pages := (oks.filter (fun o => o.2.2.2.dev)).foldl (fun ps o => Tbl.set ps (pageOf o.2.1) ()) k.pages }) ∧
       (rest = [] → g.memq = c.1.g.memq) ∧
       (rest ≠ [] → ∃ o : MemOp, g.memq = c.1.g.memq ++ [o] ∧ o.kind = .store ∧ o.size = f.size.toNat ∧ o.accs = rest ∧
         o.tx = none))

/-- R103: where a visible lane fails a check other than for a missing page, the whole word traps with the cause of the
lowest such lane, and none of its lanes performs. That none does on a scratch row either, of which R77 speaks otherwise, is the
model's choice (log entry 108). R388: a store whose pairs disagree under PROTECT traps.
R97, R103: where no visible lane traps and some meet a missing page, the lanes without faults perform, and the group parks with
the others as its unfinished lanes; each page waits for its entry in the fault queue or has one. -/
def Obligations.LaneAccessTraps : Prop :=
  (∀ (w : GW) (f : M), w.Issues →
    (∀ r ∈ storeRows, ¬ PairsAgree w r.2 f → w.g.trap = none →
      ∃ g', exec (r.1 f) w.s = .next (w.put g') ∧ Trapped w.g g' Cause.shadowMismatch) ∧
    ∀ r ∈ loadRows.map (fun r => (r.1, r.2.1, false)) ++ storeRows.map (fun r => (r.1, r.2, true)),
    let c := laneRun w r.2.1 f r.2.2
    c.1.g.trap = none →
    (r.2.2 = true → PairsAgree w r.2.1 f) →
    ∀ (bad : LaneChk) (cause kind : BitVec 8),
      (visible w c.2).find? (fun q => match q.2.2 with | .bad _ _ => true | _ => false) = some bad →
      bad.2.2 = .bad cause kind →
      ∃ g' : Group, exec (r.1 f) w.s = .next (c.1.s.setGroup w.key g') ∧ Trapped c.1.g g' cause) ∧
  (∀ (w : GW) (f : M), w.Issues →
    ∀ r ∈ loadRows.map (fun r => (r.1, r.2.1, false)) ++ storeRows.map (fun r => (r.1, r.2, true)),
    let c := laneRun w r.2.1 f r.2.2
    let oks := places w c.2
    (r.2.2 = true → PairsAgree w r.2.1 f ∧ c.1.s.wheyFull w.key c.1.g (accLines oks) = false) → c.1.g.tx = none →
    (∀ q ∈ visible w c.2, ∀ cause kind, q.2.2 ≠ .bad cause kind) →
    (∃ q ∈ visible w c.2, ∃ page, q.2.2 = .demand page) →
    ∃ (t : State) (g : Group) (pk : Park), exec (r.1 f) w.s = .next t ∧ t.group w.key = some g ∧ g.park = some pk ∧
      g.trap = c.1.g.trap ∧ g.regs = c.1.g.regs ∧ g.pend = c.1.g.pend ∧ pk.word = w.at_ ∧
      (∀ q ∈ visible w c.2, ∀ page, q.2.2 = .demand page →
        Tbl.find pk.lanes q.1 = some ⟨q.2.1, some page, r.2.2⟩ ∧
        (Tbl.has (t.ctx w.ctx).posted page = true ∨ ∃ e ∈ (t.ctx w.ctx).waiting, e.1 = page)) ∧
      (c.1.g.park = none → ∀ l, Tbl.has pk.lanes l = true → ∃ q ∈ visible w c.2, q.1 = l ∧ ∃ page, q.2.2 = .demand page) ∧
      ((∀ o ∈ oks, r.2.2 = true → o.2.2.2.dev = false) → oks ≠ [] →
        ∃ o : MemOp, g.memq = c.1.g.memq ++ [o] ∧ o.accs.map Acc.placed = oks) ∧
      (oks = [] → g.memq = c.1.g.memq))

/-- R108: a group-wide load or store under a true predicate, whose address passes its checks, joins the operations in
flight with one access (a load from a DEV page is read as it issues, R99); under a false one nothing changes. -/
def Obligations.GroupLoadsAndStoresIssue : Prop :=
  ∀ (w : GW) (f : M), w.Issues →
    (∀ r ∈ groupLoadRows ++ groupStoreRows, w.predBits f.mask = false → exec (r.1 f) w.s = .next w.s) ∧
    (w.predBits f.mask = true →
      (∀ r ∈ groupLoadRows, ∀ (w' : GW) (a : BitVec 64) (l : Loc) (t : Attr),
        w.grpCheck r.2 (w.opdG f.lane + f.off.signExtend 64) (szBytes f.size.toNat) false = (w', [(0, a, .ok l t)]) →
        let d := (w'.takeDev f.size.toNat [(0, a, l, t)]).1
        (t.dev = false → d = w') ∧ d.g.regs = w'.g.regs ∧
        ∃ o : MemOp, exec (r.1 f) w.s =
            .next (d.s.setGroup w.key { d.g with memq := w'.g.memq ++ [o], nextId := w'.g.nextId + 1 }) ∧
          o.kind = .gload ∧ o.dest = f.data.toNat ∧ o.size = f.size.toNat ∧ o.accs.map Acc.placed = [(0, a, l, t)] ∧
          o.tx = none) ∧
      (∀ r ∈ groupStoreRows, ∀ (w' : GW) (a : BitVec 64) (l : Loc) (t : Attr),
        w.grpCheck r.2 (w.opdG f.lane + f.off.signExtend 64) (szBytes f.size.toNat) true = (w', [(0, a, .ok l t)]) →
        t.dev = false → w'.s.wheyFull w.key w'.g (accLines [(0, a, l, t)]) = false →
        ∃ (o : MemOp) (g : Group), exec (r.1 f) w.s = .next (w'.s.setGroup w.key g) ∧
          g.memq = w'.g.memq ++ [o] ∧ g.regs = w'.g.regs ∧ o.kind = .store ∧ o.size = f.size.toNat ∧
          o.accs = [⟨0, l, a, t, (w.opdG f.data).setWidth 128⟩]))

namespace Sys2Proof.Claims
/-- What a load of a size code puts into its registers (R105): bytes and halves extended, wider values as they are. -/
def loaded (sext : Bool) (size v : Nat) : Nat :=
  if size ≤ 1 then
    (if sext ∧ 2 ^ (8 * 2 ^ size - 1) ≤ v then v + 2 ^ 32 - 2 ^ (8 * 2 ^ size) else v)
  else v
/-- Registers that a size code fills. -/
def regsOf (size : Nat) : Nat := if size = 3 then 2 else if size = 4 then 4 else 1
end Sys2Proof.Claims

namespace Sys2Proof.Claims
/-- What a returned load leaves in the registers of a group: `v` in the registers of the lanes it fills, and every other
register as it was (R105). -/
def Filled (g g' : Group) (o : MemOp) (sext : Bool) (v : Nat) (lanes : Nat → Prop) : Prop :=
  (∀ l, l < 32 → lanes l → o.write.getLsbD l = true → ∀ i, i < regsOf o.size →
    (Store.read g'.regs.v (32 * (o.dest + i) + l)).toNat = loaded sext o.size v / 2 ^ (32 * i) % 2 ^ 32) ∧
  (∀ q l, l < 32 → ¬(lanes l ∧ o.write.getLsbD l = true ∧ o.dest ≤ q ∧ q < o.dest + regsOf o.size) →
    Store.read g'.regs.v (32 * q + l) = Store.read g.regs.v (32 * q + l)) ∧
  g'.regs.g = g.regs.g ∧ g'.regs.m = g.regs.m ∧ g'.regs.gp = g.regs.gp ∧ g'.regs.fpflags = g.regs.fpflags
/-- The lanes that a returned access fills: its own, and under PROTECT the other of its pair (R388). -/
def fills (s : State) (k : GKey) (b : Acc) (l : Nat) : Prop := l = b.lane ∨ (s.protect k = true ∧ l = b.lane + 1)
end Sys2Proof.Claims

/-- R105, R107: an access of a load that nothing earlier holds back performs, with the accesses to the same bytes beside
it (R106), and the registers of their lanes take the value, over any older result whose cycle has passed (R35); every other lane
register keeps its own. From scratch and
vault the bytes are read as they stand there. From global memory, where the access is not held for a miss-status entry
(R85), they are the data of `State.loadAcc`. Under PROTECT both lanes of the pair receive them (R388).
R107, R86: an access of a store performs. To scratch or vault its bytes stand there, lowest first, and no other byte
changes; to global memory they stand in the version of its task, and no byte of memory changes.
R108, R110, R128, R235, R237: what the other returns leave: a group-wide load the value it reads in its `g` register, and so
`bctest` the word of the barrier; `xget`, `txend` of an inner level and `txstat` the value, mask or outcome words; `txstat` once
no transaction of an earlier task is open. -/
def Obligations.MemoryOperationsPerform : Prop :=
  (∀ (s : State) (k : GKey) (g : Group) (o : MemOp) (a : Acc) (sext : Bool),
     (s.ripen k).group k = some g → Store.wf g.regs.v = true → g.memq.find? (fun p => p.id == o.id) = some o → o.kind = .load sext →
     (o.accs.map Acc.lane).Nodup → o.accs.find? (fun b => b.lane == a.lane) = some a → a.lane < 32 →
     (∀ b ∈ o.peers a, g.blocked o b = false) → s.heldBack (s.coreOf k) o.issued = false →
     (∀ key, a.loc = .scr key ∨ a.loc = .vlt key → s.poisoned a.loc (szBytes o.size) = false →
       ∃ (t : State) (g' : Group), exec (.loadReturn k o.id (laneBit a.lane)) s = .next t ∧ t.group k = some g' ∧
         Filled g g' o sext (s.readLocNat a.loc (szBytes o.size)) (fun l => ∃ b ∈ o.peers a, fills s k b l) ∧
         t.mem = s.mem ∧ t.scr = s.scr ∧ t.vlt = s.vlt) ∧
     (∀ (key : Nat) (s1 : State), a.loc = .mem key → o.peers a = [a] → (s.ripen k).missEntry k o a = (s1, true) →
       (s1.loadAcc k g o a).2.2.2 = false → (s1.loadAcc k g o a).2.2.1 < 2 ^ (8 * szBytes o.size) →
       ∃ (t : State) (g' : Group), exec (.loadReturn k o.id (laneBit a.lane)) s = .next t ∧ t.group k = some g' ∧
         Filled g g' o sext (s1.loadAcc k g o a).2.2.1 (fills s k a))) ∧
  (∀ (s : State) (k : GKey) (g : Group) (o : MemOp) (a : Acc),
     s.Canonical → s.group k = some g → g.memq.find? (fun p => p.id == o.id) = some o → o.kind = .store → o.tx = none →
     o.accs.find? (fun b => b.lane == a.lane) = some a → a.lane < 32 → g.blocked o a = false →
     s.heldBack (s.coreOf k) o.issued = false →
     let n := szBytes o.size
     let byte (i : Nat) : Byte := BitVec.ofNat 8 (a.val.toNat / 256 ^ i)
     ∃ (t : State) (g' : Group), exec (.storePerform k o.id (laneBit a.lane)) s = .next t ∧ t.group k = some g' ∧
       g'.regs = g.regs ∧ t.mem = s.mem ∧
       (∀ key, a.loc = .scr key → t.vlt = s.vlt ∧ (∀ i, i < n → Store.read t.scr (key + i) = byte i) ∧
         ∀ j, (j < key ∨ key + n ≤ j) → Store.read t.scr j = Store.read s.scr j) ∧
       (∀ key, a.loc = .vlt key → t.scr = s.scr ∧ (∀ i, i < n → Store.read t.vlt (key + i) = byte i) ∧
         ∀ j, (j < key ∨ key + n ≤ j) → Store.read t.vlt j = Store.read s.vlt j) ∧
       (∀ key, a.loc = .mem key → t.scr = s.scr ∧ t.vlt = s.vlt ∧
         ∀ b b', b ∈ g.tasks → g'.tasks[g.tasks.idxOf b]? = some b' → b.tseq = o.tseq →
           (∀ i, i < n → Tbl.find b'.ver (key + i) = some (byte i)) ∧
           ∀ j, (j < key ∨ key + n ≤ j) → Tbl.find b'.ver j = Tbl.find b.ver j)) ∧
  (∀ (s : State) (k : GKey) (g : Group) (o : MemOp) (m : Mask),
     let u := s.ripen k
     u.group k = some g → Store.wf g.regs.g = true → Store.wf g.regs.m = true → Store.wf g.regs.v = true →
     g.memq.find? (fun p => p.id == o.id) = some o →
     let rest := g.memq.filter (fun p => p.id != o.id)
     let inG (g' : Group) (v : BitVec 64) : Prop := { g'.regs with g := g.regs.g } = g.regs ∧
       ∀ q, Store.read g'.regs.g q = if q = o.dest ∧ q ≠ 0 then v else Store.read g.regs.g q
     (∀ v, o.kind = .word v → ∃ g', exec (.loadReturn k o.id m) s = .next (u.setGroup k g') ∧ g'.memq = rest ∧ inG g' v) ∧
     (∀ v, o.kind = .maskVal v → ∃ g', exec (.loadReturn k o.id m) s = .next (u.setGroup k g') ∧ g'.memq = rest ∧
       { g'.regs with m := g.regs.m } = g.regs ∧
       ∀ q, Store.read g'.regs.m q = if q = o.dest ∧ q ≠ 0 then v else Store.read g.regs.m q) ∧
     (o.kind = .txstat →
       let before := g.tasks.takeWhile (fun t => t.tseq != o.tseq)
       ((∃ x ∈ before, x.txend.isSome = true) → exec (.loadReturn k o.id m) s = .next u) ∧
       ((∀ x ∈ before, x.txend = none) → ∃ g', exec (.loadReturn k o.id m) s = .next (u.setGroup k g') ∧ g'.memq = rest ∧
         { g'.regs with v := g.regs.v } = g.regs ∧
         (∀ l, l < 32 → Store.read g'.regs.v (32 * o.dest + l) =
           if o.write.getLsbD l then (Store.read g.txStat l).setWidth 32 else Store.read g.regs.v (32 * o.dest + l)) ∧
         ∀ key, key / 32 ≠ o.dest → Store.read g'.regs.v key = Store.read g.regs.v key)) ∧
     (∀ a : Acc, o.accs = [a] → a.lane < 32 → g.blocked o a = false → s.heldBack (s.coreOf k) o.issued = false →
       (o.kind = .gword → ∃ g', exec (.loadReturn k o.id (laneBit a.lane)) s = .next (u.setGroup k g') ∧
         inG g' (BitVec.ofNat 64 (s.readLocNat a.loc 8))) ∧
       (o.kind = .gload →
         (∀ key, a.loc = .scr key ∨ a.loc = .vlt key → s.poisoned a.loc (szBytes o.size) = false →
           ∃ g', exec (.loadReturn k o.id (laneBit a.lane)) s = .next (u.setGroup k g') ∧
             inG g' (BitVec.ofNat 64 (s.readLocNat a.loc (szBytes o.size)))) ∧
         (∀ (key : Nat) (s1 : State), a.loc = .mem key → u.missEntry k o a = (s1, true) →
           (s1.loadAcc k g o a).2.2.2 = false → ∃ (t : State) (g' : Group),
             exec (.loadReturn k o.id (laneBit a.lane)) s = .next t ∧ t.group k = some g' ∧
               inG g' (BitVec.ofNat 64 (s1.loadAcc k g o a).2.2.1)))))

/-- R93, R109 to R111, R95: translation registers. That `xlat` walks as it issues, and that its register is written when it
returns, is the model's choice (log entry 63).
R100, R113, R114, R97: prefetches change no register of the group; `l1inv` leaves no global sector in its core's L1;
the fault queue takes the oldest page that waits for an entry. That FQ_TAIL counts modulo the ring's size, and that the monitor
of a `waitw` keeps no invalidation open, is the model's choice (log entries 74 and 97). -/
def Obligations.TranslationAndPrefetch : Prop :=
  ((∀ (w : GW) (f : M), w.Issues →
     let w' : GW := { w with g := w.g.settleX f.x.toNat }
     (∀ (s' : State) (x : XReg),
       w.s.xlatBase w.ctx (.core w.core) (w'.opdG f.lane + f.off.signExtend 64) 600 = (s', .inl x) →
       ∃ o : MemOp, exec (.xlat f) w.s =
           .next (s'.setGroup w.key { w'.g with memq := w'.g.memq ++ [o], nextId := w'.g.nextId + 1 }) ∧
         o.kind = .xlat f.x.toNat x ∧ o.id = w'.g.nextId) ∧
     (∃ g : Group, exec (.xrel f) w.s = .next (w.s.setGroup w.key g) ∧
       (g.readX f.x.toNat).l = 0 ∧ (g.readX f.x.toNat).b = (w'.g.readX f.x.toNat).b ∧
       (g.readX f.x.toNat).p = (w'.g.readX f.x.toNat).p ∧
       ∀ n, n ≠ f.x.toNat → g.readX n = w'.g.readX n) ∧
     (∃ o : MemOp, exec (.xget f) w.s =
         .next (w.s.setGroup w.key { w'.g with memq := w'.g.memq ++ [o], nextId := w'.g.nextId + 1 }) ∧
       o.dest = f.data.toNat ∧ ∃ v, o.kind = .word v ∧
         (f.size = 0 → v = (w'.g.readX f.x.toNat).p.setWidth 64) ∧ (f.size = 1 → v = (w'.g.readX f.x.toNat).b) ∧
         (f.size = 2 → v = (w'.g.readX f.x.toNat).l.setWidth 64)) ∧
     ((w.opdG f.data = 0 ∨ canonical (w.opdG f.lane) = true) →
       ∃ (t : State) (g : Group) (o : MemOp), exec (.tlbinv f) w.s = .next t ∧ t.group w.key = some g ∧
         g.memq = w.g.memq ++ [o] ∧ o.kind = .inval w.s.now ∧ g.regs = w.g.regs ∧
         (t.ctx w.ctx).gen = (w.s.ctx w.ctx).gen + 1 ∧
         (t.ctx w.ctx).invals = (w.s.ctx w.ctx).invals ++
           [⟨w.s.now, w.opdG f.lane, (w.opdG f.data).toNat, false⟩])) ∧
   (∀ (s : State) (k : GKey) (g : Group) (o : MemOp) (n : Nat) (x : XReg) (m : Mask),
     (s.ripen k).group k = some g → g.memq.find? (fun p => p.id == o.id) = some o → o.kind = .xlat n x →
     ∃ (t : State) (g' : Group), exec (.loadReturn k o.id m) s = .next t ∧ t.group k = some g' ∧ g'.readX n = x ∧
       (∀ j, j ≠ n → g'.readX j = g.readX j) ∧ t.mem = s.mem) ∧
   (∀ (s : State) (c id : Nat) (i : Inval), (s.ctx c).invals.find? (fun j => j.id == id) = some i →
     (∀ k ∈ s.keys, ∀ g, s.group k = some g → s.lctx k.launch = c → g.pendingAccs = []) →
     (∀ t ∈ s.tails, s.lctx t.key.launch = c → atomicsOf t.effq = []) →
     ∃ t, exec (.tlbInvalidationComplete c id) s = .next t ∧ (t.ctx c).invals = (s.ctx c).invals.filter (fun j => j.id != id) ∧
       (∀ ch, ch < 8 → (∀ e ∈ (t.chiplet ch).tlb, ¬(e.ctx = c ∧ i.hits e.va.toNat e.size = true)) ∧
         ∀ e ∈ (t.chiplet ch).wcache, i.dropsWalk c e = false) ∧
       (∀ core, ∀ e ∈ (t.core core).tlb, ¬(e.ctx = c ∧ i.hits e.va.toNat e.size = true)) ∧ t.mem = s.mem)) ∧
  ((∀ (w : GW) (f : M), w.Issues →
     (∃ s' : State, exec (.vpf f) w.s = .next (s'.setGroup w.key (w.g.settleX f.x.toNat))) ∧
     (∃ t, exec (.gpf f) w.s = .next t ∧ t.group w.key = some w.g) ∧
     (∃ t, exec (.l1inv f) w.s = .next t ∧ (t.core w.core).l1 = [] ∧ t.group w.key = some w.g)) ∧
   (∀ (s : State) (c page : Nat) (kind : BitVec 3) (loc : BitVec 32) (launch : BitVec 24)
       (rest : List (Nat × BitVec 3 × BitVec 32 × BitVec 24)),
     s.Canonical → (s.ctx c).waiting = (page, kind, loc, launch) :: rest →
     let n := 2 ^ ((s.ctx c).fqSize.toNat + 4)
     ((((s.ctx c).fqTail.toNat + 1) % n = (s.ctx c).fqHead.toNat % n) →
       ∃ t, exec (.faultQueuePost c) s = .next t ∧ (t.ctx c).fqOvf = true ∧ (t.ctx c).waiting = (s.ctx c).waiting ∧
         t.mem = s.mem) ∧
     ((((s.ctx c).fqTail.toNat + 1) % n ≠ (s.ctx c).fqHead.toNat % n) →
       ∃ t, exec (.faultQueuePost c) s = .next t ∧ (t.ctx c).waiting = rest ∧
         (t.ctx c).fqTail = BitVec.ofNat 16 (((s.ctx c).fqTail.toNat + 1) % n) ∧
         Tbl.find (t.ctx c).posted page = some kind ∧ (t.ctx c).int_.getLsbD 3 = true ∧
         Store.bytes t.mem ((s.ctx c).fqBase.toNat * 4096 + 32 * ((s.ctx c).fqTail.toNat % n)) 32 =
           le 8 (BitVec.ofNat 64 (page * 4096) ||| kind.setWidth 64) ++ le 4 loc ++ le 4 (launch.setWidth 32) ++ natLE 16 0)))

/-! ## Copies, batches and byte-count barriers -/
namespace Sys2Proof.Claims
def copyRows : List ((X → Instr) × Nat) := [(.cpy, 0), (.cpy2d, 1), (.cpyfill, 2), (.cpyadd, 3), (.cpyxor, 4)]

/-- The barrier address register of a copy: the fourth field, or for `cpy2d` the register behind the descriptor. -/
def copyBarReg (w : GW) (fn : Nat) (f : X) : BitVec 64 := w.opdG (if fn = 1 then f.f5 + 1 else f.f5)
def copyBar (w : GW) (fn : Nat) (f : X) : Option (Nat × BitVec 64) :=
  if copyArv f.imm then some (copyBsp f.imm, copyBarReg w fn f) else none

/-- A copy as its registers give it (R115): a descriptor holds the row count and both pitches. -/
structure CopyIs (w : GW) (fn : Nat) (f : X) (c : Copy) : Prop where
  key : c.key = w.key ∧ c.ctx = w.ctx ∧ c.id = w.g.nextId ∧ c.fn = fn ∧ c.opts = f.imm
  ranges : c.dst = w.opdG f.f1 ∧ c.src = w.opdG f.f2 ∧ c.count = (w.opdG f.f3).toNat
  rows : fn ≠ 1 → c.nrow = 1 ∧ c.dpitch = 0 ∧ c.spitch = 0
  pitches : fn = 1 → c.nrow = ((w.opdG f.f5).extractLsb' 44 20).toNat ∧
    c.dpitch = ((w.opdG f.f5).extractLsb' 22 22).toNat ∧ c.spitch = ((w.opdG f.f5).extractLsb' 0 22).toNat
  bar : (c.bar.isSome = true → copyArv f.imm = true) ∧
    (copyArv f.imm = true → ∀ l a, w.s.barAddr w.key (copyBsp f.imm) (copyBarReg w fn f) = .ok l a → c.bar = some l)
  idle : c.started = false ∧ c.stopped = false ∧ c.wait = none ∧ c.pieces = [] ∧ c.aside = []

/-- R117: the `n` bytes `new` that a step leaves from offset `at_` of a row on, of the source's bytes `xs` and the
destination's bytes `old`. -/
def CopyLeaves (c : Copy) (at_ n : Nat) (xs old new : Nat → Byte) : Prop :=
  let u := copyUnit c.fn c.opts
  let el (f : Nat → Byte) (e : Nat) : Nat := leNat ((List.range u).map (fun i => f (e * u + i)))
  let fl (m e : Nat) : Nat := (fAdd m 0 0 (fDecode m (el old e)) (fDecode m (el xs e))).1
  (c.fn ≤ 1 → ∀ j, j < n → new j = xs j) ∧
    (c.fn = 2 → ∀ j, j < n → new j = (le 8 c.src).getD ((at_ + j) % 2 ^ copyEty c.opts) 0) ∧
    (c.fn = 3 → ∀ e, (e + 1) * u ≤ n →
      (copyEty c.opts = 0 → el new e = (el old e + el xs e) % 2 ^ 32) ∧
      (copyEty c.opts = 1 → el new e = (el old e + el xs e) % 2 ^ 64) ∧
      (copyEty c.opts = 2 → el new e = fl 10 e % 2 ^ 32) ∧
      (copyEty c.opts = 3 → el new e = fl 9 e % 2 ^ 16) ∧
      (copyEty c.opts = 4 → el new e = fl 8 e % 2 ^ 16)) ∧
    (c.fn = 4 → ∀ j, j < n → new j = old j ^^^ xs j)
end Sys2Proof.Claims

/-- R115, R116, R119, R122: a copy that passes its checks joins the queue of its core and the open batch of its class; one
that is a boundary closes the task and waits for it. The bytes it moves are moved by the engine.
R117, R118, R121, R122: the engine starts a copy once its task has committed, a step of a piece moves one or more of
its next bytes, between any two spaces, and leaves what R117's table gives each member; the copy completes in its batch once
every piece has. A step from scratch to scratch is stated by its addresses as well. That a step moves the next of a piece's
bytes, in ascending order, is the model's choice (log entry 69). -/
def Obligations.Copies : Prop :=
  (∀ (w : GW) (f : X), w.Issues → ∀ r ∈ copyRows, ∃ c : Copy, CopyIs w r.2 f c ∧
     (copyBoundary r.2 f.imm = true → c.waits = some w.g.tseq) ∧
     (w.copyBad c (copyBar w r.2 f) = none →
       ∃ (t : State) (g : Group), exec (r.1 f) w.s = .next t ∧ t.group w.key = some g ∧
         (t.core w.core).copies = (w.s.core w.core).copies ++ [c] ∧
         g.ops = w.g.ops ++ [⟨0, w.g.closedOf 0 + 1, w.g.nextId⟩] ∧ g.regs = w.g.regs ∧ g.memq = w.g.memq ∧
         g.issuing = some { w.iss with boundary := w.iss.boundary || copyBoundary r.2 f.imm } ∧
         t.mem = w.s.mem ∧ t.scr = w.s.scr ∧ t.vlt = w.s.vlt) ∧
     (∀ cause kind, w.g.trap = none → w.copyBad c (copyBar w r.2 f) = some (cause, kind) →
       ∃ g', exec (r.1 f) w.s = .next (w.s.setGroup w.key g') ∧ Trapped w.g g' cause ∧
         ∀ t, g'.trap = some t → ∀ x ∈ t.lanes, x.2.cause = 0 ∧ x.2.addr = 0)) ∧
  ((∀ (s : State) (core i : Nat) (c : Copy), (s.core core).copies[i]? = some c →
     (∀ g, s.group c.key = some g → g.committed c.waits = true ∧ g.localDone c.id = true) →
     ∃ t, exec (.copyStart core i) s = .next t ∧ (t.core core).copies[i]? = some { c with started := true } ∧
       t.mem = s.mem ∧ t.scr = s.scr ∧ t.vlt = s.vlt) ∧
   (∀ (s : State) (core i k row lo hi sk dk : Nat) (c : Copy) (at1 at2 : Attr),
     s.Canonical → (s.core core).copies[i]? = some c → c.piece k = some (row, lo, hi) → c.fn = 0 →
     copySsp c.opts = 1 → copyDsp c.opts = 1 → c.started = true → c.stopped = false → c.wait = none →
     c.rowOrder = false ∨ row = 0 → c.overlapped row = false → GKey.orphan c.key = false →
     let done := (Tbl.find c.pieces k).getD 0
     done < hi - lo →
     (∀ n, 0 < n → n ≤ hi - lo - done →
       s.scratchRange c.key (c.src + BitVec.ofNat 64 (row * c.spitch + (lo + done))).toNat n = .ok (.scr sk) at1 ∧
       s.scratchRange c.key (c.dst + BitVec.ofNat 64 (row * c.dpitch + (lo + done))).toNat n = .ok (.scr dk) at2) →
     s.poisonScr = [] →
     ∃ (t : State) (n : Nat), exec (.copyPieceArrival core i k) s = .next t ∧ 0 < n ∧ n ≤ hi - lo - done ∧
       (∀ j, j < n → Store.read t.scr (dk + j) = Store.read s.scr (sk + j)) ∧
       (∀ j, (j < dk ∨ dk + n ≤ j) → Store.read t.scr j = Store.read s.scr j) ∧ t.mem = s.mem ∧ t.vlt = s.vlt ∧
       ∃ c', (t.core core).copies[i]? = some c' ∧ Tbl.find c'.pieces k = some (done + n)) ∧
   (∀ (s : State) (core i k row lo hi : Nat) (c : Copy),
     s.Canonical → (s.core core).copies[i]? = some c → c.piece k = some (row, lo, hi) → c.started = true →
     c.stopped = false → c.wait = none → c.rowOrder = false ∨ row = 0 → c.overlapped row = false →
     let done := (Tbl.find c.pieces k).getD 0
     let u := copyUnit c.fn c.opts
     let at_ := lo + done
     let dva := c.dst + BitVec.ofNat 64 (row * c.dpitch + at_)
     done < hi - lo → (c.dst.toNat + row * c.dpitch) % u = 0 → (c.fn = 3 → (c.src.toNat + row * c.spitch) % u = 0) →
     c.count % u = 0 → done % u = 0 →
     ∃ n, 0 < n ∧ n ≤ hi - lo - done ∧ n % u = 0 ∧ ∀ (s1 s2 : State) (xs : List (Byte × Bool)) (l : Loc) (a : Attr),
       (c.fn = 2 → s1 = s) →
       (c.fn ≠ 2 → State.copyRead (n + 1) s c.key c.ctx (.core core) (copySsp c.opts)
         (c.src + BitVec.ofNat 64 (row * c.spitch + at_)) n 100 = (s1, .inl xs)) →
       s1.copyPlace c.key c.ctx (.core core) (copyDsp c.opts) dva n true 50 = (s2, .ok l a) →
       let byte (s : State) (j : Nat) : Byte := (s.readLoc (l.plus j) 1).getD 0 0
       let s3 := s2.copyHome core c.fn l n
       ∃ t : State, exec (.copyPieceArrival core i k) s = .next t ∧
         CopyLeaves c at_ n (fun j => (xs.getD j (0, false)).1) (byte s3) (byte t) ∧
         (∀ x : Loc, (∀ j, j < n → x ≠ l.plus j) → t.readLoc x 1 = s3.readLoc x 1) ∧
         ∃ c', (t.core core).copies[i]? = some c' ∧ Tbl.find c'.pieces k = some (done + n)) ∧
   (∀ (s : State) (core i : Nat) (c : Copy), (s.core core).copies[i]? = some c →
     c.stopped = true ∨ (c.started = true ∧ c.allDone = true) →
     ∃ t, exec (.copyComplete core i) s = .next t ∧ (t.core core).copies = (s.core core).copies.eraseIdx i ∧
       ∀ g, s.group c.key = some g → ∃ g', t.group c.key = some g' ∧
         g'.ops = g.ops.filter (fun o => !(o.cls == 0 && o.id == c.id)) ∧ g'.regs = g.regs))

namespace Sys2Proof.Claims
/-- The task an effect joins, and the clause that closes it. -/
def JoinsTask (w : GW) (g : Group) (e : Eff) : Prop :=
  (∀ t, w.g.openTask = some t → ∃ t', g.openTask = some t' ∧ t'.effs = t.effs ++ [e] ∧ t'.tseq = t.tseq ∧ t'.ver = t.ver) ∧
    g.issuing = some { w.iss with boundary := true } ∧ g.regs = w.g.regs ∧ g.memq = w.g.memq
end Sys2Proof.Claims

namespace Sys2Proof.Claims
/-- A barrier after `n` more bytes have arrived and, with `c`, its count has been posted (R127): below 2^48 bytes the
phase completes exactly when a count stands and is reached. -/
def Settles (b b' : BarObj) (arrived expected : Nat) (posted : Bool) : Prop :=
  if posted = true ∧ expected ≤ arrived then
    b'.phase = b.phase + 1 ∧ b'.arrived = 0 ∧ b'.expected = 0 ∧ b'.posted = false ∧
      b'.ovf = (b.ovf || decide (expected < arrived))
  else b'.phase = b.phase ∧ b'.arrived = arrived ∧ b'.expected = expected ∧ b'.posted = posted ∧ b'.ovf = b.ovf
/-- The barrier of a byte-count effect. -/
def bcPlaceOf (e : Eff) : Option Loc :=
  match e with
  | .bcInit _ l => some l
  | .bcPost _ l _ => some l
  | .bcArrive _ l _ => some l
  | _ => none
end Sys2Proof.Claims

/-- R122 to R124: `bfence` closes the open batch and gives its number, `bwait` holds the next clause until its batch is
done, `bget` reads DONE or CLOSED.
R126 to R128: the byte-count words whose barrier address passes: initialise, expect and arrive act after the commit of
the task they close, `bcwait` holds the next clause for its phase, `bctest` reads a word of the barrier.
R127, R128, R365: the effects of committed tasks reach their barriers one at a time, those of one clause in issue order,
those of different clauses in any. `bwait` of a register takes it as a signed number before the minimum, and the effects of
different clauses come in any order: both are the model's choice (log entries 60 and 106). -/
def Obligations.BatchesAndByteCounts : Prop :=
  (∀ (w : GW) (f : VI), w.Issues →
     let c := (f.imm.extractLsb' 0 2).toNat
     let n := w.g.closedOf c
     (∃ g : Group, exec (.bfence f) w.s = .next (w.put g) ∧ g.closedOf c = n + 1 ∧
       (∀ d, d ≠ c → g.closedOf d = w.g.closedOf d) ∧ g.regs = w.g.regs ∧ g.ops = w.g.ops ∧
       g.pend = pendInsert w.g.pend ⟨.g f.d.toNat, 0, [BitVec.ofNat 64 (n + 1)], w.g.clk + 2⟩) ∧
     (∃ b : Int, exec (.bwait f) w.s = .next (w.put { w.g with holds := w.g.holds ++ [⟨.bwait c b, w.at_, w.n⟩] }) ∧
       b ≤ (n : Int) ∧
       (f.a = 0 → b = (n : Int) - (f.imm.extractLsb' 2 8).toNat) ∧
       (f.a ≠ 0 → b = min (w.opdG f.a).toInt n)) ∧
     exec (.bget f) w.s = .next (w.gives [⟨.g f.d.toNat, 0,
       [BitVec.ofNat 64 (if f.imm.getLsbD 2 then n else w.g.doneOf c)], w.g.clk + 2⟩])) ∧
  ((∀ (w : GW) (f : X) (l : Loc) (a : Attr), w.Issues →
      w.s.barAddr w.key (if f.imm.getLsbD 0 then 2 else 1) (w.opdG f.f2) = .ok l a →
      (∃ g, exec (.bcinit f) w.s = .next (w.put g) ∧ JoinsTask w g (.bcInit w.g.tseq l)) ∧
      ((w.opdG f.f3).toNat < 2 ^ 48 →
        (∃ g, exec (.bcexpect f) w.s = .next (w.put g) ∧ JoinsTask w g (.bcPost w.g.tseq l (w.opdG f.f3).toNat)) ∧
        (∃ g, exec (.bcarrive f) w.s = .next (w.put g) ∧ JoinsTask w g (.bcArrive w.g.tseq l (w.opdG f.f3).toNat))) ∧
      (2 ^ 48 ≤ (w.opdG f.f3).toNat → w.g.trap = none →
        ∀ i ∈ [Instr.bcexpect f, .bcarrive f], ∃ g', exec i w.s = .next (w.put g') ∧ Trapped w.g g' Cause.range) ∧
      exec (.bcwait f) w.s = .next (w.put
        { w.g with holds := w.g.holds ++ [⟨.bcwait l ((w.opdG f.f3).setWidth 16), w.at_, w.n⟩] }) ∧
      (∃ o : MemOp, exec (.bctest f) w.s =
          .next (w.put { w.g with memq := w.g.memq ++ [o], nextId := w.g.nextId + 1 }) ∧
        o.kind = .gword ∧ o.dest = f.f1.toNat ∧ o.accs.map Acc.loc = [if f.imm.getLsbD 1 then l.plus 8 else l])) ∧
   (∀ (s : State) (k : GKey) (g : Group), s.Canonical → s.group k = some g → bcNext g.effq ≠ [] →
      ∃ (i : Nat) (e : Eff) (t : State), i ∈ bcNext g.effq ∧ g.effq[i]? = some e ∧ exec (.bcEffect k) s = .next t ∧
        (∃ g', t.group k = some g' ∧ g'.effq = g.effq.eraseIdx i ∧ g'.regs = g.regs) ∧
        ∀ key,
          let l := Loc.scr key
          let b := s.readBar l
          (bcPlaceOf e = some l → t.mem = s.mem ∧ t.vlt = s.vlt ∧
            ∀ j, (j < key ∨ key + 16 ≤ j) → Store.read t.scr j = Store.read s.scr j) ∧
          (∀ q, e = .bcInit q l → t.readBar l = barOf 0 0) ∧
          (∀ q n, e = .bcArrive q l n → b.arrived + n < 2 ^ 48 →
            Settles b (t.readBar l) (b.arrived + n) b.expected b.posted) ∧
          (∀ q n, e = .bcPost q l n → n < 2 ^ 48 → b.posted = false → Settles b (t.readBar l) b.arrived n true)) ∧
   (∀ (es : List Eff) (i : Nat), (∀ e ∈ es, e.bcTask.isSome = true) →
      (i ∈ bcNext es ↔ i < es.length ∧ ∀ j, j < i → (es.getD j default).bcTask ≠ (es.getD i default).bcTask)))

/-! ## The matrix unit -/
namespace Sys2Proof.Claims
/-- The sixteen registers of a member's C as they wait for the completion of their operation. -/
def mxPends (r : Nat) (c : Nat → Nat → BitVec 32) : List Pend :=
  (List.range 16).map (fun i => ⟨.v (r + i), ~~~0, (List.range 32).map (fun n => (c i n).setWidth 64), mxDue⟩)
/-- A member as an operation finds it: the results whose cycle has passed are written (R35). -/
def landed (s : State) (k : GKey) (g : Group) : Group := g.landDue (s.protect k) (s.core (s.coreOf k)).cycles
end Sys2Proof.Claims

/-- R181 to R183: a team register that is free or whose team the block owns with nothing pending takes a legal member list
with all counts 0; `tmclr` empties one that the block owns; `tmget` reads it.
R187, R195: a member's arrival is held with its registers, takes the member's pending outlier list and joins the
group's batch; `vouts` leaves a list pending, or none for a count of 0. A group that is no member of a sound team of its
block traps TEAM_BROKEN, as does `tmset` on a team of another block or one with an arrival or a list pending. R194: a
count above 32 traps RANGE; that it does so before the team is looked at is the model's choice (log entry 82).
R35, R183: for two cycles a read of a team register that `tmset` or `tmclr` has written gives its old team or its new one. That an
arrival at a team that the register does not hold any more fails as one that stood there, and that its `vouts` has no effect, is
the model's choice (log entry 122). -/
def Obligations.TeamsAndArrivals : Prop :=
  (∀ (w : GW) (f : X), w.Issues →
     (let u := w.writesTeam f.tm.toNat
      (∃ g, u.group w.key = some g ∧ g.pend = pendInsert w.g.pend ⟨.tm f.tm.toNat, 0, [], w.g.clk + 2⟩ ∧ g.regs = w.g.regs) ∧
      Tbl.find (u.core w.core).tmOld f.tm.toNat = some (w.s.team w.core f.tm.toNat, w.g.clk + 2) ∧
      (∀ n, u.team w.core n = w.s.team w.core n) ∧ u.mem = w.s.mem) ∧
     (w.team f.tm.toNat = w.s.team w.core f.tm.toNat ∨
       ∃ due, w.g.clk < due ∧ Tbl.find (w.s.core w.core).tmOld f.tm.toNat = some (w.team f.tm.toNat, due)) ∧
     ((∀ t, w.team f.tm.toNat = some t → t.owned w.key = true ∧ t.held = [] ∧ t.outl = []) →
       (teamListOk (w.opdG f.f2) (w.s.lrec w.key.launch).groups = true →
         ∃ t : Team, exec (.tmset f) w.s = .next ((w.writesTeam f.tm.toNat).setTeam w.core f.tm.toNat (some t)) ∧
           t.list = (w.opdG f.f2).setWidth 35 ∧ t.owned w.key = true ∧ t.broken = false ∧ t.rc = 0 ∧ t.ac = [] ∧
           t.held = [] ∧ t.outl = []) ∧
       (teamListOk (w.opdG f.f2) (w.s.lrec w.key.launch).groups = false → w.g.trap = none →
         ∃ g', exec (.tmset f) w.s = .next (w.put g') ∧ Trapped w.g g' Cause.range)) ∧
     (∀ t, w.team f.tm.toNat = some t → (t.owned w.key = false ∨ t.held ≠ [] ∨ t.outl ≠ []) → w.g.trap = none →
       ∃ g', exec (.tmset f) w.s = .next (w.put g') ∧ Trapped w.g g' Cause.teamBroken) ∧
     (∀ t, w.team f.tm.toNat = some t →
       (t.owned w.key = true → Tbl.sorted (w.s.core w.core).tms = true → ∃ s', exec (.tmclr f) w.s = .next s' ∧ s'.team w.core f.tm.toNat = none ∧
         (∀ n, n ≠ f.tm.toNat → s'.team w.core n = w.s.team w.core n) ∧
         Tbl.find (s'.core w.core).tmOld f.tm.toNat = some (w.s.team w.core f.tm.toNat, w.g.clk + 2)) ∧
       (t.owned w.key = false → w.g.trap = none →
         ∃ g', exec (.tmclr f) w.s = .next (w.put g') ∧ Trapped w.g g' Cause.teamBroken)) ∧
     (w.team f.tm.toNat = none → exec (.tmclr f) w.s = .next w.s) ∧
     ∃ v : BitVec 64, exec (.tmget f) w.s = .next (w.gives [⟨.g f.f1.toNat, 0, [v], w.g.clk + 2⟩]) ∧
       (w.team f.tm.toNat = none → v = 0) ∧
       (∀ t, w.team f.tm.toNat = some t → v.getLsbD 63 = true ∧ v.getLsbD 62 = t.broken ∧
         v.getLsbD 61 = t.owned w.key ∧ (t.owned w.key = true → v.setWidth 35 = t.list) ∧
         (t.owned w.key = false → v.setWidth 35 = 0))) ∧
  (∀ (w : GW) (f : X), w.Issues →
     (∀ (ty : BitVec 3) (sat : BitVec 1) (t : Team) (m : Nat), w.teamOk f.tm.toNat ≠ none → w.teamNow f.tm.toNat = some (t, m) →
       ∀ i ∈ [(Instr.vmma ty sat f, (0 : BitVec 1)), (.vmmaz ty sat f, 1)],
         ∃ (s' : State) (g : Group) (t' : Team) (a : Arrival), exec i.1 w.s = .next s' ∧ s'.group w.key = some g ∧
           s'.team w.core f.tm.toNat = some t' ∧ t'.held = t.held ++ [a] ∧ t'.acOf m = t.acOf m + 1 ∧ t'.rc = t.rc ∧
           a.member = m ∧ a.num = t.acOf m + 1 ∧ a.c = f.f1.toNat ∧ a.a = f.f2.toNat ∧ a.b = f.f3.toNat ∧
           a.sc = f.f5.toNat ∧ a.outl = Tbl.find t.outl m ∧ a.fn = mxFn i.2 sat ty ∧
           g.ops = w.g.ops ++ [⟨1, w.g.closedOf 1 + 1, w.g.nextId⟩] ∧ a.id = w.g.nextId ∧ g.regs = w.g.regs) ∧
     (w.teamNow f.tm.toNat = none → ∀ (old : Team) (due : Nat), Tbl.find (w.s.core w.core).tmOld f.tm.toNat = some (some old, due) →
       w.g.clk < due → old.member w.key ≠ none →
       if w.s.coin (21000 + f.tm.toNat) then
         ((w.opdG f.f2).toNat ≤ 32 → exec (.vouts f) w.s = .next w.s) ∧
         ∀ (ty : BitVec 3) (sat : BitVec 1), ∀ i ∈ [Instr.vmma ty sat f, .vmmaz ty sat f],
           ∃ (g : Group) (d : Deferred), exec i w.s = .next (w.put g) ∧ g.deferred = w.g.deferred ++ [d] ∧ d.cls = 1 ∧
             d.trap.cause = Cause.teamBroken ∧ d.trap.async = true ∧ g.regs = w.g.regs ∧ g.trap = w.g.trap
       else w.teamOk f.tm.toNat = none) ∧
     (∀ (t : Team) (m : Nat), w.teamOk f.tm.toNat ≠ none → w.teamNow f.tm.toNat = some (t, m) → (w.opdG f.f2).toNat ≤ 32 →
       ∃ t', exec (.vouts f) w.s = .next (w.s.setTeam w.core f.tm.toNat (some t')) ∧ t'.held = t.held ∧ t'.ac = t.ac ∧
         (0 < (w.opdG f.f2).toNat → Tbl.find t'.outl m = some ⟨(w.opdG f.f2).toNat, f.f1.toNat⟩) ∧
         ((w.opdG f.f2).toNat = 0 → Tbl.sorted t.outl = true → Tbl.find t'.outl m = none) ∧
         ∀ n, n ≠ m → Tbl.find t'.outl n = Tbl.find t.outl n) ∧
     (32 < (w.opdG f.f2).toNat → w.g.trap = none →
       ∃ g', exec (.vouts f) w.s = .next (w.put g') ∧ Trapped w.g g' Cause.range) ∧
     ((w.opdG f.f2).toNat ≤ 32 → w.teamOk f.tm.toNat = none → w.g.trap = none →
       ∃ g', exec (.vouts f) w.s = .next (w.put g') ∧ Trapped w.g g' Cause.teamBroken) ∧
     (w.g.trap = none → w.teamOk f.tm.toNat = none → ∀ (ty : BitVec 3) (sat : BitVec 1),
       ∀ i ∈ [Instr.vmma ty sat f, .vmmaz ty sat f], ∃ g', exec i w.s = .next (w.put g') ∧ Trapped w.g g' Cause.teamBroken))

/-- R188: the latch matches operation RC + 1 once every member has made that arrival, breaks a team whose members named
different functions, and with its tokens taken hands the operation to the matrix unit, behind those before it.
R186, R189, R190, R192: the oldest operation of a core reads its members' registers, here sound ones, once the results
whose cycle has passed are written, and its results wait; until it completes a read of C may give the old value or the new. As it completes each member's sixteen C registers
take the results, every other lane register keeps its value, the flags raised in its rows join its `$fpflags`, and the
operation completes in the member's batch.
R192: an integer element without `.sat` is C plus the exact sum of the products of the 64 steps, modulo 2^32. -/
def Obligations.RendezvousAndMatrixOperation : Prop :=
  (∀ (s : State) (core tm : Nat) (t : Team), s.team core tm = some t → t.broken = false →
     let r := t.held.filter (fun a => a.num == t.rc + 1)
     (t.matched = false → (∀ m, m < teamCount t.list → ∃ a ∈ r, a.member = m) →
       ((∀ a ∈ r, ∀ b ∈ r, a.fn = b.fn) →
         exec (.latchMatch core tm) s = .next (s.setTeam core tm (some { t with matched := true }))) ∧
       ((∃ a ∈ r, ∃ b ∈ r, a.fn ≠ b.fn) →
         ∃ s' t', exec (.latchMatch core tm) s = .next s' ∧ s'.team core tm = some t' ∧ t'.broken = true ∧ t'.held = [])) ∧
     (t.matched = true → ∀ s1, s.takeTokens (clusterOf core) (core % 8) 4 t.charge t.launch = some s1 →
       ∃ (s' : State) (t' : Team), exec (.latchTokensTaken core tm) s = .next s' ∧ s'.team core tm = some t' ∧
         t'.rc = t.rc + 1 ∧ t'.matched = false ∧ t'.held = t.held.filter (fun a => a.num != t.rc + 1) ∧
         (s'.core core).matched = (s1.core core).matched ++
           [.team ⟨tm, t.launch, t.block, t.list, t.rc + 1, r, false, []⟩] ∧
         s'.mem = s.mem ∧ s'.groups = s.groups)) ∧
  (∀ (s : State) (core : Nat) (o : MxOp) (rest : List MxWork) (la : Arrival) (lead : Group),
     (s.core core).matched = .team o :: rest → o.ran = false → o.arrs.find? (fun a => a.member == 0) = some la →
     s.group (o.key la) = some lead → (o.arrs.map o.key).Nodup →
     (∀ a ∈ o.arrs, ∃ g, s.group (o.key a) = some g ∧ g.badRegs = []) →
     ∃ (t : State) (o' : MxOp), exec (.matrixOpComplete core 0) s = .next t ∧ (t.core core).matched = .team o' :: rest ∧
       o'.ran = true ∧ o'.arrs = o.arrs ∧ o'.flags.length = o.arrs.length ∧ t.mem = s.mem ∧
       ∀ a ∈ o.arrs, ∀ g, s.group (o.key a) = some g →
         let h := landed s (o.key a) g
         let v : MxView := ⟨(la.fn.extractLsb' 0 3).toNat, s.now, h, a, some (landed s (o.key la) lead), la⟩
         t.group (o.key a) = some { h with
           pend := h.pend ++ mxPends a.c (fun i n => (v.el (la.fn.getLsbD 5) (la.fn.getLsbD 4) i n).1) } ∧
         ∀ fl, (a, fl) ∈ o.arrs.zip o'.flags → ∀ b, b < 6 → (fl.getLsbD b = true ↔
           ∃ i < 16, ∃ n < 32, (v.el (la.fn.getLsbD 5) (la.fn.getLsbD 4) i n).2.getLsbD b = true)) ∧
  (∀ (s : State) (core : Nat) (o : MxOp) (rest : List MxWork) (c : Arrival → Nat → Nat → BitVec 32),
     (s.core core).matched = .team o :: rest → o.ran = true → o.flags.length = o.arrs.length →
     (o.arrs.map o.key).Nodup →
     (∀ a ∈ o.arrs, ∃ g, s.group (o.key a) = some g ∧ Store.wf (landed s (o.key a) g).regs.v = true ∧
       (landed s (o.key a) g).pend.filter (fun p => p.due == mxDue) = mxPends a.c (c a)) →
     ∃ t, exec (.matrixOpComplete core 0) s = .next t ∧ (t.core core).matched = rest ∧ t.mem = s.mem ∧
       ∀ a ∈ o.arrs, ∀ g0, s.group (o.key a) = some g0 →
         let g := landed s (o.key a) g0
         ∃ g', t.group (o.key a) = some g' ∧
           (∀ i n, i < 16 → n < 32 → Store.read g'.regs.v (32 * (a.c + i) + n) = c a i n) ∧
           (∀ q n, n < 32 → (q < a.c ∨ a.c + 16 ≤ q) →
             Store.read g'.regs.v (32 * q + n) = Store.read g.regs.v (32 * q + n)) ∧
           g'.pend = g.pend.filter (fun p => p.due != mxDue) ∧
           g'.ops = g.ops.filter (fun b => !(b.cls == 1 && b.id == a.id)) ∧ g'.regs.g = g.regs.g ∧ g'.regs.m = g.regs.m ∧
           g'.regs.mxflags = g.regs.mxflags ∧
           ∀ fl, (a, fl) ∈ o.arrs.zip o.flags → g'.regs.fpflags = g.regs.fpflags ||| fl) ∧
  (∀ (v : MxView) (i n : Nat), (v.ty = 4 ∨ v.ty = 5) → v.grp.badRegs = [] →
     let e (x : Nat) : Int := readInt (mxTyA v.ty) (BitVec.ofNat 64 x)
     let c : Int := ((v.grp.readV v.n (v.arr.c + i) n).toNat : Int)
     (v.iElem false false i n).2 = 0 ∧
       (2 ^ 32 : Int) ∣ ((v.iElem false false i n).1.toNat : Int) -
         (c + ((List.range 64).map (fun k => e (v.aBits i k) * e (v.bBits k n))).sum))

/-! ## The Harp engine -/

/-- R201 to R203: a pass with legal operands joins its cluster's queue and the group's batch, and closes the task it waits
for.
R202 to R206, R209, R210, R212: the head pass reads a legal record and starts, buys its next tile operation, which one
matrix unit of the cluster gets, writes the row of a vertex whose tile operations have run and posts its arrival in the
same step, ORs the flags as its last row performs, over the results due by then (R203, R149), and leaves the engine once
all is done. A pass whose gang has been killed begins no further vertex and leaves at its next vertex boundary (R215). That a pass whose group
has ended runs on, and that a damaged record is read as if it were sound, is the model's choice (log entries 100 and 103), and
so is that an arrival at scratch which a kill has freed is dropped (log entry 126). -/
def Obligations.HarpPasses : Prop :=
  (∀ (w : GW) (f : X), w.Issues →
     let r := w.opdG f.f1
     let v := (w.opdG f.f2).toNat
     let n := (w.opdG f.f3).toNat
     (n < 2 ^ 32 ∧ v < 2 ^ 32 ∧ v + n ≤ 2 ^ 32 → canonical r = true → r.toNat % 256 = 0 →
       ∃ (t : State) (g : Group) (p : Pass), exec (.harp f) w.s = .next t ∧ t.group w.key = some g ∧
         (t.cluster (clusterOf w.core)).harp = (w.s.cluster (clusterOf w.core)).harp ++ [p] ∧
         p.key = w.key ∧ p.recAddr = r ∧ p.first = v ∧ p.count = n ∧ p.waits = some w.g.tseq ∧ p.started = false ∧
         p.id = w.g.nextId ∧ g.ops = w.g.ops ++ [⟨2, w.g.closedOf 2 + 1, w.g.nextId⟩] ∧
         g.issuing = some { w.iss with boundary := true } ∧ g.regs = w.g.regs ∧ t.mem = w.s.mem) ∧
     (w.g.trap = none → 2 ^ 32 ≤ n ∨ 2 ^ 32 ≤ v ∨ 2 ^ 32 < v + n →
       ∃ g', exec (.harp f) w.s = .next (w.put g') ∧ Trapped w.g g' Cause.range) ∧
     (w.g.trap = none → n < 2 ^ 32 ∧ v < 2 ^ 32 ∧ v + n ≤ 2 ^ 32 → canonical r = true → r.toNat % 256 ≠ 0 →
       ∃ g', exec (.harp f) w.s = .next (w.put g') ∧ Trapped w.g g' Cause.align)) ∧
  (∀ (s : State) (cl : Nat) (p : Pass), s.Canonical → s.headPass cl = some p → p.halted = false → p.wait = none →
     (p.started = false → p.rec_ = none →
       (∀ g, s.group p.key = some g → g.committed p.waits = true ∧ g.localDone p.id = true) →
       ∀ (s1 : State) (bs : List (Byte × Bool)), State.copyRead 2 s p.key p.ctx (.chiplet (chipletOfCl cl)) 0 p.recAddr 256 200 = (s1, .inl bs) →
         s1.headPass cl = some p → s1.recBad p.key p (recOf (bs.map (fun b => b.1))) = none →
         ∃ t, exec (.harpPassStart cl) s = .next t ∧
           t.headPass cl = some { p with started := true, rec_ := some (recOf (bs.map (fun b => b.1))), wait := none }) ∧
     (∀ v cost s1, s.nextTile cl = some (p, v, cost) → s.takeTokens cl 8 0 cost p.key.launch = some s1 →
       ∃ t, exec (.harpTilePurchase cl) s = .next t ∧
         t.headPass cl = some { p with bought := p.bought + 1, begun := max p.begun (v + 1) } ∧
         t.mem = s.mem ∧ ∃ core, clusterOf core = cl ∧
           (t.core core).matched = (s1.core core).matched ++ [.tile p.key p.id p.bought]) ∧
     (∀ (r : HRec) (v lo hi e0 : Nat) (h1 h2 h3 h4 : HRun) (bytes : List Byte) (fl : Flags) (s1 : State)
         (ws : List (Loc × List Byte)),
       p.started = true → p.rec_ = some r → p.first ≤ v → v < p.first + p.count → Tbl.find p.rows v = none →
       p.stays v = false →
       HRun.rowPtr (s.harpRun cl p) p.key r p.first = (h1, e0) → h1.rowPtr p.key r v = (h2, lo) →
       h2.rowPtr p.key r (v + 1) = (h3, hi) → h3.bad = none → lo ≤ hi →
       (lo < hi → r.opsTo e0 hi ≤ p.bought ∧ s.tilesOut cl p (r.opsTo e0 hi) = false) →
       h3.vertex p.key r v lo hi = (h4, bytes, fl) → h4.bad = none → h4.damaged = [] →
       State.rowPlaces (bytes.length + 1) h4.s p.key cl p.ctx (r.spc 5) (rowAddr r.obase r.opitch v) bytes = (s1, .inl ws) →
       ∃ (t : State) (p' : Pass), exec (.harpRowComplete cl v) s = .next t ∧
         (t.cluster cl).harp = (if p'.dying = true ∧ p'.begun ≤ p'.first + p'.rows.length then (s1.cluster cl).harp.tail
           else p' :: (s1.cluster cl).harp.tail) ∧ p'.dying = p.dying ∧
         Tbl.find p'.rows v = some () ∧ p'.flags = p.flags ||| fl ∧ p'.begun = max p.begun (v + 1) ∧
         (p'.rows.length = p.count → ∀ g, s1.group p.key = some g → ∃ g', t.group p.key = some g' ∧
           g'.regs.fpflags = (g.landDue (s1.protect p.key) (s1.core (s1.coreOf p.key)).cycles).regs.fpflags ||| p'.flags) ∧
         (r.arv = false → ∀ x ∈ ws, ws = [x] → ∀ i, i < x.2.length → t.readLoc (x.1.plus i) 1 = [x.2.getD i 0]) ∧
         (r.arv = true → ∀ (l : Loc) (a : Attr), s1.barFor p.key p.ctx r.bsp r.baraddr = .ok l a →
           (∀ x ∈ ws, ∃ key, x.1 = .mem key) → (p.dying = false ∨ r.bsp = 2) →
           t.readBar l = (s1.bcArrive l (r.on * r.osize)).readBar l) ∧
         (r.arv = true → p.dying = true → r.bsp = 1 → (∀ x ∈ ws, ∃ key, x.1 = .mem key) → t.scr = s1.scr)) ∧
     (∀ v, p.stays v = true → exec (.harpRowComplete cl v) s = .next s ∧
       ∀ q cost, s.nextTile cl ≠ some (q, v, cost)) ∧
     (p.started = true → p.rows.length = p.count →
       ∃ t, exec (.harpPassComplete cl) s = .next t ∧ (t.cluster cl).harp = (s.cluster cl).harp.tail ∧
         ∀ g, s.group p.key = some g → ∃ g', t.group p.key = some g' ∧
           g'.regs = g.regs ∧
           g'.ops = g.ops.filter (fun o => !(o.cls == 2 && o.id == p.id))))

/-! ## Atomics, reductions, transactions -/
namespace Sys2Proof.Claims
def atomicRows : List ((X → Instr) × Nat) :=
  [(.vaadd, 0), (.vaand, 1), (.vaor, 2), (.vaxor, 3), (.vamin, 4), (.vamax, 5), (.vaminn, 6), (.vamaxn, 7), (.vaxchg, 8),
    (.vacas, 9), (.vafadd, 10)]
/-- The new value of each integer atomic on `w` bits from the old value, the operand and the compare value (R220). -/
def atomicValue (fn w : Nat) (old d c : BitVec w) : BitVec w :=
  match fn with
  | 0 => old + d
  | 1 => old &&& d
  | 2 => old ||| d
  | 3 => old ^^^ d
  | 4 => if d.slt old then d else old
  | 5 => if old.slt d then d else old
  | 6 => if d < old then d else old
  | 7 => if old < d then d else old
  | 8 => d
  | _ => if old = c then d else old
/-- `r` is the f32 sum of x and y, rounded to nearest (R161, R220): a NaN is canonical, an infinity stays. -/
def F32Sum (x y r : Nat) : Prop :=
  let a := fDecode 10 x
  let b := fDecode 10 y
  let nan := fIsNaN a = true ∨ fIsNaN b = true ∨ ∃ n, a = .inf n ∧ b = .inf (!n)
  (nan → r = fNaN 10) ∧ (¬nan → ∀ n, a = .inf n ∨ b = .inf n → r = withSign 10 n (fInf 10)) ∧
    (finite a → finite b → ∃ fl, OnceRounded 10 0 false 0 (fNeg a && fNeg b) (val a + val b) (r, fl))
/-- `new` is what an update by function number writes, `vafadd` among them, which has 32 bits (R220). -/
def AtomicNew (fn w : Nat) (old d c : BitVec w) (new : Nat) : Prop :=
  (fn < 10 → new = (atomicValue fn w old d c).toNat) ∧ (fn = 10 → F32Sum old.toNat d.toNat new)
/-- After a step the place of `n` bytes in global memory holds `new`, and no other byte has changed. -/
def Wrote (s t : State) (key n new : Nat) : Prop :=
  t.readLocNat (.mem key) n = new ∧ ∀ j, (j < key ∨ key + n ≤ j) → Store.read t.mem j = Store.read s.mem j
/-- No core holds an update-only line or a local-atomic one. -/
def NoCopies (s : State) : Prop := ∀ c ∈ s.cores, c.2.ulines = [] ∧ c.2.la = []
noncomputable def redRowsOf : List ((X → Instr) × Nat × Bool) :=
  [(.vradd, 0, false), (.vrand, 1, false), (.vror, 2, false), (.vrxor, 3, false), (.vrmin, 4, false), (.vrmax, 5, false),
    (.vrminn, 6, false), (.vrmaxn, 7, false), (.vrfadd, 8, false), (.vraddArv, 0, true), (.vrandArv, 1, true),
    (.vrorArv, 2, true), (.vrxorArv, 3, true), (.vrminArv, 4, true), (.vrmaxArv, 5, true), (.vrminnArv, 6, true),
    (.vrmaxnArv, 7, true), (.vrfaddArv, 8, true)]
/-- The operand of a lane: a register, or a pair for 8 bytes. -/
def atomOpd (w : GW) (r : BitVec 8) (size l : Nat) : BitVec 64 :=
  if size = 3 then w.g.readPair w.n r.toNat l else w.opd1 r l
end Sys2Proof.Claims

/-- R217 to R219, R222: an atomic of any scope whose lanes pass their checks joins the effects of the task it closes, with
each active lane's place and operand; no register is written before that task commits. One of scope `.gng` or wider
sends the issuing core's LA copies of its lines home as it issues (R229); one of scope `.sys` holds the next clause for its
task's remote writes, as a release does.
R217, R220, R222: the last lane of an atomic performs: its place takes the new value, no other byte changes, the lane's
register takes the old value and the effect is done. Under PROTECT both lanes of the pair receive it (R388). The place is in
scratch, or in global memory, where no core holds a copy of its own: there it is the home, or R229 for scope `.grp` and
`.blk` a local-atomic copy of the line in the core's L1, whose fill value is the home's. -/
def Obligations.Atomics : Prop :=
  (∀ (w : GW) (f : X), w.Issues → ∀ r ∈ atomicRows, w.atomDiffs f (r.2 == 9) = [] →
     let c := w.atomChecks f
     let home := if 2 ≤ f.scope then (accLines (places w c.2)).foldl (fun s l => s.laWriteback c.1.core l) c.1.s else c.1.s
     AllOk w c.2 → places w c.2 ≠ [] →
     ∃ (g : Group) (a : Atomic), exec (r.1 f) w.s = .next (home.setGroup w.key g) ∧
       (∀ t, c.1.g.openTask = some t → ∃ t', g.openTask = some t' ∧ t'.effs = t.effs ++ [.atomic a] ∧ t'.ver = t.ver) ∧
       a.fn = r.2 ∧ a.size = f.asize ∧ a.scope = f.scope ∧ a.dest = f.f1.toNat ∧
       a.accs = (places w c.2).map (fun o =>
         (⟨o.1, o.2.2.1, o.2.1, o.2.2.2, (atomOpd c.1 f.f1 f.asize o.1).setWidth 128⟩,
           if r.2 = 9 then atomOpd c.1 f.f3 f.asize o.1 else 0)) ∧
       (∀ l, l < 32 → (a.write.getLsbD l = true ↔
         ∃ o ∈ places w c.2, l = o.1 ∨ (w.protect = true ∧ l = o.1 + 1))) ∧
       g.holds = c.1.g.holds ++ (if f.scope = 5 then [⟨.ack c.1.g.tseq, c.1.at_, c.1.n⟩] else []) ∧
       g.issuing = some { w.iss with boundary := true } ∧ g.regs = c.1.g.regs ∧ g.memq = c.1.g.memq) ∧
  (∀ (s : State) (k : GKey) (g : Group) (rest : List Eff) (a : Atomic) (acc : Acc) (c : BitVec 64) (key : Nat),
     s.Canonical → (s.ripen k).group k = some g → Store.wf g.regs.v = true →
     g.effq = .atomic a :: rest → a.accs = [(acc, c)] → acc.loc = .scr key → s.poisonScr = [] →
     acc.attr.rnode = 0 → acc.lane < 32 → (a.size = 2 ∨ (a.size = 3 ∧ a.fn < 10)) → a.fn < 11 →
     s.heldBack (s.coreOf k) a.issued = false →
     acc.val.toNat < 2 ^ (8 * szBytes a.size) → c.toNat < 2 ^ (8 * szBytes a.size) →
     let n := szBytes a.size
     let old : BitVec (8 * n) := BitVec.ofNat _ (s.readLocNat acc.loc n)
     ∃ (t : State) (g' : Group), exec (.atomicPerform k) s = .next t ∧ t.group k = some g' ∧ g'.effq = rest ∧
       AtomicNew a.fn (8 * n) old (acc.val.setWidth _) (c.setWidth _) (t.readLocNat acc.loc n) ∧
       (∀ j, (j < key ∨ key + n ≤ j) → Store.read t.scr j = Store.read s.scr j) ∧ t.mem = s.mem ∧ t.vlt = s.vlt ∧
       (∀ l, l < 32 → l = acc.lane ∨ (s.protect k = true ∧ l = acc.lane + 1) → a.write.getLsbD l = true → ∀ i, i < regsOf a.size →
         (Store.read g'.regs.v (32 * (a.dest + i) + l)).toNat = old.toNat / 2 ^ (32 * i) % 2 ^ 32) ∧
       g'.regs.g = g.regs.g ∧ g'.regs.m = g.regs.m) ∧
  (∀ (s : State) (k : GKey) (g : Group) (rest : List Eff) (a : Atomic) (acc : Acc) (c : BitVec 64) (key : Nat),
     s.Canonical → (s.ripen k).group k = some g → Store.wf g.regs.v = true → NoCopies s → Tbl.sorted s.cores = true →
     g.effq = .atomic a :: rest → a.accs = [(acc, c)] → acc.loc = .mem key → key < 2 ^ 52 → s.poisonMem = [] →
     acc.attr.rnode = 0 → acc.lane < 32 → (a.size = 2 ∨ (a.size = 3 ∧ a.fn < 10)) → a.fn < 11 →
     s.heldBack (s.coreOf k) a.issued = false → acc.val.toNat < 2 ^ (8 * szBytes a.size) →
     c.toNat < 2 ^ (8 * szBytes a.size) →
     let n := szBytes a.size
     n ∣ key →
     let old : BitVec (8 * n) := BitVec.ofNat _ (s.readLocNat acc.loc n)
     ∃ (t : State) (g' : Group) (new : Nat), exec (.atomicPerform k) s = .next t ∧ t.group k = some g' ∧ g'.effq = rest ∧
       AtomicNew a.fn (8 * n) old (acc.val.setWidth _) (c.setWidth _) new ∧
       (Wrote s t key n new ∨ (a.scope ≤ 1 ∧ acc.attr.sa = false ∧ t.mem = s.mem ∧
         ∃ l, Tbl.find (t.core (s.coreOf k)).la (lineOf key) = some l ∧ l.fillOf key a.size = old.toNat ∧
           Tbl.find l.elems key = some (a.size, BitVec.ofNat 64 new))) ∧
       t.scr = s.scr ∧ t.vlt = s.vlt ∧
       (∀ l, l < 32 → l = acc.lane ∨ (s.protect k = true ∧ l = acc.lane + 1) → a.write.getLsbD l = true → ∀ i, i < regsOf a.size →
         (Store.read g'.regs.v (32 * (a.dest + i) + l)).toNat = old.toNat / 2 ^ (32 * i) % 2 ^ 32) ∧
       g'.regs.g = g.regs.g ∧ g'.regs.m = g.regs.m)

/-- R223, R224: a reduction whose lanes pass their checks: global updates are held with the task, in ascending lane order;
scratch and vault updates join the operations in flight. The `.arv` forms carry their barrier's place.
R224, R227, R127: an update of a reduction in flight performs at its scratch place, and its barrier, if it has one,
receives an arrival of the update's bytes; no other byte of scratch changes.
R224, R225, R227: the one update that a task holds reaches global memory as the task commits: at its home on a page with SA
or with a barrier, which receives its arrival; else a line in the core's L1 gathers it, and the recall of that line
brings it to its home. -/
def Obligations.MemoryReductions : Prop :=
  (∀ (w : GW) (f : X), w.Issues → ∀ r ∈ redRowsOf, w.atomDiffs f false = [] →
     let c := w.atomChecks f
     let barr := c.1.s.barAddr w.key (if f.space = 1 then 1 else 2) (c.1.opdG f.f3)
     let bar : Option Loc := match r.2.2, barr with
       | true, .ok l _ => some l
       | _, _ => none
     AllOk w c.2 → places w c.2 ≠ [] →
     (r.2.2 = true → ∃ l a, barr = .ok l a) → c.1.s.wheyFull w.key c.1.g (accLines (places w c.2)) = false →
     let accs : List Acc := (places w c.2).map (fun o =>
       ⟨o.1, o.2.2.1, o.2.1, o.2.2.2, (atomOpd c.1 f.f1 f.asize o.1).setWidth 128⟩)
     ∃ g : Group, exec (r.1 f) w.s = .next (c.1.s.setGroup w.key g) ∧ g.regs = c.1.g.regs ∧
       (f.space = 0 → g.memq = c.1.g.memq ∧ ∀ t, c.1.g.openTask = some t → ∃ t', g.openTask = some t' ∧
         t'.reds = t.reds ++ accs.map (fun a => ⟨r.2.1, f.asize, f.scope, a, bar⟩) ∧ t'.ver = t.ver) ∧
       (f.space ≠ 0 → ∃ o : MemOp, g.memq = c.1.g.memq ++ [o] ∧ o.kind = .red r.2.1 bar ∧ o.size = f.asize ∧
         o.accs = accs)) ∧
  (∀ (s : State) (k : GKey) (g : Group) (o : MemOp) (a : Acc) (member key : Nat) (bar : Option Nat),
     s.Canonical → s.group k = some g → g.memq.find? (fun p => p.id == o.id) = some o →
     o.kind = .red member (bar.map Loc.scr) →
     o.accs.find? (fun b => b.lane == a.lane) = some a → a.lane < 32 → g.blocked o a = false →
     s.heldBack (s.coreOf k) o.issued = false → a.loc = .scr key → member < 9 →
     (o.size = 2 ∨ (o.size = 3 ∧ member < 8)) →
     a.val.toNat < 2 ^ (8 * szBytes o.size) →
     let n := szBytes o.size
     (∀ b, bar = some b → b + 16 ≤ key ∨ key + n ≤ b) →
     let old : BitVec (8 * n) := BitVec.ofNat _ (s.readLocNat a.loc n)
     ∃ (t : State) (g' : Group), exec (.storePerform k o.id (laneBit a.lane)) s = .next t ∧ t.group k = some g' ∧
       AtomicNew (if member = 8 then 10 else member) (8 * n) old (a.val.setWidth _) 0 (t.readLocNat a.loc n) ∧
       (∀ j, (j < key ∨ key + n ≤ j) → (∀ b, bar = some b → j < b ∨ b + 16 ≤ j) →
         Store.read t.scr j = Store.read s.scr j) ∧
       (∀ b, bar = some b →
         let o1 := s.readBar (.scr b)
         o1.arrived + n < 2 ^ 48 → Settles o1 (t.readBar (.scr b)) (o1.arrived + n) o1.expected o1.posted) ∧
       t.mem = s.mem ∧ g'.regs = g.regs) ∧
  (∀ (s : State) (k : GKey) (g : Group) (x : Task) (later : List Task) (r : Red) (key : Nat),
     s.Canonical → s.group k = some g → g.tasks = x :: later → s.commitReady k g x = true → NoCopies s →
     Tbl.sorted s.cores = true → x.txend = none → x.reds = [r] → x.ver = [] → x.effs = [] → x.devs = [] → x.marks = [] →
     x.save = false → g.saveWanted = false → g.ended = false → (s.ctx (s.lctx k.launch)).preq = false →
     r.acc.loc = .mem key → key < 2 ^ 52 → r.acc.attr.rnode = 0 → r.member < 9 →
     (r.size = 2 ∨ (r.size = 3 ∧ r.member < 8)) → r.acc.val.toNat < 2 ^ (8 * szBytes r.size) →
     let n := szBytes r.size
     let old : BitVec (8 * n) := BitVec.ofNat _ (s.readLocNat r.acc.loc n)
     ∃ (t : State) (new : Nat), exec (.taskCommit k) s = .next t ∧
       AtomicNew (if r.member = 8 then 10 else r.member) (8 * n) old (r.acc.val.setWidth _) 0 new ∧
       (∀ b, r.bar = some (.vlt b) → Wrote s t key n new ∧
         (let o1 := s.readBar (.vlt b)
          o1.arrived + n < 2 ^ 48 → Settles o1 (t.readBar (.vlt b)) (o1.arrived + n) o1.expected o1.posted)) ∧
       (r.bar = none → r.acc.attr.sa = true → Wrote s t key n new) ∧
       (r.bar = none → r.acc.attr.sa = false → t.mem = s.mem ∧ Wrote s (t.recallLine (lineOf key)) key n new))

/-- R233, R235 to R237: opening, nesting, closing and aborting a transaction, and the outcome words. That an inner `txend`
writes the mask of the lanes aborted so far is the model's choice (log entry 48). -/
def Obligations.Transactions : Prop :=
  ∀ (w : GW) (f : VI), w.Issues →
    (w.g.tx = none →
      (∃ g, exec (.txbegin f) w.s = .next (w.put g) ∧ g.txPend = some (w.eff f.mask 0 &&& ~~~w.helpers) ∧
        g.issuing = some { w.iss with boundary := true } ∧ g.regs = w.g.regs ∧ g.tasks = w.g.tasks) ∧
      (∃ o : MemOp, exec (.txend f) w.s =
          .next (w.put { w.g with memq := w.g.memq ++ [o], nextId := w.g.nextId + 1 }) ∧
        o.kind = .maskVal 0 ∧ o.dest = f.d.toNat) ∧
      exec (.txabort f) w.s = .next (w.put w.g)) ∧
    (∀ t, w.g.tx = some t →
      (t.depth < 8 → exec (.txbegin f) w.s = .next (w.put { w.g with tx := some { t with depth := t.depth + 1 } })) ∧
      (8 ≤ t.depth → ∃ t', exec (.txbegin f) w.s = .next (w.put { w.g with tx := some t' }) ∧
        ∀ x ∈ t'.lanes, x.lane < 32 → x.abort.isSome = true) ∧
      (1 < t.depth → ∃ (g : Group) (o : MemOp), exec (.txend f) w.s = .next (w.put g) ∧
        g.tx = some { t with depth := t.depth - 1 } ∧ g.memq = w.g.memq ++ [o] ∧ o.kind = .maskVal t.aborted) ∧
      (t.depth ≤ 1 → ∃ (g : Group) (t' : Tx), exec (.txend f) w.s = .next (w.put g) ∧ g.tx = none ∧
        g.issuing = some { w.iss with boundary := true } ∧
        (∀ k, w.g.openTask = some k → ∃ k', g.openTask = some k' ∧ k'.txend = some (t', f.d.toNat, w.n)) ∧
        t'.id = t.id ∧ t'.lanes.length = t.lanes.length ∧
        ∀ x ∈ t'.lanes, x.lane < 32 → (w.eff f.mask 0).getLsbD x.lane = false → x.abort.isSome = true) ∧
      (∃ t', exec (.txabort f) w.s = .next (w.put { w.g with tx := some t' }) ∧ t'.id = t.id ∧ t'.depth = t.depth ∧
        (∀ x ∈ t'.lanes, (w.eff f.mask 0).getLsbD x.lane = true → x.abort.isSome = true) ∧
        (∀ x ∈ t.lanes, (w.eff f.mask 0).getLsbD x.lane = false → x ∈ t'.lanes) ∧
        (∀ x ∈ t.lanes, (w.eff f.mask 0).getLsbD x.lane = true → x.abort = none →
          { x with abort := some (BitVec.ofNat 16 (4 + 256 * (f.imm.toNat % 256))), writes := [] } ∈ t'.lanes))) ∧
    (∃ o : MemOp, exec (.txstat f) w.s =
        .next (w.put { w.g with memq := w.g.memq ++ [o], nextId := w.g.nextId + 1 }) ∧
      o.kind = .txstat ∧ o.dest = f.d.toNat ∧ o.write = w.eff f.mask 0)

/-! ## Waits and barriers -/

/-- R238, R239: `waitw` reads its word at its home: a value that differs leaves the acquire of R251 before the group's
next clause, an equal one holds it; MONITOR_WAKE turns the wait into that acquire once the word differs.
R240, R241, R365: `barblk` and `bargng` hold the issuing slot and arrive with the commit of the task they close; the
arrival of the last live group completes the phase. That it empties the core's L1, where R241 asks that no older sector
stay, is the model's choice (log entry 47). -/
def Obligations.WaitsAndBarriers : Prop :=
  ((∀ (w w' : GW) (f : X) (va : BitVec 64) (l : Loc) (t : Attr) (s1 : State) (v : BitVec 64), w.Issues →
     let size := f.imm.toNat % 4
     w.grpCheck 0 (w.opdG f.f2) (szBytes size) false = (w', [(0, va, .ok l t)]) → t.dev = false →
     w'.s.monitorRead ⟨0, l, va, t, 0⟩ size = (s1, v, false) →
     let differs := v.toNat % 2 ^ (8 * 2 ^ size) ≠ (w.opdG f.f3).toNat % 2 ^ (8 * 2 ^ size)
     (differs → exec (.waitw f) w.s = .next (s1.setGroup w.key { w.g with holds := w.g.holds ++ [⟨.acq true, w.at_, w.n⟩] })) ∧
     (¬ differs → exec (.waitw f) w.s = .next (s1.setGroup w.key
       { w.g with holds := w.g.holds ++ [⟨.waitw ⟨0, l, va, t, 0⟩ size (w.opdG f.f3), w.at_, w.n⟩] }))) ∧
   (∀ (s s1 : State) (k : GKey) (g : Group) (a : Acc) (size : Nat) (exp v : BitVec 64) (at_ : WordAt) (n : Nat),
     s.group k = some g → g.saved = false → g.holds = [⟨.waitw a size exp, at_, n⟩] → s.monitorRead a size = (s1, v, false) →
     v.toNat % 2 ^ (8 * 2 ^ size) ≠ exp.toNat % 2 ^ (8 * 2 ^ size) →
     ∃ (t : State) (g' : Group), exec (.monitorWake k) s = .next t ∧ t.group k = some g' ∧ g'.holds = [⟨.acq true, at_, n⟩] ∧
       g'.regs = g.regs ∧ g'.memq = g.memq)) ∧
  ((∀ (w : GW) (f : X), w.Issues →
     (∃ g, exec (.barblk f) w.s = .next (w.put g) ∧ JoinsTask w g (.bar false (f.imm.toNat % 16) w.iss.slot 0) ∧
       slotWaits g.slotHolds w.iss.slot = slotWaits w.g.slotHolds w.iss.slot ++ [(false, f.imm.toNat % 16, 0)]) ∧
     (∃ (s' : State) (g : Group), exec (.bargng f) w.s = .next (s'.setGroup w.key g) ∧
       JoinsTask w g (.bar true (f.imm.toNat % 16) w.iss.slot 0) ∧
       slotWaits g.slotHolds w.iss.slot = slotWaits w.g.slotHolds w.iss.slot ++ [(true, f.imm.toNat % 16, 0)])) ∧
   (∀ (s : State) (k : GKey) (g : Group) (b : Block) (rest : List Eff) (idx slot ph : Nat),
     s.group k = some g → s.block (GKey.bkey k) = some b → b.st = .live →
     g.effq = .bar false idx slot ph :: rest → (s.bar k false idx).arrived = [] → (s.bar k false idx).next = [] →
     (∃ q, (s.group ⟨k.launch, k.block, q⟩).isSome = true ∧ q < 32 ∧ q ≠ k.gi) → k.gi < 32 →
     ∃ (t : State) (g' : Group), exec (.barrierArrival k) s = .next t ∧ t.group k = some g' ∧ g'.effq = rest ∧
       (t.bar k false idx).arrived = [GKey.num k] ∧ (t.bar k false idx).phase = (s.bar k false idx).phase ∧
       t.mem = s.mem) ∧
   (∀ (s : State) (k : GKey) (g : Group) (b : Block) (rest : List Eff) (idx slot ph : Nat),
     s.group k = some g → s.block (GKey.bkey k) = some b → b.st = .live →
     g.effq = .bar false idx slot ph :: rest → k.gi < 32 →
     (s.bar k false idx).arrived.contains (GKey.num k) = false → (s.bar k false idx).next = [] →
     (∀ q ∈ s.blockGroups k.launch k.block, s.away q = false) →
     (∀ q ∈ s.blockGroups k.launch k.block, q = k ∨ (s.bar k false idx).arrived.contains (GKey.num q) = true) →
     ∃ (t : State) (g' : Group), exec (.barrierArrival k) s = .next t ∧ t.group k = some g' ∧ g'.effq = rest ∧
       (t.bar k false idx).arrived = [] ∧ (t.bar k false idx).phase = (s.bar k false idx).phase + 1 ∧
       g'.sched.u = 0 ∧ (t.core b.core).l1 = []))

/-! ## Control flow -/
namespace Sys2Proof.Claims
/-- What a control word is given in the slot that issues: its path, the next header and the target (R267). -/
def ctlWord (w : GW) (p : Path) (f : B) : CW :=
  { i := w.iss.slot, p, next := w.iss.pos + w.iss.k + 2
    tgt := (BitVec.ofInt 64 (((w.iss.pos + w.iss.k + 2 : Nat) : Int) + f.disp.toInt)).toNat
    tok := f.tok, cond := w.cond f }
/-- Each row with its effect and with when it makes its target a position of the group. -/
noncomputable def controlRows : List ((B → Instr) × (Stk → CW → Ctl → Option CX) × (CW → Prop)) :=
  let some_ (x : CW) : Prop := x.p.m &&& x.cond ≠ 0
  let holds (x : CW) : Prop := x.cond ≠ 0
  [(.bra, ctlBra, some_), (.brau, ctlBrau, holds), (.join, ctlJoin, fun _ => False), (.brk, ctlBrk, fun _ => True),
    (.cont, ctlCont, some_), (.call, ctlCall, holds), (.ret, ctlRet, fun _ => False), (.exit, ctlExit, fun _ => False)]
/-- The target lies outside the window of a streaming segment (R293). -/
def Outside (w : GW) (x : CW) : Prop :=
  let d := w.s.segOf w.key
  d.kind = .stream ∧ d.len ≠ 0 ∧ (x.tgt < w.g.q ∨ w.g.q + d.len ≤ x.tgt)
/-- A stack entry as it stands in scratch (R276, R293). -/
def entryBits (w : GW) (p : Path) : Nat :=
  let d := w.s.segOf w.key
  p.m.toNat + 2 ^ 64 * ((if d.kind = .stream ∧ d.len ≠ 0 then p.pc % d.len else p.pc) % 2 ^ 14) + 2 ^ 117 * p.t.toNat

/-- Control state in which a word's own effect shows: the acting path alone in the slots, nothing stacked, no record
complete or empty and room for one more. -/
structure Plain (x : CW) (c : Ctl) : Prop where
  slot : (x.i = 0 ∧ c.slot0 = some x.p ∧ c.slot1 = none) ∨ (x.i = 1 ∧ c.slot1 = some x.p ∧ c.slot0 = none)
  stack : c.depth = 0
  open_ : ∀ r ∈ c.recs, r.arr ≠ r.exp ∧ r.exp ≠ 0
  room : c.recs.length < 16

/-- `c` with the paths `p` in the acting slot and `q` in the other, and other records. -/
def Moved (x : CW) (c c' : Ctl) (p q : Option Path) (recs : List Rec) : Prop :=
  c'.slot x.i = p ∧ c'.slot (1 - x.i) = q ∧ c'.recs = recs ∧ c'.depth = 0 ∧ c'.held = c.held ∧ c'.last = c.last
end Sys2Proof.Claims

/-- R265, R267: a control word replaces the control state of its group by what its operation gives and moves the path on; a
stack or record table without room traps DIVSTACK_OVERFLOW. It changes no register and, where it pushes nothing, no byte.
R293: a target that a streaming segment's window does not hold traps SEG_END.
R276, R277: an entry pushed no lower than the boundary depth of each task still to commit is written to its place in scratch
at once, unless an earlier push to that depth still waits; any other is held, and joins the effects of its task, which the
clause closes if the push is below its boundary's depth. No other byte changes.
R278, R253: where a record closes, each access in flight that a path which arrived at it, or left it by `break`, `ret` or `exit`,
issued comes before those that a path with lanes of the merged one issues from this word on. That an order names lanes, and so
also holds for another path that shares one of them, is the model's choice (log entry 87). -/
def Obligations.ControlWords : Prop :=
  ∀ (w : GW) (f : B) (p : Path), w.Issues → w.g.ctl.slot w.iss.slot = some p →
    ∀ r ∈ controlRows,
    let cw := ctlWord w p f
    Compared w (r.1 f) p.m (fun l m => (w.cond f).getLsbD l = (w.cond f).getLsbD m) (
    (r.2.2 cw → Outside w cw → w.g.trap = none →
      ∃ g', exec (r.1 f) w.s = .next (w.put g') ∧ Trapped w.g g' Cause.segEnd) ∧
    (¬(r.2.2 cw ∧ Outside w cw) →
    (∀ x, r.2.1 (w.s.stk w.key w.g.q) cw w.g.ctl = some x → x.pushed = [] →
      ∃ g : Group, exec (r.1 f) w.s = .next (w.put g) ∧ g.ctl = x.c ∧
        g.issuing = some { w.iss with moved := true, boundary := w.iss.boundary || x.c.exited == 0xFFFFFFFF } ∧
        g.regs = w.g.regs ∧ g.pend = w.g.pend ∧ g.memq = w.g.memq ∧
        ((∀ t, w.g.openTask = some t → ∀ j q, Eff.push j q ∉ t.effs) → g.tasks = w.g.tasks) ∧
        ∀ m ∈ x.joined, ∀ o ∈ w.g.memq, o.issued < w.n → o.path &&& m.1 ≠ 0 → ∀ i n, w.n ≤ i → n &&& m.2 ≠ 0 →
          g.ordered o.issued o.path i n = true) ∧
    (∀ x, r.2.1 (w.s.stk w.key w.g.q) cw w.g.ctl = some x → x.pushed ≠ [] → w.s.Canonical → Tbl.sorted w.g.ctl.held = true →
      let at_ (j : Nat) : Nat := w.s.stkAddr w.key j
      ∃ (t : State) (g : Group), exec (r.1 f) w.s = .next t ∧ t.group w.key = some g ∧ t.mem = w.s.mem ∧ t.vlt = w.s.vlt ∧
        g.regs = w.g.regs ∧ g.pend = w.g.pend ∧ g.memq = w.g.memq ∧ g.ctl = { x.c with held := g.ctl.held } ∧
        (∀ j ∈ x.pushed, ∃ q, Tbl.find x.c.held j = some q ∧
          ((∀ y ∈ w.g.tasks, y.snap.ctl.depth ≤ j) → w.g.pushWaits j = false →
            t.readLocNat (.scr (at_ j)) 16 = entryBits w q ∧ Tbl.find g.ctl.held j = none) ∧
          ((∃ y ∈ w.g.tasks, j < y.snap.ctl.depth) ∨ w.g.pushWaits j = true →
            Tbl.find g.ctl.held j = some q ∧
              ∀ y, w.g.openTask = some y → ∃ y', g.openTask = some y' ∧ Eff.push j q ∈ y'.effs)) ∧
        (∀ y, w.g.openTask = some y → (∃ j ∈ x.pushed, j < y.snap.ctl.depth) →
          g.issuing = some { w.iss with moved := true, boundary := true }) ∧
        ∀ key, (∀ j ∈ x.pushed, key < at_ j ∨ at_ j + 16 ≤ key) → Store.read t.scr key = Store.read w.s.scr key) ∧
    (r.2.1 (w.s.stk w.key w.g.q) cw w.g.ctl = none → w.g.trap = none →
      ∃ g', exec (r.1 f) w.s = .next (w.put g') ∧ Trapped w.g g' Cause.divstackOverflow)))

/-- R269: a branch whose lanes disagree leaves the lanes that do not take it at the next header and makes a new path of
the others at the target, both under the branch's token, whose record expects all of them; a branch whose lanes agree
moves its path.
R270: the arrival of a path at the `join` of its record ends the path; the last one to arrive closes the record, and
the merged path goes on under the token the record kept. Any other `join` is a `nop`. -/
def Obligations.BranchesAndJoins : Prop :=
  (∀ (k : Stk) (x : CW) (c : Ctl), Plain x c → x.tgt ≠ x.next →
     let T := x.p.m &&& x.cond
     let N := x.p.m &&& ~~~x.cond
     let own : Rec := ⟨x.tok, false, x.p.m, 0, x.p.t, none, 0⟩
     x.p.m ≠ 0 →
     (T = 0 → ∃ y, ctlBra k x c = some y ∧ y.pushed = [] ∧ Moved x c y.c (some { x.p with pc := x.next }) none c.recs) ∧
     (T ≠ 0 → N = 0 →
       ∃ y, ctlBra k x c = some y ∧ y.pushed = [] ∧ Moved x c y.c (some { x.p with pc := x.tgt }) none c.recs) ∧
     (T ≠ 0 → N ≠ 0 → ∃ y, ctlBra k x c = some y ∧ y.pushed = [] ∧
       Moved x c y.c (some ⟨x.next, N, x.tok⟩) (some ⟨x.tgt, T, x.tok⟩) (if x.p.t = x.tok then c.recs else own :: c.recs)) ∧
     (∃ y, ctlBrau k x c = some y ∧ y.pushed = [] ∧
       Moved x c y.c (some ⟨if x.cond = 0 then x.next else x.tgt, x.p.m, if x.tok = 0 then x.p.t else x.tok⟩) none
         (if x.tok = 0 ∨ x.p.t = x.tok then c.recs else own :: c.recs))) ∧
  (∀ (k : Stk) (x : CW) (c : Ctl) (r : Rec) (rest : List Rec), Plain x c → x.p.m ≠ 0 →
     (x.p.t ≠ x.tok → ∃ y, ctlJoin k x c = some y ∧ y.pushed = [] ∧
       Moved x c y.c (some { x.p with pc := x.next }) none c.recs) ∧
     (c.recs = r :: rest → x.tok ≠ 0 → r.tok = x.tok → x.p.t = x.tok → r.exp &&& x.p.m = x.p.m → r.exp ≠ 0 →
       (r.arr ||| x.p.m ≠ r.exp → ∃ y, ctlJoin k x c = some y ∧ y.pushed = [] ∧
         Moved x c y.c none none ({ r with arr := r.arr ||| x.p.m, cont := some x.next } :: rest)) ∧
       (r.arr ||| x.p.m = r.exp → ∃ y, ctlJoin k x c = some y ∧ y.pushed = [] ∧
         Moved x c y.c (some ⟨x.next, r.exp, r.pt⟩) none rest)))

/-- R271 to R273: `break` and `cont` out of the nearest record of a path, a call, the return to it, and an exit that ends
every lane. The lanes that leave a record by `exit` are kept, for the order of its closing (R253, R278). -/
def Obligations.CallsBreaksAndExits : Prop :=
  ∀ (k : Stk) (x : CW) (c : Ctl) (r : Rec) (rest : List Rec), Plain x c → x.p.m ≠ 0 → x.tgt ≠ x.next →
    (c.recs = r :: rest → r.tok = x.tok → x.tok ≠ 0 → x.p.t = x.tok → r.exp &&& x.p.m = x.p.m →
      r.arr &&& x.p.m = 0 →
      let B := x.p.m &&& x.cond
      let N := x.p.m &&& ~~~x.cond
      (N ≠ 0 → B ≠ 0 → r.arr ||| B ≠ r.exp →
        ∃ y, ctlBrk k x c = some y ∧ y.pushed = [] ∧
          Moved x c y.c (some ⟨x.next, N, x.tok⟩) none ({ r with arr := r.arr ||| B, cont := some x.tgt } :: rest)) ∧
      (N ≠ 0 → B ≠ 0 → ∃ y, ctlCont k x c = some y ∧ y.pushed = [] ∧
        ∃ i, (i = x.i ∨ i = 1 - x.i) ∧ y.c.slot i = some ⟨x.tgt, B, x.tok⟩ ∧ y.c.slot (1 - i) = some ⟨x.next, N, x.tok⟩ ∧
          y.c.recs = c.recs)) ∧
    (x.cond ≠ 0 → ∃ y, ctlCall k x c = some y ∧ y.pushed = [] ∧
      Moved x c y.c (some ⟨x.tgt, x.p.m, x.tok⟩) none (⟨x.tok, true, x.p.m, 0, x.p.t, some x.next, 0⟩ :: c.recs)) ∧
    (∀ a, c.recs = r :: rest → r.tok = x.tok → r.call = true → x.tok ≠ 0 → x.p.t = x.tok → r.exp = x.p.m → r.arr = 0 →
      r.cont = some a → x.p.m &&& x.cond = x.p.m →
      ∃ y, ctlRet k x c = some y ∧ y.pushed = [] ∧ Moved x c y.c (some ⟨a, x.p.m, r.pt⟩) none rest) ∧
    (c.recs = [r] → x.p.t ≠ 0 → r.tok = x.p.t → r.pt = 0 → r.exp &&& x.p.m = x.p.m →
      let E := x.p.m &&& x.cond
      let N := x.p.m &&& ~~~x.cond
      N ≠ 0 → r.arr ≠ r.exp &&& ~~~E → ∃ y, ctlExit k x c = some y ∧ y.pushed = [] ∧ y.joined = [] ∧
        y.c.exited = c.exited ||| E ∧
        Moved x c y.c (some ⟨x.next, N, x.p.t⟩) none [{ r with exp := r.exp &&& ~~~E, left := r.left ||| (r.exp &&& E) }]) ∧
    (c.recs = [] → x.p.m &&& x.cond = x.p.m → ∃ y, ctlExit k x c = some y ∧ y.pushed = [] ∧
      y.c.exited = c.exited ||| x.p.m ∧ Moved x c y.c none none [])

/-! ## Task control, fences, system words -/

/-- R53, R237, R249 to R251, R369, R371: what each word leaves with its group; nothing else changes. -/
def Obligations.TaskAndSystemWords : Prop :=
  ∀ (w : GW) (f : VI), w.Issues →
    let closed : Group := { w.g with issuing := some { w.iss with boundary := true } }
    let scope := f.imm.toNat % 8
    let hold (h : Hold) : HoldAt := ⟨h, w.at_, w.n⟩
    let rel : Hold := .rel (if 2 ≤ scope then some w.g.tseq else none) (scope == 5)
    exec (.tmark f) w.s = .next (w.put closed) ∧
    exec (.gfenceRel f) w.s = .next (w.put
      { (if 2 ≤ scope then closed else w.g) with holds := w.g.holds ++ [hold rel] }) ∧
    exec (.gfenceAcq f) w.s = .next (w.put { w.g with holds := w.g.holds ++ [hold (.acq (decide (2 ≤ scope)))] }) ∧
    exec (.gfenceAcqrel f) w.s = .next (w.put
      { (if 2 ≤ scope then closed else w.g) with
        holds := w.g.holds ++ [hold rel, hold (.acq (decide (2 ≤ scope)))] }) ∧
    exec (.nop (.clause f)) w.s = .next w.s ∧
    (∃ g, exec (.yield f) w.s = .next (w.put g) ∧ g.issuing = closed.issuing ∧ g.regs = w.g.regs ∧
      ∀ t, w.g.openTask = some t →
        g.openTask = some { t with save := t.save || ((w.s.ctx w.ctx).preq && w.g.tx.isNone) }) ∧
    ((w.s.ctx w.ctx).dbgen = false → exec (.dbgbrk f) w.s = .next w.s) ∧
    (let lanes := w.eff f.mask 0 &&& ~~~w.helpers
     (lanes = 0 → exec (.trap f) w.s = .next w.s) ∧
     (lanes ≠ 0 → w.g.trap = none →
       (∃ t : TrapInfo, exec (.trap f) w.s = .next (w.put
           { w.g with trap := some t, issuing := some { w.iss with halted := true } }) ∧
         t.cause = Cause.software ∧ t.brk = false ∧ t.code = f.imm.setWidth 16 ∧
         ∀ l, l < 32 → lanes.getLsbD l = true → ∃ r, Tbl.find t.lanes l = some r ∧ r.cause = Cause.software) ∧
       ((w.s.ctx w.ctx).dbgen = true → ∃ t : TrapInfo, exec (.dbgbrk f) w.s = .next (w.put
           { w.g with trap := some t, issuing := some { w.iss with halted := true } }) ∧
         t.cause = Cause.software ∧ t.brk = true)))

/-! ## Special registers and words about Affinage and power -/
namespace Sys2Proof.Claims
/-- What a read of a special register gives in a lane (R28, R180). -/
def specialRows (w : GW) (l : Nat) : List (Nat × BitVec 64) :=
  let c := w.core
  [(0x000, BitVec.ofNat 64 (if w.protect then l / 2 else l)), (0x001, BitVec.ofNat 64 w.key.gi),
    (0x002, BitVec.ofNat 64 w.key.block), (0x003, BitVec.ofNat 64 (c % 8)), (0x004, BitVec.ofNat 64 (c / 8 % 24)),
    (0x005, BitVec.ofNat 64 (c / 192)), (0x006, BitVec.ofNat 64 w.g.clk),
    (0x007, BitVec.ofNat 64 (w.s.chiplet (c / 192)).reftime), (0x008, (w.s.thermal (c / 8)).setWidth 64),
    (0x00A, BitVec.ofNat 64 (w.key.launch % 2 ^ 24)), (0x00B, w.g.tseq.setWidth 64), (0x00D, w.g.regs.srseed),
    (0x00E, if (w.s.ctx w.ctx).preq then 1 else 0), (0x00F, (w.s.chiplet (c / 192)).features),
    (0x010, (w.s.chiplet (c / 192)).errata)] ++
  [(0x009, BitVec.ofNat 64 (((List.range (if w.protect then 16 else 32)).filter (fun i =>
    w.iss.act.getLsbD (if w.protect then 2 * i else i))).map (2 ^ ·)).sum)] ++
  (if w.g.pend = [] then [(0x00C, w.g.regs.fpflags.setWidth 64), (0x011, w.g.regs.mxflags.setWidth 64)] else [])
end Sys2Proof.Claims

/-- R28, R146, R149, R179, R180: reads of every special register, and the writes that wait for their cycle. That `$reftime`,
`$thermal` and `$preempt` are read as the word issues, the one instant that R180 leaves open, is the model's choice (log
entry 54). R28, R146: what such a write leaves once its cycle has come: `$fpflags` and `$srseed` the value, with the feedback
registers seeded anew, and `$mxflags` without the bits that are written 1.
R343, R363: what the words about Affinage and power read, the hold of `affwait`, and `affpop`, whose record is taken
after its commit. -/
def Obligations.SpecialRegistersAffinageAndPower : Prop :=
  (∀ (pr : Bool) (rs : Regs) (p : Pend),
    let x := p.vals.getD 0 0
    (p.dest = .fpflags → rs.land pr p = { rs with fpflags := x.setWidth 6 }) ∧
    (p.dest = .mxflags → ∃ b : BitVec 1, rs.land pr p = { rs with mxflags := b } ∧
      (b = 1 ↔ rs.mxflags = 1 ∧ x.getLsbD 0 = false)) ∧
    (p.dest = .srseed → ∃ fb, rs.land pr p = { rs with srseed := x, fb := fb } ∧ ∀ l, l < 32 →
      let n := if pr then l / 2 else l
      let t := x.extractLsb' 0 32 ^^^ x.extractLsb' 32 32 ^^^ BitVec.ofNat 32 ((n + 1) * 0x9E3779B9)
      Store.read fb l = if t = 0 then 1 else t)) ∧
  (∀ (w : GW) (f : VI), w.Issues →
    (f.imm.toNat < 4096 → ∃ v : Nat → BitVec 64,
      (∀ l, l < 32 → (w.eff f.mask 0).getLsbD l = true → ∀ r ∈ specialRows w l, r.1 = f.imm.toNat → v l = r.2) ∧
      exec (.vsr f) w.s = .next (w.gives
        (lanePends f.d (special64 (immNum f.imm)) (w.eff f.mask 0) (w.g.clk + 2) v))) ∧
    (f.imm.toNat < 4096 → ∃ v : BitVec 64, (∀ r ∈ specialRows w 0, r.1 = f.imm.toNat → v = r.2) ∧
      Predicated w (.gsr f) (w.predBits f.mask) (w.gives [⟨.g f.d.toNat, 0, [v], w.g.clk + 2⟩])) ∧
    (f.imm = 0x00C → Predicated w (.gsw f) (w.predBits f.mask) (w.gives [⟨.fpflags, 0, [w.opdG f.a], w.g.clk + 2⟩])) ∧
    (f.imm = 0x011 → Predicated w (.gsw f) (w.predBits f.mask) (w.gives [⟨.mxflags, 0, [w.opdG f.a], w.g.clk + 2⟩])) ∧
    Predicated w (.srseed f) (w.predBits f.mask) (w.gives [⟨.srseed, 0, [w.opdG f.a], w.g.clk + 2⟩])) ∧
  ∀ (w : GW) (f : VI), w.Issues →
    let x := w.s.ctx w.ctx
    let c := w.s.cluster (clusterOf w.core)
    (∃ v : BitVec 64, Predicated w (.affcnt f) (w.predBits f.mask) (w.gives [⟨.g f.d.toNat, 0, [v], w.g.clk + 2⟩]) ∧
      (f.imm = 0 → v.toNat % 2 ^ 16 = (x.rqTail - x.rqHead).toNat ∧ (v >>> 32).setWidth 16 = x.lost ∧
        v.getLsbD 63 = x.rqOvf) ∧
      (f.imm = 2 → v = BitVec.ofNat 64 w.g.audits.length)) ∧
    Predicated w (.affwait f) (w.predBits f.mask) (w.put { w.g with holds := w.g.holds ++ [⟨.affwait, w.at_, w.n⟩] }) ∧
    (w.predBits f.mask = true → ∃ g, exec (.affpop f) w.s = .next (w.put g) ∧
      JoinsTask w g (.affpop f.d.toNat w.s.now)) ∧
    (∃ v : BitVec 64, Predicated w (.tkpool f) (w.predBits f.mask) (w.gives [⟨.g f.d.toNat, 0, [v], w.g.clk + 2⟩]) ∧
      v.toNat % 2 ^ 12 = c.ring.pool % 2 ^ 12 ∧ v.toNat / 2 ^ 24 % 2 ^ 12 = c.ring.idle % 2 ^ 12 ∧
      v.toNat / 2 ^ 36 % 2 ^ 12 = c.therm.allow % 2 ^ 12 ∧ v.toNat / 2 ^ 48 = w.s.market.epoch.toNat % 2 ^ 16) ∧
    (∃ v : BitVec 64, Predicated w (.tkstat f) (w.predBits f.mask) (w.gives [⟨.g f.d.toNat, 0, [v], w.g.clk + 2⟩]) ∧
      v.toNat / 2 ^ 32 = w.g.sched.taken.toNat)


/-! ## The elements of a matrix operation -/
namespace Sys2Proof.Claims
/-- The types of A's and B's elements and K, by the index of the input type (R184; the codes are those of R40). -/
def mxTypes : List (Nat × Nat × Nat) :=
  [(9, 9, 32), (8, 8, 32), (11, 11, 64), (12, 12, 64), (0, 0, 64), (4, 4, 64), (13, 13, 128), (11, 14, 128)]

/-- The operands of one member where R186 lays them: the groups of the member and of the lead read no damaged
register. -/
structure MxOperands (v : MxView) (lead : Group) (tA tB K : Nat) : Prop where
  types : mxTypes[v.ty]? = some (tA, tB, K)
  own : v.grp.badRegs = []
  leads : v.lead = some lead
  sound : lead.badRegs = []

/-- Element `pos` of `e` bits in a lane of a register. -/
def element (x : BitVec 32) (e pos : Nat) : Nat := x.toNat / 2 ^ (e * pos) % 2 ^ e
def mxA (v : MxView) (tA K i k : Nat) : Nat :=
  let e := tyWidth tA
  let h := K / 2
  element (v.grp.readV v.n (v.arr.a + k % h / (32 / e)) (i + 16 * (k / h))) e (k % h % (32 / e))
def mxB (v : MxView) (lead : Group) (tB k n : Nat) : Nat :=
  let e := tyWidth tB
  element (lead.readV v.n (v.larr.b + k / (32 / e)) n) e (k % (32 / e))
def mxC (v : MxView) (i n : Nat) : BitVec 32 := v.grp.readV v.n (v.arr.c + i) n

/-- The factors that the B scale gives a product, and with it the A scale. -/
def bScales (v : MxView) (lead : Group) (k n : Nat) : List FVal :=
  if 6 ≤ v.ty then [fDecode 15 (element (lead.readV v.n v.larr.sc n) 8 (k / 32))] else []
def aScales (v : MxView) (i k : Nat) : List FVal :=
  if v.ty = 6 then [fDecode 15 (element (v.grp.readV v.n (v.arr.sc + 1) i) 8 (k / 32))] else []

/-- What run `r` adds to an element, each addend as its factors: sixteen products, and the products of the outliers of
this row and run that are not dropped (R191, R194, R195). -/
def addends (v : MxView) (lead : Group) (tA tB K i n r : Nat) : List (List FVal) :=
  let b (k : Nat) : FVal := fDecode tB (mxB v lead tB k n)
  (List.range 16).map (fun j =>
    let k := 16 * r + j
    [fDecode tA (mxA v tA K i k), b k] ++ aScales v i k ++ bScales v lead k n) ++
  (match v.arr.outl with
    | none => []
    | some o => (List.range o.count).flatMap (fun q =>
        let x := (v.grp.readV v.n o.reg q).toNat
        let k := x % 2 ^ 7
        let kept := x / 2 ^ 7 % 2 ^ 5 = 0 ∧ k < K ∧ x / 2 ^ 23 % 2 ^ 8 ≠ 255
        if kept ∧ x / 2 ^ 12 % 2 ^ 4 = i ∧ k / 16 = r then [[fDecode 9 (x / 2 ^ 16), b k] ++ bScales v lead k n] else []))

/-- A product of factors: its value, its sign, and when it is a NaN, an infinity, or raises invalid (R192, R137). A scale
is a factor from the third on. -/
noncomputable def prodVal (t : List FVal) : ℝ := (t.map val).prod
def prodNeg (t : List FVal) : Prop := (t.filter fNeg).length % 2 = 1
def zeroTimesInf (t : List FVal) : Prop := (∃ x ∈ t, ∃ n e, x = FVal.fin n 0 e) ∧ ∃ x ∈ t, ∃ n, x = FVal.inf n
def prodNaN (t : List FVal) : Prop := (∃ x ∈ t, fIsNaN x = true) ∨ zeroTimesInf t
def prodInvalid (t : List FVal) : Prop :=
  (∃ x ∈ t, fIsSNaN x = true) ∨ ((∀ x ∈ t, fIsNaN x = false) ∧ zeroTimesInf t) ∨ ∃ x ∈ t.drop 2, fIsNaN x = true

/-- One run of a floating element: `c` and the addends are added exactly and rounded once to f32, to nearest. -/
def FloatRun (c : FVal) (ts : List (List FVal)) (r : Nat × Flags) : Prop :=
  let nan := fIsNaN c = true ∨ ∃ t ∈ ts, prodNaN t
  let inf (n : Bool) : Prop := c = .inf n ∨ ∃ t ∈ ts, (∃ x ∈ t, ∃ m, x = FVal.inf m) ∧ (prodNeg t ↔ n = true)
  let inval := fIsSNaN c = true ∨ (∃ t ∈ ts, prodInvalid t) ∨ (¬nan ∧ inf true ∧ inf false)
  (nan ∨ (inf true ∧ inf false) → r.1 = fNaN 10 ∧ (r.2 = 0 ∨ r.2 = flInvalid) ∧ (inval → r.2 = flInvalid) ∧
    (¬inval → ¬(inf true ∧ inf false) → r.2 = 0)) ∧
  (¬nan → ∀ n, inf n → ¬inf (!n) → r = (withSign 10 n (fInf 10), 0)) ∧
  (¬nan → ¬inf true → ¬inf false → ∀ z : Bool, (z = true ↔ fNeg c = true ∧ ∀ t ∈ ts, prodNeg t) →
    OnceRounded 10 0 false 0 z (val c + (ts.map prodVal).sum) r)
end Sys2Proof.Claims

/-- R186, R191 to R195: one element of a member's C. An integer element is C, or 0 for `vmmaz`, plus the products of all
steps, modulo 2^32; with `.sat` the sum is clamped after each run of 16, and bit 5 is raised where a clamp changed it. A
floating element is rounded once a run; its run adds the products, scaled where the type has scales, and the outliers
that are not dropped. That both infinities beside a NaN may leave invalid raised or not is here left open; the model's
choice is log entry 80. -/
def Obligations.MatrixElements : Prop :=
  ∀ (v : MxView) (lead : Group) (tA tB K i n : Nat) (zero : Bool), MxOperands v lead tA tB K → i < 16 → n < 32 →
    (v.ty = 4 ∨ v.ty = 5 →
      let signed := v.ty == 4
      let num (e x : Nat) : Int := if signed ∧ 2 ^ (e - 1) ≤ x then (x : Int) - 2 ^ e else x
      let c0 : Int := if zero then 0 else num 32 (mxC v i n).toNat
      let p (k : Nat) : Int := num 8 (mxA v tA K i k) * num 8 (mxB v lead tB k n)
      (let r := v.el zero false i n
       r.2 = 0 ∧ (2 ^ 32 : Int) ∣ (r.1.toNat : Int) - (c0 + ((List.range 64).map p).sum)) ∧
      (∃ c : Nat → Int, c 0 = c0 ∧
        (∀ j, j < 4 → c (j + 1) = max (minOf (if signed then 2 else 6)) (min (maxOf (if signed then 2 else 6))
          (c j + ((List.range 16).map (fun q => p (16 * j + q))).sum))) ∧
        (v.el zero true i n).1 = BitVec.ofInt 32 (c 4) ∧
        ((∀ j, j < 4 → c (j + 1) = c j + ((List.range 16).map (fun q => p (16 * j + q))).sum) →
          (v.el zero true i n).2 = 0) ∧
        ((∃ j, j < 4 ∧ c (j + 1) ≠ c j + ((List.range 16).map (fun q => p (16 * j + q))).sum) →
          (v.el zero true i n).2 = flIntSat))) ∧
    (v.ty ≠ 4 → v.ty ≠ 5 → ∀ sat, ∃ (c : Nat → Nat) (fl : Nat → Flags),
      c 0 = (if zero then 0 else (mxC v i n).toNat) ∧
      (∀ r, r < K / 16 → FloatRun (fDecode 10 (c r)) (addends v lead tA tB K i n r) (c (r + 1), fl r)) ∧
      v.el zero sat i n = (BitVec.ofNat 32 (c (K / 16)), (List.range (K / 16)).foldl (fun f r => f ||| fl r) 0))
/-! ## The Starter -/
namespace Sys2Proof.Claims
/-- The context of `w` in state `s`. -/
def ctxAt (w : SW) (s : State) : SCtx := s.starter w.cl w.j
/-- The context after that of `w` is next to be looked at. -/
def turnPast (w : SW) (s : State) : State := s.setCluster w.cl { s.cluster w.cl with strTurn := (w.j + 1) % 4 }
/-- The word completes: the context stands at `pc` with register `d` at `v` (R25: a write to `s0` is discarded) and the
others as they were, in the state `s'` that its accesses left; the Starter's next turn begins behind it (R280). -/
def StarterDone (w : SW) (i : Instr) (s' : State) (pc : BitVec 64) (d : BitVec 6) (v : BitVec 64) : Prop :=
  ∃ c : SCtx, exec i w.s = .next (turnPast w (s'.setStarter w.cl w.j c)) ∧ c.pc = pc ∧
    (∀ r : BitVec 6, c.rd r = if r = d ∧ d ≠ 0 then v else (ctxAt w s').rd r) ∧
    c.launch = (ctxAt w s').launch ∧ c.stopped = (ctxAt w s').stopped ∧ c.refs = (ctxAt w s').refs ∧
    c.dlcyc = (ctxAt w s').dlcyc ∧ c.emitser = (ctxAt w s').emitser

noncomputable def strLoadRows : List ((S → Instr) × Nat × Bool) :=
  [(.ld8, 1, false), (.ld16, 2, false), (.ld32, 4, false), (.ld64, 8, false), (.ldx8, 1, true), (.ldx16, 2, true),
    (.ldx32, 4, true)]
noncomputable def strStoreRows : List ((S → Instr) × Nat) := [(.st8, 1), (.st16, 2), (.st32, 4), (.st64, 8)]
noncomputable def branchRows : List ((S → Instr) × (BitVec 64 → BitVec 64 → Bool)) :=
  [(.beq, fun a b => a == b), (.bne, fun a b => a != b), (.blt, fun a b => a.slt b), (.bltn, fun a b => a.ult b),
    (.bge, fun a b => b.sle a), (.bgen, fun a b => b.ule a)]
end Sys2Proof.Claims

/-- R175: group-wide functions on `s` registers; a write to `s0` is discarded. -/
def Obligations.StarterArithmetic : Prop :=
  ∀ (w : SW) (f : S), w.Runs → Store.wf w.c.s = true →
    (∀ p ∈ gRows.zipIdx,
      StarterDone w (.starterGroupOp 0 (BitVec.ofNat 8 (if p.2 < 13 then p.2 else p.2 + 1)) f) w.s (w.c.pc + 8) f.d
        (p.1.2.2 (w.rd f.a) (w.rd f.b))) ∧
    StarterDone w (.starterGroupOp 0 13 f) w.s (w.c.pc + 8) f.d
      (if (w.rd f.b).getLsbD 0 then w.rd f.a else w.rd f.d) ∧
    (∀ p ∈ gImmRows.zipIdx, (f.imm.toNat < 64 ∨ p.2 < 4 ∨ 6 < p.2) →
      StarterDone w (.starterGroupOp 1 (BitVec.ofNat 8 p.2) f) w.s (w.c.pc + 8) f.d
        (p.1.2.2 (w.rd f.a) (w.rd f.d) f.imm))

/-- R282: a load whose access succeeds puts the bytes, lowest first and extended, into its register; a store whose checks
pass stands at its home, outside the register window. A misaligned address is a level-1 fault with sub-code ALIGN. -/
def Obligations.StarterLoadsAndStores : Prop :=
  ∀ (w : SW) (f : S), w.Runs →
    let ea := w.rd f.a + f.imm.signExtend 64
    (∀ r ∈ strLoadRows, ∀ (s' : State) (bs : List Byte), w.s.strRead w.ctx w.ch ea r.2.1 4000 = (s', .ok bs) →
      bs.length = r.2.1 → Store.wf (ctxAt w s').s = true →
      StarterDone w (r.1 f) s' (w.c.pc + 8) f.d
        (if r.2.2 = true ∧ 2 ^ (8 * r.2.1 - 1) ≤ leNat bs then BitVec.ofInt 64 ((leNat bs : Int) - 2 ^ (8 * r.2.1))
         else BitVec.ofNat 64 (leNat bs))) ∧
    (∀ r ∈ strStoreRows, ∀ (s' : State) (key : Nat) (a : Attr),
      w.s.strCheck w.ctx w.ch ea r.2 true 4000 = (s', .ok (.mem key) a) → a.dev = false → a.rnode = 0 → s'.Canonical →
      ∃ (t : State), exec (r.1 f) w.s = .next t ∧ (ctxAt w t).pc = w.c.pc + 8 ∧ (ctxAt w t).s = (ctxAt w s').s ∧
        ∀ i, i < r.2 → Store.read t.mem (key + i) = BitVec.ofNat 8 ((w.rd f.b).toNat / 256 ^ i)) ∧
    (∀ i ∈ strLoadRows.map (fun r => (r.1 f, r.2.1)) ++ strStoreRows.map (fun r => (r.1 f, r.2)),
      ea.toNat % i.2 ≠ 0 → ∃ t, exec i.1 w.s = .next t ∧ (ctxAt w t).stopped = true ∧ (ctxAt w t).fvalid = true ∧
        (ctxAt w t).cause = Cause.starterFault ∧ (ctxAt w t).sub = Sub.align ∧ (ctxAt w t).faddr = ea ∧
        (ctxAt w t).fpc = w.c.pc ∧ (ctxAt w t).s = w.c.s ∧ t.host.intstat.getLsbD 2 = true ∧ t.mem = w.s.mem)

/-- R281, R283: branches, jumps, `fence`, `nop`, the control and status registers and the end of a context. -/
def Obligations.StarterControl : Prop :=
  ∀ (w : SW) (f : S), w.Runs → Store.wf w.c.s = true →
    let target := w.c.pc + 8 * (1 + f.imm.signExtend 64)
    (∀ r ∈ branchRows, StarterDone w (r.1 f) w.s (if r.2 (w.rd f.a) (w.rd f.b) then target else w.c.pc + 8) 0 0) ∧
    StarterDone w (.jal f) w.s target f.d (w.c.pc + 8) ∧
    StarterDone w (.jalr f) w.s (w.rd f.a + f.imm.signExtend 64) f.d (w.c.pc + 8) ∧
    StarterDone w (.fence f) w.s (w.c.pc + 8) 0 0 ∧
    StarterDone w (.nop (.starter f)) w.s (w.c.pc + 8) 0 0 ∧
    (∃ v : BitVec 64, StarterDone w (.csrr f) w.s (w.c.pc + 8) f.d v ∧
      (f.imm = 0x00 → v = BitVec.ofNat 64 w.j) ∧ (f.imm = 0x04 → v = BitVec.ofNat 64 (w.launch % 2 ^ 24)) ∧
      (f.imm = 0x07 → v = (w.s.lrec w.launch).imgbase) ∧ (f.imm = 0x0C → v = w.c.emitser.setWidth 64) ∧
      (f.imm = 0x0E → v = w.c.dlcyc.setWidth 64) ∧
      ∀ i, i < 8 → f.imm = BitVec.ofNat 32 (0x20 + i) → v = (w.s.lrec w.launch).arg i) ∧
    (∃ t, exec (.csrw f) w.s = .next t ∧ (ctxAt w t).dlcyc = (w.rd f.a).setWidth 32 ∧ (ctxAt w t).pc = w.c.pc + 8 ∧
      (ctxAt w t).s = w.c.s ∧ t.mem = w.s.mem) ∧
    ((w.s.cluster w.cl).unbound = [] → ∃ t, exec (.strEnd f) w.s = .next t ∧ (ctxAt w t).launch = none ∧ (ctxAt w t).s = [] ∧
      (∀ d ∈ (w.s.cluster w.cl).openStatic w.j, (t.desc w.cl d).used = false) ∧ t.mem = w.s.mem)

/-- R284 to R289: a segment is opened with a handle, its owner emits words at its emit pointer with their provenance, and
patches them; a handle that is stale, not its own or sealed is a level-1 fault BADSEG. -/
def Obligations.Segments : Prop :=
  ∀ (w : SW) (f : S), w.Runs → Store.wf w.c.s = true →
    (∀ i ∈ [(Instr.segopen f, SegKind.static), (.segstrm f, .stream)],
      let len := (w.rd f.a).toNat
      let mask := (w.rd f.b).setWidth 8
      (w.rd f.b).toNat = mask.toNat → mask ≠ 0 →
      (match i.2 with
        | .static => 1 ≤ len ∧ len ≤ 16384
        | .stream => 64 ≤ len ∧ len ≤ 4096 ∧ len % 64 = 0) →
      (∀ d o, w.s.segRoom 64 w.cl mask len = some (w.s, d, o) → d < 32 →
        ∃ t : State, exec i.1 w.s = .next t ∧ (ctxAt w t).pc = w.c.pc + 8 ∧
          (t.desc w.cl d).used = true ∧ (t.desc w.cl d).kind = i.2 ∧ (t.desc w.cl d).mask = mask ∧
          (t.desc w.cl d).offset = o ∧ (t.desc w.cl d).len = len ∧ (t.desc w.cl d).e = 0 ∧
          (t.desc w.cl d).sealed = false ∧ (t.desc w.cl d).owner = some w.j ∧
          (f.d ≠ 0 → (ctxAt w t).rd f.d = fld (w.s.desc w.cl d).gen 16 ||| BitVec.ofNat 64 d)) ∧
      (w.s.segRoom 64 w.cl mask len = none → StarterDone w i.1 w.s (w.c.pc + 8) f.d (~~~0))) ∧
    (∀ (d : Nat) (x : Desc), w.own (w.rd f.a) = some (d, x) → outside (coresOf f.imm x) x.mask = false →
      x.kind = .static → x.e < x.len →
      ∃ t : State, exec (.emit f) w.s = .next t ∧ (ctxAt w t).pc = w.c.pc + 8 ∧
        (ctxAt w t).emitser = w.c.emitser + 1 ∧
        (t.desc w.cl d).e = (if f.imm.getLsbD 8 then x.e else x.e + 1) ∧
        ∀ c, c < 8 → (coresOf f.imm x).getLsbD c = true → x.mask.getLsbD c = true →
          Tbl.find (t.desc w.cl d).words (16384 * c + x.e) = some ⟨w.rd f.b, w.prov d w.c.emitser, false⟩) ∧
    (∀ (d : Nat) (x : Desc) (s1 : State) (bs : List Byte), w.own (w.rd f.a) = some (d, x) →
      outside (coresOf f.imm x) x.mask = false → (w.rd f.b).toNat % 8 = 0 → x.kind = .static → x.e < x.len →
      f.imm.extractLsb' 16 8 = 0 → w.c.part = 0 → w.s.strRead w.ctx w.ch (w.rd f.b) 8 4200 = (s1, .ok bs) →
      s1.desc w.cl d = x → ctxAt w s1 = w.c →
      ∃ t : State, exec (.emitm f) w.s = .next t ∧ (ctxAt w t).pc = w.c.pc + 8 ∧ (t.desc w.cl d).e = x.e + 1 ∧
        ∀ c, c < 8 → (coresOf f.imm x).getLsbD c = true → x.mask.getLsbD c = true →
          Tbl.find (t.desc w.cl d).words (16384 * c + x.e) =
            some ⟨BitVec.ofNat 64 (leNat bs), w.prov d w.c.emitser, false⟩) ∧
    (∀ (d : Nat) (x : Desc), w.own (w.rd f.a) = some (d, x) → x.kind = .static →
      let fld := f.imm.toNat % 256
      let pos := (w.rd f.b).toNat + (f.imm.extractLsb' 8 24).toNat
      0 < fld → fld ≤ 4 → pos < x.e → pos < 16384 →
      ∃ t : State, exec (.patch f) w.s = .next t ∧ (ctxAt w t).pc = w.c.pc + 8 ∧ (t.desc w.cl d).e = x.e ∧
        ∀ c v, c < 8 → x.mask.getLsbD c = true → Tbl.find x.words (16384 * c + pos) = some v →
          ∃ v', Tbl.find (t.desc w.cl d).words (16384 * c + pos) = some v' ∧
            v'.w.toNat / 2 ^ patchBits fld = v.w.toNat / 2 ^ patchBits fld ∧
            v'.w.toNat % 2 ^ patchBits fld = (w.rd f.d).toNat % 2 ^ patchBits fld ∧ v'.prov.getLsbD 61 = true) ∧
    (w.own (w.rd f.a) = none → ∀ i ∈ [Instr.emit f, .emitm f, .patch f, .seal f],
      ∃ t, exec i w.s = .next t ∧ (ctxAt w t).stopped = true ∧ (ctxAt w t).cause = Cause.starterFault ∧
        (ctxAt w t).sub = Sub.badseg ∧ (ctxAt w t).fpc = w.c.pc ∧ t.mem = w.s.mem)

/-- R290, R292, R295, R291: sealing, references, the code cache and the release of held blocks. -/
def Obligations.SealFreeCacheRelease : Prop :=
  ∀ (w : SW) (f : S), w.Runs → Store.wf w.c.s = true →
    (∀ (d : Nat) (x : Desc), w.own (w.rd f.a) = some (d, x) → x.kind = .static →
      (x.sealBad = none → ∃ t : State, exec (.seal f) w.s = .next t ∧ (ctxAt w t).pc = w.c.pc + 8 ∧
        (t.desc w.cl d).sealed = true ∧ (t.desc w.cl d).len = x.e ∧ (t.desc w.cl d).e = x.e) ∧
      (∀ c p, x.sealBad = some (c, p) → ∃ t, exec (.seal f) w.s = .next t ∧ (ctxAt w t).stopped = true ∧
        (ctxAt w t).cause = Cause.sealInvalid ∧ (ctxAt w t).fcore = BitVec.ofNat 3 c ∧
        (ctxAt w t).fpos = BitVec.ofNat 14 p)) ∧
    (∀ (d : Nat) (x : Desc) (n : Nat), w.cluster.named (w.rd f.a) = some (d, x) → Tbl.find w.c.refs d = some (n + 2) →
      1 < x.refs → ∃ t : State, exec (.segfree f) w.s = .next t ∧ (ctxAt w t).pc = w.c.pc + 8 ∧
        Tbl.find (ctxAt w t).refs d = some (n + 1) ∧ (t.desc w.cl d).refs = x.refs - 1) ∧
    (w.cluster.cc.find? (fun p => w.keyIs (w.rd f.a) (w.rd f.b) p.2) = none →
      StarterDone w (.ccfind f) w.s (w.c.pc + 8) f.d (~~~0)) ∧
    (∀ i e, w.cluster.cc.find? (fun p => w.keyIs (w.rd f.a) (w.rd f.b) p.2) = some (i, e) → f.d ≠ 0 →
      ∃ t : State, exec (.ccfind f) w.s = .next t ∧ (ctxAt w t).pc = w.c.pc + 8 ∧
        (t.desc w.cl e.desc).refs = (w.s.desc w.cl e.desc).refs + 1 ∧
        (ctxAt w t).rd f.d = handleOf e.desc (w.s.desc w.cl e.desc)) ∧
    (∀ (d : Nat) (x : Desc), w.cluster.named (w.rd f.a) = some (d, x) → x.kind = .static → x.sealed = true →
      w.cluster.cc = [] → ∃ (t : State) (i : Nat) (e : CCEnt), exec (.ccput f) w.s = .next t ∧
        (ctxAt w t).pc = w.c.pc + 8 ∧ (t.cluster w.cl).cc = [(i, e)] ∧ e.desc = d ∧ e.mask = x.mask ∧ e.sel = w.rd f.b ∧
        e.imghash = (w.s.lrec w.launch).imghash ∧ e.errata = (w.s.chiplet (w.cl / 24)).errata) ∧
    (∀ (d : Nat) (x : Desc), w.cluster.named (w.rd f.a) = some (d, x) → x.kind = .static → x.sealed = true →
      outside (coresOf f.imm x) x.mask = false →
      let mine := w.s.blocks.filter (fun b => b.1 / 2 ^ 32 == w.launch && b.2.st == BlockSt.held &&
        clusterOf b.2.core == w.cl && (coresOf f.imm x).getLsbD (b.2.core % 8))
      mine ≠ [] → Tbl.sorted w.s.blocks = true → f.d ≠ 0 → mine.length < 2 ^ 64 →
      ∃ t : State, exec (.release f) w.s = .next t ∧ (ctxAt w t).pc = w.c.pc + 8 ∧
        (ctxAt w t).rd f.d = BitVec.ofNat 64 mine.length ∧
        ∀ b ∈ mine, ∃ y, t.block b.1 = some y ∧ y.st = .live ∧ y.seg = d ∧
          ∀ i, i < (w.s.lrec w.launch).groups → ∃ g, t.group ⟨w.launch, b.1 % 2 ^ 32, i⟩ = some g ∧
            g.ctl.slot0 = some ⟨(w.rd f.b).toNat, 0xFFFFFFFF, 0⟩ ∧ g.ctl.slot1 = none ∧ g.regs.v = [] ∧
            (∀ j, j < 8 → Store.read g.regs.g (j + 1) = (w.s.lrec w.launch).arg j))

namespace Sys2Proof.Claims
/-- The words that a graph replay reads one after another, where every read succeeds. -/
def readWords (n : Nat) (w : SW) (s : State) (va : BitVec 64) (draw : Nat) : Option (State × List Byte) :=
  match n with
  | 0 => some (s, [])
  | n + 1 =>
    match s.strRead w.ctx w.ch va 8 draw with
    | (s, .ok bs) => (readWords n w s (va + 8) (draw + 16)).map (fun r => (r.1, bs ++ r.2))
    | _ => none
/-- The places of bytes that are written one after another, where every place passes its checks. -/
def checkPlaces (bs : List Byte) (w : SW) (s : State) (va : BitVec 64) (draw : Nat) :
    Option (State × List (Loc × Attr × Byte)) :=
  match bs with
  | [] => some (s, [])
  | b :: r =>
    match s.strCheck w.ctx w.ch va 1 true draw with
    | (s, .ok l a) => (checkPlaces r w s (va + 1) (draw + 16)).map (fun q => (q.1, (l, a, b) :: q.2))
    | _ => none
end Sys2Proof.Claims

/-- R297, R298: a child launch from a record, and the fault of a misaligned one; a graph replay queues a patched copy of
the parameter block, and an object whose fields are not legal is a level-1 fault BADPATCH. That the word reads SEQ as it was,
and that a misaligned object is BADPATCH, is the model's choice (log entry 29). -/
def Obligations.ChildLaunches : Prop :=
  ∀ (w : SW) (f : S), w.Runs → Store.wf w.c.s = true →
    (∀ (s1 : State) (bs : List Byte), (w.rd f.a).toNat % 128 = 0 → w.cluster.children.length < 16 →
      w.s.strRead w.ctx w.ch (w.rd f.a) 128 4000 = (s1, .ok bs) → s1.cluster w.cl = w.cluster → f.d ≠ 0 →
      ∃ (t : State) (id : Nat) (x : Launch), exec (.launch f) w.s = .next t ∧ (ctxAt w t).pc = w.c.pc + 8 ∧
        t.launch id = some x ∧ x.rec_ = lrecOf bs ∧ x.ctx = w.ctx ∧ x.next = 0 ∧ x.ended = none ∧
        (t.cluster w.cl).children = w.cluster.children ++ [id] ∧ (ctxAt w t).rd f.d = BitVec.ofNat 64 id) ∧
    ((w.rd f.a).toNat % 128 ≠ 0 → ∃ t, exec (.launch f) w.s = .next t ∧ (ctxAt w t).stopped = true ∧
      (ctxAt w t).sub = Sub.align ∧ (ctxAt w t).faddr = w.rd f.a) ∧
    (16 ≤ w.cluster.children.length → (w.rd f.a).toNat % 128 = 0 → exec (.launch f) w.s = .next w.s) ∧
    (let ga := w.rd f.a
     let n := f.imm.toNat % 512
     ∀ (s1 s2 s3 s4 s5 : State) (ob ents block copy : List Byte) (slot : Nat) (ps qs : List (Loc × Attr × Byte)),
      (n = 0 ∨ (w.rd f.b).toNat % 8 = 0) → ga.toNat % 64 = 0 → w.s.strRead w.ctx w.ch ga 64 4000 = (s1, .ok ob) →
      graphOk ob = true →
      let psize := recBytesAt ob 8 4
      let queue := (Tbl.find s3.graphs (w.ctx * 2 ^ 64 + ga.toNat)).getD []
      readWords (2 * n) w s1 (w.rd f.b) 4200 = some (s2, ents) →
      readWords (psize / 8) w s2 (BitVec.ofNat 64 (recBytesAt ob 0 8)) 16384 = some (s3, block) →
      patchAll n block ents = some copy →
      pickOne (Config.free s3.now 69).toNat ((List.range (recBytesAt ob 32 4)).filter
        (fun i => !queue.any (fun r => r.slot == i))) = some slot →
      checkPlaces copy w s3 (BitVec.ofNat 64 (recBytesAt ob 24 8 + slot * psize)) 32768 = some (s4, ps) →
      checkPlaces (natLE 4 (recBytesAt ob 36 4 + 1)) w s4 (ga + 36) 131072 = some (s5, qs) → ctxAt w s5 = w.c →
      ∃ (t : State) (r : Replay), exec (.greplay f) w.s = .next t ∧ (ctxAt w t).pc = w.c.pc + 8 ∧
        (f.d ≠ 0 → (ctxAt w t).rd f.d = BitVec.ofNat 64 (recBytesAt ob 36 4)) ∧
        Tbl.find t.graphs (w.ctx * 2 ^ 64 + ga.toNat) = some (queue ++ [r]) ∧ r.seq = recBytesAt ob 36 4 ∧ r.slot = slot ∧
        r.nrec = recBytesAt ob 12 4 ∧ r.next = 0 ∧ r.ctx = w.ctx ∧
        r.slotAddr = BitVec.ofNat 64 (recBytesAt ob 24 8 + slot * psize)) ∧
    ((w.rd f.a).toNat % 64 ≠ 0 → f.imm.toNat % 512 = 0 → ∃ t, exec (.greplay f) w.s = .next t ∧
      (ctxAt w t).stopped = true ∧ (ctxAt w t).sub = Sub.badpatch)

/-! ## Steps of the device -/

/-- R33, R318, R326, R352: a turn selects a clause that nothing holds back: its words come to issue, its holds end and
its price is taken; the words of a substitution come in place of the original's. A clause
that fails its checks traps. -/
def Obligations.ClauseSelection : Prop :=
  ∀ (w : GW) (h : Hdr), w.Issues →
    let w' : GW := { w with iss := { w.iss with hdr := h } }
    (w'.stopTrap = none → w'.selectable = true →
      ∃ (t : State) (g : Group) (i : Issuing), exec (.clauseHeader h) w.s = .next t ∧ t.group w.key = some g ∧
        g.issuing = some i ∧ i.hdr = h ∧ i.k = w.iss.k ∧ i.pos = w.iss.pos ∧ i.slot = w.iss.slot ∧ i.m = w.iss.m ∧
        i.act = w.iss.act ∧ i.start = g.clk ∧ g.clk = w.g.clk ∧
        (w'.choice = .orig → i.words = w.iss.words ∧ i.subst = w.iss.subst) ∧
        (∀ n a, w'.choice = .cand n a → i.subst = some n ∧
          i.words = candWords w.iss ((w.s.cluster (clusterOf w.core)).slot n).cand) ∧
        g.holds = [] ∧ g.parkFlag = false ∧ g.ctl = w.g.ctl ∧ g.trap = w.g.trap ∧ g.sched.waited = 0 ∧
        g.sched.taken = w.g.sched.taken + BitVec.ofNat 32 (sumNat (w'.pricesOf w'.choice)) ∧
        g.pend = w.g.pend ∧ (w.g.holds = [] → t.mem = w.s.mem)) ∧
    (∀ tr, w'.stopTrap = some tr → w.g.trap = none →
      ∃ g : Group, exec (.clauseHeader h) w.s = .next (w.put g) ∧ g.trap = some tr ∧ g.issuing = none ∧ g.regs = w.g.regs ∧
        g.ctl = w.g.ctl ∧ g.tasks = w.g.tasks) ∧
    (w'.stopTrap = none → w'.selectable = false →
      exec (.clauseHeader h) w.s = .next (w.put { w.g with issuing := none }))

/-- R246, R365, R397, R360: a closed task commits: its version stands in memory, CSEQ counts it and its effects wait to
be applied; its remote part is acknowledged later, but for what of it has no port of its route up, which is lost; a popped recall record comes into
sixteen registers. -/
def Obligations.TasksCommit : Prop :=
  (∀ (s : State) (k : GKey) (g : Group) (x : Task) (later : List Task),
    s.Canonical → s.group k = some g → g.tasks = x :: later → s.commitReady k g x = true →
    x.txend = none → x.reds = [] → x.devs = [] → x.marks = [] → x.save = false → g.saveWanted = false → g.ended = false →
    (∀ e ∈ x.effs, ∀ j p, e ≠ .push j p) → (s.ctx (s.lctx k.launch)).preq = false →
    (∀ c ∈ s.cores, c.2.ulines = [] ∧ c.2.la = []) → Tbl.sorted x.ver = true → (∀ p ∈ x.ver, p.1 < 2 ^ 52) →
    ∃ (t : State) (g' : Group), exec (.taskCommit k) s = .next t ∧ t.group k = some g' ∧ g'.tasks = later ∧
      g'.effq = g.effq ++ x.effs ∧ g'.regs = g.regs ∧ g'.remote = g.remote ∧
      (t.ctx (s.lctx k.launch)).cseq = (s.ctx (s.lctx k.launch)).cseq + 1 ∧
      (∀ p ∈ x.ver, Store.read t.mem p.1 = p.2) ∧
      (∀ key, Tbl.has x.ver key = false → Store.read t.mem key = Store.read s.mem key) ∧ t.scr = s.scr ∧ t.vlt = s.vlt) ∧
  (∀ (s : State) (k : GKey) (g : Group) (r : Remote) (rest : List Remote),
    s.Canonical → s.group k = some g → g.remote = r :: rest → r.reds = [] → Tbl.sorted r.ver = true →
    (∀ x ∈ s.tails, x.key = k → x.remote = []) →
    ∃ (t : State) (g' : Group), exec (.remoteAcknowledgement k) s = .next t ∧ t.group k = some g' ∧ g'.regs = g.regs ∧
      g'.remote = rest ∧ g'.linkDown = (g.linkDown || s.unreachable [r]) ∧
      (∀ p ∈ r.ver, s.cutOff (p.1 / 2 ^ 52) = false → Store.read t.mem p.1 = p.2) ∧
      ∀ key, (Tbl.has r.ver key = false ∨ s.cutOff (key / 2 ^ 52) = true) → Store.read t.mem key = Store.read s.mem key) ∧
  (∀ (s : State) (n : Nat) (r : Remote), r.reds = [] → r.ver ≠ [] → (∀ p ∈ r.ver, p.1 / 2 ^ 52 = n) →
    (s.unreachable [r] = true ↔ Store.read s.host.routes n &&& s.host.up = 0)) ∧
  (∀ (s : State) (k : GKey) (g : Group) (d id : Nat) (rest : List Eff),
    (s.ripen k).group k = some g → g.effq = .affpop d id :: rest → 0 < d → d + 16 ≤ 64 → Store.wf g.regs.g = true →
    let x := s.ctx (s.lctx k.launch)
    let word (i : Nat) : BitVec 64 := if x.queued = 0 then 0
      else BitVec.ofNat 64 (s.readLocNat (.mem (x.rqBase.toNat * 32768 + 128 * (x.rqHead.toNat % 256) + 8 * i)) 8)
    ∃ (t : State) (g' : Group), exec (.affpopPerform k) s = .next t ∧ t.group k = some g' ∧ g'.effq = rest ∧
      (∀ i, i < 16 → Store.read g'.regs.g (d + i) = word i) ∧
      (∀ r, (r < d ∨ d + 16 ≤ r) → Store.read g'.regs.g r = Store.read g.regs.g r) ∧ g'.regs.v = g.regs.v ∧
      (t.ctx (s.lctx k.launch)).rqHead = (if x.queued = 0 then x.rqHead else x.rqHead + 1) ∧ t.mem = s.mem)

/-- R370, R371, R373 to R375: the trap of a group: it is cut back to the boundary of its open task, its report is written
and it stops; with no room it stands there cut back, FULL is set, and its report is written later. A kill of its gang that
is due comes first (R390). The answers to a report: resume, end of the group, end of the launch. What an ended group leaves in
`State.tails` and the bit STOPPED that a resume clears in the written report are the model's choices (log entries 19 and
53). -/
def Obligations.TrapsAndResumes : Prop :=
  (∀ (s : State) (k : GKey) (g : Group) (tr : TrapInfo) (x : Task) (l : Launch),
    s.Canonical → s.group k = some g → g.trap = some tr → g.saved = false → s.fatal = none →
    g.openTask = some x → s.launch k.launch = some l → l.ended = none → tr.cause ≠ Cause.errataDisabled →
    (s.doomed k = true → exec (.groupTrap k) s = .next s) ∧
    (s.doomed k = false →
    let c := s.lctx k.launch
    let i := (s.ctx c).tqTail.toNat % 128
    (g.reportDue = false → s.cutBusy k g.last false = false → (s.ctx c).tqRoom = true →
      ∃ (t : State) (g' : Group), exec (.groupTrap k) s = .next t ∧ t.group k = some g' ∧ g'.trap = none ∧
        g'.stopped = some i ∧ g'.issuing = none ∧ g'.pend = [] ∧ g'.ctl = x.snap.ctl ∧
        g'.regs.fpflags = x.snap.fpflags ∧ g'.regs.srseed = x.snap.srseed ∧ g'.closed = x.snap.closed ∧
        (t.ctx c).tqTail = (s.ctx c).tqTail + 1 ∧ (t.ctx c).tqFull = false ∧ (t.ctx c).int_.getLsbD 0 = true ∧
        Tbl.find (t.ctx c).reports i = some k ∧ Store.bytes t.mem ((s.ctx c).tqAddr i) 4 = le 4 (tr.causeWord true)) ∧
    (g.reportDue = false → s.cutBusy k g.last false = false → (s.ctx c).tqRoom = false →
      ∃ (t : State) (g' : Group), exec (.groupTrap k) s = .next t ∧ t.group k = some g' ∧ g'.trap = some tr ∧
        g'.reportDue = true ∧ g'.ctl = x.snap.ctl ∧ g'.pend = [] ∧ (t.ctx c).tqFull = true ∧
        (t.ctx c).tqTail = (s.ctx c).tqTail ∧ t.mem = s.mem) ∧
    (g.reportDue = true →
      ((s.ctx c).tqRoom = true → ∃ (t : State) (g' : Group), exec (.groupTrap k) s = .next t ∧ t.group k = some g' ∧
        g'.trap = none ∧ g'.reportDue = false ∧ g'.stopped = some i ∧ g'.ctl = g.ctl ∧ g'.regs = g.regs ∧
        g'.tasks = g.tasks ∧ (t.ctx c).tqTail = (s.ctx c).tqTail + 1 ∧ Tbl.find (t.ctx c).reports i = some k) ∧
      ((s.ctx c).tqRoom = false → ∃ t, exec (.groupTrap k) s = .next t ∧ (t.ctx c).tqFull = true ∧ t.groups = s.groups ∧
        t.mem = s.mem)))) ∧
  (∀ (s : State) (c : Nat) (val : BitVec 64) (k : GKey) (g : Group), s.reported c val = some (k, g) →
    let i := (val.extractLsb' 32 7).toNat
    (∀ x : CX, s.Canonical → ctlKill (s.stk k g.q) (killLanes (s.protect k) (val.extractLsb' 0 32)) g.ctl = some x →
      x.pushed = [] →
      ∃ (t : State) (g' : Group), exec (.tskResumeResume c val) s = .next t ∧ t.group k = some g' ∧ g'.stopped = none ∧
        g'.ctl = x.c ∧ g'.regs = g.regs ∧ (x.c.exited = 0xFFFFFFFF → g'.ended = true) ∧
        (x.c.exited ≠ 0xFFFFFFFF → g'.ended = g.ended ∧ ∀ y, g.openTask = some y →
          g'.openTask = some { y with snap := { y.snap with
            ctl := x.c, slotHolds := mergeWaits x.merged y.snap.slotHolds, q := g'.q } }) ∧
        g'.slotHolds = mergeWaits x.merged g.slotHolds ∧
        Store.read t.mem ((s.ctx c).tqAddr i + 1) = Store.read s.mem ((s.ctx c).tqAddr i + 1) &&& 0xF7) ∧
    (g.tasks.filter Task.closed = [] → g.fallen = false → Tbl.sorted s.groups = true →
      ∃ t, exec (.tskResumeEndGroup c val) s = .next t ∧ t.group k = none ∧
        (g.remote ≠ [] → ∃ x ∈ t.tails, x.key = k ∧ x.remote = g.remote) ∧
        ∀ e ∈ g.effq, (∀ gang n i ph, e ≠ .bar gang n i ph) → ∃ x ∈ t.tails, x.key = k ∧ e ∈ x.effq) ∧
    (g.tasks.filter Task.closed ≠ [] ∨ g.fallen = true → ∃ (t : State) (g' : Group), exec (.tskResumeEndGroup c val) s = .next t ∧
      t.group k = some g' ∧ g'.ended = true ∧ g'.stopped = none ∧ g'.ctl.exited = 0xFFFFFFFF ∧
      g'.tasks = g.tasks.filter Task.closed) ∧
    (∀ l, s.launch k.launch = some l → l.ended = none →
      ∃ t, exec (.tskResumeEndLaunch c val) s = .next t ∧ t.launch k.launch = some { l with ended := some 8 } ∧
        (t.ctx l.ctx).errv = true ∧ (t.ctx l.ctx).err = 8))

/-- R385, R386, R389: a gang kill discards the gang with its mark-log entries, those of groups that have ended too, reports once and
relaunches it or ends its launch with ERR 6; while the
trap queue is full only the report waits. A fatal error stops the package, writes the dump into its region and raises its
interrupt. That all blocks of the gang that stand return, and that the report waits behind others that wait, is the model's
choice (log entry 52), and so is how the dump is laid out (log entry 37). -/
def Obligations.KillsAndFatalErrors : Prop :=
  (∀ (s : State) (k : GKey) (g : Group) (b : Block) (l : Launch),
    s.group k = some g → (g.badState = true ∨ g.badVersion = true ∨ g.linkDown = true) → s.fatal = none →
    s.block (GKey.bkey k) = some b → s.launch k.launch = some l → l.ended = none →
    k.block < 2 ^ 32 → k.gi < 32 → k.block < l.rec_.blocks.toNat → Tbl.sorted s.groups = true →
    (∀ n ∈ s.gangBlocks k.launch (s.gangNo k.launch k.block), ∀ q ∈ s.blockGroups k.launch n, ∀ x, s.group q = some x →
      x.issuing = none) →
    let c := s.lctx k.launch
    let gone := (s.gangBlocks k.launch (s.gangNo k.launch k.block)).filter (fun n => (s.block (bkeyOf k.launch n)).isSome)
    let runs := ((Tbl.find s.gangs (s.gangKey k)).getD ⟨[], 0⟩).relaunches
    ∃ (t : State) (l' : Launch), exec (.gangKill k) s = .next t ∧ t.group k = none ∧ t.launch k.launch = some l' ∧
      (∀ e ∈ (t.ctx c).marks, e.key.launch = k.launch → e.key.gi < 32 →
        e.key.block ∉ s.gangBlocks k.launch (s.gangNo k.launch k.block)) ∧
      ((s.ctx c).tqRoom = true → (s.ctx c).lateReports = [] → (t.ctx c).tqTail = (s.ctx c).tqTail + 1) ∧
      ((s.ctx c).tqRoom = false → (t.ctx c).tqTail = (s.ctx c).tqTail ∧ (t.ctx c).tqFull = true ∧
        ∃ bytes, (t.ctx c).lateReports = (s.ctx c).lateReports ++ [bytes]) ∧
      (l.rec_.relaunch = true → runs < (s.ctx c).rlmax.toNat → l' = { l with returns := gone ++ l.returns }) ∧
      (l.rec_.relaunch = false ∨ (s.ctx c).rlmax.toNat ≤ runs → l' = { l with ended := some 6 })) ∧
  (∀ (s : State) (cause : Nat),
    (s.fatal = none → s.Canonical →
      let base := s.host.dbase.toNat * 65536
      let size := 2 ^ (s.host.dsize.toNat + 16)
      ∃ (t : State) (bs : List Byte), exec (.fatalError cause) s = .next t ∧ t.fatal = some cause ∧
        t.host.intstat.getLsbD 1 = true ∧ t.groups = s.groups ∧ bs.length ≤ size ∧
        (∃ unit, bs = s.dumpBytes cause unit size) ∧
        (∀ i, i < bs.length → Store.read t.mem (base + i) = bs.getD i 0) ∧
        ∀ j, (j < base ∨ base + size ≤ j) → Store.read t.mem j = Store.read s.mem j) ∧
    (s.fatal ≠ none → exec (.fatalError cause) s = .next s))

namespace Sys2Proof.Claims
/-- A trap PERM by an answer that fails: the group's clause is gone and its trap waits for its report. -/
def FailedPerm (t : State) (k : GKey) : Prop :=
  ∃ (g : Group) (tr : TrapInfo), t.group k = some g ∧ g.trap = some tr ∧ tr.cause = Cause.perm ∧ g.issuing = none ∧
    g.park = none
end Sys2Proof.Claims

/-- R376, R377, R303: a polite request stands until it is withdrawn, FORCE makes the forced cut due, and a forced cut
saves the groups that are at rest. R97, R98, R367: the answers to missing pages and to a full whey area. -/
def Obligations.PreemptionAndAnswers : Prop :=
  ∀ (s : State) (c : Nat),
    ((s.ctx c).preq = true → exec (.preqSet c) s = .next s) ∧
    ((s.ctx c).preq = false → (∀ k ∈ s.keys, ∀ g x, s.group k = some g → g.openTask = some x → x.used = true) →
      ∃ t, exec (.preqSet c) s = .next t ∧ (t.ctx c).preq = true ∧ t.groups = s.groups ∧ t.mem = s.mem ∧
        ∀ core, (Tbl.find (t.ctx c).preqAt core).getD 0 = (s.core core).cycles) ∧
    (∃ t, exec (.preqClear c) s = .next t ∧ (t.ctx c).preq = false ∧ (t.ctx c).preqAt = [] ∧ t.mem = s.mem ∧
      ∀ (k : GKey) (g : Group), s.group k = some g → s.lctx k.launch = c → k.gi < 32 → k.block < 2 ^ 32 →
        t.group k = some { g with
          saveWanted := false, tasks := g.tasks.map (fun (x : Task) => { x with save := false }) }) ∧
    (∃ t, exec (.tskCtlForce c) s = .next t ∧ t.groups = s.groups ∧ t.mem = s.mem ∧
      ∀ core ∈ s.ctxCores c, Tbl.has (t.ctx c).cut core = true) ∧
    (∀ core, s.fatal = none →
      (s.cutDue c core = false → exec (.forcedCut c core) s = .next s) ∧
      (∀ (k : GKey) (g : Group), s.cutDue c core = true → Tbl.find (s.ctx c).cut core = some true → s.unsaved c core = [k] →
        s.group k = some g → s.saveReady k g = true →
        ∃ (t : State) (g' : Group), exec (.forcedCut c core) s = .next t ∧ t.group k = some g' ∧ g'.saved = true ∧
          g'.issuing = none)) ∧
    (∃ t, exec (.tskWheyGo c) s = .next t ∧ (t.ctx c).full = false ∧ t.mem = s.mem ∧
      ∀ k ∈ s.parkedIn c ParkLane.whey, ∀ g, s.group k = some g → t.group k = some g.retryPark) ∧
    (∃ t, exec (.tskWheyFail c) s = .next t ∧ (t.ctx c).full = false ∧ t.mem = s.mem ∧
      ∀ k ∈ s.parkedIn c ParkLane.whey, ∀ g, s.group k = some g → g.issuing ≠ none → g.trap = none → FailedPerm t k) ∧
    (∀ val : BitVec 64,
      (∃ t, exec (.xltReplayRetry c val) s = .next t ∧ t.mem = s.mem ∧
        (t.ctx c).posted = (s.ctx c).posted.filter (fun p => !answers val p.1) ∧
        (∀ k ∈ s.parkedIn c (ParkLane.on val), ∀ g, s.group k = some g → t.group k = some g.retryPark) ∧
        (∀ cl j va l, (s.starter cl j).wait = some va → (s.starter cl j).launch = some l → s.lctx l = c →
          answers val (va / 4096) = true → (t.starter cl j).wait = none)) ∧
      (∃ t, exec (.xltReplayFail c val) s = .next t ∧
        ((∀ cl p, s.headPass cl = some p → p.damaged = []) → t.mem = s.mem) ∧
        (t.ctx c).posted = (s.ctx c).posted.filter (fun p => !answers val p.1) ∧
        ∀ k ∈ s.parkedIn c (ParkLane.on val), ∀ g, s.group k = some g → g.issuing ≠ none → g.trap = none → FailedPerm t k))

/-- R304 to R308: the launch port and the acceptance of a record. -/
def Obligations.LaunchPort : Prop :=
  ∀ (s : State) (c : Nat),
    (∀ val : BitVec 64, s.host.state = 2 →
      ((s.ctx c).lport.length < 64 → ∃ (t : State) (va : BitVec 64), exec (.strLport c val) s = .next t ∧
        (t.ctx c).lport = (s.ctx c).lport ++ [va] ∧ va.extractLsb' 7 50 = val.extractLsb' 7 50 ∧ va.extractLsb' 0 7 = 0 ∧
        canonical va = true ∧ t.launches = s.launches ∧ t.mem = s.mem) ∧
      (64 ≤ (s.ctx c).lport.length → ∃ t, exec (.strLport c val) s = .next t ∧ (t.ctx c).lport = (s.ctx c).lport ∧
        (t.ctx c).errv = true ∧ (t.ctx c).err = 5)) ∧
    (∀ (va : BitVec 64) (rest : List (BitVec 64)) (s1 : State), s.fatal = none → s.dueGraph c = none →
      (s.ctx c).lport = va :: rest →
      (∀ bs, s.readRecord c 0 va = (s1, .ok bs) →
        ((lrecOf bs).err = none → ∃ (t : State) (id : Nat) (x : Launch), exec (.launchAccept c) s = .next t ∧
          t.launch id = some x ∧ x.rec_ = lrecOf bs ∧ x.ctx = c ∧ x.next = 0 ∧ x.returns = [] ∧ x.ended = none ∧
          id < 2 ^ 24 ∧ (t.ctx c).lport = rest ∧ (t.ctx c).lastid = BitVec.ofNat 24 id ∧ t.mem = s1.mem) ∧
        (∀ e, (lrecOf bs).err = some e → ∃ t, exec (.launchAccept c) s = .next t ∧ (t.ctx c).lport = rest ∧
          (t.ctx c).errv = true ∧ (t.ctx c).err = BitVec.ofNat 7 e ∧ t.launches = s1.launches)) ∧
      (s.readRecord c 0 va = (s1, .bad) → ∃ t, exec (.launchAccept c) s = .next t ∧ (t.ctx c).lport = rest ∧
        (t.ctx c).errv = true ∧ (t.ctx c).err = 1) ∧
      (∀ page, s.readRecord c 0 va = (s1, .wait page) → ∃ t, exec (.launchAccept c) s = .next t ∧
        (t.ctx c).lwait = true ∧ (t.ctx c).lport = (s1.ctx c).lport))

/-- R309 to R314, R323, R324, R341: requests that reach the homes together are served in their order (R312), a core that is
served claims the next block of a launch, eviction and migration save groups and place them, and a launch
whose blocks have all exited completes. That an eviction or a migration is one step, which saves all of its groups or none,
and which requests reach the homes together are the model's choices (log entries 26 and 89). -/
def Obligations.BlocksAndLaunches : Prop :=
  (∀ (s : State) (core : Nat), ∃ ys : List (Nat × Nat), ys.Perm (s.asking core) ∧
    ys.Pairwise (fun a b => s.servedFirst b a = false) ∧
    exec (.blockPull core) s = .next (ys.foldl (fun s x => s.serve x.1) s)) ∧
  (∀ (s : State) (core l : Nat) (x : Launch), core < 1536 → s.fatal = none → (s.chiplet (chipletOf core)).off = false →
    (s.cluster (clusterOf core)).therm.allow ≠ 0 → s.launches = [(l, x)] → (s.ctx x.ctx).preq = false →
    (s.ctx x.ctx).cut = [] → s.restoreOn core l = none → x.ended = none → x.checked = true → x.returns = [] →
    Tbl.has (s.chiplet (chipletOf core)).stops l = false → x.rec_.gang = 1 → x.next < x.rec_.blocks.toNat →
    s.fits core l = true → (s.core core).ulines = [] → (s.core core).la = [] →
    let t := s.serve core
    ∃ (b : Block) (x' : Launch), t.block (bkeyOf l x.next) = some b ∧
      b.st = .held ∧ b.core = core ∧ b.slots.length ≤ x.rec_.groups ∧ t.launch l = some x' ∧ x.next < x'.next ∧
      x'.rec_ = x.rec_ ∧ t.mem = s.mem ∧
      ((∃ j, j < 4 ∧ (t.starter (clusterOf core) j).launch = some l) ∨ l ∈ (t.cluster (clusterOf core)).unbound)) ∧
  (∀ (s : State) (core c l : Nat) (x : Launch) (ks : List GKey), s.crowded c = some (l, x) → s.victims core l = some ks →
    (s.ctx c).preq = false → s.fatal = none →
    (∀ b ∈ s.blocks, b.2.core = core → (b.2.st = .held ∨ b.2.st = .live) → b.2.st = .live ∧
      (s.lrec (b.1 / 2 ^ 32)).prio < x.rec_.prio ∧ (s.lrec (b.1 / 2 ^ 32)).strict = x.rec_.strict) →
    (∀ t, s.saveAll ks = some t →
      exec (.eviction core c) s = .next t ∧ ∀ k ∈ ks, ∃ g, t.group k = some g ∧ g.saved = true) ∧
    (s.saveAll ks = none → exec (.eviction core c) s = .next s)) ∧
  (∀ (s : State) (cl c l b : Nat) (x : Block), (s.cluster cl).therm.hot = true → s.market.allhot = false →
    (s.cluster cl).therm.sent = false → s.fatal = none → s.resides cl = some (l, b) → s.gangBlocks l (s.gangNo l b) = [b] →
    s.block (bkeyOf l b) = some x → x.st = .live → (s.ctx (s.lctx l)).preq = false → (s.ctx (s.lctx l)).cut = [] →
    c < 192 → s.cooler cl l [(b, x)] c = true → (∀ d, d < 192 → s.cooler cl l [(b, x)] d = true → d = c) →
    match (s.saveAll ((s.resident l b).map (fun y => y.1))).bind (fun r => r.restoreGang c l (s.gangNo l b)) with
    | some _ => ∃ (t : State) (y : Block), exec (.blockMigration cl) s = .next t ∧ (t.cluster cl).therm.sent = true ∧
      t.block (bkeyOf l b) = some y ∧ y.st = .live ∧ clusterOf y.core = c ∧ y.core % 8 = x.core % 8
    | none => exec (.blockMigration cl) s = .next s) ∧
  (∀ (s : State) (l : Nat) (x : Launch), s.launch l = some x → s.completes l x = true → s.fatal = none →
    Tbl.sorted s.launches = true →
    ∃ t, exec (.launchComplete l) s = .next t ∧ t.launch l = none ∧ (∀ b ∈ t.blocks, b.1 / 2 ^ 32 ≠ l) ∧ t.mem = s.mem ∧
      t.scr = s.scr ∧
      (x.ended ≠ some 7 → (t.ctx x.ctx).done = (s.ctx x.ctx).done + 1 ∧ (t.ctx x.ctx).int_.getLsbD 4 = true) ∧
      (x.ended = some 7 → (t.ctx x.ctx).done = (s.ctx x.ctx).done))

namespace Sys2Proof.Claims
/-- Tokens of a ring: in the bundle, in buckets, earmarked, held. -/
def tokens (r : Ring) : Nat := r.idle + r.heldTotal
/-- A state that differs from `s` in one ring alone. -/
def withRing (s : State) (cl : Nat) (r : Ring) : State := s.setCluster cl { s.cluster cl with ring := r }
end Sys2Proof.Claims

/-- R325 to R330: a visit of the bundle keeps every token but those it retires, or that a raised pool adds; a window returns
its tokens; a starved requester reserves; a reservation that is met completes; the pool follows the Market, within one
revolution: with the visit cycles pass on the cluster and its cores, and a pool that is nine cycles old applies. How many
cycles pass is not defined, and none pass on a core beyond a word that a group inside a clause has still to issue (R11, R33); that
cycles on the cores count for the nine is the model's choice (log entry 40).
R188, R212, R322: while the reservation of a requester, or of a core's latch, stands without its tokens, it takes none. -/
def Obligations.TokenRing : Prop :=
  ∀ (s : State) (cl : Nat),
    let r := (s.cluster cl).ring
    (Tbl.sorted r.buckets = true → (r.resvs.map (fun x => (x.st, x.req))).Nodup →
      ∃ r', exec (.stationVisit cl) s = .next ((withRing s cl r').tickRing cl) ∧ r'.pos = (r.pos + 1) % 9 ∧ r'.samples = r.samples + 1 ∧
        tokens r' + r.retire + r.pool = tokens r + r'.retire + r'.pool ∧ r'.floor = r.floor ∧ r'.newPool = r.newPool ∧
        (r.pos ≠ 0 → r'.retire ≤ r.retire ∧ r'.pool = r.pool) ∧ (r.pos = 0 → r'.pool = r.newPool)) ∧
    (let t := s.tickRing cl
     let r' := (t.cluster cl).ring
     t.mem = s.mem ∧ t.groups = s.groups ∧ (s.cluster cl).cycles < (t.cluster cl).cycles ∧
       (∀ j, j < 8 →
         let n := 8 * cl + j
         (s.core n).cycles ≤ (t.core n).cycles ∧ (s.inClause n = [] → (s.core n).cycles < (t.core n).cycles) ∧
           ∀ m ∈ s.inClause n, (t.core n).cycles ≤ max (s.core n).cycles m) ∧
       (r.pool = r.newPool → r' = r) ∧ tokens r' + r.retire + r.pool = tokens r + r'.retire + r'.pool ∧
       ((∃ x ∈ r.since.zip (t.counts cl), x.1 + 9 ≤ x.2) → r'.pool = r.newPool) ∧
       (r'.pool = r.pool ∨ r'.pool = r.newPool)) ∧
    (∀ id h, r.held.find? (fun x => x.id == id) = some h → ∃ r', exec (.tokenReturn cl id) s = .next (withRing s cl r') ∧
      r'.bucket h.st = r.bucket h.st + h.amount ∧ r'.held = r.held.filter (fun x => x.id != id) ∧
      ∀ st, st ≠ h.st → r'.bucket st = r.bucket st) ∧
    (∀ st q amount launch, (r.wants st).find? (fun x => x.1 == q) = some (q, amount, launch) → q < 5 →
      16 ≤ (Tbl.find r.starved (stageKey st q)).getD 0 → r.resv st q = none →
      exec (.reservation cl st q) s = .next (withRing s cl { r with resvs := r.resvs ++ [⟨st, q, amount, 0, false⟩] })) ∧
    (∀ st q x amount launch, q < 5 → r.resv st q = some x → x.complete = false → 0 < amount →
      s.takeTokens cl st q amount launch = none ∧ (q = 4 → ∀ p, 4 ≤ p → s.takeTokens cl st p amount launch = none)) ∧
    (∀ x, r.resvs.find? (fun y => y.st == r.pos && !y.complete && y.got == y.amount) = some x →
      ∃ r', exec (.reservationComplete cl) s = .next (withRing s cl r') ∧ { x with complete := true } ∈ r'.resvs ∧
        r'.resvs.length = r.resvs.length ∧ tokens r' = tokens r) ∧
    (r.newPool ≤ r.pool → exec (.poolChange cl) s =
      .next (withRing s cl { r with pool := r.newPool, retire := r.retire + (r.pool - r.newPool) })) ∧
    (r.pool < r.newPool → r.pos = 0 → ∃ r', exec (.poolChange cl) s = .next (withRing s cl r') ∧ r'.pool = r.newPool ∧
      r'.bundle + r.retire + r.pool = r.bundle + r'.retire + r.newPool) ∧
    (r.pool < r.newPool → r.pos ≠ 0 → exec (.poolChange cl) s = .next (withRing s cl r))

/-- R330 to R332, R336 to R338: a clearing samples every cluster and counts an epoch; a lost phase scales the pools that its
chiplet's clusters are to have, and each cluster's pool follows at the ring's next visit of station 0; a stretched clock is
counted. That the pool to come is scaled at once is the model's choice (log entry 40). -/
def Obligations.MarketAndDroop : Prop :=
  ∀ (s : State),
    (∀ temps : List Sample, s.host.state = 2 → s.fatal = none →
      ∃ t, exec (.marketClearing temps) s = .next t ∧ t.market.epoch = s.market.epoch + 1 ∧ t.mem = s.mem ∧
        t.groups = s.groups ∧ ∀ cl, cl < 192 →
          let x := temps.getD cl ⟨0, 0⟩
          let u := (t.cluster cl).therm
          u.tdram = x.tdram ∧ u.tdie = x.tdie ∧ u.sent = false ∧
          u.allow = 4095 - 16 * s.market.diesl.toNat * (x.tdie.toNat - s.market.dieknee.toNat) -
            16 * s.market.drsl.toNat * (x.tdram.toNat - 85) ∧
          (86 ≤ x.tdram.toNat → u.rf2x = true) ∧ (x.tdram.toNat ≤ 83 → u.rf2x = false) ∧
          (t.cluster cl).ring.demand = [] ∧ (t.cluster cl).ring.samples = 0 ∧
          (t.cluster cl).ring.pool = (s.cluster cl).ring.pool) ∧
    (∀ ch phase, ch < 8 → phase < 8 → (s.chiplet ch).phok.getLsbD phase = true →
      ∃ t, exec (.regulatorPhaseLoss ch phase) s = .next t ∧
        (t.chiplet ch).phok = (s.chiplet ch).phok &&& ~~~((1 : BitVec 8) <<< phase) ∧ (t.chiplet ch).loss = true ∧
        t.market.phloss = true ∧ t.host.intstat.getLsbD 0 = true ∧ t.mem = s.mem ∧
        ∀ k, k < 24 →
          let r := (s.cluster (24 * ch + k)).ring
          let r' := (t.cluster (24 * ch + k)).ring
          r'.newPool = r.newPool * (t.chiplet ch).phases / 8 ∧ r'.pool = r.pool ∧ r'.resvs = r.resvs ∧
            (r.pos = 0 → ∃ u, exec (.stationVisit (24 * ch + k)) t = .next u ∧
              (u.cluster (24 * ch + k)).ring.pool = r.newPool * (t.chiplet ch).phases / 8)) ∧
    (∀ cl, (s.cluster cl).therm.stretched = false → ∃ t, exec (.droopStart cl) s = .next t ∧
      (t.cluster cl).therm.stretched = true ∧ (t.cluster cl).therm.events = (s.cluster cl).therm.events + 1 ∧
      t.groups = s.groups ∧ t.mem = s.mem) ∧
    (∀ cl n, (s.cluster cl).therm.stretched = true →
      let u := (s.cluster cl).therm
      let now := (s.cluster cl).cycles + n
      ∃ t, exec (.droopEnd cl n) s = .next t ∧ (t.cluster cl).cycles = now ∧ t.groups = s.groups ∧ t.mem = s.mem ∧
        (now - u.since < 64 → (t.cluster cl).therm = u) ∧
        (64 ≤ now - u.since → (t.cluster cl).therm =
          { u with stretched := false, strcyc := u.strcyc + BitVec.ofNat 32 (now - u.since) }))

/-- R345 to R357: heat decays, a slot of samples goes on to its search, a search forms a candidate that is legal, runs it
on one sample after another, drops it at the first that disagrees, keeps the cheapest that has met them all, and as it ends
ripens that one if it has the evidence that the policy asks for; one that agrees while it ripens matures, a clean audit
ends, a failed one culls its substitution, a late one is dropped. When a search ends is not defined: `State.coin 62`
stands for it. Which candidate comes, and what a word may become (`Config.candidate`, `derived`), when a cull may begin
(`State.cullReady`) and the outputs that a capture gives (`State.runOut`) are the model's choices (log entries 20, 42
and 43). -/
def Obligations.AffinageRuns : Prop :=
  ∀ (s : State),
    (∀ core, ∃ t, exec (.heatDecay core) s = .next t ∧ t.groups = s.groups ∧ ∀ i,
      Tbl.find (t.core core).heat i =
        (Tbl.find (s.core core).heat i).map (fun e => { e with count := e.count >>> 1 })) ∧
    (∀ cl i, ((s.cluster cl).slot i).st = .sampling → 16 ≤ ((s.cluster cl).slot i).samples.length →
      exec (.samplingTimeout cl i) s = .next (s.setSlot cl i { (s.cluster cl).slot i with st := .search })) ∧
    (∀ cl i, let x := (s.cluster cl).slot i
      x.st = .search → x.cand = [] → Tbl.sorted (s.cluster cl).slots = true →
      ∃ t, exec (.affinageSearch cl i) s = .next t ∧ t.mem = s.mem ∧
        let y := (t.cluster cl).slot i
        let c := Config.candidate x.orig s.now
        let cand := c.1 :: c.2.map Prod.snd
        let folds := foldsOf (x.orig.drop 1) c.2
        if s.coin 62 = false then
          y = if (s.chiplet (chipletOfCl cl)).candidateOk x.orig cand && derived (x.orig.drop 1) c.2 && x.foldsOk folds
            then { x with cand, folds, agree := 0 } else x
        else
          (x.kept = [] → y.st = .free) ∧ (x.kept ≠ [] → x.keptProved = true → y.st = .ripening) ∧
          (x.keptProved = false → (s.ctx (s.lctx x.launch)).mlen = false ∨ (s.lrec x.launch).aff ≠ 2 → y.st = .free) ∧
          (y.st = .free ∨
            (y.st = .ripening ∧ y.cand = x.kept ∧ y.folds = x.keptFolds ∧ y.agree = 0 ∧ t.groups = s.groups ∧
              y.proved = x.keptProved))) ∧
    (∀ cl i e s1, let x := (s.cluster cl).slot i
      x.st = .search → x.cand ≠ [] → x.samples[x.agree]? = some e → Tbl.sorted (s.cluster cl).slots = true →
      s.buyRun cl ((Config.free s.now 63).toNat % 8) (clauseCost (x.cand.drop 1)).1 = some s1 →
      ∃ t, exec (.affinageSearch cl i) s = .next t ∧ t.mem = s.mem ∧
        (t.cluster cl).slot i =
          if s1.agrees ⟨x.launch, 0, 0⟩ e (x.orig.drop 1) (x.cand.drop 1) then { x with agree := x.agree + 1 }
          else { x with cand := [], folds := [], agree := 0 }) ∧
    (∀ cl i, let x := (s.cluster cl).slot i
      x.st = .search → x.cand ≠ [] → x.samples.length ≤ x.agree → Tbl.sorted (s.cluster cl).slots = true →
      ∃ t, exec (.affinageSearch cl i) s = .next t ∧ t.mem = s.mem ∧
        let takes := x.kept = [] ∨ cheaper (clauseCost (x.cand.drop 1)) (clauseCost (x.kept.drop 1)) = true
        (t.cluster cl).slot i =
          { x with
            cand := [], folds := [], agree := 0
            kept := if takes then x.cand else x.kept
            keptFolds := if takes then x.folds else x.keptFolds }) ∧
    (∀ core e s1, (s.core core).guard.find? (fun e => !e.audit) = some e →
      let cl := clusterOf core
      let x := (s.cluster cl).slot e.slot
      x.st = .ripening → s.buyRun cl (core % 8) (clauseCost (x.cand.drop 1)).1 = some s1 →
      ((s1.dropGuardEnt core e).agrees e.key e.ex (x.orig.drop 1) (x.cand.drop 1) = true →
        ∃ t, exec (.shadowRun core) s = .next t ∧ ((t.cluster cl).slot e.slot).agree = x.agree + 1 ∧
          ((t.cluster cl).slot e.slot).st =
            (if (s.cluster cl).ripen.toNat ≤ x.agree + 1 then .mature else .ripening) ∧
          (t.core core).guard = (s.core core).guard.filter (fun y => y.id != e.id) ∧ t.groups = s.groups) ∧
      ((s1.dropGuardEnt core e).agrees e.key e.ex (x.orig.drop 1) (x.cand.drop 1) = false →
        Tbl.sorted (s.cluster cl).slots = true →
        ∃ t, exec (.shadowRun core) s = .next t ∧ ((t.cluster cl).slot e.slot).st = .free)) ∧
    (∀ core e s1, (s.core core).guard.find? (fun e => e.audit) = some e →
      let cl := clusterOf core
      let x := (s.cluster cl).slot e.slot
      x.st = .mature → s.buyRun cl (core % 8) (clauseCost (x.orig.drop 1)).1 = some s1 →
      let y := s1.runOut e.key e.ex (x.orig.drop 1) (joinRW (liveOf (x.orig.drop 1)) (liveOf (x.cand.drop 1)))
      (y.out = e.ex.out → y.flags = e.ex.flags →
        ∃ t, exec (.auditRun core) s = .next t ∧
          (t.core core).guard = (s.core core).guard.filter (fun y => y.id != e.id) ∧ t.mem = s.mem ∧
          ∀ g, s.group e.key = some g → t.group e.key =
            some { g with audits := g.audits.filter (fun a => a.1 != e.id) }) ∧
      ((y.out ≠ e.ex.out ∨ y.flags ≠ e.ex.flags) → s1.cullReady cl e.slot = true →
        Tbl.sorted (s.cluster cl).slots = true →
        ∃ t, exec (.auditRun core) s = .next t ∧
          (((t.cluster cl).slot e.slot).st = .culled ∨ ((t.cluster cl).slot e.slot).st = .free) ∧
          (t.cluster cl).culls = (s.cluster cl).culls + 1)) ∧
    (∀ core e g, (s.core core).guard.find? (fun e => e.audit) = some e → s.group e.key = some g →
      (∀ x ∈ g.tasks, x.tseq ≠ e.tseq) →
      ∃ (t : State) (g' : Group), exec (.auditOverdue core) s = .next t ∧
        (t.cluster (clusterOf core)).auddrop = (s.cluster (clusterOf core)).auddrop + 1 ∧
        (t.core core).guard = (s.core core).guard.filter (fun y => y.id != e.id) ∧ t.group e.key = some g' ∧
        g'.tasks = g.tasks ∧ g'.regs = g.regs)

/-- R299, R303, R56, R301, R296: what ends or stops a Starter context beside its words. -/
def Obligations.StarterEvents : Prop :=
  ∀ (s : State) (cl j : Nat),
    let x := s.starter cl j
    (s.strRuns cl j = true →
      (∀ s1 w r, s.strFetch cl j = (s1, .word w) → strReject w = some r →
        ∃ t, exec (.generatorFault cl j) s = .next t ∧ (t.starter cl j).stopped = true ∧ (t.starter cl j).fvalid = true ∧
          (t.starter cl j).cause = causeOf r ∧ (t.starter cl j).fpc = (s1.starter cl j).pc ∧ t.mem = s1.mem) ∧
      (∀ s1 sub kind, s.strFetch cl j = (s1, .fault sub kind) →
        ∃ t, exec (.generatorFault cl j) s = .next t ∧ (t.starter cl j).stopped = true ∧
          (t.starter cl j).cause = Cause.starterFault ∧ (t.starter cl j).sub = sub ∧ (t.starter cl j).kind = kind ∧
          t.host.intstat.getLsbD 2 = true) ∧
      (∀ d, x.dlcyc ≠ 0 → (s.strPrep cl j).2 = true → s.emitHeld cl j = some d →
        (s.holders cl d).all (fun g => s.starved cl j g.1 g.2) = true →
        ∃ t, exec (.emitDeadlock cl j) s = .next t ∧ (t.starter cl j).stopped = true ∧
          (t.starter cl j).cause = Cause.emitDeadlock ∧ (t.starter cl j).fpc = x.pc ∧ t.groups = s.groups)) ∧
    (x.stopped = true → exec (.strFctlResume cl j) s =
      .next (s.setStarter cl j { x with stopped := false, fvalid := false, pc := x.fpc, part := 0 })) ∧
    (∀ l y, x.launch = some l → s.launch l = some y → y.ended = none → (s.cluster cl).unbound = [] →
      ∃ t, exec (.strFctlAbort cl j) s = .next t ∧ (t.starter cl j).launch = none ∧
        t.launch l = some { y with ended := some 8 } ∧ (t.ctx y.ctx).errv = true ∧ (t.ctx y.ctx).err = 8)

/-- R6, R80, R331, R362, R392 to R395, R399, R301: writes of the register window. What becomes of the other fields where one is out of its range, and that a write of a context page before READY is discarded, is the
model's choice (log entry 30). -/
def Obligations.RegisterWrites : Prop :=
  ∀ (s : State) (val : BitVec 64),
    (∀ fw off, off % 8 ≠ 0 → exec (.registerWrite fw off val) s = .next s) ∧
    (∀ fw, ∃ t, exec (.registerWrite fw 0x108 val) s = .next t ∧ t.host.inten = val.extractLsb' 0 6 ∧ t.mem = s.mem ∧
      t.host.intstat = s.host.intstat) ∧
    (∀ fw, ∃ t, exec (.registerWrite fw 0x100 val) s = .next t ∧
      t.host.intstat = s.host.intstat &&& ~~~(val.extractLsb' 0 6) ∧ t.mem = s.mem) ∧
    (∀ fw c o, c < 256 → o < 4096 → s.host.state ≠ 2 →
      exec (.registerWrite fw (0x02000000 + c * 4096 + o) val) s = .next s) ∧
    (∀ fw c, c < 256 → s.host.state = 2 → ∃ t, exec (.registerWrite fw (0x02000000 + c * 4096 + 0x010) val) s = .next t ∧
      (t.ctx c).root = val.extractLsb' 12 40 ∧ (t.ctx c).en = val.getLsbD 0 ∧ t.mem = s.mem ∧ t.groups = s.groups ∧
      ∀ d, d ≠ c → t.ctx d = s.ctx d) ∧
    (s.host.inv.getLsbD 0 = true → exec (.hdInv val) s = .next s) ∧
    (s.host.inv.getLsbD 0 = false → val.getLsbD 0 = true →
      let c := (val.extractLsb' 56 8).toNat
      ∃ (t : State) (i : Inval), exec (.hdInv val) s = .next t ∧ (t.ctx c).gen = (s.ctx c).gen + 1 ∧
        (t.ctx c).invals = (s.ctx c).invals ++ [i] ∧ i.host = true ∧ t.host.inv.getLsbD 0 = true ∧
        (val.extractLsb' 6 5 = 31 → i.size = 0) ∧
        (val.extractLsb' 6 5 ≠ 31 → i.size = 4096 * 2 ^ (val.extractLsb' 6 5).toNat ∧
          i.va.extractLsb' 12 45 = val.extractLsb' 11 45)) ∧
    (s.Canonical → s.host.ago = false → val.getLsbD 0 = true →
      let a := (val.extractLsb' 12 40).toNat * 4096
      ∃ t, exec (.hdAttest val) s = .next t ∧ t.host.ago = false ∧ t.host.intstat.getLsbD 5 = true ∧
        Store.bytes t.mem a 32 = Store.bytes s.mem a 32 ∧ Store.bytes t.mem (a + 36) 4 = le 4 s.host.svn) ∧
    (∀ cl, cl < 192 →
      (s.clusterInUse cl = true → exec (.vltCfg cl val) s = .next s) ∧
      (s.clusterInUse cl = false → ∃ t, exec (.vltCfg cl val) s = .next t ∧ t.mem = s.mem ∧ t.scr = s.scr ∧
        (t.cluster cl).vltCtx = val.extractLsb' 8 8 ∧
        (t.cluster cl).vltScr = (if val.extractLsb' 0 3 = 7 then (s.cluster cl).vltScr else val.extractLsb' 0 3) ∧
        ((t.cluster cl).vltScr ≠ (s.cluster cl).vltScr → ∀ p ∈ t.vlt, vaultCluster p.1 ≠ cl)) ∧
      (∃ t, exec (.affCfg cl val) s = .next t ∧ (t.cluster cl).affEn = val.getLsbD 0 ∧
        (t.cluster cl).hot.toNat = max 1 (val.extractLsb' 32 16).toNat ∧
        (t.cluster cl).ripen.toNat = max 256 (val.extractLsb' 48 16).toNat ∧
        (t.cluster cl).dlate.toNat = max 256 (val.extractLsb' 16 16).toNat ∧ t.mem = s.mem ∧
        (val.getLsbD 0 = false → Tbl.sorted (s.cluster cl).slots = true →
          ∀ i, i < 16 → ((t.cluster cl).slot i).st = .free))) ∧
    (∀ ch, ch < 8 →
      (progressFloor ≤ budget (val.extractLsb' 0 16).toNat (val.extractLsb' 16 16).toNat s.market.tkw.toNat 8 →
        exec (.mktIlim ch val) s =
          .next (s.setChiplet ch { s.chiplet ch with base := val.extractLsb' 16 16, ilim := val.extractLsb' 0 16 })) ∧
      (∃ t, exec (.errataMask ch val) s = .next t ∧ (t.chiplet ch).errata = val ∧ t.mem = s.mem)) ∧
    ((∀ ch, ch < 8 → ((s.chiplet ch).fit (if val.extractLsb' 0 8 = 0 then s.market.tkw else val.extractLsb' 0 8)).isSome = true) →
      ∃ t, exec (.mktCfg val) s = .next t ∧ t.market.rdn = val.extractLsb' 8 16 ∧ t.mem = s.mem ∧
        t.market.tkw = (if val.extractLsb' 0 8 = 0 then s.market.tkw else val.extractLsb' 0 8))

/-- R217, R228, R231, R392, R396, R387: accesses from outside, an update only once the local-atomic copies of its line have
come home, the ports' re-sends and failures, and the sweep that logs uncorrectable errors. That every sweep counts and logs
such an error again, and that its entry's syndrome is 0, are the model's choices (log entries 35 and 68). -/
def Obligations.OutsideAccesses : Prop :=
  ∀ (s : State), s.Canonical →
    (∀ a : HostAccess, (∀ c ∈ s.cores, c.2.ulines = []) → s.paKind a.pa = .dram → a.size < 4 →
      a.pa.toNat % szBytes a.size = 0 → s.fatal = none →
      let n := szBytes a.size
      let key := a.pa.toNat
      let old := s.readLocNat (.mem key) n
      (∀ f ∈ [Instr.hostMemoryAccess, .remotePackageAccess],
        (a.op = 0 → ∃ t, exec (f a) s = .next t ∧ t.host.data = BitVec.ofNat 64 old ∧ t.mem = s.mem) ∧
        (a.op = 1 → ∃ t, exec (f a) s = .next t ∧
          t.readLocNat (.mem key) n = a.val.toNat % 2 ^ (8 * n) ∧
          ∀ j, (j < key ∨ key + n ≤ j) → Store.read t.mem j = Store.read s.mem j) ∧
        (2 ≤ a.op → a.op < 12 →
          let s1 := s.laRecall (lineOf key)
          let old := s1.readLocNat (.mem key) n
          ∃ t, exec (f a) s = .next t ∧ t.host.data = BitVec.ofNat 64 old ∧
          t.readLocNat (.mem key) n = (atomicValue (a.op - 2) (8 * n) (BitVec.ofNat _ old) (a.val.setWidth _)
            (a.cmp.setWidth _)).toNat ∧
          ∀ j, (j < key ∨ key + n ≤ j) → Store.read t.mem j = Store.read s1.mem j))) ∧
    (∀ a : HostAccess, s.paKind a.pa = .window → a.size = 3 → a.pa.toNat % 8 = 0 →
      (a.op = 0 → ∃ t, exec (.hostMemoryAccess a) s = .next t ∧ t.host.data = s.regRead (a.pa.toNat - 2 ^ 47) ∧
        t.mem = s.mem) ∧
      (a.op = 1 → exec (.hostMemoryAccess a) s = exec (.registerWrite false (a.pa.toNat - 2 ^ 47) a.val) s)) ∧
    (∀ p, p < 12 → s.host.up.getLsbD p = true →
      (∃ t, exec (.linkFlitRetry p) s = .next t ∧ t.host.up = s.host.up ∧ t.mem = s.mem ∧ t.groups = s.groups ∧
        (Tbl.sorted s.host.fails = true → Tbl.find t.host.fails p = none ∨
          Tbl.find t.host.fails p = some (min 16 ((Tbl.find s.host.fails p).getD 0 + 1)))) ∧
      (16 ≤ (Tbl.find s.host.fails p).getD 0 → ∃ t, exec (.linkPortDown p) s = .next t ∧ t.host.up.getLsbD p = false ∧
        t.host.down.getLsbD p = true ∧ (s.host.down = 0 → t.host.intstat.getLsbD 4 = true) ∧ t.mem = s.mem)) ∧
    (∀ ch level, ch < 8 → ((s.chiplet ch).rel level).scrub ≠ 0 → s.host.state = 2 →
      (s.damaged ch level = [] → exec (.scrubSweep ch level) s = .next s) ∧
      (∀ id wher, s.damaged ch level = [(id, wher)] →
        let r := (s.chiplet ch).rel level
        r.uecnt ≠ ~~~0 → (r.tail - r.head).toNat < 2 ^ (r.lsize.toNat + 8) →
        ∃ t, exec (.scrubSweep ch level) s = .next t ∧ ((t.chiplet ch).rel level).uecnt = r.uecnt + 1 ∧
          ((t.chiplet ch).rel level).tail = r.tail + 1 ∧
          Store.bytes t.mem (r.lbase.toNat * 4096 + 16 * (r.tail.toNat % 2 ^ (r.lsize.toNat + 8))) 16 =
            relBytes id 3 wher 0 level))

/-- R379, R381: taking and restoring a rind. A take that leaves nothing unsaved writes it and counts its generation; a
restore that fails a check names it in RESULT, and one that passes places what the rind in the buffer holds. What PREQ is
after a take and the order of the checks are the model's choice (log entry 32), and so is how a rind's contents are found by
its bytes (`State.rindIn`, log entry 13). -/
def Obligations.Rinds : Prop :=
  ∀ (s : State) (c : Nat), s.fatal = none →
    (∀ op ∈ [(1, Instr.rindTakeContinue), (2, .rindTakeStay)],
      let b := s.preempt c
      let s1 := b.setCtx c { b.ctx c with
        busy := true, rindOp := op.1 + (if (s.ctx c).preq && (s.ctx c).rindOp != 8 then 4 else 0) }
      (s.ctx c).busy = false →
      (s1.ctxSaved c = false → exec (op.2 c) s = .next s1) ∧
      (s1.ctxSaved c = true →
        let gen := (s1.ctx c).rindGen + 1
        let bs := s1.rindBytes (s1.rindOf c gen)
        let addr := (s1.ctx c).rbase.toNat * 4096
        ∃ t, exec (op.2 c) s = .next t ∧ (t.ctx c).busy = false ∧
          (if s1.backed addr bs.length = true then (t.ctx c).rindGen = gen ∧ (t.ctx c).result = 0 ∧
              { s1.rindOf c gen with bytes := bs } ∈ t.rinds ∧ (s1.Canonical → Store.bytes t.mem addr bs.length = bs)
            else (t.ctx c).rindGen = (s1.ctx c).rindGen ∧ (t.ctx c).result = 5 ∧ t.mem = s1.mem) ∧
          ((s.ctx c).preq = false → (t.ctx c).preq = (op.1 == 2)))) ∧
    (((s.ctx c).busy = false ∨ (s.ctx c).rindOp % 8 = 3) →
      (∀ n, s.rindCheck c = .inl n → ∃ t, exec (.rindRestore c) s = .next t ∧ (t.ctx c).result = BitVec.ofNat 4 n ∧
        (t.ctx c).busy = false ∧ t.mem = s.mem ∧ t.groups = s.groups) ∧
      (∀ r : Rind, r ∈ s.rinds → (s.rinds.map Rind.bytes).Nodup → s.rindIn r.bytes = r) ∧
      (∀ gen bytes, s.rindCheck c = .inr (gen, bytes) →
        let r := s.rindIn bytes
        let fits := r.vcfg.all (fun v => (s.cluster v.1).vltCtx == v.2.1 && (s.cluster v.1).vltScr == v.2.2)
        ((fits = false ∨ s.anyResident c = true) → ∃ t, exec (.rindRestore c) s = .next t ∧
          (t.ctx c).result = (if fits then 6 else 4) ∧ (t.ctx c).busy = false ∧ t.mem = s.mem ∧ t.groups = s.groups) ∧
        (fits = true → s.anyResident c = false → (s.clearCtx c).rindRoom r = true → (s.ctx c).preq = true →
          (s.ctx c).rindOp ≠ 8 → Tbl.sorted r.groups = true →
          ∃ t, exec (.rindRestore c) s = .next t ∧ (t.ctx c).rindGen = gen ∧ (t.ctx c).result = 0 ∧
            (t.ctx c).busy = false ∧ (t.ctx c).marks = r.marks ∧
            ∀ p ∈ r.groups, Tbl.find t.groups p.1 = some { p.2 with passes := p.2.passes.map (fun q => { q with ctx := c }) })))

/-- R399, R400: the ROM starts the image of slot 0 if both its signatures hold and its SVN is not below the fused minimum,
else slot 1's by the same test; bring-up with one of them reaches READY on a part that holds nothing of before; with both bad
it ends in FAILED. That DRAM, scratch and vaults read 0 then, the registers' values that no rule gives, and that bring-up is one
step are the model's choices, and so is how an image carries what its signatures show (log entries 2, 33, 6, 34 and 14). -/
def Obligations.BringUp : Prop :=
  ∀ (s : State) (f : Firmware),
    let good (i : FwImage) : Prop := i.ed25519 = true ∧ i.mldsa = true ∧ Config.fusedSvn.toNat ≤ i.svn.toNat
    (∀ i : FwImage, (good f.slot0 ∧ i = f.slot0) ∨ (¬good f.slot0 ∧ good f.slot1 ∧ i = f.slot1) →
      ∃ t, exec (.powerOnReset f) s = .next t ∧ t.host.state = 2 ∧ t.host.up = f.portsUp ∧
        t.host.svn = i.svn ∧ t.host.digest = i.digest ∧ t.groups = [] ∧ t.blocks = [] ∧ t.launches = [] ∧
        t.scr = [] ∧ t.vlt = [] ∧ t.fatal = none ∧ t.agenda = [] ∧ t.launchCtr = 0 ∧
        (∀ key, key < 2 ^ 39 → Store.read t.mem key = 0) ∧
        (∀ c, t.ctx c = Ctx.reset) ∧ (∀ ch, ch < 8 → (t.chiplet ch).powered = true ∧ (t.chiplet ch).off = false) ∧
        t.market.epoch = 1) ∧
    (¬good f.slot0 → ¬good f.slot1 →
      ∃ t, exec (.powerOnReset f) s = .next t ∧ t.host.state = 15 ∧ t.groups = [] ∧ t.launches = [] ∧
        ∀ ch, (t.chiplet ch).powered = false)

/-! ## Encodings -/
namespace Sys2Proof.Claims
/-- Words written out from the encodings of R37 to R55, with the instruction each stands for. -/
noncomputable def knownWords : List (Nat × Instr) :=
  [(0x200C20080C20CA00, Instr.vfma ⟨8, 2, 3, 8, 3, 0, 10, 0, 0⟩),
    (0x0400242404000200, Instr.vadd ⟨9, 9, 1, 0, 0, 0, 2, 0, 0⟩),
    (0x6000A03428000040, Instr.vld ⟨10, 3, 2, 1, 2, 0, 64⟩),
    (0x7000002200000000, Instr.xlat ⟨0, 2, 1, 0, 0, 0, 0⟩),
    (0x8410000000000004, Instr.bwait ⟨0, 0, 0, 0x4⟩),
    (0xA000301000E20008, Instr.vaadd ⟨12, 4, 0, 3, 136, 8⟩),
    (0xB000505458000000, Instr.harp ⟨20, 21, 22, 0, 0, 0⟩),
    (0xC020000200000000, Instr.join ⟨0, 0, 0, 0, 2, 0⟩),
    (0xC070000000000000, Instr.exit ⟨0, 0, 0, 0, 0, 0⟩),
    (0xA810500000000000, Instr.txend ⟨5, 0, 0, 0x0⟩),
    (0xAC00001418000002, Instr.waitw ⟨0, 5, 6, 0, 0, 2⟩),
    (0xAC04000000000003, Instr.barblk ⟨0, 0, 0, 0, 0, 3⟩),
    (0xD000A00000000000, Instr.affcnt ⟨10, 0, 0, 0x0⟩),
    (0xD400A00000000000, Instr.tkpool ⟨10, 0, 0, 0x0⟩),
    (0xE064200000000021, Instr.csrr ⟨2, 0, 0, 0x21⟩),
    (0xE808010000000000, Instr.seal ⟨0, 4, 0, 0x0⟩),
    (0xC800000000000007, Instr.trap ⟨0, 0, 0, 0x7⟩),
    (0x0C0014040800A200, Instr.vceq ⟨5, 1, 2, 0, 2, 1, 2, 0, 0⟩),
    (0x1440307000000004, Instr.vshli ⟨3, 7, 0, 0x4⟩),
    (0x4800282C30008000, Instr.gadd ⟨10, 11, 12, 0, 2, 0, 0, 0, 0⟩),
    (0x2828501000000B10, Instr.vcvt 10 ⟨20, 4, 0, 0, 0, 0, 11, 0, 1⟩),
    (0x9008402080800000, Instr.vmma 2 0 ⟨16, 8, 32, 2, 0, 0⟩),
    (0xFBC4000300000000, Instr.clauseHeader ⟨15, 1, 0, 0, 0, 0, 0, 0, 3⟩)]
end Sys2Proof.Claims

/-- R37 to R55: what a few words stand for; word 0 and a set reserved bit are refused by name (R56). -/
def Obligations.DecodedWords : Prop :=
  (∀ p ∈ knownWords, decodeTableWord 64 p.1 = some p.2) ∧
  decodeStarter 0x4C24500000000001 = .ok (.starterGroupOp 1 9 ⟨5, 0, 0, 1⟩) ∧
  decodeWord 0 = .error .illegalZero ∧ decodeStarter 0 = .error .illegalZero ∧
  decodeWord 0x0400242404000201 = .error .reservedField ∧ decodeWord 0x1C00000000000000 = .error .illegalOpcode

/-- The decoder gives back every well-formed instruction that has a word, with every operand it encodes; the words that a
Starter context shares with clauses (R54) come back on its own decoder. -/
def Obligations.EncodingRoundTrip : Prop :=
  ∀ i : Instr, WellFormed i → i.body ≠ .ev →
    match i with
    | .starterGroupOp imm fn f => decodeStarter (encode i) = .ok (.starterGroupOp imm fn f)
    | .nop (.starter f) => decodeStarter (encode i) = .ok (.nop (.starter f))
    | i => decode (encode i) = .ok i

/-! ## One step -/

namespace Sys2Proof.Claims
/-- What the machine's step answers when an instruction has answered `o`: what follows the instruction, and the step's end.
Writes into a whey area may spoil version lines there (R366). -/
noncomputable def stepped (s0 : State) (follow : State → State) (o : Host.Outcome State Fault Refusal) :
    Host.Outcome State Fault Refusal :=
  match o with
  | .next t => .next (s0.wheySpoil (follow t)).tick
  | o => o
end Sys2Proof.Claims

/-- R33, R58, R274, R280: the machine's step executes the instruction that the word decodes to: the next word of the
clause that a group issues, the word at the PC of a Starter context whose turn it is, the header at a group's PC with the
words behind it; a step of the device executes its row, and a Starter word that faults does so in its context's turn. With no
act due the schedule gives one: the agenda and the schedule are the model's own (log entry 3). -/
def Obligations.StepRunsTheWord : Prop :=
  (∀ (s : State) (k : GKey) (rest : List Act) (g : Group) (iss : Issuing) (i : Instr), s.agenda = .word k :: rest →
    let s0 : State := { s with agenda := rest }
    s0.group k = some g → g.issuing = some iss → s0.wordTurn k g iss = true →
    decodeWord (iss.words.getD iss.k iss.head).w = .ok i →
    step s = stepped s0 (fun t => t.wordDone k) (exec i ((s0.before_ k i).as (.grp k)))) ∧
  (∀ (s : State) (k : GKey) (g : Group) (i : Issuing), s.group k = some g → g.issuing = some i → i.halted = false →
    g.trap = none → g.park = none → i.k + 1 < i.words.length →
    ∃ g', (s.wordDone k).group k = some g' ∧ g'.clk = g.clk + 1 ∧ g'.ctl = g.ctl ∧ g'.memq = g.memq ∧
      g'.issuing = some { i with k := i.k + 1, retry := none, outside := false, txOps := [] } ∧ g'.pend = g.pend.filter (fun p => decide (g.clk + 1 < p.due)) ∧
      g'.regs = (g.pend.filter (fun p => decide (p.due ≤ g.clk + 1))).foldl (Regs.land (s.protect k)) g.regs) ∧
  (∀ (s : State) (cl j : Nat) (rest : List Act) (s1 s2 : State) (w : Word) (i : Instr), s.agenda = .starter cl j :: rest →
    let s0 : State := { s with agenda := rest }
    s0.strRival cl j = false → (s0.tickCluster cl 1).strPrep cl j = (s1, true) → s1.strFetch cl j = (s2, .word w) →
    decodeStarter w = .ok i → (s1.chiplet (chipletOfCl cl)).disablesStr w = false →
    step s = stepped s0
      (fun t => if (t.starter cl j).stopped || (t.starter cl j).launch.isNone then
        t.setCluster cl { t.cluster cl with strTurn := (j + 1) % 4 } else t)
      (exec i (s2.as (.str cl j)))) ∧
  (∀ (s : State) (k : GKey) (slot : Nat) (rest : List Act) (iss : Issuing), s.agenda = .issue k slot :: rest →
    let s0 : State := { s with agenda := rest }
    let s1 := (s0.freshWants (clusterOf (s0.coreOf k))).turn k slot
    (s0.group k).bind Group.issuing = none → (s1.group k).bind Group.issuing = some iss →
    step s = stepped s0 id (exec (.clauseHeader iss.hdr) (s1.as (.grp k)))) ∧
  (∀ (s : State) (k : GKey) (g : Group) (slot : Nat) (iss : Issuing) (p : Path) (h : VatWord) (f : Hdr),
    s.cursor k g slot = some iss → g.ctl.slot slot = some p →
    let d := s.segOf k
    let core := s.coreOf k % 8
    d.word core p.pc = some h → decodeHeader h.w = .ok (.clauseHeader f) →
    iss.hdr = f ∧ iss.head.w = h.w ∧ iss.pos = p.pc ∧ iss.m = p.m ∧ iss.k = 0 ∧ iss.words.length = f.count.toNat + 1 ∧
      ∀ n v, n ≤ f.count.toNat → d.word core (p.pc + 1 + n) = some v → (iss.words.getD n iss.head).w = v.w) ∧
  (∀ (s : State) (i : Instr) (rest : List Act), s.agenda = .event i :: rest → i.body = .ev → s.fatal = none →
    (∀ cl j, i ≠ .generatorFault cl j) →
    let s0 : State := { s with agenda := rest }
    step s = stepped s0 id (exec i (s0.refresh i))) ∧
  (∀ (s : State) (cl j : Nat) (rest : List Act), s.agenda = .event (.generatorFault cl j) :: rest → s.fatal = none →
    let s0 : State := { s with agenda := rest }
    ((s0.strWord cl j).2 = none → step s = step { s with agenda := .starter cl j :: rest }) ∧
    ((s0.strWord cl j).2 ≠ none → step s = stepped s0 id (.next s0))) ∧
  (∀ s t : State, t.wheyUsed = [] → s.wheySpoil t = t) ∧
  (∀ s : State, s.agenda = [] → step s = step { s with agenda := [Config.schedule s.now] })

/-- Every step keeps the memories canonical: keys rising, no entry that an unlisted key would read. The form is the
model's own (log entry 2). -/
def Obligations.StepsKeepCanonicalMemory : Prop :=
  ∀ s t : State, s.Inv → step s = .next t → t.Inv

/-- The invariant holds at reset, and what R399, R331, R335, R338, R339, R98, R360, R362, R378 and R394 state for reset.
No value that the model chose for reset (log entry 6) is claimed. -/
def Obligations.ResetState : Prop :=
  State.reset.Inv ∧
  State.reset.groups = [] ∧ State.reset.launches = [] ∧ State.reset.blocks = [] ∧ State.reset.host.state = 0 ∧
  State.reset.market.rdn = 64 ∧ State.reset.market.tkw = 16 ∧ State.reset.market.hotcap = 4095 ∧
  State.reset.market.epoch = 0 ∧ State.reset.market.dieoff = 20 ∧ State.reset.market.thot = 85 ∧
  State.reset.market.astep = 16 ∧ State.reset.market.drsl = 16 ∧ State.reset.market.diesl = 8 ∧
  State.reset.market.dieknee = 95 ∧
  (∀ ch, (State.reset.chiplet ch).base = 200 ∧ (State.reset.chiplet ch).ilim = 1100 ∧
    (State.reset.chiplet ch).phok = 0xFF) ∧
  (∀ cl, (State.reset.cluster cl).ripen = 4096 ∧ (State.reset.cluster cl).hot = 1024 ∧
    (State.reset.cluster cl).dlate = 4096 ∧ (State.reset.cluster cl).affEn = true ∧
    (State.reset.cluster cl).vltScr = 0 ∧ (State.reset.cluster cl).ring.pool = 0) ∧
  (∀ c, (State.reset.ctx c).en = false ∧ (State.reset.ctx c).precyc = 65536 ∧ (State.reset.ctx c).vquota = 8192 ∧
    (State.reset.ctx c).rlmax = 3 ∧ (State.reset.ctx c).preq = false ∧ (State.reset.ctx c).int_ = 0)

/-! ## Registers -/

/-- R25, R35, R148, R149, R153: a result is written to its register, in its lanes, when its cycle has come; `g0`, `m0` and
`gp0` discard writes and read as constants. -/
def Obligations.ResultsLand : Prop :=
  (∀ (pr : Bool) (rs : Regs) (p : Pend), Store.wf rs.v = true → Store.wf rs.g = true → Store.wf rs.m = true →
    Store.wf rs.gp = true →
    let t := rs.land pr p
    let x := p.vals.getD 0 0
    (∀ r, p.dest = .v r → t = { rs with v := t.v } ∧
      (∀ l, l < 32 → Store.read t.v (32 * r + l) =
        if p.lanes.getLsbD l then (p.vals.getD l 0).setWidth 32 else Store.read rs.v (32 * r + l)) ∧
      ∀ key, key / 32 ≠ r → Store.read t.v key = Store.read rs.v key) ∧
    (p.dest = .g 0 ∨ p.dest = .m 0 ∨ p.dest = .gp 0 ∨ (∃ r, p.dest = .tm r) → t = rs) ∧
    (∀ r, r ≠ 0 → p.dest = .g r → t = { rs with g := t.g } ∧
      ∀ q, Store.read t.g q = if q = r then x else Store.read rs.g q) ∧
    (∀ r, r ≠ 0 → p.dest = .m r → t = { rs with m := t.m } ∧ ∀ q, q ≠ r → Store.read t.m q = Store.read rs.m q) ∧
    (∀ r, r ≠ 0 → p.dest = .m r → ∀ l, (Store.read t.m r).getLsbD l =
      if p.lanes.getLsbD l then x.getLsbD l else (Store.read rs.m r).getLsbD l) ∧
    (∀ r, r ≠ 0 → p.dest = .gp r → t = { rs with gp := t.gp } ∧
      ∀ q, Store.read t.gp q = if q = r then x.setWidth 1 else Store.read rs.gp q) ∧
    (p.dest = .flags → t = { rs with fpflags := rs.fpflags ||| x.setWidth 6 }) ∧
    (p.dest = .fpflags → t = { rs with fpflags := x.setWidth 6 })) ∧
  (∀ (g : Group) (n : Nat), g.readG n 0 = 0 ∧ g.readM n 0 = ~~~0 ∧ g.readGp n 0 = true) ∧
  (∀ (g : Group) (pr : Bool) (t : Nat) (p : Pend),
    (p ∈ (g.landUpTo pr t).pend ↔ p ∈ g.pend ∧ t < p.due) ∧
    (g.pend = [p] → p.due ≤ t → (g.landUpTo pr t).regs = g.regs.land pr p) ∧
    (g.pend = [p] → t < p.due → (g.landUpTo pr t).regs = g.regs)) ∧
  (∀ p q : Pend, p.due = q.due → p.dest = q.dest → p.dest ≠ .fpflags → pendInsert [p] q = [p, q]) ∧
  (∀ p q : Pend, q.due < p.due → pendInsert [p] q = [q, p])

namespace Sys2Proof.Claims
/-- The words that write registers and nothing else, each with the registers it may write. -/
def registerWords (f : V3) (h : VI) : List (Instr × List Dest) :=
  let lane (d : BitVec 8) : List Dest := [.v d.toNat, .v (d.toNat + 1), .flags]
  let l3 (is : List Instr) := is.map (fun i => (i, lane f.d))
  let li (is : List Instr) := is.map (fun i => (i, lane h.d))
  let m3 (is : List Instr) := is.map (fun i => (i, [Dest.m f.d.toNat, .flags]))
  let mi (is : List Instr) := is.map (fun i => (i, [Dest.m h.d.toNat, .flags]))
  let g3 (is : List Instr) := is.map (fun i => (i, [Dest.g f.d.toNat, .flags]))
  let gi (is : List Instr) := is.map (fun i => (i, [Dest.g h.d.toNat]))
  l3 (intRows.map (fun r => r.1 f)) ++ l3 (bitRows.map (fun r => r.1 f)) ++ l3 (mulRows.map (fun r => r.1 f)) ++
    l3 (mulHiRows.map (fun r => r.1 f)) ++ l3 (divRows.map (fun r => r.1 f)) ++ l3 (floatRows.map (fun r => r.1 f)) ++
    l3 (moveRows.map (fun r => r.1 f)) ++ l3 ((List.range 16).map (fun n => Instr.vcvt (BitVec.ofNat 4 n) f)) ++
    l3 [.vpopc f, .vclz f, .vperm f, .vmulw f, .vmadw f, .vdot4 f, .vpack2 f, .vpack4 f, .vpack8 f, .vunpk f, .vmxscale f,
      .vshfl f, .vsel f, .mtov f, .gtov f, .vscanadd f] ++
    li (immRows.map (fun r => r.1 h)) ++ li (floatImmRows.map (fun r => r.1 h)) ++
    m3 (cmpRows.map (fun r => r.1 f)) ++ m3 (fcmpRows.map (fun r => r.1 f)) ++ m3 (maskRows.map (fun r => r.1 f)) ++
    m3 [.mfromv f] ++ mi (cmpImmRows.map (fun r => r.1 h)) ++
    g3 (gRows.map (fun r => r.1 f)) ++ g3 (redRows.map (fun r => r.1 f)) ++ g3 (redBitRows.map (fun r => r.1 f)) ++
    g3 [.gsel f, .mtog f, .mpopc f, .mffs f, .vtog f, .vfredadd f, .vfredmin f, .vfredmax f] ++
    gi (gImmRows.map (fun r => r.1 h)) ++ predRows.map (fun r => (r.1 f, [Dest.gp f.d.toNat]))
end Sys2Proof.Claims

/-- R35, R103, R153: a word of the arithmetic, movement, mask, group-register and predicate families changes its own
group alone, and in it only what waits to be written to its destination or to the flags, the feedback registers, and, where
it traps under PROTECT (R388), the trap and the halt of the clause. No byte of memory changes. -/
def Obligations.RegisterWordsFrame : Prop :=
  ∀ (w : GW) (f : V3) (h : VI), w.Issues → ∀ r ∈ registerWords f h, ∀ t, exec r.1 w.s = .next t →
    (∀ (l : Loc) (n : Nat), t.readLoc l n = w.s.readLoc l n) ∧ { t with groups := w.s.groups } = w.s ∧
    (∀ k, GKey.num k ≠ GKey.num w.key → t.group k = w.s.group k) ∧
    ∃ g, t.group w.key = some g ∧ (∀ p ∈ g.pend, p ∈ w.g.pend ∨ p.dest ∈ r.2) ∧
      { g with
        pend := w.g.pend, regs := { g.regs with fb := w.g.regs.fb }, trap := w.g.trap, issuing := w.g.issuing } = w.g
end

