-- ==== Sys2Proof/Laws/State.lean ====
section
/-! SUPPORT. What each named update of the state leaves as it was, field by field and record by record, and what it puts
where it writes. -/
namespace Sys2Proof.Machine
open Sys2Proof

/-! ## Fields -/

@[simp] theorem State.setCore_mem (s : State) (c : Nat) (x : Core) : (s.setCore c x).mem = s.mem := rfl
@[simp] theorem State.setCore_scr (s : State) (c : Nat) (x : Core) : (s.setCore c x).scr = s.scr := rfl
@[simp] theorem State.setCore_vlt (s : State) (c : Nat) (x : Core) : (s.setCore c x).vlt = s.vlt := rfl
@[simp] theorem State.setCore_groups (s : State) (c : Nat) (x : Core) : (s.setCore c x).groups = s.groups := rfl
@[simp] theorem State.setCore_tails (s : State) (c : Nat) (x : Core) : (s.setCore c x).tails = s.tails := rfl
@[simp] theorem State.setCore_blocks (s : State) (c : Nat) (x : Core) : (s.setCore c x).blocks = s.blocks := rfl
@[simp] theorem State.setCore_gangs (s : State) (c : Nat) (x : Core) : (s.setCore c x).gangs = s.gangs := rfl
@[simp] theorem State.setCore_launches (s : State) (c : Nat) (x : Core) : (s.setCore c x).launches = s.launches := rfl
@[simp] theorem State.setCore_graphs (s : State) (c : Nat) (x : Core) : (s.setCore c x).graphs = s.graphs := rfl
@[simp] theorem State.setCore_clusters (s : State) (c : Nat) (x : Core) : (s.setCore c x).clusters = s.clusters := rfl
@[simp] theorem State.setCore_chiplets (s : State) (c : Nat) (x : Core) : (s.setCore c x).chiplets = s.chiplets := rfl
@[simp] theorem State.setCore_ctxs (s : State) (c : Nat) (x : Core) : (s.setCore c x).ctxs = s.ctxs := rfl
@[simp] theorem State.setCore_rinds (s : State) (c : Nat) (x : Core) : (s.setCore c x).rinds = s.rinds := rfl
@[simp] theorem State.setCore_market (s : State) (c : Nat) (x : Core) : (s.setCore c x).market = s.market := rfl
@[simp] theorem State.setCore_host (s : State) (c : Nat) (x : Core) : (s.setCore c x).host = s.host := rfl
@[simp] theorem State.setCore_poisonMem (s : State) (c : Nat) (x : Core) : (s.setCore c x).poisonMem = s.poisonMem := rfl
@[simp] theorem State.setCore_poisonScr (s : State) (c : Nat) (x : Core) : (s.setCore c x).poisonScr = s.poisonScr := rfl
@[simp] theorem State.setCore_poisonVlt (s : State) (c : Nat) (x : Core) : (s.setCore c x).poisonVlt = s.poisonVlt := rfl
@[simp] theorem State.setCore_launchCtr (s : State) (c : Nat) (x : Core) : (s.setCore c x).launchCtr = s.launchCtr := rfl
@[simp] theorem State.setCore_acceptCtr (s : State) (c : Nat) (x : Core) : (s.setCore c x).acceptCtr = s.acceptCtr := rfl
@[simp] theorem State.setCore_placeCtr (s : State) (c : Nat) (x : Core) : (s.setCore c x).placeCtr = s.placeCtr := rfl
@[simp] theorem State.setCore_fatal (s : State) (c : Nat) (x : Core) : (s.setCore c x).fatal = s.fatal := rfl
@[simp] theorem State.setCore_now (s : State) (c : Nat) (x : Core) : (s.setCore c x).now = s.now := rfl
@[simp] theorem State.setCore_agenda (s : State) (c : Nat) (x : Core) : (s.setCore c x).agenda = s.agenda := rfl
@[simp] theorem State.setCore_cur (s : State) (c : Nat) (x : Core) : (s.setCore c x).cur = s.cur := rfl
@[simp] theorem State.setCluster_mem (s : State) (c : Nat) (x : Cluster) : (s.setCluster c x).mem = s.mem := rfl
@[simp] theorem State.setCluster_scr (s : State) (c : Nat) (x : Cluster) : (s.setCluster c x).scr = s.scr := rfl
@[simp] theorem State.setCluster_vlt (s : State) (c : Nat) (x : Cluster) : (s.setCluster c x).vlt = s.vlt := rfl
@[simp] theorem State.setCluster_groups (s : State) (c : Nat) (x : Cluster) : (s.setCluster c x).groups = s.groups := rfl
@[simp] theorem State.setCluster_tails (s : State) (c : Nat) (x : Cluster) : (s.setCluster c x).tails = s.tails := rfl
@[simp] theorem State.setCluster_blocks (s : State) (c : Nat) (x : Cluster) : (s.setCluster c x).blocks = s.blocks := rfl
@[simp] theorem State.setCluster_gangs (s : State) (c : Nat) (x : Cluster) : (s.setCluster c x).gangs = s.gangs := rfl
@[simp] theorem State.setCluster_launches (s : State) (c : Nat) (x : Cluster) : (s.setCluster c x).launches = s.launches := rfl
@[simp] theorem State.setCluster_graphs (s : State) (c : Nat) (x : Cluster) : (s.setCluster c x).graphs = s.graphs := rfl
@[simp] theorem State.setCluster_cores (s : State) (c : Nat) (x : Cluster) : (s.setCluster c x).cores = s.cores := rfl
@[simp] theorem State.setCluster_chiplets (s : State) (c : Nat) (x : Cluster) : (s.setCluster c x).chiplets = s.chiplets := rfl
@[simp] theorem State.setCluster_ctxs (s : State) (c : Nat) (x : Cluster) : (s.setCluster c x).ctxs = s.ctxs := rfl
@[simp] theorem State.setCluster_rinds (s : State) (c : Nat) (x : Cluster) : (s.setCluster c x).rinds = s.rinds := rfl
@[simp] theorem State.setCluster_market (s : State) (c : Nat) (x : Cluster) : (s.setCluster c x).market = s.market := rfl
@[simp] theorem State.setCluster_host (s : State) (c : Nat) (x : Cluster) : (s.setCluster c x).host = s.host := rfl
@[simp] theorem State.setCluster_poisonMem (s : State) (c : Nat) (x : Cluster) : (s.setCluster c x).poisonMem = s.poisonMem := rfl
@[simp] theorem State.setCluster_poisonScr (s : State) (c : Nat) (x : Cluster) : (s.setCluster c x).poisonScr = s.poisonScr := rfl
@[simp] theorem State.setCluster_poisonVlt (s : State) (c : Nat) (x : Cluster) : (s.setCluster c x).poisonVlt = s.poisonVlt := rfl
@[simp] theorem State.setCluster_launchCtr (s : State) (c : Nat) (x : Cluster) : (s.setCluster c x).launchCtr = s.launchCtr := rfl
@[simp] theorem State.setCluster_acceptCtr (s : State) (c : Nat) (x : Cluster) : (s.setCluster c x).acceptCtr = s.acceptCtr := rfl
@[simp] theorem State.setCluster_placeCtr (s : State) (c : Nat) (x : Cluster) : (s.setCluster c x).placeCtr = s.placeCtr := rfl
@[simp] theorem State.setCluster_fatal (s : State) (c : Nat) (x : Cluster) : (s.setCluster c x).fatal = s.fatal := rfl
@[simp] theorem State.setCluster_now (s : State) (c : Nat) (x : Cluster) : (s.setCluster c x).now = s.now := rfl
@[simp] theorem State.setCluster_agenda (s : State) (c : Nat) (x : Cluster) : (s.setCluster c x).agenda = s.agenda := rfl
@[simp] theorem State.setCluster_cur (s : State) (c : Nat) (x : Cluster) : (s.setCluster c x).cur = s.cur := rfl
@[simp] theorem State.setChiplet_mem (s : State) (c : Nat) (x : Chiplet) : (s.setChiplet c x).mem = s.mem := rfl
@[simp] theorem State.setChiplet_scr (s : State) (c : Nat) (x : Chiplet) : (s.setChiplet c x).scr = s.scr := rfl
@[simp] theorem State.setChiplet_vlt (s : State) (c : Nat) (x : Chiplet) : (s.setChiplet c x).vlt = s.vlt := rfl
@[simp] theorem State.setChiplet_groups (s : State) (c : Nat) (x : Chiplet) : (s.setChiplet c x).groups = s.groups := rfl
@[simp] theorem State.setChiplet_tails (s : State) (c : Nat) (x : Chiplet) : (s.setChiplet c x).tails = s.tails := rfl
@[simp] theorem State.setChiplet_blocks (s : State) (c : Nat) (x : Chiplet) : (s.setChiplet c x).blocks = s.blocks := rfl
@[simp] theorem State.setChiplet_gangs (s : State) (c : Nat) (x : Chiplet) : (s.setChiplet c x).gangs = s.gangs := rfl
@[simp] theorem State.setChiplet_launches (s : State) (c : Nat) (x : Chiplet) : (s.setChiplet c x).launches = s.launches := rfl
@[simp] theorem State.setChiplet_graphs (s : State) (c : Nat) (x : Chiplet) : (s.setChiplet c x).graphs = s.graphs := rfl
@[simp] theorem State.setChiplet_cores (s : State) (c : Nat) (x : Chiplet) : (s.setChiplet c x).cores = s.cores := rfl
@[simp] theorem State.setChiplet_clusters (s : State) (c : Nat) (x : Chiplet) : (s.setChiplet c x).clusters = s.clusters := rfl
@[simp] theorem State.setChiplet_ctxs (s : State) (c : Nat) (x : Chiplet) : (s.setChiplet c x).ctxs = s.ctxs := rfl
@[simp] theorem State.setChiplet_rinds (s : State) (c : Nat) (x : Chiplet) : (s.setChiplet c x).rinds = s.rinds := rfl
@[simp] theorem State.setChiplet_market (s : State) (c : Nat) (x : Chiplet) : (s.setChiplet c x).market = s.market := rfl
@[simp] theorem State.setChiplet_host (s : State) (c : Nat) (x : Chiplet) : (s.setChiplet c x).host = s.host := rfl
@[simp] theorem State.setChiplet_poisonMem (s : State) (c : Nat) (x : Chiplet) : (s.setChiplet c x).poisonMem = s.poisonMem := rfl
@[simp] theorem State.setChiplet_poisonScr (s : State) (c : Nat) (x : Chiplet) : (s.setChiplet c x).poisonScr = s.poisonScr := rfl
@[simp] theorem State.setChiplet_poisonVlt (s : State) (c : Nat) (x : Chiplet) : (s.setChiplet c x).poisonVlt = s.poisonVlt := rfl
@[simp] theorem State.setChiplet_launchCtr (s : State) (c : Nat) (x : Chiplet) : (s.setChiplet c x).launchCtr = s.launchCtr := rfl
@[simp] theorem State.setChiplet_acceptCtr (s : State) (c : Nat) (x : Chiplet) : (s.setChiplet c x).acceptCtr = s.acceptCtr := rfl
@[simp] theorem State.setChiplet_placeCtr (s : State) (c : Nat) (x : Chiplet) : (s.setChiplet c x).placeCtr = s.placeCtr := rfl
@[simp] theorem State.setChiplet_fatal (s : State) (c : Nat) (x : Chiplet) : (s.setChiplet c x).fatal = s.fatal := rfl
@[simp] theorem State.setChiplet_now (s : State) (c : Nat) (x : Chiplet) : (s.setChiplet c x).now = s.now := rfl
@[simp] theorem State.setChiplet_agenda (s : State) (c : Nat) (x : Chiplet) : (s.setChiplet c x).agenda = s.agenda := rfl
@[simp] theorem State.setChiplet_cur (s : State) (c : Nat) (x : Chiplet) : (s.setChiplet c x).cur = s.cur := rfl
@[simp] theorem State.setCtx_mem (s : State) (c : Nat) (x : Ctx) : (s.setCtx c x).mem = s.mem := rfl
@[simp] theorem State.setCtx_scr (s : State) (c : Nat) (x : Ctx) : (s.setCtx c x).scr = s.scr := rfl
@[simp] theorem State.setCtx_vlt (s : State) (c : Nat) (x : Ctx) : (s.setCtx c x).vlt = s.vlt := rfl
@[simp] theorem State.setCtx_groups (s : State) (c : Nat) (x : Ctx) : (s.setCtx c x).groups = s.groups := rfl
@[simp] theorem State.setCtx_tails (s : State) (c : Nat) (x : Ctx) : (s.setCtx c x).tails = s.tails := rfl
@[simp] theorem State.setCtx_blocks (s : State) (c : Nat) (x : Ctx) : (s.setCtx c x).blocks = s.blocks := rfl
@[simp] theorem State.setCtx_gangs (s : State) (c : Nat) (x : Ctx) : (s.setCtx c x).gangs = s.gangs := rfl
@[simp] theorem State.setCtx_launches (s : State) (c : Nat) (x : Ctx) : (s.setCtx c x).launches = s.launches := rfl
@[simp] theorem State.setCtx_graphs (s : State) (c : Nat) (x : Ctx) : (s.setCtx c x).graphs = s.graphs := rfl
@[simp] theorem State.setCtx_cores (s : State) (c : Nat) (x : Ctx) : (s.setCtx c x).cores = s.cores := rfl
@[simp] theorem State.setCtx_clusters (s : State) (c : Nat) (x : Ctx) : (s.setCtx c x).clusters = s.clusters := rfl
@[simp] theorem State.setCtx_chiplets (s : State) (c : Nat) (x : Ctx) : (s.setCtx c x).chiplets = s.chiplets := rfl
@[simp] theorem State.setCtx_rinds (s : State) (c : Nat) (x : Ctx) : (s.setCtx c x).rinds = s.rinds := rfl
@[simp] theorem State.setCtx_market (s : State) (c : Nat) (x : Ctx) : (s.setCtx c x).market = s.market := rfl
@[simp] theorem State.setCtx_host (s : State) (c : Nat) (x : Ctx) : (s.setCtx c x).host = s.host := rfl
@[simp] theorem State.setCtx_poisonMem (s : State) (c : Nat) (x : Ctx) : (s.setCtx c x).poisonMem = s.poisonMem := rfl
@[simp] theorem State.setCtx_poisonScr (s : State) (c : Nat) (x : Ctx) : (s.setCtx c x).poisonScr = s.poisonScr := rfl
@[simp] theorem State.setCtx_poisonVlt (s : State) (c : Nat) (x : Ctx) : (s.setCtx c x).poisonVlt = s.poisonVlt := rfl
@[simp] theorem State.setCtx_launchCtr (s : State) (c : Nat) (x : Ctx) : (s.setCtx c x).launchCtr = s.launchCtr := rfl
@[simp] theorem State.setCtx_acceptCtr (s : State) (c : Nat) (x : Ctx) : (s.setCtx c x).acceptCtr = s.acceptCtr := rfl
@[simp] theorem State.setCtx_placeCtr (s : State) (c : Nat) (x : Ctx) : (s.setCtx c x).placeCtr = s.placeCtr := rfl
@[simp] theorem State.setCtx_fatal (s : State) (c : Nat) (x : Ctx) : (s.setCtx c x).fatal = s.fatal := rfl
@[simp] theorem State.setCtx_now (s : State) (c : Nat) (x : Ctx) : (s.setCtx c x).now = s.now := rfl
@[simp] theorem State.setCtx_agenda (s : State) (c : Nat) (x : Ctx) : (s.setCtx c x).agenda = s.agenda := rfl
@[simp] theorem State.setCtx_cur (s : State) (c : Nat) (x : Ctx) : (s.setCtx c x).cur = s.cur := rfl
@[simp] theorem State.setGroup_mem (s : State) (k : GKey) (g : Group) : (s.setGroup k g).mem = s.mem := rfl
@[simp] theorem State.setGroup_scr (s : State) (k : GKey) (g : Group) : (s.setGroup k g).scr = s.scr := rfl
@[simp] theorem State.setGroup_vlt (s : State) (k : GKey) (g : Group) : (s.setGroup k g).vlt = s.vlt := rfl
@[simp] theorem State.setGroup_tails (s : State) (k : GKey) (g : Group) : (s.setGroup k g).tails = s.tails := rfl
@[simp] theorem State.setGroup_blocks (s : State) (k : GKey) (g : Group) : (s.setGroup k g).blocks = s.blocks := rfl
@[simp] theorem State.setGroup_gangs (s : State) (k : GKey) (g : Group) : (s.setGroup k g).gangs = s.gangs := rfl
@[simp] theorem State.setGroup_launches (s : State) (k : GKey) (g : Group) : (s.setGroup k g).launches = s.launches := rfl
@[simp] theorem State.setGroup_graphs (s : State) (k : GKey) (g : Group) : (s.setGroup k g).graphs = s.graphs := rfl
@[simp] theorem State.setGroup_cores (s : State) (k : GKey) (g : Group) : (s.setGroup k g).cores = s.cores := rfl
@[simp] theorem State.setGroup_clusters (s : State) (k : GKey) (g : Group) : (s.setGroup k g).clusters = s.clusters := rfl
@[simp] theorem State.setGroup_chiplets (s : State) (k : GKey) (g : Group) : (s.setGroup k g).chiplets = s.chiplets := rfl
@[simp] theorem State.setGroup_ctxs (s : State) (k : GKey) (g : Group) : (s.setGroup k g).ctxs = s.ctxs := rfl
@[simp] theorem State.setGroup_rinds (s : State) (k : GKey) (g : Group) : (s.setGroup k g).rinds = s.rinds := rfl
@[simp] theorem State.setGroup_market (s : State) (k : GKey) (g : Group) : (s.setGroup k g).market = s.market := rfl
@[simp] theorem State.setGroup_host (s : State) (k : GKey) (g : Group) : (s.setGroup k g).host = s.host := rfl
@[simp] theorem State.setGroup_poisonMem (s : State) (k : GKey) (g : Group) : (s.setGroup k g).poisonMem = s.poisonMem := rfl
@[simp] theorem State.setGroup_poisonScr (s : State) (k : GKey) (g : Group) : (s.setGroup k g).poisonScr = s.poisonScr := rfl
@[simp] theorem State.setGroup_poisonVlt (s : State) (k : GKey) (g : Group) : (s.setGroup k g).poisonVlt = s.poisonVlt := rfl
@[simp] theorem State.setGroup_launchCtr (s : State) (k : GKey) (g : Group) : (s.setGroup k g).launchCtr = s.launchCtr := rfl
@[simp] theorem State.setGroup_acceptCtr (s : State) (k : GKey) (g : Group) : (s.setGroup k g).acceptCtr = s.acceptCtr := rfl
@[simp] theorem State.setGroup_placeCtr (s : State) (k : GKey) (g : Group) : (s.setGroup k g).placeCtr = s.placeCtr := rfl
@[simp] theorem State.setGroup_fatal (s : State) (k : GKey) (g : Group) : (s.setGroup k g).fatal = s.fatal := rfl
@[simp] theorem State.setGroup_now (s : State) (k : GKey) (g : Group) : (s.setGroup k g).now = s.now := rfl
@[simp] theorem State.setGroup_agenda (s : State) (k : GKey) (g : Group) : (s.setGroup k g).agenda = s.agenda := rfl
@[simp] theorem State.setGroup_cur (s : State) (k : GKey) (g : Group) : (s.setGroup k g).cur = s.cur := rfl
@[simp] theorem State.setBlock_mem (s : State) (b : Nat) (x : Block) : (s.setBlock b x).mem = s.mem := rfl
@[simp] theorem State.setBlock_scr (s : State) (b : Nat) (x : Block) : (s.setBlock b x).scr = s.scr := rfl
@[simp] theorem State.setBlock_vlt (s : State) (b : Nat) (x : Block) : (s.setBlock b x).vlt = s.vlt := rfl
@[simp] theorem State.setBlock_groups (s : State) (b : Nat) (x : Block) : (s.setBlock b x).groups = s.groups := rfl
@[simp] theorem State.setBlock_tails (s : State) (b : Nat) (x : Block) : (s.setBlock b x).tails = s.tails := rfl
@[simp] theorem State.setBlock_gangs (s : State) (b : Nat) (x : Block) : (s.setBlock b x).gangs = s.gangs := rfl
@[simp] theorem State.setBlock_launches (s : State) (b : Nat) (x : Block) : (s.setBlock b x).launches = s.launches := rfl
@[simp] theorem State.setBlock_graphs (s : State) (b : Nat) (x : Block) : (s.setBlock b x).graphs = s.graphs := rfl
@[simp] theorem State.setBlock_cores (s : State) (b : Nat) (x : Block) : (s.setBlock b x).cores = s.cores := rfl
@[simp] theorem State.setBlock_clusters (s : State) (b : Nat) (x : Block) : (s.setBlock b x).clusters = s.clusters := rfl
@[simp] theorem State.setBlock_chiplets (s : State) (b : Nat) (x : Block) : (s.setBlock b x).chiplets = s.chiplets := rfl
@[simp] theorem State.setBlock_ctxs (s : State) (b : Nat) (x : Block) : (s.setBlock b x).ctxs = s.ctxs := rfl
@[simp] theorem State.setBlock_rinds (s : State) (b : Nat) (x : Block) : (s.setBlock b x).rinds = s.rinds := rfl
@[simp] theorem State.setBlock_market (s : State) (b : Nat) (x : Block) : (s.setBlock b x).market = s.market := rfl
@[simp] theorem State.setBlock_host (s : State) (b : Nat) (x : Block) : (s.setBlock b x).host = s.host := rfl
@[simp] theorem State.setBlock_poisonMem (s : State) (b : Nat) (x : Block) : (s.setBlock b x).poisonMem = s.poisonMem := rfl
@[simp] theorem State.setBlock_poisonScr (s : State) (b : Nat) (x : Block) : (s.setBlock b x).poisonScr = s.poisonScr := rfl
@[simp] theorem State.setBlock_poisonVlt (s : State) (b : Nat) (x : Block) : (s.setBlock b x).poisonVlt = s.poisonVlt := rfl
@[simp] theorem State.setBlock_launchCtr (s : State) (b : Nat) (x : Block) : (s.setBlock b x).launchCtr = s.launchCtr := rfl
@[simp] theorem State.setBlock_acceptCtr (s : State) (b : Nat) (x : Block) : (s.setBlock b x).acceptCtr = s.acceptCtr := rfl
@[simp] theorem State.setBlock_placeCtr (s : State) (b : Nat) (x : Block) : (s.setBlock b x).placeCtr = s.placeCtr := rfl
@[simp] theorem State.setBlock_fatal (s : State) (b : Nat) (x : Block) : (s.setBlock b x).fatal = s.fatal := rfl
@[simp] theorem State.setBlock_now (s : State) (b : Nat) (x : Block) : (s.setBlock b x).now = s.now := rfl
@[simp] theorem State.setBlock_agenda (s : State) (b : Nat) (x : Block) : (s.setBlock b x).agenda = s.agenda := rfl
@[simp] theorem State.setBlock_cur (s : State) (b : Nat) (x : Block) : (s.setBlock b x).cur = s.cur := rfl
@[simp] theorem State.setLaunch_mem (s : State) (l : Nat) (x : Launch) : (s.setLaunch l x).mem = s.mem := rfl
@[simp] theorem State.setLaunch_scr (s : State) (l : Nat) (x : Launch) : (s.setLaunch l x).scr = s.scr := rfl
@[simp] theorem State.setLaunch_vlt (s : State) (l : Nat) (x : Launch) : (s.setLaunch l x).vlt = s.vlt := rfl
@[simp] theorem State.setLaunch_groups (s : State) (l : Nat) (x : Launch) : (s.setLaunch l x).groups = s.groups := rfl
@[simp] theorem State.setLaunch_tails (s : State) (l : Nat) (x : Launch) : (s.setLaunch l x).tails = s.tails := rfl
@[simp] theorem State.setLaunch_blocks (s : State) (l : Nat) (x : Launch) : (s.setLaunch l x).blocks = s.blocks := rfl
@[simp] theorem State.setLaunch_gangs (s : State) (l : Nat) (x : Launch) : (s.setLaunch l x).gangs = s.gangs := rfl
@[simp] theorem State.setLaunch_graphs (s : State) (l : Nat) (x : Launch) : (s.setLaunch l x).graphs = s.graphs := rfl
@[simp] theorem State.setLaunch_cores (s : State) (l : Nat) (x : Launch) : (s.setLaunch l x).cores = s.cores := rfl
@[simp] theorem State.setLaunch_clusters (s : State) (l : Nat) (x : Launch) : (s.setLaunch l x).clusters = s.clusters := rfl
@[simp] theorem State.setLaunch_chiplets (s : State) (l : Nat) (x : Launch) : (s.setLaunch l x).chiplets = s.chiplets := rfl
@[simp] theorem State.setLaunch_ctxs (s : State) (l : Nat) (x : Launch) : (s.setLaunch l x).ctxs = s.ctxs := rfl
@[simp] theorem State.setLaunch_rinds (s : State) (l : Nat) (x : Launch) : (s.setLaunch l x).rinds = s.rinds := rfl
@[simp] theorem State.setLaunch_market (s : State) (l : Nat) (x : Launch) : (s.setLaunch l x).market = s.market := rfl
@[simp] theorem State.setLaunch_host (s : State) (l : Nat) (x : Launch) : (s.setLaunch l x).host = s.host := rfl
@[simp] theorem State.setLaunch_poisonMem (s : State) (l : Nat) (x : Launch) : (s.setLaunch l x).poisonMem = s.poisonMem := rfl
@[simp] theorem State.setLaunch_poisonScr (s : State) (l : Nat) (x : Launch) : (s.setLaunch l x).poisonScr = s.poisonScr := rfl
@[simp] theorem State.setLaunch_poisonVlt (s : State) (l : Nat) (x : Launch) : (s.setLaunch l x).poisonVlt = s.poisonVlt := rfl
@[simp] theorem State.setLaunch_launchCtr (s : State) (l : Nat) (x : Launch) : (s.setLaunch l x).launchCtr = s.launchCtr := rfl
@[simp] theorem State.setLaunch_acceptCtr (s : State) (l : Nat) (x : Launch) : (s.setLaunch l x).acceptCtr = s.acceptCtr := rfl
@[simp] theorem State.setLaunch_placeCtr (s : State) (l : Nat) (x : Launch) : (s.setLaunch l x).placeCtr = s.placeCtr := rfl
@[simp] theorem State.setLaunch_fatal (s : State) (l : Nat) (x : Launch) : (s.setLaunch l x).fatal = s.fatal := rfl
@[simp] theorem State.setLaunch_now (s : State) (l : Nat) (x : Launch) : (s.setLaunch l x).now = s.now := rfl
@[simp] theorem State.setLaunch_agenda (s : State) (l : Nat) (x : Launch) : (s.setLaunch l x).agenda = s.agenda := rfl
@[simp] theorem State.setLaunch_cur (s : State) (l : Nat) (x : Launch) : (s.setLaunch l x).cur = s.cur := rfl
@[simp] theorem State.setStarter_mem (s : State) (cl j : Nat) (x : SCtx) : (s.setStarter cl j x).mem = s.mem := rfl
@[simp] theorem State.setStarter_scr (s : State) (cl j : Nat) (x : SCtx) : (s.setStarter cl j x).scr = s.scr := rfl
@[simp] theorem State.setStarter_vlt (s : State) (cl j : Nat) (x : SCtx) : (s.setStarter cl j x).vlt = s.vlt := rfl
@[simp] theorem State.setStarter_groups (s : State) (cl j : Nat) (x : SCtx) : (s.setStarter cl j x).groups = s.groups := rfl
@[simp] theorem State.setStarter_tails (s : State) (cl j : Nat) (x : SCtx) : (s.setStarter cl j x).tails = s.tails := rfl
@[simp] theorem State.setStarter_blocks (s : State) (cl j : Nat) (x : SCtx) : (s.setStarter cl j x).blocks = s.blocks := rfl
@[simp] theorem State.setStarter_gangs (s : State) (cl j : Nat) (x : SCtx) : (s.setStarter cl j x).gangs = s.gangs := rfl
@[simp] theorem State.setStarter_launches (s : State) (cl j : Nat) (x : SCtx) : (s.setStarter cl j x).launches = s.launches := rfl
@[simp] theorem State.setStarter_graphs (s : State) (cl j : Nat) (x : SCtx) : (s.setStarter cl j x).graphs = s.graphs := rfl
@[simp] theorem State.setStarter_cores (s : State) (cl j : Nat) (x : SCtx) : (s.setStarter cl j x).cores = s.cores := rfl
@[simp] theorem State.setStarter_chiplets (s : State) (cl j : Nat) (x : SCtx) : (s.setStarter cl j x).chiplets = s.chiplets := rfl
@[simp] theorem State.setStarter_ctxs (s : State) (cl j : Nat) (x : SCtx) : (s.setStarter cl j x).ctxs = s.ctxs := rfl
@[simp] theorem State.setStarter_rinds (s : State) (cl j : Nat) (x : SCtx) : (s.setStarter cl j x).rinds = s.rinds := rfl
@[simp] theorem State.setStarter_market (s : State) (cl j : Nat) (x : SCtx) : (s.setStarter cl j x).market = s.market := rfl
@[simp] theorem State.setStarter_host (s : State) (cl j : Nat) (x : SCtx) : (s.setStarter cl j x).host = s.host := rfl
@[simp] theorem State.setStarter_poisonMem (s : State) (cl j : Nat) (x : SCtx) : (s.setStarter cl j x).poisonMem = s.poisonMem := rfl
@[simp] theorem State.setStarter_poisonScr (s : State) (cl j : Nat) (x : SCtx) : (s.setStarter cl j x).poisonScr = s.poisonScr := rfl
@[simp] theorem State.setStarter_poisonVlt (s : State) (cl j : Nat) (x : SCtx) : (s.setStarter cl j x).poisonVlt = s.poisonVlt := rfl
@[simp] theorem State.setStarter_launchCtr (s : State) (cl j : Nat) (x : SCtx) : (s.setStarter cl j x).launchCtr = s.launchCtr := rfl
@[simp] theorem State.setStarter_acceptCtr (s : State) (cl j : Nat) (x : SCtx) : (s.setStarter cl j x).acceptCtr = s.acceptCtr := rfl
@[simp] theorem State.setStarter_placeCtr (s : State) (cl j : Nat) (x : SCtx) : (s.setStarter cl j x).placeCtr = s.placeCtr := rfl
@[simp] theorem State.setStarter_fatal (s : State) (cl j : Nat) (x : SCtx) : (s.setStarter cl j x).fatal = s.fatal := rfl
@[simp] theorem State.setStarter_now (s : State) (cl j : Nat) (x : SCtx) : (s.setStarter cl j x).now = s.now := rfl
@[simp] theorem State.setStarter_agenda (s : State) (cl j : Nat) (x : SCtx) : (s.setStarter cl j x).agenda = s.agenda := rfl
@[simp] theorem State.setStarter_cur (s : State) (cl j : Nat) (x : SCtx) : (s.setStarter cl j x).cur = s.cur := rfl
@[simp] theorem State.setDesc_mem (s : State) (cl d : Nat) (x : Desc) : (s.setDesc cl d x).mem = s.mem := rfl
@[simp] theorem State.setDesc_scr (s : State) (cl d : Nat) (x : Desc) : (s.setDesc cl d x).scr = s.scr := rfl
@[simp] theorem State.setDesc_vlt (s : State) (cl d : Nat) (x : Desc) : (s.setDesc cl d x).vlt = s.vlt := rfl
@[simp] theorem State.setDesc_groups (s : State) (cl d : Nat) (x : Desc) : (s.setDesc cl d x).groups = s.groups := rfl
@[simp] theorem State.setDesc_tails (s : State) (cl d : Nat) (x : Desc) : (s.setDesc cl d x).tails = s.tails := rfl
@[simp] theorem State.setDesc_blocks (s : State) (cl d : Nat) (x : Desc) : (s.setDesc cl d x).blocks = s.blocks := rfl
@[simp] theorem State.setDesc_gangs (s : State) (cl d : Nat) (x : Desc) : (s.setDesc cl d x).gangs = s.gangs := rfl
@[simp] theorem State.setDesc_launches (s : State) (cl d : Nat) (x : Desc) : (s.setDesc cl d x).launches = s.launches := rfl
@[simp] theorem State.setDesc_graphs (s : State) (cl d : Nat) (x : Desc) : (s.setDesc cl d x).graphs = s.graphs := rfl
@[simp] theorem State.setDesc_cores (s : State) (cl d : Nat) (x : Desc) : (s.setDesc cl d x).cores = s.cores := rfl
@[simp] theorem State.setDesc_chiplets (s : State) (cl d : Nat) (x : Desc) : (s.setDesc cl d x).chiplets = s.chiplets := rfl
@[simp] theorem State.setDesc_ctxs (s : State) (cl d : Nat) (x : Desc) : (s.setDesc cl d x).ctxs = s.ctxs := rfl
@[simp] theorem State.setDesc_rinds (s : State) (cl d : Nat) (x : Desc) : (s.setDesc cl d x).rinds = s.rinds := rfl
@[simp] theorem State.setDesc_market (s : State) (cl d : Nat) (x : Desc) : (s.setDesc cl d x).market = s.market := rfl
@[simp] theorem State.setDesc_host (s : State) (cl d : Nat) (x : Desc) : (s.setDesc cl d x).host = s.host := rfl
@[simp] theorem State.setDesc_poisonMem (s : State) (cl d : Nat) (x : Desc) : (s.setDesc cl d x).poisonMem = s.poisonMem := rfl
@[simp] theorem State.setDesc_poisonScr (s : State) (cl d : Nat) (x : Desc) : (s.setDesc cl d x).poisonScr = s.poisonScr := rfl
@[simp] theorem State.setDesc_poisonVlt (s : State) (cl d : Nat) (x : Desc) : (s.setDesc cl d x).poisonVlt = s.poisonVlt := rfl
@[simp] theorem State.setDesc_launchCtr (s : State) (cl d : Nat) (x : Desc) : (s.setDesc cl d x).launchCtr = s.launchCtr := rfl
@[simp] theorem State.setDesc_acceptCtr (s : State) (cl d : Nat) (x : Desc) : (s.setDesc cl d x).acceptCtr = s.acceptCtr := rfl
@[simp] theorem State.setDesc_placeCtr (s : State) (cl d : Nat) (x : Desc) : (s.setDesc cl d x).placeCtr = s.placeCtr := rfl
@[simp] theorem State.setDesc_fatal (s : State) (cl d : Nat) (x : Desc) : (s.setDesc cl d x).fatal = s.fatal := rfl
@[simp] theorem State.setDesc_now (s : State) (cl d : Nat) (x : Desc) : (s.setDesc cl d x).now = s.now := rfl
@[simp] theorem State.setDesc_agenda (s : State) (cl d : Nat) (x : Desc) : (s.setDesc cl d x).agenda = s.agenda := rfl
@[simp] theorem State.setDesc_cur (s : State) (cl d : Nat) (x : Desc) : (s.setDesc cl d x).cur = s.cur := rfl
@[simp] theorem State.setSlot_mem (s : State) (cl i : Nat) (x : SubSlot) : (s.setSlot cl i x).mem = s.mem := rfl
@[simp] theorem State.setSlot_scr (s : State) (cl i : Nat) (x : SubSlot) : (s.setSlot cl i x).scr = s.scr := rfl
@[simp] theorem State.setSlot_vlt (s : State) (cl i : Nat) (x : SubSlot) : (s.setSlot cl i x).vlt = s.vlt := rfl
@[simp] theorem State.setSlot_groups (s : State) (cl i : Nat) (x : SubSlot) : (s.setSlot cl i x).groups = s.groups := rfl
@[simp] theorem State.setSlot_tails (s : State) (cl i : Nat) (x : SubSlot) : (s.setSlot cl i x).tails = s.tails := rfl
@[simp] theorem State.setSlot_blocks (s : State) (cl i : Nat) (x : SubSlot) : (s.setSlot cl i x).blocks = s.blocks := rfl
@[simp] theorem State.setSlot_gangs (s : State) (cl i : Nat) (x : SubSlot) : (s.setSlot cl i x).gangs = s.gangs := rfl
@[simp] theorem State.setSlot_launches (s : State) (cl i : Nat) (x : SubSlot) : (s.setSlot cl i x).launches = s.launches := rfl
@[simp] theorem State.setSlot_graphs (s : State) (cl i : Nat) (x : SubSlot) : (s.setSlot cl i x).graphs = s.graphs := rfl
@[simp] theorem State.setSlot_cores (s : State) (cl i : Nat) (x : SubSlot) : (s.setSlot cl i x).cores = s.cores := rfl
@[simp] theorem State.setSlot_chiplets (s : State) (cl i : Nat) (x : SubSlot) : (s.setSlot cl i x).chiplets = s.chiplets := rfl
@[simp] theorem State.setSlot_ctxs (s : State) (cl i : Nat) (x : SubSlot) : (s.setSlot cl i x).ctxs = s.ctxs := rfl
@[simp] theorem State.setSlot_rinds (s : State) (cl i : Nat) (x : SubSlot) : (s.setSlot cl i x).rinds = s.rinds := rfl
@[simp] theorem State.setSlot_market (s : State) (cl i : Nat) (x : SubSlot) : (s.setSlot cl i x).market = s.market := rfl
@[simp] theorem State.setSlot_host (s : State) (cl i : Nat) (x : SubSlot) : (s.setSlot cl i x).host = s.host := rfl
@[simp] theorem State.setSlot_poisonMem (s : State) (cl i : Nat) (x : SubSlot) : (s.setSlot cl i x).poisonMem = s.poisonMem := rfl
@[simp] theorem State.setSlot_poisonScr (s : State) (cl i : Nat) (x : SubSlot) : (s.setSlot cl i x).poisonScr = s.poisonScr := rfl
@[simp] theorem State.setSlot_poisonVlt (s : State) (cl i : Nat) (x : SubSlot) : (s.setSlot cl i x).poisonVlt = s.poisonVlt := rfl
@[simp] theorem State.setSlot_launchCtr (s : State) (cl i : Nat) (x : SubSlot) : (s.setSlot cl i x).launchCtr = s.launchCtr := rfl
@[simp] theorem State.setSlot_acceptCtr (s : State) (cl i : Nat) (x : SubSlot) : (s.setSlot cl i x).acceptCtr = s.acceptCtr := rfl
@[simp] theorem State.setSlot_placeCtr (s : State) (cl i : Nat) (x : SubSlot) : (s.setSlot cl i x).placeCtr = s.placeCtr := rfl
@[simp] theorem State.setSlot_fatal (s : State) (cl i : Nat) (x : SubSlot) : (s.setSlot cl i x).fatal = s.fatal := rfl
@[simp] theorem State.setSlot_now (s : State) (cl i : Nat) (x : SubSlot) : (s.setSlot cl i x).now = s.now := rfl
@[simp] theorem State.setSlot_agenda (s : State) (cl i : Nat) (x : SubSlot) : (s.setSlot cl i x).agenda = s.agenda := rfl
@[simp] theorem State.setSlot_cur (s : State) (cl i : Nat) (x : SubSlot) : (s.setSlot cl i x).cur = s.cur := rfl
@[simp] theorem State.setTeam_mem (s : State) (core tm : Nat) (t : Option Team) : (s.setTeam core tm t).mem = s.mem := rfl
@[simp] theorem State.setTeam_scr (s : State) (core tm : Nat) (t : Option Team) : (s.setTeam core tm t).scr = s.scr := rfl
@[simp] theorem State.setTeam_vlt (s : State) (core tm : Nat) (t : Option Team) : (s.setTeam core tm t).vlt = s.vlt := rfl
@[simp] theorem State.setTeam_groups (s : State) (core tm : Nat) (t : Option Team) : (s.setTeam core tm t).groups = s.groups := rfl
@[simp] theorem State.setTeam_tails (s : State) (core tm : Nat) (t : Option Team) : (s.setTeam core tm t).tails = s.tails := rfl
@[simp] theorem State.setTeam_blocks (s : State) (core tm : Nat) (t : Option Team) : (s.setTeam core tm t).blocks = s.blocks := rfl
@[simp] theorem State.setTeam_gangs (s : State) (core tm : Nat) (t : Option Team) : (s.setTeam core tm t).gangs = s.gangs := rfl
@[simp] theorem State.setTeam_launches (s : State) (core tm : Nat) (t : Option Team) : (s.setTeam core tm t).launches = s.launches := rfl
@[simp] theorem State.setTeam_graphs (s : State) (core tm : Nat) (t : Option Team) : (s.setTeam core tm t).graphs = s.graphs := rfl
@[simp] theorem State.setTeam_clusters (s : State) (core tm : Nat) (t : Option Team) : (s.setTeam core tm t).clusters = s.clusters := rfl
@[simp] theorem State.setTeam_chiplets (s : State) (core tm : Nat) (t : Option Team) : (s.setTeam core tm t).chiplets = s.chiplets := rfl
@[simp] theorem State.setTeam_ctxs (s : State) (core tm : Nat) (t : Option Team) : (s.setTeam core tm t).ctxs = s.ctxs := rfl
@[simp] theorem State.setTeam_rinds (s : State) (core tm : Nat) (t : Option Team) : (s.setTeam core tm t).rinds = s.rinds := rfl
@[simp] theorem State.setTeam_market (s : State) (core tm : Nat) (t : Option Team) : (s.setTeam core tm t).market = s.market := rfl
@[simp] theorem State.setTeam_host (s : State) (core tm : Nat) (t : Option Team) : (s.setTeam core tm t).host = s.host := rfl
@[simp] theorem State.setTeam_poisonMem (s : State) (core tm : Nat) (t : Option Team) : (s.setTeam core tm t).poisonMem = s.poisonMem := rfl
@[simp] theorem State.setTeam_poisonScr (s : State) (core tm : Nat) (t : Option Team) : (s.setTeam core tm t).poisonScr = s.poisonScr := rfl
@[simp] theorem State.setTeam_poisonVlt (s : State) (core tm : Nat) (t : Option Team) : (s.setTeam core tm t).poisonVlt = s.poisonVlt := rfl
@[simp] theorem State.setTeam_launchCtr (s : State) (core tm : Nat) (t : Option Team) : (s.setTeam core tm t).launchCtr = s.launchCtr := rfl
@[simp] theorem State.setTeam_acceptCtr (s : State) (core tm : Nat) (t : Option Team) : (s.setTeam core tm t).acceptCtr = s.acceptCtr := rfl
@[simp] theorem State.setTeam_placeCtr (s : State) (core tm : Nat) (t : Option Team) : (s.setTeam core tm t).placeCtr = s.placeCtr := rfl
@[simp] theorem State.setTeam_fatal (s : State) (core tm : Nat) (t : Option Team) : (s.setTeam core tm t).fatal = s.fatal := rfl
@[simp] theorem State.setTeam_now (s : State) (core tm : Nat) (t : Option Team) : (s.setTeam core tm t).now = s.now := rfl
@[simp] theorem State.setTeam_agenda (s : State) (core tm : Nat) (t : Option Team) : (s.setTeam core tm t).agenda = s.agenda := rfl
@[simp] theorem State.setTeam_cur (s : State) (core tm : Nat) (t : Option Team) : (s.setTeam core tm t).cur = s.cur := rfl
@[simp] theorem State.ctxInt_mem (s : State) (c bit : Nat) : (s.ctxInt c bit).mem = s.mem := rfl
@[simp] theorem State.ctxInt_scr (s : State) (c bit : Nat) : (s.ctxInt c bit).scr = s.scr := rfl
@[simp] theorem State.ctxInt_vlt (s : State) (c bit : Nat) : (s.ctxInt c bit).vlt = s.vlt := rfl
@[simp] theorem State.ctxInt_groups (s : State) (c bit : Nat) : (s.ctxInt c bit).groups = s.groups := rfl
@[simp] theorem State.ctxInt_tails (s : State) (c bit : Nat) : (s.ctxInt c bit).tails = s.tails := rfl
@[simp] theorem State.ctxInt_blocks (s : State) (c bit : Nat) : (s.ctxInt c bit).blocks = s.blocks := rfl
@[simp] theorem State.ctxInt_gangs (s : State) (c bit : Nat) : (s.ctxInt c bit).gangs = s.gangs := rfl
@[simp] theorem State.ctxInt_launches (s : State) (c bit : Nat) : (s.ctxInt c bit).launches = s.launches := rfl
@[simp] theorem State.ctxInt_graphs (s : State) (c bit : Nat) : (s.ctxInt c bit).graphs = s.graphs := rfl
@[simp] theorem State.ctxInt_cores (s : State) (c bit : Nat) : (s.ctxInt c bit).cores = s.cores := rfl
@[simp] theorem State.ctxInt_clusters (s : State) (c bit : Nat) : (s.ctxInt c bit).clusters = s.clusters := rfl
@[simp] theorem State.ctxInt_chiplets (s : State) (c bit : Nat) : (s.ctxInt c bit).chiplets = s.chiplets := rfl
@[simp] theorem State.ctxInt_rinds (s : State) (c bit : Nat) : (s.ctxInt c bit).rinds = s.rinds := rfl
@[simp] theorem State.ctxInt_market (s : State) (c bit : Nat) : (s.ctxInt c bit).market = s.market := rfl
@[simp] theorem State.ctxInt_host (s : State) (c bit : Nat) : (s.ctxInt c bit).host = s.host := rfl
@[simp] theorem State.ctxInt_poisonMem (s : State) (c bit : Nat) : (s.ctxInt c bit).poisonMem = s.poisonMem := rfl
@[simp] theorem State.ctxInt_poisonScr (s : State) (c bit : Nat) : (s.ctxInt c bit).poisonScr = s.poisonScr := rfl
@[simp] theorem State.ctxInt_poisonVlt (s : State) (c bit : Nat) : (s.ctxInt c bit).poisonVlt = s.poisonVlt := rfl
@[simp] theorem State.ctxInt_launchCtr (s : State) (c bit : Nat) : (s.ctxInt c bit).launchCtr = s.launchCtr := rfl
@[simp] theorem State.ctxInt_acceptCtr (s : State) (c bit : Nat) : (s.ctxInt c bit).acceptCtr = s.acceptCtr := rfl
@[simp] theorem State.ctxInt_placeCtr (s : State) (c bit : Nat) : (s.ctxInt c bit).placeCtr = s.placeCtr := rfl
@[simp] theorem State.ctxInt_fatal (s : State) (c bit : Nat) : (s.ctxInt c bit).fatal = s.fatal := rfl
@[simp] theorem State.ctxInt_now (s : State) (c bit : Nat) : (s.ctxInt c bit).now = s.now := rfl
@[simp] theorem State.ctxInt_agenda (s : State) (c bit : Nat) : (s.ctxInt c bit).agenda = s.agenda := rfl
@[simp] theorem State.ctxInt_cur (s : State) (c bit : Nat) : (s.ctxInt c bit).cur = s.cur := rfl
@[simp] theorem State.launchErr_mem (s : State) (c code : Nat) (id : Option Nat) : (s.launchErr c code id).mem = s.mem := rfl
@[simp] theorem State.launchErr_scr (s : State) (c code : Nat) (id : Option Nat) : (s.launchErr c code id).scr = s.scr := rfl
@[simp] theorem State.launchErr_vlt (s : State) (c code : Nat) (id : Option Nat) : (s.launchErr c code id).vlt = s.vlt := rfl
@[simp] theorem State.launchErr_groups (s : State) (c code : Nat) (id : Option Nat) : (s.launchErr c code id).groups = s.groups := rfl
@[simp] theorem State.launchErr_tails (s : State) (c code : Nat) (id : Option Nat) : (s.launchErr c code id).tails = s.tails := rfl
@[simp] theorem State.launchErr_blocks (s : State) (c code : Nat) (id : Option Nat) : (s.launchErr c code id).blocks = s.blocks := rfl
@[simp] theorem State.launchErr_gangs (s : State) (c code : Nat) (id : Option Nat) : (s.launchErr c code id).gangs = s.gangs := rfl
@[simp] theorem State.launchErr_launches (s : State) (c code : Nat) (id : Option Nat) : (s.launchErr c code id).launches = s.launches := rfl
@[simp] theorem State.launchErr_graphs (s : State) (c code : Nat) (id : Option Nat) : (s.launchErr c code id).graphs = s.graphs := rfl
@[simp] theorem State.launchErr_cores (s : State) (c code : Nat) (id : Option Nat) : (s.launchErr c code id).cores = s.cores := rfl
@[simp] theorem State.launchErr_clusters (s : State) (c code : Nat) (id : Option Nat) : (s.launchErr c code id).clusters = s.clusters := rfl
@[simp] theorem State.launchErr_chiplets (s : State) (c code : Nat) (id : Option Nat) : (s.launchErr c code id).chiplets = s.chiplets := rfl
@[simp] theorem State.launchErr_rinds (s : State) (c code : Nat) (id : Option Nat) : (s.launchErr c code id).rinds = s.rinds := rfl
@[simp] theorem State.launchErr_market (s : State) (c code : Nat) (id : Option Nat) : (s.launchErr c code id).market = s.market := rfl
@[simp] theorem State.launchErr_host (s : State) (c code : Nat) (id : Option Nat) : (s.launchErr c code id).host = s.host := rfl
@[simp] theorem State.launchErr_poisonMem (s : State) (c code : Nat) (id : Option Nat) : (s.launchErr c code id).poisonMem = s.poisonMem := rfl
@[simp] theorem State.launchErr_poisonScr (s : State) (c code : Nat) (id : Option Nat) : (s.launchErr c code id).poisonScr = s.poisonScr := rfl
@[simp] theorem State.launchErr_poisonVlt (s : State) (c code : Nat) (id : Option Nat) : (s.launchErr c code id).poisonVlt = s.poisonVlt := rfl
@[simp] theorem State.launchErr_launchCtr (s : State) (c code : Nat) (id : Option Nat) : (s.launchErr c code id).launchCtr = s.launchCtr := rfl
@[simp] theorem State.launchErr_acceptCtr (s : State) (c code : Nat) (id : Option Nat) : (s.launchErr c code id).acceptCtr = s.acceptCtr := rfl
@[simp] theorem State.launchErr_placeCtr (s : State) (c code : Nat) (id : Option Nat) : (s.launchErr c code id).placeCtr = s.placeCtr := rfl
@[simp] theorem State.launchErr_fatal (s : State) (c code : Nat) (id : Option Nat) : (s.launchErr c code id).fatal = s.fatal := rfl
@[simp] theorem State.launchErr_now (s : State) (c code : Nat) (id : Option Nat) : (s.launchErr c code id).now = s.now := rfl
@[simp] theorem State.launchErr_agenda (s : State) (c code : Nat) (id : Option Nat) : (s.launchErr c code id).agenda = s.agenda := rfl
@[simp] theorem State.launchErr_cur (s : State) (c code : Nat) (id : Option Nat) : (s.launchErr c code id).cur = s.cur := rfl
@[simp] theorem State.hostInt_mem (s : State) (bit : Nat) : (s.hostInt bit).mem = s.mem := rfl
@[simp] theorem State.hostInt_scr (s : State) (bit : Nat) : (s.hostInt bit).scr = s.scr := rfl
@[simp] theorem State.hostInt_vlt (s : State) (bit : Nat) : (s.hostInt bit).vlt = s.vlt := rfl
@[simp] theorem State.hostInt_groups (s : State) (bit : Nat) : (s.hostInt bit).groups = s.groups := rfl
@[simp] theorem State.hostInt_tails (s : State) (bit : Nat) : (s.hostInt bit).tails = s.tails := rfl
@[simp] theorem State.hostInt_blocks (s : State) (bit : Nat) : (s.hostInt bit).blocks = s.blocks := rfl
@[simp] theorem State.hostInt_gangs (s : State) (bit : Nat) : (s.hostInt bit).gangs = s.gangs := rfl
@[simp] theorem State.hostInt_launches (s : State) (bit : Nat) : (s.hostInt bit).launches = s.launches := rfl
@[simp] theorem State.hostInt_graphs (s : State) (bit : Nat) : (s.hostInt bit).graphs = s.graphs := rfl
@[simp] theorem State.hostInt_cores (s : State) (bit : Nat) : (s.hostInt bit).cores = s.cores := rfl
@[simp] theorem State.hostInt_clusters (s : State) (bit : Nat) : (s.hostInt bit).clusters = s.clusters := rfl
@[simp] theorem State.hostInt_chiplets (s : State) (bit : Nat) : (s.hostInt bit).chiplets = s.chiplets := rfl
@[simp] theorem State.hostInt_ctxs (s : State) (bit : Nat) : (s.hostInt bit).ctxs = s.ctxs := rfl
@[simp] theorem State.hostInt_rinds (s : State) (bit : Nat) : (s.hostInt bit).rinds = s.rinds := rfl
@[simp] theorem State.hostInt_market (s : State) (bit : Nat) : (s.hostInt bit).market = s.market := rfl
@[simp] theorem State.hostInt_poisonMem (s : State) (bit : Nat) : (s.hostInt bit).poisonMem = s.poisonMem := rfl
@[simp] theorem State.hostInt_poisonScr (s : State) (bit : Nat) : (s.hostInt bit).poisonScr = s.poisonScr := rfl
@[simp] theorem State.hostInt_poisonVlt (s : State) (bit : Nat) : (s.hostInt bit).poisonVlt = s.poisonVlt := rfl
@[simp] theorem State.hostInt_launchCtr (s : State) (bit : Nat) : (s.hostInt bit).launchCtr = s.launchCtr := rfl
@[simp] theorem State.hostInt_acceptCtr (s : State) (bit : Nat) : (s.hostInt bit).acceptCtr = s.acceptCtr := rfl
@[simp] theorem State.hostInt_placeCtr (s : State) (bit : Nat) : (s.hostInt bit).placeCtr = s.placeCtr := rfl
@[simp] theorem State.hostInt_fatal (s : State) (bit : Nat) : (s.hostInt bit).fatal = s.fatal := rfl
@[simp] theorem State.hostInt_now (s : State) (bit : Nat) : (s.hostInt bit).now = s.now := rfl
@[simp] theorem State.hostInt_agenda (s : State) (bit : Nat) : (s.hostInt bit).agenda = s.agenda := rfl
@[simp] theorem State.hostInt_cur (s : State) (bit : Nat) : (s.hostInt bit).cur = s.cur := rfl
@[simp] theorem State.starterFault_mem (s : State) (cl j : Nat) (cause sub kind : BitVec 8) (addr : BitVec 64) (core : BitVec 3) (pos : BitVec 14) : (s.starterFault cl j cause sub kind addr core pos).mem = s.mem := rfl
@[simp] theorem State.starterFault_scr (s : State) (cl j : Nat) (cause sub kind : BitVec 8) (addr : BitVec 64) (core : BitVec 3) (pos : BitVec 14) : (s.starterFault cl j cause sub kind addr core pos).scr = s.scr := rfl
@[simp] theorem State.starterFault_vlt (s : State) (cl j : Nat) (cause sub kind : BitVec 8) (addr : BitVec 64) (core : BitVec 3) (pos : BitVec 14) : (s.starterFault cl j cause sub kind addr core pos).vlt = s.vlt := rfl
@[simp] theorem State.starterFault_groups (s : State) (cl j : Nat) (cause sub kind : BitVec 8) (addr : BitVec 64) (core : BitVec 3) (pos : BitVec 14) : (s.starterFault cl j cause sub kind addr core pos).groups = s.groups := rfl
@[simp] theorem State.starterFault_tails (s : State) (cl j : Nat) (cause sub kind : BitVec 8) (addr : BitVec 64) (core : BitVec 3) (pos : BitVec 14) : (s.starterFault cl j cause sub kind addr core pos).tails = s.tails := rfl
@[simp] theorem State.starterFault_blocks (s : State) (cl j : Nat) (cause sub kind : BitVec 8) (addr : BitVec 64) (core : BitVec 3) (pos : BitVec 14) : (s.starterFault cl j cause sub kind addr core pos).blocks = s.blocks := rfl
@[simp] theorem State.starterFault_gangs (s : State) (cl j : Nat) (cause sub kind : BitVec 8) (addr : BitVec 64) (core : BitVec 3) (pos : BitVec 14) : (s.starterFault cl j cause sub kind addr core pos).gangs = s.gangs := rfl
@[simp] theorem State.starterFault_launches (s : State) (cl j : Nat) (cause sub kind : BitVec 8) (addr : BitVec 64) (core : BitVec 3) (pos : BitVec 14) : (s.starterFault cl j cause sub kind addr core pos).launches = s.launches := rfl
@[simp] theorem State.starterFault_graphs (s : State) (cl j : Nat) (cause sub kind : BitVec 8) (addr : BitVec 64) (core : BitVec 3) (pos : BitVec 14) : (s.starterFault cl j cause sub kind addr core pos).graphs = s.graphs := rfl
@[simp] theorem State.starterFault_cores (s : State) (cl j : Nat) (cause sub kind : BitVec 8) (addr : BitVec 64) (core : BitVec 3) (pos : BitVec 14) : (s.starterFault cl j cause sub kind addr core pos).cores = s.cores := rfl
@[simp] theorem State.starterFault_chiplets (s : State) (cl j : Nat) (cause sub kind : BitVec 8) (addr : BitVec 64) (core : BitVec 3) (pos : BitVec 14) : (s.starterFault cl j cause sub kind addr core pos).chiplets = s.chiplets := rfl
@[simp] theorem State.starterFault_ctxs (s : State) (cl j : Nat) (cause sub kind : BitVec 8) (addr : BitVec 64) (core : BitVec 3) (pos : BitVec 14) : (s.starterFault cl j cause sub kind addr core pos).ctxs = s.ctxs := rfl
@[simp] theorem State.starterFault_rinds (s : State) (cl j : Nat) (cause sub kind : BitVec 8) (addr : BitVec 64) (core : BitVec 3) (pos : BitVec 14) : (s.starterFault cl j cause sub kind addr core pos).rinds = s.rinds := rfl
@[simp] theorem State.starterFault_market (s : State) (cl j : Nat) (cause sub kind : BitVec 8) (addr : BitVec 64) (core : BitVec 3) (pos : BitVec 14) : (s.starterFault cl j cause sub kind addr core pos).market = s.market := rfl
@[simp] theorem State.starterFault_poisonMem (s : State) (cl j : Nat) (cause sub kind : BitVec 8) (addr : BitVec 64) (core : BitVec 3) (pos : BitVec 14) : (s.starterFault cl j cause sub kind addr core pos).poisonMem = s.poisonMem := rfl
@[simp] theorem State.starterFault_poisonScr (s : State) (cl j : Nat) (cause sub kind : BitVec 8) (addr : BitVec 64) (core : BitVec 3) (pos : BitVec 14) : (s.starterFault cl j cause sub kind addr core pos).poisonScr = s.poisonScr := rfl
@[simp] theorem State.starterFault_poisonVlt (s : State) (cl j : Nat) (cause sub kind : BitVec 8) (addr : BitVec 64) (core : BitVec 3) (pos : BitVec 14) : (s.starterFault cl j cause sub kind addr core pos).poisonVlt = s.poisonVlt := rfl
@[simp] theorem State.starterFault_launchCtr (s : State) (cl j : Nat) (cause sub kind : BitVec 8) (addr : BitVec 64) (core : BitVec 3) (pos : BitVec 14) : (s.starterFault cl j cause sub kind addr core pos).launchCtr = s.launchCtr := rfl
@[simp] theorem State.starterFault_acceptCtr (s : State) (cl j : Nat) (cause sub kind : BitVec 8) (addr : BitVec 64) (core : BitVec 3) (pos : BitVec 14) : (s.starterFault cl j cause sub kind addr core pos).acceptCtr = s.acceptCtr := rfl
@[simp] theorem State.starterFault_placeCtr (s : State) (cl j : Nat) (cause sub kind : BitVec 8) (addr : BitVec 64) (core : BitVec 3) (pos : BitVec 14) : (s.starterFault cl j cause sub kind addr core pos).placeCtr = s.placeCtr := rfl
@[simp] theorem State.starterFault_fatal (s : State) (cl j : Nat) (cause sub kind : BitVec 8) (addr : BitVec 64) (core : BitVec 3) (pos : BitVec 14) : (s.starterFault cl j cause sub kind addr core pos).fatal = s.fatal := rfl
@[simp] theorem State.starterFault_now (s : State) (cl j : Nat) (cause sub kind : BitVec 8) (addr : BitVec 64) (core : BitVec 3) (pos : BitVec 14) : (s.starterFault cl j cause sub kind addr core pos).now = s.now := rfl
@[simp] theorem State.starterFault_agenda (s : State) (cl j : Nat) (cause sub kind : BitVec 8) (addr : BitVec 64) (core : BitVec 3) (pos : BitVec 14) : (s.starterFault cl j cause sub kind addr core pos).agenda = s.agenda := rfl
@[simp] theorem State.starterFault_cur (s : State) (cl j : Nat) (cause sub kind : BitVec 8) (addr : BitVec 64) (core : BitVec 3) (pos : BitVec 14) : (s.starterFault cl j cause sub kind addr core pos).cur = s.cur := rfl
@[simp] theorem State.as_mem (s : State) (a : Agent) : (s.as a).mem = s.mem := rfl
@[simp] theorem State.as_scr (s : State) (a : Agent) : (s.as a).scr = s.scr := rfl
@[simp] theorem State.as_vlt (s : State) (a : Agent) : (s.as a).vlt = s.vlt := rfl
@[simp] theorem State.as_groups (s : State) (a : Agent) : (s.as a).groups = s.groups := rfl
@[simp] theorem State.as_tails (s : State) (a : Agent) : (s.as a).tails = s.tails := rfl
@[simp] theorem State.as_blocks (s : State) (a : Agent) : (s.as a).blocks = s.blocks := rfl
@[simp] theorem State.as_gangs (s : State) (a : Agent) : (s.as a).gangs = s.gangs := rfl
@[simp] theorem State.as_launches (s : State) (a : Agent) : (s.as a).launches = s.launches := rfl
@[simp] theorem State.as_graphs (s : State) (a : Agent) : (s.as a).graphs = s.graphs := rfl
@[simp] theorem State.as_cores (s : State) (a : Agent) : (s.as a).cores = s.cores := rfl
@[simp] theorem State.as_clusters (s : State) (a : Agent) : (s.as a).clusters = s.clusters := rfl
@[simp] theorem State.as_chiplets (s : State) (a : Agent) : (s.as a).chiplets = s.chiplets := rfl
@[simp] theorem State.as_ctxs (s : State) (a : Agent) : (s.as a).ctxs = s.ctxs := rfl
@[simp] theorem State.as_rinds (s : State) (a : Agent) : (s.as a).rinds = s.rinds := rfl
@[simp] theorem State.as_market (s : State) (a : Agent) : (s.as a).market = s.market := rfl
@[simp] theorem State.as_host (s : State) (a : Agent) : (s.as a).host = s.host := rfl
@[simp] theorem State.as_poisonMem (s : State) (a : Agent) : (s.as a).poisonMem = s.poisonMem := rfl
@[simp] theorem State.as_poisonScr (s : State) (a : Agent) : (s.as a).poisonScr = s.poisonScr := rfl
@[simp] theorem State.as_poisonVlt (s : State) (a : Agent) : (s.as a).poisonVlt = s.poisonVlt := rfl
@[simp] theorem State.as_launchCtr (s : State) (a : Agent) : (s.as a).launchCtr = s.launchCtr := rfl
@[simp] theorem State.as_acceptCtr (s : State) (a : Agent) : (s.as a).acceptCtr = s.acceptCtr := rfl
@[simp] theorem State.as_placeCtr (s : State) (a : Agent) : (s.as a).placeCtr = s.placeCtr := rfl
@[simp] theorem State.as_fatal (s : State) (a : Agent) : (s.as a).fatal = s.fatal := rfl
@[simp] theorem State.as_now (s : State) (a : Agent) : (s.as a).now = s.now := rfl
@[simp] theorem State.as_agenda (s : State) (a : Agent) : (s.as a).agenda = s.agenda := rfl
@[simp] theorem State.tick_mem (s : State) : (s.tick).mem = s.mem := rfl
@[simp] theorem State.tick_scr (s : State) : (s.tick).scr = s.scr := rfl
@[simp] theorem State.tick_vlt (s : State) : (s.tick).vlt = s.vlt := rfl
@[simp] theorem State.tick_groups (s : State) : (s.tick).groups = s.groups := rfl
@[simp] theorem State.tick_tails (s : State) : (s.tick).tails = s.tails := rfl
@[simp] theorem State.tick_blocks (s : State) : (s.tick).blocks = s.blocks := rfl
@[simp] theorem State.tick_gangs (s : State) : (s.tick).gangs = s.gangs := rfl
@[simp] theorem State.tick_launches (s : State) : (s.tick).launches = s.launches := rfl
@[simp] theorem State.tick_graphs (s : State) : (s.tick).graphs = s.graphs := rfl
@[simp] theorem State.tick_cores (s : State) : (s.tick).cores = s.cores := rfl
@[simp] theorem State.tick_clusters (s : State) : (s.tick).clusters = s.clusters := rfl
@[simp] theorem State.tick_chiplets (s : State) : (s.tick).chiplets = s.chiplets := rfl
@[simp] theorem State.tick_ctxs (s : State) : (s.tick).ctxs = s.ctxs := rfl
@[simp] theorem State.tick_rinds (s : State) : (s.tick).rinds = s.rinds := rfl
@[simp] theorem State.tick_market (s : State) : (s.tick).market = s.market := rfl
@[simp] theorem State.tick_host (s : State) : (s.tick).host = s.host := rfl
@[simp] theorem State.tick_poisonMem (s : State) : (s.tick).poisonMem = s.poisonMem := rfl
@[simp] theorem State.tick_poisonScr (s : State) : (s.tick).poisonScr = s.poisonScr := rfl
@[simp] theorem State.tick_poisonVlt (s : State) : (s.tick).poisonVlt = s.poisonVlt := rfl
@[simp] theorem State.tick_launchCtr (s : State) : (s.tick).launchCtr = s.launchCtr := rfl
@[simp] theorem State.tick_acceptCtr (s : State) : (s.tick).acceptCtr = s.acceptCtr := rfl
@[simp] theorem State.tick_placeCtr (s : State) : (s.tick).placeCtr = s.placeCtr := rfl
@[simp] theorem State.tick_fatal (s : State) : (s.tick).fatal = s.fatal := rfl
@[simp] theorem State.tick_agenda (s : State) : (s.tick).agenda = s.agenda := rfl

@[simp] theorem State.as_cur (s : State) (a : Agent) : (s.as a).cur = some a := rfl
@[simp] theorem State.tick_now (s : State) : s.tick.now = s.now + 1 := rfl
@[simp] theorem State.tick_cur (s : State) : s.tick.cur = none := rfl
@[simp] theorem State.setCore_cores (s : State) (c : Nat) (x : Core) : (s.setCore c x).cores = Tbl.set s.cores c x := rfl
@[simp] theorem State.setCluster_clusters (s : State) (c : Nat) (x : Cluster) : (s.setCluster c x).clusters = Tbl.set s.clusters c x := rfl
@[simp] theorem State.setChiplet_chiplets (s : State) (c : Nat) (x : Chiplet) : (s.setChiplet c x).chiplets = Tbl.set s.chiplets c x := rfl
@[simp] theorem State.setCtx_ctxs (s : State) (c : Nat) (x : Ctx) : (s.setCtx c x).ctxs = Tbl.set s.ctxs c x := rfl
@[simp] theorem State.setGroup_groups (s : State) (k : GKey) (g : Group) : (s.setGroup k g).groups = Tbl.set s.groups (GKey.num k) g := rfl
@[simp] theorem State.setBlock_blocks (s : State) (b : Nat) (x : Block) : (s.setBlock b x).blocks = Tbl.set s.blocks b x := rfl
@[simp] theorem State.setLaunch_launches (s : State) (l : Nat) (x : Launch) : (s.setLaunch l x).launches = Tbl.set s.launches l x := rfl

/-! ## Records an update does not touch -/

@[simp] theorem State.setCore_cluster (s : State) (c : Nat) (x : Core) (n : Nat) : (s.setCore c x).cluster n = s.cluster n := rfl
@[simp] theorem State.setCore_chiplet (s : State) (c : Nat) (x : Core) (n : Nat) : (s.setCore c x).chiplet n = s.chiplet n := rfl
@[simp] theorem State.setCore_ctx (s : State) (c : Nat) (x : Core) (n : Nat) : (s.setCore c x).ctx n = s.ctx n := rfl
@[simp] theorem State.setCore_group (s : State) (c : Nat) (x : Core) (q : GKey) : (s.setCore c x).group q = s.group q := rfl
@[simp] theorem State.setCore_block (s : State) (c : Nat) (x : Core) (n : Nat) : (s.setCore c x).block n = s.block n := rfl
@[simp] theorem State.setCore_launch (s : State) (c : Nat) (x : Core) (n : Nat) : (s.setCore c x).launch n = s.launch n := rfl
@[simp] theorem State.setCore_lrec (s : State) (c : Nat) (x : Core) (n : Nat) : (s.setCore c x).lrec n = s.lrec n := rfl
@[simp] theorem State.setCore_lctx (s : State) (c : Nat) (x : Core) (n : Nat) : (s.setCore c x).lctx n = s.lctx n := rfl
@[simp] theorem State.setCore_coreOf (s : State) (c : Nat) (x : Core) (q : GKey) : (s.setCore c x).coreOf q = s.coreOf q := rfl
@[simp] theorem State.setCore_protect (s : State) (c : Nat) (x : Core) (q : GKey) : (s.setCore c x).protect q = s.protect q := rfl
@[simp] theorem State.setCore_readLoc (s : State) (c : Nat) (x : Core) (lc : Loc) (n : Nat) : (s.setCore c x).readLoc lc n = s.readLoc lc n := rfl
@[simp] theorem State.setCluster_core (s : State) (c : Nat) (x : Cluster) (n : Nat) : (s.setCluster c x).core n = s.core n := rfl
@[simp] theorem State.setCluster_chiplet (s : State) (c : Nat) (x : Cluster) (n : Nat) : (s.setCluster c x).chiplet n = s.chiplet n := rfl
@[simp] theorem State.setCluster_ctx (s : State) (c : Nat) (x : Cluster) (n : Nat) : (s.setCluster c x).ctx n = s.ctx n := rfl
@[simp] theorem State.setCluster_group (s : State) (c : Nat) (x : Cluster) (q : GKey) : (s.setCluster c x).group q = s.group q := rfl
@[simp] theorem State.setCluster_block (s : State) (c : Nat) (x : Cluster) (n : Nat) : (s.setCluster c x).block n = s.block n := rfl
@[simp] theorem State.setCluster_launch (s : State) (c : Nat) (x : Cluster) (n : Nat) : (s.setCluster c x).launch n = s.launch n := rfl
@[simp] theorem State.setCluster_lrec (s : State) (c : Nat) (x : Cluster) (n : Nat) : (s.setCluster c x).lrec n = s.lrec n := rfl
@[simp] theorem State.setCluster_lctx (s : State) (c : Nat) (x : Cluster) (n : Nat) : (s.setCluster c x).lctx n = s.lctx n := rfl
@[simp] theorem State.setCluster_coreOf (s : State) (c : Nat) (x : Cluster) (q : GKey) : (s.setCluster c x).coreOf q = s.coreOf q := rfl
@[simp] theorem State.setCluster_protect (s : State) (c : Nat) (x : Cluster) (q : GKey) : (s.setCluster c x).protect q = s.protect q := rfl
@[simp] theorem State.setCluster_readLoc (s : State) (c : Nat) (x : Cluster) (lc : Loc) (n : Nat) : (s.setCluster c x).readLoc lc n = s.readLoc lc n := rfl
@[simp] theorem State.setChiplet_core (s : State) (c : Nat) (x : Chiplet) (n : Nat) : (s.setChiplet c x).core n = s.core n := rfl
@[simp] theorem State.setChiplet_cluster (s : State) (c : Nat) (x : Chiplet) (n : Nat) : (s.setChiplet c x).cluster n = s.cluster n := rfl
@[simp] theorem State.setChiplet_ctx (s : State) (c : Nat) (x : Chiplet) (n : Nat) : (s.setChiplet c x).ctx n = s.ctx n := rfl
@[simp] theorem State.setChiplet_group (s : State) (c : Nat) (x : Chiplet) (q : GKey) : (s.setChiplet c x).group q = s.group q := rfl
@[simp] theorem State.setChiplet_block (s : State) (c : Nat) (x : Chiplet) (n : Nat) : (s.setChiplet c x).block n = s.block n := rfl
@[simp] theorem State.setChiplet_launch (s : State) (c : Nat) (x : Chiplet) (n : Nat) : (s.setChiplet c x).launch n = s.launch n := rfl
@[simp] theorem State.setChiplet_lrec (s : State) (c : Nat) (x : Chiplet) (n : Nat) : (s.setChiplet c x).lrec n = s.lrec n := rfl
@[simp] theorem State.setChiplet_lctx (s : State) (c : Nat) (x : Chiplet) (n : Nat) : (s.setChiplet c x).lctx n = s.lctx n := rfl
@[simp] theorem State.setChiplet_coreOf (s : State) (c : Nat) (x : Chiplet) (q : GKey) : (s.setChiplet c x).coreOf q = s.coreOf q := rfl
@[simp] theorem State.setChiplet_protect (s : State) (c : Nat) (x : Chiplet) (q : GKey) : (s.setChiplet c x).protect q = s.protect q := rfl
@[simp] theorem State.setChiplet_readLoc (s : State) (c : Nat) (x : Chiplet) (lc : Loc) (n : Nat) : (s.setChiplet c x).readLoc lc n = s.readLoc lc n := rfl
@[simp] theorem State.setCtx_core (s : State) (c : Nat) (x : Ctx) (n : Nat) : (s.setCtx c x).core n = s.core n := rfl
@[simp] theorem State.setCtx_cluster (s : State) (c : Nat) (x : Ctx) (n : Nat) : (s.setCtx c x).cluster n = s.cluster n := rfl
@[simp] theorem State.setCtx_chiplet (s : State) (c : Nat) (x : Ctx) (n : Nat) : (s.setCtx c x).chiplet n = s.chiplet n := rfl
@[simp] theorem State.setCtx_group (s : State) (c : Nat) (x : Ctx) (q : GKey) : (s.setCtx c x).group q = s.group q := rfl
@[simp] theorem State.setCtx_block (s : State) (c : Nat) (x : Ctx) (n : Nat) : (s.setCtx c x).block n = s.block n := rfl
@[simp] theorem State.setCtx_launch (s : State) (c : Nat) (x : Ctx) (n : Nat) : (s.setCtx c x).launch n = s.launch n := rfl
@[simp] theorem State.setCtx_lrec (s : State) (c : Nat) (x : Ctx) (n : Nat) : (s.setCtx c x).lrec n = s.lrec n := rfl
@[simp] theorem State.setCtx_lctx (s : State) (c : Nat) (x : Ctx) (n : Nat) : (s.setCtx c x).lctx n = s.lctx n := rfl
@[simp] theorem State.setCtx_coreOf (s : State) (c : Nat) (x : Ctx) (q : GKey) : (s.setCtx c x).coreOf q = s.coreOf q := rfl
@[simp] theorem State.setCtx_protect (s : State) (c : Nat) (x : Ctx) (q : GKey) : (s.setCtx c x).protect q = s.protect q := rfl
@[simp] theorem State.setCtx_readLoc (s : State) (c : Nat) (x : Ctx) (lc : Loc) (n : Nat) : (s.setCtx c x).readLoc lc n = s.readLoc lc n := rfl
@[simp] theorem State.setGroup_core (s : State) (k : GKey) (g : Group) (n : Nat) : (s.setGroup k g).core n = s.core n := rfl
@[simp] theorem State.setGroup_cluster (s : State) (k : GKey) (g : Group) (n : Nat) : (s.setGroup k g).cluster n = s.cluster n := rfl
@[simp] theorem State.setGroup_chiplet (s : State) (k : GKey) (g : Group) (n : Nat) : (s.setGroup k g).chiplet n = s.chiplet n := rfl
@[simp] theorem State.setGroup_ctx (s : State) (k : GKey) (g : Group) (n : Nat) : (s.setGroup k g).ctx n = s.ctx n := rfl
@[simp] theorem State.setGroup_block (s : State) (k : GKey) (g : Group) (n : Nat) : (s.setGroup k g).block n = s.block n := rfl
@[simp] theorem State.setGroup_launch (s : State) (k : GKey) (g : Group) (n : Nat) : (s.setGroup k g).launch n = s.launch n := rfl
@[simp] theorem State.setGroup_lrec (s : State) (k : GKey) (g : Group) (n : Nat) : (s.setGroup k g).lrec n = s.lrec n := rfl
@[simp] theorem State.setGroup_lctx (s : State) (k : GKey) (g : Group) (n : Nat) : (s.setGroup k g).lctx n = s.lctx n := rfl
@[simp] theorem State.setGroup_coreOf (s : State) (k : GKey) (g : Group) (q : GKey) : (s.setGroup k g).coreOf q = s.coreOf q := rfl
@[simp] theorem State.setGroup_protect (s : State) (k : GKey) (g : Group) (q : GKey) : (s.setGroup k g).protect q = s.protect q := rfl
@[simp] theorem State.setGroup_readLoc (s : State) (k : GKey) (g : Group) (lc : Loc) (n : Nat) : (s.setGroup k g).readLoc lc n = s.readLoc lc n := rfl
@[simp] theorem State.setBlock_core (s : State) (b : Nat) (x : Block) (n : Nat) : (s.setBlock b x).core n = s.core n := rfl
@[simp] theorem State.setBlock_cluster (s : State) (b : Nat) (x : Block) (n : Nat) : (s.setBlock b x).cluster n = s.cluster n := rfl
@[simp] theorem State.setBlock_chiplet (s : State) (b : Nat) (x : Block) (n : Nat) : (s.setBlock b x).chiplet n = s.chiplet n := rfl
@[simp] theorem State.setBlock_ctx (s : State) (b : Nat) (x : Block) (n : Nat) : (s.setBlock b x).ctx n = s.ctx n := rfl
@[simp] theorem State.setBlock_group (s : State) (b : Nat) (x : Block) (q : GKey) : (s.setBlock b x).group q = s.group q := rfl
@[simp] theorem State.setBlock_launch (s : State) (b : Nat) (x : Block) (n : Nat) : (s.setBlock b x).launch n = s.launch n := rfl
@[simp] theorem State.setBlock_lrec (s : State) (b : Nat) (x : Block) (n : Nat) : (s.setBlock b x).lrec n = s.lrec n := rfl
@[simp] theorem State.setBlock_lctx (s : State) (b : Nat) (x : Block) (n : Nat) : (s.setBlock b x).lctx n = s.lctx n := rfl
@[simp] theorem State.setBlock_protect (s : State) (b : Nat) (x : Block) (q : GKey) : (s.setBlock b x).protect q = s.protect q := rfl
@[simp] theorem State.setBlock_readLoc (s : State) (b : Nat) (x : Block) (lc : Loc) (n : Nat) : (s.setBlock b x).readLoc lc n = s.readLoc lc n := rfl
@[simp] theorem State.setLaunch_core (s : State) (l : Nat) (x : Launch) (n : Nat) : (s.setLaunch l x).core n = s.core n := rfl
@[simp] theorem State.setLaunch_cluster (s : State) (l : Nat) (x : Launch) (n : Nat) : (s.setLaunch l x).cluster n = s.cluster n := rfl
@[simp] theorem State.setLaunch_chiplet (s : State) (l : Nat) (x : Launch) (n : Nat) : (s.setLaunch l x).chiplet n = s.chiplet n := rfl
@[simp] theorem State.setLaunch_ctx (s : State) (l : Nat) (x : Launch) (n : Nat) : (s.setLaunch l x).ctx n = s.ctx n := rfl
@[simp] theorem State.setLaunch_group (s : State) (l : Nat) (x : Launch) (q : GKey) : (s.setLaunch l x).group q = s.group q := rfl
@[simp] theorem State.setLaunch_block (s : State) (l : Nat) (x : Launch) (n : Nat) : (s.setLaunch l x).block n = s.block n := rfl
@[simp] theorem State.setLaunch_coreOf (s : State) (l : Nat) (x : Launch) (q : GKey) : (s.setLaunch l x).coreOf q = s.coreOf q := rfl
@[simp] theorem State.setLaunch_readLoc (s : State) (l : Nat) (x : Launch) (lc : Loc) (n : Nat) : (s.setLaunch l x).readLoc lc n = s.readLoc lc n := rfl
@[simp] theorem State.setStarter_core (s : State) (cl j : Nat) (x : SCtx) (n : Nat) : (s.setStarter cl j x).core n = s.core n := rfl
@[simp] theorem State.setStarter_chiplet (s : State) (cl j : Nat) (x : SCtx) (n : Nat) : (s.setStarter cl j x).chiplet n = s.chiplet n := rfl
@[simp] theorem State.setStarter_ctx (s : State) (cl j : Nat) (x : SCtx) (n : Nat) : (s.setStarter cl j x).ctx n = s.ctx n := rfl
@[simp] theorem State.setStarter_group (s : State) (cl j : Nat) (x : SCtx) (q : GKey) : (s.setStarter cl j x).group q = s.group q := rfl
@[simp] theorem State.setStarter_block (s : State) (cl j : Nat) (x : SCtx) (n : Nat) : (s.setStarter cl j x).block n = s.block n := rfl
@[simp] theorem State.setStarter_launch (s : State) (cl j : Nat) (x : SCtx) (n : Nat) : (s.setStarter cl j x).launch n = s.launch n := rfl
@[simp] theorem State.setStarter_lrec (s : State) (cl j : Nat) (x : SCtx) (n : Nat) : (s.setStarter cl j x).lrec n = s.lrec n := rfl
@[simp] theorem State.setStarter_lctx (s : State) (cl j : Nat) (x : SCtx) (n : Nat) : (s.setStarter cl j x).lctx n = s.lctx n := rfl
@[simp] theorem State.setStarter_coreOf (s : State) (cl j : Nat) (x : SCtx) (q : GKey) : (s.setStarter cl j x).coreOf q = s.coreOf q := rfl
@[simp] theorem State.setStarter_protect (s : State) (cl j : Nat) (x : SCtx) (q : GKey) : (s.setStarter cl j x).protect q = s.protect q := rfl
@[simp] theorem State.setStarter_readLoc (s : State) (cl j : Nat) (x : SCtx) (lc : Loc) (n : Nat) : (s.setStarter cl j x).readLoc lc n = s.readLoc lc n := rfl
@[simp] theorem State.setDesc_core (s : State) (cl d : Nat) (x : Desc) (n : Nat) : (s.setDesc cl d x).core n = s.core n := rfl
@[simp] theorem State.setDesc_chiplet (s : State) (cl d : Nat) (x : Desc) (n : Nat) : (s.setDesc cl d x).chiplet n = s.chiplet n := rfl
@[simp] theorem State.setDesc_ctx (s : State) (cl d : Nat) (x : Desc) (n : Nat) : (s.setDesc cl d x).ctx n = s.ctx n := rfl
@[simp] theorem State.setDesc_group (s : State) (cl d : Nat) (x : Desc) (q : GKey) : (s.setDesc cl d x).group q = s.group q := rfl
@[simp] theorem State.setDesc_block (s : State) (cl d : Nat) (x : Desc) (n : Nat) : (s.setDesc cl d x).block n = s.block n := rfl
@[simp] theorem State.setDesc_launch (s : State) (cl d : Nat) (x : Desc) (n : Nat) : (s.setDesc cl d x).launch n = s.launch n := rfl
@[simp] theorem State.setDesc_lrec (s : State) (cl d : Nat) (x : Desc) (n : Nat) : (s.setDesc cl d x).lrec n = s.lrec n := rfl
@[simp] theorem State.setDesc_lctx (s : State) (cl d : Nat) (x : Desc) (n : Nat) : (s.setDesc cl d x).lctx n = s.lctx n := rfl
@[simp] theorem State.setDesc_coreOf (s : State) (cl d : Nat) (x : Desc) (q : GKey) : (s.setDesc cl d x).coreOf q = s.coreOf q := rfl
@[simp] theorem State.setDesc_protect (s : State) (cl d : Nat) (x : Desc) (q : GKey) : (s.setDesc cl d x).protect q = s.protect q := rfl
@[simp] theorem State.setDesc_readLoc (s : State) (cl d : Nat) (x : Desc) (lc : Loc) (n : Nat) : (s.setDesc cl d x).readLoc lc n = s.readLoc lc n := rfl
@[simp] theorem State.setSlot_core (s : State) (cl i : Nat) (x : SubSlot) (n : Nat) : (s.setSlot cl i x).core n = s.core n := rfl
@[simp] theorem State.setSlot_chiplet (s : State) (cl i : Nat) (x : SubSlot) (n : Nat) : (s.setSlot cl i x).chiplet n = s.chiplet n := rfl
@[simp] theorem State.setSlot_ctx (s : State) (cl i : Nat) (x : SubSlot) (n : Nat) : (s.setSlot cl i x).ctx n = s.ctx n := rfl
@[simp] theorem State.setSlot_group (s : State) (cl i : Nat) (x : SubSlot) (q : GKey) : (s.setSlot cl i x).group q = s.group q := rfl
@[simp] theorem State.setSlot_block (s : State) (cl i : Nat) (x : SubSlot) (n : Nat) : (s.setSlot cl i x).block n = s.block n := rfl
@[simp] theorem State.setSlot_launch (s : State) (cl i : Nat) (x : SubSlot) (n : Nat) : (s.setSlot cl i x).launch n = s.launch n := rfl
@[simp] theorem State.setSlot_lrec (s : State) (cl i : Nat) (x : SubSlot) (n : Nat) : (s.setSlot cl i x).lrec n = s.lrec n := rfl
@[simp] theorem State.setSlot_lctx (s : State) (cl i : Nat) (x : SubSlot) (n : Nat) : (s.setSlot cl i x).lctx n = s.lctx n := rfl
@[simp] theorem State.setSlot_coreOf (s : State) (cl i : Nat) (x : SubSlot) (q : GKey) : (s.setSlot cl i x).coreOf q = s.coreOf q := rfl
@[simp] theorem State.setSlot_protect (s : State) (cl i : Nat) (x : SubSlot) (q : GKey) : (s.setSlot cl i x).protect q = s.protect q := rfl
@[simp] theorem State.setSlot_readLoc (s : State) (cl i : Nat) (x : SubSlot) (lc : Loc) (n : Nat) : (s.setSlot cl i x).readLoc lc n = s.readLoc lc n := rfl
@[simp] theorem State.setTeam_cluster (s : State) (core tm : Nat) (t : Option Team) (n : Nat) : (s.setTeam core tm t).cluster n = s.cluster n := rfl
@[simp] theorem State.setTeam_chiplet (s : State) (core tm : Nat) (t : Option Team) (n : Nat) : (s.setTeam core tm t).chiplet n = s.chiplet n := rfl
@[simp] theorem State.setTeam_ctx (s : State) (core tm : Nat) (t : Option Team) (n : Nat) : (s.setTeam core tm t).ctx n = s.ctx n := rfl
@[simp] theorem State.setTeam_group (s : State) (core tm : Nat) (t : Option Team) (q : GKey) : (s.setTeam core tm t).group q = s.group q := rfl
@[simp] theorem State.setTeam_block (s : State) (core tm : Nat) (t : Option Team) (n : Nat) : (s.setTeam core tm t).block n = s.block n := rfl
@[simp] theorem State.setTeam_launch (s : State) (core tm : Nat) (t : Option Team) (n : Nat) : (s.setTeam core tm t).launch n = s.launch n := rfl
@[simp] theorem State.setTeam_lrec (s : State) (core tm : Nat) (t : Option Team) (n : Nat) : (s.setTeam core tm t).lrec n = s.lrec n := rfl
@[simp] theorem State.setTeam_lctx (s : State) (core tm : Nat) (t : Option Team) (n : Nat) : (s.setTeam core tm t).lctx n = s.lctx n := rfl
@[simp] theorem State.setTeam_coreOf (s : State) (core tm : Nat) (t : Option Team) (q : GKey) : (s.setTeam core tm t).coreOf q = s.coreOf q := rfl
@[simp] theorem State.setTeam_protect (s : State) (core tm : Nat) (t : Option Team) (q : GKey) : (s.setTeam core tm t).protect q = s.protect q := rfl
@[simp] theorem State.setTeam_readLoc (s : State) (core tm : Nat) (t : Option Team) (lc : Loc) (n : Nat) : (s.setTeam core tm t).readLoc lc n = s.readLoc lc n := rfl
@[simp] theorem State.ctxInt_core (s : State) (c bit : Nat) (n : Nat) : (s.ctxInt c bit).core n = s.core n := rfl
@[simp] theorem State.ctxInt_cluster (s : State) (c bit : Nat) (n : Nat) : (s.ctxInt c bit).cluster n = s.cluster n := rfl
@[simp] theorem State.ctxInt_chiplet (s : State) (c bit : Nat) (n : Nat) : (s.ctxInt c bit).chiplet n = s.chiplet n := rfl
@[simp] theorem State.ctxInt_group (s : State) (c bit : Nat) (q : GKey) : (s.ctxInt c bit).group q = s.group q := rfl
@[simp] theorem State.ctxInt_block (s : State) (c bit : Nat) (n : Nat) : (s.ctxInt c bit).block n = s.block n := rfl
@[simp] theorem State.ctxInt_launch (s : State) (c bit : Nat) (n : Nat) : (s.ctxInt c bit).launch n = s.launch n := rfl
@[simp] theorem State.ctxInt_lrec (s : State) (c bit : Nat) (n : Nat) : (s.ctxInt c bit).lrec n = s.lrec n := rfl
@[simp] theorem State.ctxInt_lctx (s : State) (c bit : Nat) (n : Nat) : (s.ctxInt c bit).lctx n = s.lctx n := rfl
@[simp] theorem State.ctxInt_coreOf (s : State) (c bit : Nat) (q : GKey) : (s.ctxInt c bit).coreOf q = s.coreOf q := rfl
@[simp] theorem State.ctxInt_protect (s : State) (c bit : Nat) (q : GKey) : (s.ctxInt c bit).protect q = s.protect q := rfl
@[simp] theorem State.ctxInt_readLoc (s : State) (c bit : Nat) (lc : Loc) (n : Nat) : (s.ctxInt c bit).readLoc lc n = s.readLoc lc n := rfl
@[simp] theorem State.launchErr_core (s : State) (c code : Nat) (id : Option Nat) (n : Nat) : (s.launchErr c code id).core n = s.core n := rfl
@[simp] theorem State.launchErr_cluster (s : State) (c code : Nat) (id : Option Nat) (n : Nat) : (s.launchErr c code id).cluster n = s.cluster n := rfl
@[simp] theorem State.launchErr_chiplet (s : State) (c code : Nat) (id : Option Nat) (n : Nat) : (s.launchErr c code id).chiplet n = s.chiplet n := rfl
@[simp] theorem State.launchErr_group (s : State) (c code : Nat) (id : Option Nat) (q : GKey) : (s.launchErr c code id).group q = s.group q := rfl
@[simp] theorem State.launchErr_block (s : State) (c code : Nat) (id : Option Nat) (n : Nat) : (s.launchErr c code id).block n = s.block n := rfl
@[simp] theorem State.launchErr_launch (s : State) (c code : Nat) (id : Option Nat) (n : Nat) : (s.launchErr c code id).launch n = s.launch n := rfl
@[simp] theorem State.launchErr_lrec (s : State) (c code : Nat) (id : Option Nat) (n : Nat) : (s.launchErr c code id).lrec n = s.lrec n := rfl
@[simp] theorem State.launchErr_lctx (s : State) (c code : Nat) (id : Option Nat) (n : Nat) : (s.launchErr c code id).lctx n = s.lctx n := rfl
@[simp] theorem State.launchErr_coreOf (s : State) (c code : Nat) (id : Option Nat) (q : GKey) : (s.launchErr c code id).coreOf q = s.coreOf q := rfl
@[simp] theorem State.launchErr_protect (s : State) (c code : Nat) (id : Option Nat) (q : GKey) : (s.launchErr c code id).protect q = s.protect q := rfl
@[simp] theorem State.launchErr_readLoc (s : State) (c code : Nat) (id : Option Nat) (lc : Loc) (n : Nat) : (s.launchErr c code id).readLoc lc n = s.readLoc lc n := rfl
@[simp] theorem State.hostInt_core (s : State) (bit : Nat) (n : Nat) : (s.hostInt bit).core n = s.core n := rfl
@[simp] theorem State.hostInt_cluster (s : State) (bit : Nat) (n : Nat) : (s.hostInt bit).cluster n = s.cluster n := rfl
@[simp] theorem State.hostInt_chiplet (s : State) (bit : Nat) (n : Nat) : (s.hostInt bit).chiplet n = s.chiplet n := rfl
@[simp] theorem State.hostInt_ctx (s : State) (bit : Nat) (n : Nat) : (s.hostInt bit).ctx n = s.ctx n := rfl
@[simp] theorem State.hostInt_group (s : State) (bit : Nat) (q : GKey) : (s.hostInt bit).group q = s.group q := rfl
@[simp] theorem State.hostInt_block (s : State) (bit : Nat) (n : Nat) : (s.hostInt bit).block n = s.block n := rfl
@[simp] theorem State.hostInt_launch (s : State) (bit : Nat) (n : Nat) : (s.hostInt bit).launch n = s.launch n := rfl
@[simp] theorem State.hostInt_lrec (s : State) (bit : Nat) (n : Nat) : (s.hostInt bit).lrec n = s.lrec n := rfl
@[simp] theorem State.hostInt_lctx (s : State) (bit : Nat) (n : Nat) : (s.hostInt bit).lctx n = s.lctx n := rfl
@[simp] theorem State.hostInt_coreOf (s : State) (bit : Nat) (q : GKey) : (s.hostInt bit).coreOf q = s.coreOf q := rfl
@[simp] theorem State.hostInt_protect (s : State) (bit : Nat) (q : GKey) : (s.hostInt bit).protect q = s.protect q := rfl
@[simp] theorem State.hostInt_readLoc (s : State) (bit : Nat) (lc : Loc) (n : Nat) : (s.hostInt bit).readLoc lc n = s.readLoc lc n := rfl
@[simp] theorem State.starterFault_core (s : State) (cl j : Nat) (cause sub kind : BitVec 8) (addr : BitVec 64) (core : BitVec 3) (pos : BitVec 14) (n : Nat) : (s.starterFault cl j cause sub kind addr core pos).core n = s.core n := rfl
@[simp] theorem State.starterFault_chiplet (s : State) (cl j : Nat) (cause sub kind : BitVec 8) (addr : BitVec 64) (core : BitVec 3) (pos : BitVec 14) (n : Nat) : (s.starterFault cl j cause sub kind addr core pos).chiplet n = s.chiplet n := rfl
@[simp] theorem State.starterFault_ctx (s : State) (cl j : Nat) (cause sub kind : BitVec 8) (addr : BitVec 64) (core : BitVec 3) (pos : BitVec 14) (n : Nat) : (s.starterFault cl j cause sub kind addr core pos).ctx n = s.ctx n := rfl
@[simp] theorem State.starterFault_group (s : State) (cl j : Nat) (cause sub kind : BitVec 8) (addr : BitVec 64) (core : BitVec 3) (pos : BitVec 14) (q : GKey) : (s.starterFault cl j cause sub kind addr core pos).group q = s.group q := rfl
@[simp] theorem State.starterFault_block (s : State) (cl j : Nat) (cause sub kind : BitVec 8) (addr : BitVec 64) (core : BitVec 3) (pos : BitVec 14) (n : Nat) : (s.starterFault cl j cause sub kind addr core pos).block n = s.block n := rfl
@[simp] theorem State.starterFault_launch (s : State) (cl j : Nat) (cause sub kind : BitVec 8) (addr : BitVec 64) (core : BitVec 3) (pos : BitVec 14) (n : Nat) : (s.starterFault cl j cause sub kind addr core pos).launch n = s.launch n := rfl
@[simp] theorem State.starterFault_lrec (s : State) (cl j : Nat) (cause sub kind : BitVec 8) (addr : BitVec 64) (core : BitVec 3) (pos : BitVec 14) (n : Nat) : (s.starterFault cl j cause sub kind addr core pos).lrec n = s.lrec n := rfl
@[simp] theorem State.starterFault_lctx (s : State) (cl j : Nat) (cause sub kind : BitVec 8) (addr : BitVec 64) (core : BitVec 3) (pos : BitVec 14) (n : Nat) : (s.starterFault cl j cause sub kind addr core pos).lctx n = s.lctx n := rfl
@[simp] theorem State.starterFault_coreOf (s : State) (cl j : Nat) (cause sub kind : BitVec 8) (addr : BitVec 64) (core : BitVec 3) (pos : BitVec 14) (q : GKey) : (s.starterFault cl j cause sub kind addr core pos).coreOf q = s.coreOf q := rfl
@[simp] theorem State.starterFault_protect (s : State) (cl j : Nat) (cause sub kind : BitVec 8) (addr : BitVec 64) (core : BitVec 3) (pos : BitVec 14) (q : GKey) : (s.starterFault cl j cause sub kind addr core pos).protect q = s.protect q := rfl
@[simp] theorem State.starterFault_readLoc (s : State) (cl j : Nat) (cause sub kind : BitVec 8) (addr : BitVec 64) (core : BitVec 3) (pos : BitVec 14) (lc : Loc) (n : Nat) : (s.starterFault cl j cause sub kind addr core pos).readLoc lc n = s.readLoc lc n := rfl
@[simp] theorem State.as_core (s : State) (a : Agent) (n : Nat) : (s.as a).core n = s.core n := rfl
@[simp] theorem State.as_cluster (s : State) (a : Agent) (n : Nat) : (s.as a).cluster n = s.cluster n := rfl
@[simp] theorem State.as_chiplet (s : State) (a : Agent) (n : Nat) : (s.as a).chiplet n = s.chiplet n := rfl
@[simp] theorem State.as_ctx (s : State) (a : Agent) (n : Nat) : (s.as a).ctx n = s.ctx n := rfl
@[simp] theorem State.as_group (s : State) (a : Agent) (q : GKey) : (s.as a).group q = s.group q := rfl
@[simp] theorem State.as_block (s : State) (a : Agent) (n : Nat) : (s.as a).block n = s.block n := rfl
@[simp] theorem State.as_launch (s : State) (a : Agent) (n : Nat) : (s.as a).launch n = s.launch n := rfl
@[simp] theorem State.as_lrec (s : State) (a : Agent) (n : Nat) : (s.as a).lrec n = s.lrec n := rfl
@[simp] theorem State.as_lctx (s : State) (a : Agent) (n : Nat) : (s.as a).lctx n = s.lctx n := rfl
@[simp] theorem State.as_coreOf (s : State) (a : Agent) (q : GKey) : (s.as a).coreOf q = s.coreOf q := rfl
@[simp] theorem State.as_protect (s : State) (a : Agent) (q : GKey) : (s.as a).protect q = s.protect q := rfl
@[simp] theorem State.as_readLoc (s : State) (a : Agent) (lc : Loc) (n : Nat) : (s.as a).readLoc lc n = s.readLoc lc n := rfl
@[simp] theorem State.tick_core (s : State) (n : Nat) : (s.tick).core n = s.core n := rfl
@[simp] theorem State.tick_cluster (s : State) (n : Nat) : (s.tick).cluster n = s.cluster n := rfl
@[simp] theorem State.tick_chiplet (s : State) (n : Nat) : (s.tick).chiplet n = s.chiplet n := rfl
@[simp] theorem State.tick_ctx (s : State) (n : Nat) : (s.tick).ctx n = s.ctx n := rfl
@[simp] theorem State.tick_group (s : State) (q : GKey) : (s.tick).group q = s.group q := rfl
@[simp] theorem State.tick_block (s : State) (n : Nat) : (s.tick).block n = s.block n := rfl
@[simp] theorem State.tick_launch (s : State) (n : Nat) : (s.tick).launch n = s.launch n := rfl
@[simp] theorem State.tick_lrec (s : State) (n : Nat) : (s.tick).lrec n = s.lrec n := rfl
@[simp] theorem State.tick_lctx (s : State) (n : Nat) : (s.tick).lctx n = s.lctx n := rfl
@[simp] theorem State.tick_coreOf (s : State) (q : GKey) : (s.tick).coreOf q = s.coreOf q := rfl
@[simp] theorem State.tick_protect (s : State) (q : GKey) : (s.tick).protect q = s.protect q := rfl
@[simp] theorem State.tick_readLoc (s : State) (lc : Loc) (n : Nat) : (s.tick).readLoc lc n = s.readLoc lc n := rfl

end Sys2Proof.Machine
end

