-- ==== Sys2Proof/Laws/Store.lean ====
section
/-! SUPPORT. Tables and stores: what a read gives after a write, and that every update keeps the canonical form. -/
namespace Sys2Proof
open Sys2Proof

variable {α : Type}

/-! ## Tables -/

@[simp] theorem Tbl.find_nil (k : Nat) : Tbl.find ([] : Tbl α) k = none := rfl
@[simp] theorem Tbl.has_eq (t : Tbl α) (k : Nat) : Tbl.has t k = (Tbl.find t k).isSome := rfl

/-- A key reads as it was last set. -/
@[simp] theorem Tbl.find_set_self (t : Tbl α) (k : Nat) (v : α) : Tbl.find (Tbl.set t k v) k = some v := by
  induction t with
  | nil => simp [Tbl.set, Tbl.find]
  | cons p r ih =>
    simp only [Tbl.set]
    split
    · simp [Tbl.find]
    · split <;> simp_all [Tbl.find]

/-- Setting a key leaves every other key alone. -/
@[simp] theorem Tbl.find_set_ne (t : Tbl α) {k j : Nat} (v : α) (h : j ≠ k) : Tbl.find (Tbl.set t k v) j = Tbl.find t j := by
  induction t with
  | nil => simp [Tbl.set, Tbl.find, h]
  | cons p r ih =>
    simp only [Tbl.set]
    split
    · simp [Tbl.find, h]
    · split
      · rename_i hk; subst hk; simp [Tbl.find, h]
      · simp [Tbl.find, ih]

/-- Removing a key leaves every other key alone. -/
@[simp] theorem Tbl.find_del_ne (t : Tbl α) {k j : Nat} (h : j ≠ k) : Tbl.find (Tbl.del t k) j = Tbl.find t j := by
  induction t with
  | nil => rfl
  | cons p r ih =>
    simp only [Tbl.del]
    split
    · rename_i hk; subst hk; simp [Tbl.find, h]
    · simp [Tbl.find, ih]

theorem Tbl.find_none_of_all_lt (t : Tbl α) (k : Nat) (h : ∀ p ∈ t, k < p.1) : Tbl.find t k = none := by
  induction t with
  | nil => rfl
  | cons p r ih =>
    have hp := h p (by simp)
    have hr := ih (fun q hq => h q (by simp [hq]))
    simp only [Tbl.find]
    rw [if_neg (by omega)]
    exact hr

theorem Tbl.sorted_cons (p : Nat × α) (r : Tbl α) : Tbl.sorted (p :: r) = true ↔ (∀ q ∈ r, p.1 < q.1) ∧ Tbl.sorted r = true := by
  simp [Tbl.sorted]

/-- In a sorted table a removed key is gone. -/
@[simp] theorem Tbl.find_del_self (t : Tbl α) (k : Nat) (h : Tbl.sorted t = true) : Tbl.find (Tbl.del t k) k = none := by
  induction t with
  | nil => rfl
  | cons p r ih =>
    have hs := (Tbl.sorted_cons p r).mp h
    simp only [Tbl.del]
    split
    · rename_i hk
      subst hk
      exact Tbl.find_none_of_all_lt r p.1 hs.1
    · rename_i hk
      simp [Tbl.find, hk, ih hs.2]

theorem Tbl.mem_set (t : Tbl α) (k : Nat) (v : α) (q : Nat × α) (h : q ∈ Tbl.set t k v) : q = (k, v) ∨ q ∈ t := by
  induction t with
  | nil => simp_all [Tbl.set]
  | cons p r ih =>
    simp only [Tbl.set] at h
    split at h
    · simp_all
    · split at h
      · simp only [List.mem_cons] at h ⊢
        tauto
      · simp only [List.mem_cons] at h ⊢
        rcases h with h | h
        · tauto
        · have := ih h; tauto
theorem Tbl.mem_del (t : Tbl α) (k : Nat) (q : Nat × α) (h : q ∈ Tbl.del t k) : q ∈ t := by
  induction t with
  | nil => simp_all [Tbl.del]
  | cons p r ih =>
    simp only [Tbl.del] at h
    split at h
    · simp_all
    · simp only [List.mem_cons] at h ⊢
      rcases h with h | h
      · exact Or.inl h
      · exact Or.inr (ih h)

theorem Tbl.sorted_set (t : Tbl α) (k : Nat) (v : α) (h : Tbl.sorted t = true) : Tbl.sorted (Tbl.set t k v) = true := by
  induction t with
  | nil => simp [Tbl.set, Tbl.sorted]
  | cons p r ih =>
    have hs := (Tbl.sorted_cons p r).mp h
    simp only [Tbl.set]
    split
    · rename_i hk
      refine (Tbl.sorted_cons _ _).mpr ⟨fun q hq => ?_, h⟩
      simp only [List.mem_cons] at hq
      rcases hq with rfl | hq
      · exact hk
      · exact Nat.lt_trans hk (hs.1 q hq)
    · split
      · rename_i hk
        subst hk
        exact (Tbl.sorted_cons _ _).mpr ⟨hs.1, hs.2⟩
      · refine (Tbl.sorted_cons _ _).mpr ⟨fun q hq => ?_, ih hs.2⟩
        rcases Tbl.mem_set r k v q hq with rfl | hq
        · simp only; omega
        · exact hs.1 q hq

theorem Tbl.sorted_del (t : Tbl α) (k : Nat) (h : Tbl.sorted t = true) : Tbl.sorted (Tbl.del t k) = true := by
  induction t with
  | nil => rfl
  | cons p r ih =>
    have hs := (Tbl.sorted_cons p r).mp h
    simp only [Tbl.del]
    split
    · exact hs.2
    · exact (Tbl.sorted_cons _ _).mpr ⟨fun q hq => hs.1 q (Tbl.mem_del r k q hq), ih hs.2⟩

theorem Tbl.sorted_filter (t : Tbl α) (f : Nat × α → Bool) (h : Tbl.sorted t = true) : Tbl.sorted (t.filter f) = true := by
  induction t with
  | nil => rfl
  | cons p r ih =>
    have hs := (Tbl.sorted_cons p r).mp h
    simp only [List.filter_cons]
    split
    · exact (Tbl.sorted_cons _ _).mpr ⟨fun q hq => hs.1 q (List.mem_filter.mp hq).1, ih hs.2⟩
    · exact ih hs.2

/-- In a sorted table a listed pair is what its key reads. -/
theorem Tbl.find_of_mem (t : Tbl α) (h : Tbl.sorted t = true) (q : Nat × α) (hq : q ∈ t) : Tbl.find t q.1 = some q.2 := by
  induction t with
  | nil => simp at hq
  | cons p r ih =>
    have hs := (Tbl.sorted_cons p r).mp h
    simp only [List.mem_cons] at hq
    rcases hq with rfl | hq
    · simp [Tbl.find]
    · simp only [Tbl.find]
      rw [if_neg (by have := hs.1 q hq; omega)]
      exact ih hs.2 hq
theorem Tbl.mem_of_find (t : Tbl α) (k : Nat) (v : α) (h : Tbl.find t k = some v) : (k, v) ∈ t := by
  induction t with
  | nil => simp [Tbl.find] at h
  | cons p r ih =>
    simp only [Tbl.find] at h
    split at h
    · rename_i hk; subst hk; cases h; simp
    · simp [ih h]

namespace Machine

/-! ## Stores -/

variable {w : Nat}

theorem Store.wf_iff (t : Store w) : Store.wf t = true ↔ Tbl.sorted t = true ∧ ∀ p ∈ t, p.2 ≠ 0 := by
  simp [Store.wf]
theorem Store.wf_nil : Store.wf ([] : Store w) = true := rfl
@[simp] theorem Store.read_nil (k : Nat) : Store.read ([] : Store w) k = 0 := rfl

/-- A write keeps the canonical form. -/
theorem Store.wf_write (t : Store w) (k : Nat) (v : BitVec w) (h : Store.wf t = true) : Store.wf (Store.write t k v) = true := by
  have h2 := (Store.wf_iff t).mp h
  unfold Store.write
  split
  · exact (Store.wf_iff _).mpr ⟨Tbl.sorted_del t k h2.1, fun p hp => h2.2 p (Tbl.mem_del t k p hp)⟩
  · rename_i hv
    refine (Store.wf_iff _).mpr ⟨Tbl.sorted_set t k v h2.1, fun p hp => ?_⟩
    rcases Tbl.mem_set t k v p hp with rfl | hp
    · exact hv
    · exact h2.2 p hp

/-- A key reads as it was written. -/
@[simp] theorem Store.read_write_self (t : Store w) (k : Nat) (v : BitVec w) (h : Store.wf t = true) :
    Store.read (Store.write t k v) k = v := by
  unfold Store.read Store.write
  split
  · rename_i hv
    simp [Tbl.find_del_self t k ((Store.wf_iff t).mp h).1, hv]
  · simp

/-- A write leaves every other key alone. -/
@[simp] theorem Store.read_write_ne (t : Store w) {k j : Nat} (v : BitVec w) (h : j ≠ k) :
    Store.read (Store.write t k v) j = Store.read t j := by
  unfold Store.read Store.write
  split <;> simp [h]

theorem Store.wf_filter (t : Store w) (f : Nat × BitVec w → Bool) (h : Store.wf t = true) : Store.wf (t.filter f) = true := by
  have h2 := (Store.wf_iff t).mp h
  exact (Store.wf_iff _).mpr ⟨Tbl.sorted_filter t f h2.1, fun p hp => h2.2 p (List.mem_filter.mp hp).1⟩

/-- Two canonical stores that read alike are equal. -/
theorem Store.ext_of_read (t u : Store w) (ht : Store.wf t = true) (hu : Store.wf u = true)
    (h : ∀ k, Store.read t k = Store.read u k) : t = u := by
  induction t generalizing u with
  | nil =>
    cases u with
    | nil => rfl
    | cons q r =>
      have h2 := (Store.wf_iff _).mp hu
      have := h q.1
      rw [Store.read_nil, Store.read, Tbl.find_of_mem _ h2.1 q (by simp)] at this
      exact absurd this.symm (h2.2 q (by simp))
  | cons p r ih =>
    have h1 := (Store.wf_iff _).mp ht
    have s1 := (Tbl.sorted_cons p r).mp h1.1
    cases u with
    | nil =>
      have := h p.1
      rw [Store.read_nil, Store.read, Tbl.find_of_mem _ h1.1 p (by simp)] at this
      exact absurd this (h1.2 p (by simp))
    | cons q v =>
      have h2 := (Store.wf_iff _).mp hu
      have s2 := (Tbl.sorted_cons q v).mp h2.1
      have keys : p.1 = q.1 := by
        rcases Nat.lt_trichotomy p.1 q.1 with hlt | he | hgt
        · have := h p.1
          rw [Store.read, Tbl.find_of_mem _ h1.1 p (by simp), Store.read,
            Tbl.find_none_of_all_lt (q :: v) p.1 (fun x hx => by
              simp only [List.mem_cons] at hx
              rcases hx with rfl | hx
              · exact hlt
              · exact Nat.lt_trans hlt (s2.1 x hx))] at this
          exact absurd this (h1.2 p (by simp))
        · exact he
        · have := h q.1
          rw [Store.read, Store.read, Tbl.find_of_mem _ h2.1 q (by simp),
            Tbl.find_none_of_all_lt (p :: r) q.1 (fun x hx => by
              simp only [List.mem_cons] at hx
              rcases hx with rfl | hx
              · exact hgt
              · exact Nat.lt_trans hgt (s1.1 x hx))] at this
          exact absurd this.symm (h2.2 q (by simp))
      have vals : p.2 = q.2 := by
        have := h p.1
        rw [Store.read, Store.read, Tbl.find_of_mem _ h1.1 p (by simp), keys, Tbl.find_of_mem _ h2.1 q (by simp)] at this
        simpa using this
      have hpq : p = q := Prod.ext keys vals
      subst hpq
      congr 1
      refine ih v ((Store.wf_iff _).mpr ⟨s1.2, fun x hx => h1.2 x (by simp [hx])⟩)
        ((Store.wf_iff _).mpr ⟨s2.2, fun x hx => h2.2 x (by simp [hx])⟩) (fun k => ?_)
      by_cases hk : k = p.1
      · subst hk
        rw [Store.read, Store.read, Tbl.find_none_of_all_lt r p.1 s1.1, Tbl.find_none_of_all_lt v p.1 s2.1]
      · have := h k
        simpa [Store.read, Tbl.find, hk] using this

/-! ## Bytes -/

@[simp] theorem natLE_length (n x : Nat) : (natLE n x).length = n := by
  induction n generalizing x with
  | zero => rfl
  | succ n ih => simp [natLE, ih]
@[simp] theorem le_length (n : Nat) (x : BitVec w) : (le n x).length = n := natLE_length n x.toNat
@[simp] theorem Store.bytes_length (t : Store 8) (k n : Nat) : (Store.bytes t k n).length = n := by simp [Store.bytes]
theorem natLE_getD (n x i : Nat) (h : i < n) : (natLE n x).getD i 0 = BitVec.ofNat 8 (x / 256 ^ i) := by
  induction n generalizing x i with
  | zero => omega
  | succ n ih =>
    cases i with
    | zero => simp [natLE]
    | succ i =>
      have := ih (x / 256) i (by omega)
      simp only [natLE, List.getD_cons_succ]
      rw [this, Nat.div_div_eq_div_mul, Nat.pow_succ, Nat.mul_comm]
/-- Bytes give back the number they were made of. -/
theorem leNat_natLE (n x : Nat) : leNat (natLE n x) = x % 256 ^ n := by
  induction n generalizing x with
  | zero => simp [natLE, leNat, Nat.mod_one]
  | succ n ih =>
    simp only [natLE, leNat, ih, BitVec.toNat_ofNat]
    rw [show (256 : Nat) ^ (n + 1) = 256 * 256 ^ n by ring, Nat.mod_mul]
theorem leNat_lt (bs : List Byte) : leNat bs < 256 ^ bs.length := by
  induction bs with
  | nil => simp [leNat]
  | cons b r ih =>
    have := b.isLt
    simp only [leNat, List.length_cons, Nat.pow_succ]
    omega

/-- Writing bytes keeps the canonical form. -/
theorem Store.wf_putBytes (bs : List Byte) (t : Store 8) (k : Nat) (h : Store.wf t = true) :
    Store.wf (Store.putBytes t k bs) = true := by
  induction bs generalizing t k with
  | nil => exact h
  | cons b r ih => exact ih _ _ (Store.wf_write t k b h)
/-- A byte outside those written keeps its value. -/
theorem Store.read_putBytes_out (bs : List Byte) (t : Store 8) (k j : Nat) (h : j < k ∨ k + bs.length ≤ j) :
    Store.read (Store.putBytes t k bs) j = Store.read t j := by
  induction bs generalizing t k with
  | nil => rfl
  | cons b r ih =>
    simp only [List.length_cons] at h
    simp only [Store.putBytes]
    rw [ih _ _ (by omega), Store.read_write_ne t b (by omega)]
/-- A byte written reads as written. -/
theorem Store.read_putBytes_in (bs : List Byte) (t : Store 8) (k i : Nat) (hw : Store.wf t = true) (h : i < bs.length) :
    Store.read (Store.putBytes t k bs) (k + i) = bs.getD i 0 := by
  induction bs generalizing t k i with
  | nil => simp at h
  | cons b r ih =>
    simp only [Store.putBytes]
    cases i with
    | zero =>
      rw [show k + 0 = k from rfl, Store.read_putBytes_out r _ (k + 1) k (by omega), Store.read_write_self t k b hw]
      simp
    | succ i =>
      have := ih (Store.write t k b) (k + 1) i (Store.wf_write t k b hw) (by simpa using h)
      rw [show k + (i + 1) = k + 1 + i by omega, this]
      simp
/-- The bytes just written read back whole. -/
theorem Store.bytes_putBytes (bs : List Byte) (t : Store 8) (k : Nat) (h : Store.wf t = true) :
    Store.bytes (Store.putBytes t k bs) k bs.length = bs := by
  apply List.ext_getElem
  · simp
  · intro i h1 h2
    simp only [Store.bytes, List.getElem_map, List.getElem_range]
    rw [Store.read_putBytes_in bs t k i h h2]
    simp [h2]

end Machine
end Sys2Proof
end

