-- ==== Sys2Proof/Laws/Records.lean ====
section
/-! SUPPORT. A record reads as it was last put; an update of one record leaves every other alone. -/
namespace Sys2Proof.Machine
open Sys2Proof

@[simp] theorem State.core_setCore (s : State) (c : Nat) (x : Core) : (s.setCore c x).core c = x := by
  simp [State.core, State.setCore]
@[simp] theorem State.core_setCore_ne (s : State) {c d : Nat} (x : Core) (h : d ≠ c) : (s.setCore c x).core d = s.core d := by
  simp [State.core, State.setCore, h]
@[simp] theorem State.cluster_setCluster (s : State) (c : Nat) (x : Cluster) : (s.setCluster c x).cluster c = x := by
  simp [State.cluster, State.setCluster]
@[simp] theorem State.cluster_setCluster_ne (s : State) {c d : Nat} (x : Cluster) (h : d ≠ c) :
    (s.setCluster c x).cluster d = s.cluster d := by
  simp [State.cluster, State.setCluster, h]
@[simp] theorem State.chiplet_setChiplet (s : State) (c : Nat) (x : Chiplet) : (s.setChiplet c x).chiplet c = x := by
  simp [State.chiplet, State.setChiplet]
@[simp] theorem State.chiplet_setChiplet_ne (s : State) {c d : Nat} (x : Chiplet) (h : d ≠ c) :
    (s.setChiplet c x).chiplet d = s.chiplet d := by
  simp [State.chiplet, State.setChiplet, h]
@[simp] theorem State.ctx_setCtx (s : State) (c : Nat) (x : Ctx) : (s.setCtx c x).ctx c = x := by
  simp [State.ctx, State.setCtx]
@[simp] theorem State.ctx_setCtx_ne (s : State) {c d : Nat} (x : Ctx) (h : d ≠ c) : (s.setCtx c x).ctx d = s.ctx d := by
  simp [State.ctx, State.setCtx, h]
@[simp] theorem State.group_setGroup (s : State) (k : GKey) (g : Group) : (s.setGroup k g).group k = some g := by
  simp [State.group, State.setGroup]
@[simp] theorem State.group_setGroup_ne (s : State) {k q : GKey} (g : Group) (h : GKey.num q ≠ GKey.num k) :
    (s.setGroup k g).group q = s.group q := by
  simp [State.group, State.setGroup, h]
@[simp] theorem State.block_setBlock (s : State) (b : Nat) (x : Block) : (s.setBlock b x).block b = some x := by
  simp [State.block, State.setBlock]
@[simp] theorem State.block_setBlock_ne (s : State) {b d : Nat} (x : Block) (h : d ≠ b) : (s.setBlock b x).block d = s.block d := by
  simp [State.block, State.setBlock, h]
@[simp] theorem State.launch_setLaunch (s : State) (l : Nat) (x : Launch) : (s.setLaunch l x).launch l = some x := by
  simp [State.launch, State.setLaunch]
@[simp] theorem State.launch_setLaunch_ne (s : State) {l d : Nat} (x : Launch) (h : d ≠ l) :
    (s.setLaunch l x).launch d = s.launch d := by
  simp [State.launch, State.setLaunch, h]

@[simp] theorem State.starter_setStarter (s : State) (cl j : Nat) (x : SCtx) : (s.setStarter cl j x).starter cl j = x := by
  simp [State.starter, State.setStarter, Cluster.starter]
@[simp] theorem State.starter_setStarter_ne (s : State) (cl : Nat) {j i : Nat} (x : SCtx) (h : i ≠ j) :
    (s.setStarter cl j x).starter cl i = s.starter cl i := by
  simp [State.starter, State.setStarter, Cluster.starter, h]
@[simp] theorem State.desc_setStarter (s : State) (cl j d : Nat) (x : SCtx) : (s.setStarter cl j x).desc cl d = s.desc cl d := by
  simp [State.desc, State.setStarter, Cluster.desc]
@[simp] theorem State.desc_setDesc (s : State) (cl d : Nat) (x : Desc) : (s.setDesc cl d x).desc cl d = x := by
  simp [State.desc, State.setDesc, Cluster.desc]
@[simp] theorem State.desc_setDesc_ne (s : State) (cl : Nat) {d e : Nat} (x : Desc) (h : e ≠ d) :
    (s.setDesc cl d x).desc cl e = s.desc cl e := by
  simp [State.desc, State.setDesc, Cluster.desc, h]
@[simp] theorem State.starter_setDesc (s : State) (cl d j : Nat) (x : Desc) : (s.setDesc cl d x).starter cl j = s.starter cl j := by
  simp [State.starter, State.setDesc, Cluster.starter]
@[simp] theorem State.slot_setSlot (s : State) (cl i : Nat) (x : SubSlot) : ((s.setSlot cl i x).cluster cl).slot i = x := by
  simp [State.setSlot, Cluster.slot]
@[simp] theorem State.slot_setSlot_ne (s : State) (cl : Nat) {i n : Nat} (x : SubSlot) (h : n ≠ i) :
    ((s.setSlot cl i x).cluster cl).slot n = (s.cluster cl).slot n := by
  simp [State.setSlot, Cluster.slot, h]
@[simp] theorem State.team_setTeam (s : State) (core tm : Nat) (t : Team) : (s.setTeam core tm (some t)).team core tm = some t := by
  simp [State.team, State.setTeam]
/-- `tmclr` empties a register; register files are sorted. -/
theorem State.team_setTeam_none (s : State) (core tm : Nat) (h : Tbl.sorted (s.core core).tms = true) :
    (s.setTeam core tm none).team core tm = none := by
  simp [State.team, State.setTeam, h]
@[simp] theorem State.team_setTeam_ne (s : State) (core : Nat) {tm n : Nat} (t : Option Team) (h : n ≠ tm) :
    (s.setTeam core tm t).team core n = s.team core n := by
  cases t <;> simp [State.team, State.setTeam, h]

/-! ## A group changed in place -/

theorem State.modGroup_of_some {s : State} {k : GKey} {g : Group} (f : Group → Group) (h : s.group k = some g) :
    s.modGroup k f = s.setGroup k (f g) := by
  simp [State.modGroup, h]
theorem State.modGroup_of_none {s : State} {k : GKey} (f : Group → Group) (h : s.group k = none) : s.modGroup k f = s := by
  simp [State.modGroup, h]
/-- The group that stands after a change in place. -/
@[simp] theorem State.group_modGroup (s : State) (k : GKey) (f : Group → Group) : (s.modGroup k f).group k = (s.group k).map f := by
  unfold State.modGroup
  split <;> simp_all
@[simp] theorem State.group_modGroup_ne (s : State) {k q : GKey} (f : Group → Group) (h : GKey.num q ≠ GKey.num k) :
    (s.modGroup k f).group q = s.group q := by
  unfold State.modGroup
  split <;> simp_all
/-- Nothing but the group changes. -/
theorem State.modGroup_rest (s : State) (k : GKey) (f : Group → Group) : { s.modGroup k f with groups := s.groups } = s := by
  unfold State.modGroup
  split <;> rfl

/-- Distinct groups of a launch have distinct keys: block and group numbers are in range. -/
theorem GKey.num_inj {k q : GKey} (hk : k.block < 2 ^ 32) (hq : q.block < 2 ^ 32) (ik : k.gi < 32) (iq : q.gi < 32)
    (h : GKey.num k = GKey.num q) : k = q := by
  cases k; cases q
  simp only [GKey.num, GKey.bkey, bkeyOf] at *
  simp only [GKey.mk.injEq]
  refine ⟨?_, ?_, ?_⟩ <;> omega

end Sys2Proof.Machine
end

