-- ==== Sys2Proof/Laws/Memory.lean ====
section
/-! SUPPORT. What a place reads after a write, and that every memory operation keeps the canonical form. -/
namespace Sys2Proof.Machine
open Sys2Proof

/-! ## Places -/

/-- What a place reads depends on its memory alone. -/
theorem State.readLoc_congr {s t : State} (hm : t.mem = s.mem) (hs : t.scr = s.scr) (hv : t.vlt = s.vlt) (l : Loc) (n : Nat) :
    t.readLoc l n = s.readLoc l n := by
  cases l <;> simp [State.readLoc, hm, hs, hv]
/-- A place reads what was written to it. -/
theorem State.readLoc_writeLoc (s : State) (l : Loc) (bs : List Byte) (h : s.Canonical) :
    (s.writeLoc l bs).readLoc l bs.length = bs := by
  cases l
  · exact Store.bytes_putBytes bs s.mem _ h.1
  · exact Store.bytes_putBytes bs s.scr _ h.2.1
  · exact Store.bytes_putBytes bs s.vlt _ h.2.2
theorem State.writeLoc_mem_other (s : State) (l : Loc) (bs : List Byte) (h : ∀ k, l ≠ .mem k) : (s.writeLoc l bs).mem = s.mem := by
  cases l
  · exact absurd rfl (h _)
  · rfl
  · rfl
theorem State.writeLoc_scr_other (s : State) (l : Loc) (bs : List Byte) (h : ∀ k, l ≠ .scr k) : (s.writeLoc l bs).scr = s.scr := by
  cases l
  · rfl
  · exact absurd rfl (h _)
  · rfl
theorem State.writeLoc_vlt_other (s : State) (l : Loc) (bs : List Byte) (h : ∀ k, l ≠ .vlt k) : (s.writeLoc l bs).vlt = s.vlt := by
  cases l
  · rfl
  · rfl
  · exact absurd rfl (h _)
@[simp] theorem State.writeLoc_groups (s : State) (l : Loc) (bs : List Byte) : (s.writeLoc l bs).groups = s.groups := by cases l <;> rfl
@[simp] theorem State.writeLoc_group (s : State) (l : Loc) (bs : List Byte) (k : GKey) : (s.writeLoc l bs).group k = s.group k := by
  cases l <;> rfl
@[simp] theorem State.writeLoc_ctxs (s : State) (l : Loc) (bs : List Byte) : (s.writeLoc l bs).ctxs = s.ctxs := by cases l <;> rfl
@[simp] theorem State.writeLoc_cores (s : State) (l : Loc) (bs : List Byte) : (s.writeLoc l bs).cores = s.cores := by cases l <;> rfl
@[simp] theorem State.writeLoc_clusters (s : State) (l : Loc) (bs : List Byte) : (s.writeLoc l bs).clusters = s.clusters := by
  cases l <;> rfl
@[simp] theorem State.writeLoc_chiplets (s : State) (l : Loc) (bs : List Byte) : (s.writeLoc l bs).chiplets = s.chiplets := by
  cases l <;> rfl
@[simp] theorem State.writeLoc_blocks (s : State) (l : Loc) (bs : List Byte) : (s.writeLoc l bs).blocks = s.blocks := by cases l <;> rfl
@[simp] theorem State.writeLoc_launches (s : State) (l : Loc) (bs : List Byte) : (s.writeLoc l bs).launches = s.launches := by
  cases l <;> rfl
@[simp] theorem State.writeLoc_rinds (s : State) (l : Loc) (bs : List Byte) : (s.writeLoc l bs).rinds = s.rinds := by cases l <;> rfl
@[simp] theorem State.writeLoc_host (s : State) (l : Loc) (bs : List Byte) : (s.writeLoc l bs).host = s.host := by cases l <;> rfl

/-! ## The canonical form (log entry 2) -/

/-- From `s` to `t` the memories stay canonical and rinds stay as they are. -/
structure Keeps (s t : State) : Prop where
  canonical : s.Canonical → t.Canonical
  rinds : t.rinds = s.rinds

theorem Keeps.refl (s : State) : Keeps s s := ⟨id, rfl⟩
theorem Keeps.trans {s t u : State} (h : Keeps s t) (k : Keeps t u) : Keeps s u :=
  ⟨fun c => k.canonical (h.canonical c), k.rinds.trans h.rinds⟩
/-- What keeps the canonical form keeps the invariant. -/
theorem Keeps.inv {s t : State} (h : Keeps s t) (i : s.Inv) : t.Inv := ⟨h.canonical i.1, fun r hr => i.2 r (h.rinds ▸ hr)⟩
/-- An update that leaves the memories and the rinds alone. -/
theorem Keeps.of_eq {s t : State} (hm : t.mem = s.mem) (hs : t.scr = s.scr) (hv : t.vlt = s.vlt) (hr : t.rinds = s.rinds) : Keeps s t :=
  ⟨fun c => by simpa [State.Canonical, hm, hs, hv] using c, hr⟩
theorem Keeps.foldl {β : Type} (f : State → β → State) (h : ∀ s b, Keeps s (f s b)) (bs : List β) (s : State) : Keeps s (bs.foldl f s) := by
  induction bs generalizing s with
  | nil => exact Keeps.refl s
  | cons b r ih => exact (h s b).trans (ih (f s b))

theorem State.canonical_reset : State.reset.Canonical := by unfold State.Canonical; decide
theorem State.keeps_setCore (s : State) (c : Nat) (x : Core) : Keeps s (s.setCore c x) := .of_eq rfl rfl rfl rfl
theorem State.keeps_setCluster (s : State) (c : Nat) (x : Cluster) : Keeps s (s.setCluster c x) := .of_eq rfl rfl rfl rfl
theorem State.keeps_setChiplet (s : State) (c : Nat) (x : Chiplet) : Keeps s (s.setChiplet c x) := .of_eq rfl rfl rfl rfl
theorem State.keeps_setCtx (s : State) (c : Nat) (x : Ctx) : Keeps s (s.setCtx c x) := .of_eq rfl rfl rfl rfl
theorem State.keeps_setGroup (s : State) (k : GKey) (g : Group) : Keeps s (s.setGroup k g) := .of_eq rfl rfl rfl rfl
theorem State.keeps_setBlock (s : State) (b : Nat) (x : Block) : Keeps s (s.setBlock b x) := .of_eq rfl rfl rfl rfl
theorem State.keeps_setLaunch (s : State) (l : Nat) (x : Launch) : Keeps s (s.setLaunch l x) := .of_eq rfl rfl rfl rfl
theorem State.keeps_setStarter (s : State) (cl j : Nat) (x : SCtx) : Keeps s (s.setStarter cl j x) := .of_eq rfl rfl rfl rfl
theorem State.keeps_setDesc (s : State) (cl d : Nat) (x : Desc) : Keeps s (s.setDesc cl d x) := .of_eq rfl rfl rfl rfl
theorem State.keeps_modGroup (s : State) (k : GKey) (f : Group → Group) : Keeps s (s.modGroup k f) := by
  unfold State.modGroup
  split
  · exact s.keeps_setGroup k _
  · exact .refl s

theorem State.keeps_writeLoc (s : State) (l : Loc) (bs : List Byte) : Keeps s (s.writeLoc l bs) := by
  refine ⟨fun c => ?_, by simp⟩
  cases l
  · exact ⟨Store.wf_putBytes _ _ _ c.1, c.2⟩
  · exact ⟨c.1, Store.wf_putBytes _ _ _ c.2.1, c.2.2⟩
  · exact ⟨c.1, c.2.1, Store.wf_putBytes _ _ _ c.2.2⟩
theorem State.keeps_writeLocNat (s : State) (l : Loc) (n x : Nat) : Keeps s (s.writeLocNat l n x) := s.keeps_writeLoc l _
theorem State.keeps_poison (s : State) (l : Loc) : Keeps s (s.poison l) := by cases l <;> exact .of_eq rfl rfl rfl rfl
theorem State.keeps_updateLoc (s : State) (l : Loc) (n x : Nat) : Keeps s (s.updateLoc l n x) := by
  simp only [State.updateLoc]
  split
  · exact (s.keeps_writeLocNat l n x).trans (.foldl _ (fun s _ => s.keeps_poison _) _ _)
  · exact s.keeps_writeLocNat l n x
theorem State.keeps_applyUpdate (s : State) (l : Loc) (fn size d : Nat) : Keeps s (s.applyUpdate l fn size d) :=
  s.keeps_updateLoc l _ _
theorem State.keeps_laBack (s : State) (key size fill cur : Nat) : Keeps s (s.laBack key size fill cur) := by
  simp only [State.laBack]
  split <;> first | exact .refl s | exact s.keeps_updateLoc _ _ _
theorem State.keeps_laWriteback (s : State) (core line : Nat) : Keeps s (s.laWriteback core line) := by
  simp only [State.laWriteback]
  cases Tbl.find (s.core core).la line with
  | none => exact .refl s
  | some l => exact (s.keeps_setCore core _).trans (.foldl _ (fun s _ => s.keeps_laBack _ _ _ _) _ _)
theorem State.keeps_laWritebackCore (s : State) (core : Nat) : Keeps s (s.laWritebackCore core) :=
  .foldl _ (fun s _ => s.keeps_laWriteback _ _) _ _
theorem State.keeps_laRecall (s : State) (line : Nat) : Keeps s (s.laRecall line) := .foldl _ (fun s _ => s.keeps_laWriteback _ _) _ _
theorem State.keeps_uSend (s : State) (core line : Nat) : Keeps s (s.uSend core line) := by
  unfold State.uSend
  dsimp only
  split
  · exact .refl s
  · exact ((s.keeps_setCore core _).trans (State.keeps_laRecall _ _)).trans
      (.foldl _ (fun s _ => .foldl _ (fun s _ => s.keeps_applyUpdate _ _ _ _) _ _) _ _)
theorem State.keeps_recallLine (s : State) (line : Nat) : Keeps s (s.recallLine line) := .foldl _ (fun s _ => s.keeps_uSend _ _) _ _
theorem State.keeps_uSendCore (s : State) (core : Nat) : Keeps s (s.uSendCore core) := .foldl _ (fun s _ => s.keeps_uSend _ _) _ _
theorem State.keeps_homeRead (s : State) (key n : Nat) : Keeps s (s.homeRead key n).1 := .foldl _ (fun s _ => s.keeps_recallLine _) _ _
theorem State.keeps_homeWrite (s : State) (key : Nat) (bs : List Byte) : Keeps s (s.homeWrite key bs) :=
  (Keeps.foldl _ (fun s _ => s.keeps_recallLine _) _ s).trans (State.keeps_writeLoc _ _ _)
theorem State.keeps_dropSectors (s : State) (core key n : Nat) : Keeps s (s.dropSectors core key n) := by
  by_cases h : n = 0
  · simpa [State.dropSectors, h] using Keeps.refl s
  · simpa [State.dropSectors, h] using s.keeps_setCore core _
theorem State.keeps_ownWrite (s : State) (core key : Nat) (bs : List Byte) : Keeps s (s.ownWrite core key bs) :=
  (Keeps.foldl _ (fun s _ => s.keeps_laWriteback _ _) _ _).trans ((State.keeps_homeWrite _ _ _).trans (State.keeps_dropSectors _ _ _ _))
theorem State.keeps_dropL1 (s : State) (core : Nat) : Keeps s (s.dropL1 core) := s.keeps_setCore core _
theorem State.keeps_flushL1 (s : State) (core : Nat) : Keeps s (s.flushL1 core) := s.keeps_setCore core _
theorem State.keeps_evictLine (s : State) (core line : Nat) : Keeps s (s.evictLine core line) :=
  ((s.keeps_uSend core line).trans (State.keeps_laWriteback _ _ _)).trans (State.keeps_setCore _ _ _)
theorem State.keeps_l1Fit (fuel : Nat) (s : State) (core : Nat) (kept : Option Nat) : Keeps s (s.l1Fit fuel core kept) := by
  induction fuel generalizing s with
  | zero => exact .refl s
  | succ n ih =>
    simp only [State.l1Fit]
    repeat' split
    all_goals first | exact .refl s | exact (s.keeps_evictLine _ _).trans (ih _)
theorem State.keeps_l1Trim (s : State) (core : Nat) (kept : Option Nat) : Keeps s (s.l1Trim core kept) := s.keeps_l1Fit _ _ _
theorem State.keeps_fillSector (s : State) (core sec : Nat) : Keeps s (s.fillSector core sec) :=
  ((s.keeps_homeRead _ _).trans (State.keeps_setCore _ _ _)).trans (State.keeps_l1Trim _ _ _)
theorem State.keeps_loadL1 (s : State) (core key n : Nat) (keep : Bool) (k : Nat) : Keeps s (s.loadL1 core key n keep k).1 := by
  have h : Keeps s (if keep then s.fillSector core (sectorOf key) else (s.homeRead key n).1.dropSectors core key n) := by
    cases keep
    · exact (s.keeps_homeRead key n).trans (State.keeps_dropSectors _ _ _ _)
    · exact s.keeps_fillSector _ _
  unfold State.loadL1
  dsimp only
  split
  · exact .refl s
  · exact h
theorem State.keeps_tableEntry (s : State) (ctx ch lvl : Nat) (va : BitVec 64) (tbl : BitVec 52) (k : Nat) (fresh : Bool) :
    Keeps s (s.tableEntry ctx ch lvl va tbl k fresh).1 := by
  simp only [State.tableEntry]
  repeat' split
  all_goals first | exact .refl s | exact s.keeps_homeRead _ _
theorem State.keeps_cacheEntry (s : State) (ctx ch lvl : Nat) (va e : BitVec 64) : Keeps s (s.cacheEntry ctx ch lvl va e) :=
  s.keeps_setChiplet ch _
theorem keeps_walk (lvl : Nat) (s : State) (ctx ch : Nat) (va : BitVec 64) (tbl : BitVec 52) (k : Nat) (fresh : Bool) :
    Keeps s (walk lvl s ctx ch va tbl k fresh).1 := by
  induction lvl generalizing s tbl with
  | zero => exact .refl s
  | succ n ih =>
    have h := s.keeps_tableEntry ctx ch (n + 1) va tbl k fresh
    simp only [walk]
    repeat' split
    all_goals first | exact h | exact (h.trans (State.keeps_cacheEntry _ _ _ _ _ _)).trans (ih _ _)
theorem State.keeps_orEntry (s : State) (key : Nat) (b : BitVec 8) : Keeps s (s.orEntry key b) := by
  have h := s.keeps_recallLine (lineOf key)
  simp only [State.orEntry]
  split
  · exact h
  · exact h.trans ⟨fun c => ⟨Store.wf_write _ _ _ c.1, c.2⟩, rfl⟩
theorem State.keeps_tlbL1 (s : State) (u : Asker) (t : Tlb) : Keeps s (s.tlbL1 u t) := by
  cases u with
  | core c => exact s.keeps_setCore c _
  | chiplet _ => exact .refl s
theorem State.keeps_tlbUse (s : State) (u : Asker) (m : XFor) (t : Tlb) : Keeps s (s.tlbUse u m t).1 := by
  simp only [State.tlbUse]
  split
  · exact s.keeps_tlbL1 u t
  · exact ((s.keeps_orEntry _ _).trans (State.keeps_setChiplet _ _ _)).trans (State.keeps_tlbL1 _ _ _)
theorem State.keeps_xlate (s : State) (ctx : Nat) (u : Asker) (va : BitVec 64) (k : Nat) (m : XFor) :
    Keeps s (s.xlate ctx u va k m).1 := by
  have h := keeps_walk 5 s ctx u.ch va ((s.ctx ctx).root ++ (0 : BitVec 12)) k (m == .register)
  simp only [State.xlate]
  repeat' split
  all_goals first
    | exact .refl s
    | exact s.keeps_tlbUse _ _ _
    | exact h
    | exact (h.trans (State.keeps_setChiplet _ _ _)).trans (State.keeps_tlbUse _ _ _ _)
theorem State.keeps_place (s : State) (ctx : Nat) (pa : BitVec 52) (a : Attr) (size : Nat) (st : Bool) (leaf : Nat) :
    Keeps s (s.place ctx pa a size st leaf).1 := by
  have h := s.keeps_orEntry leaf 0x80
  simp only [State.place]
  split
  · exact .refl s
  · cases s.paFault ctx pa a size with
    | some k => exact .refl s
    | none => cases st <;> first | exact h | exact .refl s
/-- The checks of an access keep the form: they write page-table entries at most (R91). -/
theorem State.keeps_accessVa (s : State) (ctx : Nat) (u : Asker) (va : BitVec 64) (size : Nat) (st : Bool) (k : Nat) :
    Keeps s (s.accessVa ctx u va size st k).1 := by
  have h := s.keeps_xlate ctx u va k .access
  simp only [State.accessVa]
  generalize s.xlate ctx u va k .access = r at h ⊢
  obtain ⟨t, x⟩ := r
  by_cases hc : canonical va = true
  · by_cases ha : va.toNat % size = 0
    · cases x <;> simp only [hc, ha] <;> first | exact h | exact h.trans (State.keeps_place _ _ _ _ _ _ _)
    · simpa [hc, ha] using Keeps.refl s
  · simpa [hc] using Keeps.refl s
/-! ## What a write at a home changes: the home's memory and the cores' copies, and nothing else -/

/-- `t` is `s` but for memory, its poison and the cores. -/
def AtHome (s t : State) : Prop := { t with mem := s.mem, poisonMem := s.poisonMem, cores := s.cores } = s
theorem AtHome.refl (s : State) : AtHome s s := rfl
theorem AtHome.trans {s t u : State} (h : AtHome s t) (g : AtHome t u) : AtHome s u := by
  have e : { u with mem := s.mem, poisonMem := s.poisonMem, cores := s.cores } =
      ({ ({ u with mem := t.mem, poisonMem := t.poisonMem, cores := t.cores } : State) with
        mem := s.mem, poisonMem := s.poisonMem, cores := s.cores } : State) := rfl
  unfold AtHome at *
  rw [e, g, h]
theorem AtHome.eq {s t : State} (h : AtHome s t) : t = { s with mem := t.mem, poisonMem := t.poisonMem, cores := t.cores } := by
  conv => rhs; rw [← h]
theorem AtHome.foldl {β : Type} (f : State → β → State) (h : ∀ s b, AtHome s (f s b)) (bs : List β) (s : State) :
    AtHome s (bs.foldl f s) := by
  induction bs generalizing s with
  | nil => exact .refl s
  | cons b r ih => exact (h s b).trans (ih (f s b))
theorem State.atHome_setCore (s : State) (c : Nat) (x : Core) : AtHome s (s.setCore c x) := rfl
theorem State.atHome_updateLoc (s : State) (key n x : Nat) : AtHome s (s.updateLoc (.mem key) n x) := by
  simp only [State.updateLoc]
  split
  · exact AtHome.trans (t := s.writeLocNat (.mem key) n x) rfl
      (.foldl (fun (t : State) i => t.poison (.mem (key + i))) (fun _ _ => rfl) _ _)
  · rfl
theorem State.atHome_applyUpdate (s : State) (key fn size d : Nat) : AtHome s (s.applyUpdate (.mem key) fn size d) :=
  s.atHome_updateLoc key _ _
theorem State.atHome_laBack (s : State) (key size fill cur : Nat) : AtHome s (s.laBack key size fill cur) := by
  simp only [State.laBack]
  split
  · exact s.atHome_updateLoc _ _ _
  · exact .refl s
theorem State.atHome_laWriteback (s : State) (core line : Nat) : AtHome s (s.laWriteback core line) := by
  simp only [State.laWriteback]
  cases Tbl.find (s.core core).la line with
  | none => exact .refl s
  | some l => exact (s.atHome_setCore core _).trans (.foldl _ (fun s _ => s.atHome_laBack _ _ _ _) _ _)
theorem State.atHome_laWritebackCore (s : State) (core : Nat) : AtHome s (s.laWritebackCore core) :=
  .foldl _ (fun s _ => s.atHome_laWriteback _ _) _ _
theorem State.atHome_laRecall (s : State) (line : Nat) : AtHome s (s.laRecall line) :=
  .foldl _ (fun s _ => s.atHome_laWriteback _ _) _ _
theorem State.atHome_uSend (s : State) (core line : Nat) : AtHome s (s.uSend core line) := by
  unfold State.uSend
  dsimp only
  split
  · exact .refl s
  · exact ((s.atHome_setCore core _).trans (State.atHome_laRecall _ _)).trans
      (.foldl _ (fun s _ => .foldl _ (fun s _ => s.atHome_applyUpdate _ _ _ _) _ _) _ _)
theorem State.atHome_recallLine (s : State) (line : Nat) : AtHome s (s.recallLine line) :=
  .foldl _ (fun s _ => s.atHome_uSend _ _) _ _
theorem State.atHome_homeRead (s : State) (key n : Nat) : AtHome s (s.homeRead key n).1 :=
  .foldl _ (fun s _ => s.atHome_recallLine _) _ _
theorem State.atHome_homeWrite (s : State) (key : Nat) (bs : List Byte) : AtHome s (s.homeWrite key bs) :=
  (AtHome.foldl _ (fun s _ => s.atHome_recallLine _) _ s).trans rfl

theorem State.atHome_dropSectors (s : State) (core key n : Nat) : AtHome s (s.dropSectors core key n) := by
  unfold State.dropSectors
  dsimp only
  split <;> exact .refl s
theorem State.atHome_ownWrite (s : State) (core key : Nat) (bs : List Byte) : AtHome s (s.ownWrite core key bs) :=
  (AtHome.foldl _ (fun s _ => s.atHome_laWriteback _ _) _ s).trans
    ((State.atHome_homeWrite _ _ _).trans (State.atHome_dropSectors _ _ _ _))

/-- A filter of a store, as a reset, a launch's end or a rind leaves it. -/
theorem State.canonical_filter (s : State) (m r v : Nat × Byte → Bool) (h : s.Canonical) :
    ({ s with mem := s.mem.filter m, scr := s.scr.filter r, vlt := s.vlt.filter v } : State).Canonical :=
  ⟨Store.wf_filter _ _ h.1, Store.wf_filter _ _ h.2.1, Store.wf_filter _ _ h.2.2⟩
/-- A canonical store merged into another, as a rind is placed. -/
theorem Store.wf_mergeTbl {w : Nat} (t u : Store w) (h : Store.wf t = true) (hu : Store.wf u = true) :
    Store.wf (mergeTbl t u) = true := by
  have h2 := ((Store.wf_iff u).mp hu).2
  unfold mergeTbl
  clear hu
  induction u generalizing t with
  | nil => exact h
  | cons p r ih =>
    refine ih _ ((Store.wf_iff _).mpr ⟨Tbl.sorted_set _ _ _ ((Store.wf_iff t).mp h).1, fun q hq => ?_⟩) (fun q hq => h2 q (by simp [hq]))
    rcases Tbl.mem_set t p.1 p.2 q hq with rfl | hq
    · exact h2 p (by simp)
    · exact ((Store.wf_iff t).mp h).2 q hq

/-! ## `Memory.wf` of the memory of every state the operations leave (every write of memory is `writeLoc`, `putBytes`, a
filter or a merge) -/

theorem Memory.wf_reset : Memory.wf State.reset.mem = true := rfl
theorem Memory.wf_write (m : Store 8) (k : Nat) (b : Byte) (h : Memory.wf m = true) : Memory.wf (Store.write m k b) = true :=
  Store.wf_write m k b h
theorem Memory.wf_putBytes (bs : List Byte) (m : Store 8) (k : Nat) (h : Memory.wf m = true) : Memory.wf (m.putBytes k bs) = true :=
  Store.wf_putBytes bs m k h
theorem Memory.wf_filter (m : Store 8) (f : Nat × Byte → Bool) (h : Memory.wf m = true) : Memory.wf (m.filter f) = true :=
  Store.wf_filter m f h
theorem Memory.wf_writeLoc (s : State) (l : Loc) (bs : List Byte) (h : Memory.wf s.mem = true) : Memory.wf (s.writeLoc l bs).mem = true := by
  cases l
  · exact Store.wf_putBytes bs s.mem _ h
  · exact h
  · exact h
/-- Equal memories are equal data. -/
theorem Memory.ext (m n : Store 8) (hm : Memory.wf m = true) (hn : Memory.wf n = true) (h : ∀ k, Store.read m k = Store.read n k) :
    m = n := Store.ext_of_read m n hm hn h

end Sys2Proof.Machine
end

