-- ==== Sys2Proof/Laws/Ops.lean ====
section
/-! SUPPORT. One lemma for each shared operation of a word that issues: what it answers, what it leaves pending,
what a trap and a Starter fault do, and what each leaves alone. -/
namespace Sys2Proof.Machine
open Sys2Proof

/-! ## The agent whose word it is (R56) -/

/-- A group's word, met by a group, is its meaning. -/
theorem grp_of_issues (w : GW) (h : w.Issues) (f : GW → State) : grp w.s f = .next (f w) := by
  obtain ⟨hc, hg, hi⟩ := h
  simp [grp, asGroup, hc, hg, hi]
/-- A Starter context that meets a group's word takes ILLEGAL_OPCODE. -/
theorem grp_of_runs (w : SW) (h : w.Runs) (f : GW → State) :
    grp w.s f = .next (w.s.starterReject w.cl w.j .illegalOpcode) := by
  simp [grp, asGroup, h.1]
/-- A Starter word, met by a Starter context, is its meaning. -/
theorem str_of_runs (w : SW) (h : w.Runs) (f : SW → State) : str w.s f = .next (f w) := by
  obtain ⟨hc, hs⟩ := h
  have : (⟨w.s, w.cl, w.j, w.s.starter w.cl w.j⟩ : SW) = w := by rw [← hs]
  simp [str, hc, this]
/-- A group that meets a Starter word traps ILLEGAL_OPCODE. -/
theorem str_of_issues (w : GW) (h : w.Issues) (f : SW → State) : str w.s f = .next (w.trap Cause.illegalOpcode) := by
  obtain ⟨hc, hg, hi⟩ := h
  simp [str, hc, hg, hi]
/-- Everything that `grp` can do: a next state, or the fault that no agent issues. -/
theorem grp_cases (s : State) (f : GW → State) :
    (∃ w : GW, w.s = s ∧ w.Issues ∧ grp s f = .next (f w)) ∨
      (∃ cl j, s.cur = some (.str cl j) ∧ grp s f = .next (s.starterReject cl j .illegalOpcode)) ∨
      grp s f = .fault .noIssuer := by
  rcases hc : s.cur with _ | ⟨k | ⟨cl, j⟩⟩
  · exact .inr (.inr (by simp [grp, asGroup, hc]))
  · rcases hg : s.group k with _ | g
    · exact .inr (.inr (by simp [grp, asGroup, hc, hg]))
    · rcases hi : g.issuing with _ | iss
      · exact .inr (.inr (by simp [grp, asGroup, hc, hg, hi]))
      · exact .inl ⟨⟨s, k, g, iss⟩, rfl, ⟨hc, hg, hi⟩, grp_of_issues ⟨s, k, g, iss⟩ ⟨hc, hg, hi⟩ f⟩
  · exact .inr (.inl ⟨cl, j, rfl, by simp [grp, asGroup, hc]⟩)
/-- Everything that `str` can do. -/
theorem str_cases (s : State) (f : SW → State) :
    (∃ w : SW, w.s = s ∧ w.Runs ∧ str s f = .next (f w)) ∨
      (∃ w : GW, w.s = s ∧ w.Issues ∧ str s f = .next (w.trap Cause.illegalOpcode)) ∨
      str s f = .fault .noIssuer := by
  rcases hc : s.cur with _ | ⟨k | ⟨cl, j⟩⟩
  · exact .inr (.inr (by simp [str, hc]))
  · rcases hg : s.group k with _ | g
    · exact .inr (.inr (by simp [str, hc, hg]))
    · rcases hi : g.issuing with _ | iss
      · exact .inr (.inr (by simp [str, hc, hg, hi]))
      · exact .inr (.inl ⟨⟨s, k, g, iss⟩, rfl, ⟨hc, hg, hi⟩, str_of_issues ⟨s, k, g, iss⟩ ⟨hc, hg, hi⟩ f⟩)
  · exact .inl ⟨⟨s, cl, j, s.starter cl j⟩, rfl, ⟨hc, rfl⟩, by simp [str, hc]⟩

/-! ## Results that wait (R35, R149) -/

/-- The results that wait are those that waited and the new one. -/
theorem mem_pendInsert (p q : Pend) (ps : List Pend) : q ∈ pendInsert ps p ↔ q = p ∨ q ∈ ps := by
  induction ps with
  | nil => simp [pendInsert]
  | cons r ps ih =>
    simp only [pendInsert]
    split
    · simp only [List.mem_cons, ih]
      constructor
      · rintro (h | h | h) <;> simp [h]
      · rintro (h | h | h) <;> simp [h]
    · simp
theorem length_pendInsert (p : Pend) (ps : List Pend) : (pendInsert ps p).length = ps.length + 1 := by
  induction ps with
  | nil => rfl
  | cons r ps ih =>
    simp only [pendInsert]
    split <;> simp [ih]
/-- Results stand in the order of their cycles. -/
theorem sorted_pendInsert (p : Pend) (ps : List Pend) (h : ps.Pairwise (fun a b => a.due ≤ b.due)) :
    (pendInsert ps p).Pairwise (fun a b => a.due ≤ b.due) := by
  induction ps with
  | nil => simp [pendInsert]
  | cons r ps ih =>
    obtain ⟨hr, hp⟩ := List.pairwise_cons.1 h
    simp only [pendInsert]
    split
    · rename_i c
      refine List.pairwise_cons.2 ⟨fun a ha => ?_, ih hp⟩
      rcases (mem_pendInsert p a ps).1 ha with rfl | ha
      · simp only [Bool.or_eq_true, decide_eq_true_eq, Bool.and_eq_true, beq_iff_eq] at c
        omega
      · exact hr a ha
    · rename_i c
      simp only [Bool.or_eq_true, decide_eq_true_eq, Bool.and_eq_true, beq_iff_eq, not_or] at c
      refine List.pairwise_cons.2 ⟨fun a ha => ?_, h⟩
      rcases List.mem_cons.1 ha with rfl | ha
      · omega
      · have := hr a ha; omega

theorem GW.put_eq_gives (w : GW) (g : Group) (ps : List Pend)
    (h : g = { w.g with pend := ps.foldl pendInsert w.g.pend }) : w.put g = w.gives ps := by rw [GW.gives, h]
theorem GW.gives_nil (w : GW) : w.gives [] = w.put w.g := rfl

/-- A lane result is one pending result, or two for a pair. -/
theorem Group.resultV_eq (g : Group) (r : BitVec 8) (wide : Bool) (lanes : Mask) (f : Nat → BitVec 64) (lat : Nat) :
    g.resultV r wide lanes f lat =
      { g with pend := (lanePends r wide lanes (g.clk + lat) f).foldl pendInsert g.pend } := by
  cases wide <;> rfl
theorem Group.raiseFlags_eq (g : Group) (f : Flags) (lat : Nat) :
    g.raiseFlags f lat = { g with pend := (flagPends f (g.clk + lat)).foldl pendInsert g.pend } := by
  unfold Group.raiseFlags flagPends
  split <;> rfl
theorem Group.resultG_eq (g : Group) (r : BitVec 8) (x : BitVec 64) (lat : Nat) :
    g.resultG r x lat = { g with pend := pendInsert g.pend ⟨.g r.toNat, 0, [x], g.clk + lat⟩ } := rfl
theorem Group.resultGp_eq (g : Group) (r : BitVec 8) (b : Bool) (lat : Nat) :
    g.resultGp r b lat = { g with pend := pendInsert g.pend ⟨.gp r.toNat, 0, [if b then 1 else 0], g.clk + lat⟩ } := rfl
theorem Group.resultM_eq (g : Group) (r : BitVec 8) (lanes x : Mask) (lat : Nat) :
    g.resultM r lanes x lat =
      { g with pend := pendInsert g.pend ⟨.m r.toNat, lanes, [x.setWidth 64], g.clk + lat⟩ } := rfl

/-- A lane instruction leaves exactly its result and its flags pending. -/
theorem GW.laneOp_eq (w : GW) (d : BitVec 8) (wide : Bool) (eff : Mask) (lat : Nat) (f : Nat → BitVec 64 × Flags) :
    w.laneOp d wide eff lat f =
      w.gives (lanePends d wide eff (w.g.clk + lat) (fun l => if eff.getLsbD l then (f l).1 else 0) ++
        flagPends (orFlags (eff &&& ~~~w.helpers) (fun l => (f l).2)) (w.g.clk + lat)) := by
  simp only [GW.laneOp, GW.gives, Group.resultV_eq, Group.raiseFlags_eq, List.foldl_append]
/-- A lane instruction that rounds leaves the same pending; under MODE 5 it steps the feedback registers too. -/
theorem GW.roundOp_eq (w : GW) (d : BitVec 8) (wide : Bool) (eff : Mask) (lat : Nat) (rm : BitVec 3) (elems : Nat)
    (f : Nat → BitVec 64 × Flags) :
    w.roundOp d wide eff lat rm elems f =
      w.put (({ w.g with pend := (lanePends d wide eff (w.g.clk + lat) (fun l => if eff.getLsbD l then (f l).1 else 0) ++
        flagPends (orFlags (eff &&& ~~~w.helpers) (fun l => (f l).2)) (w.g.clk + lat)).foldl pendInsert w.g.pend
          } : Group).stepFb rm eff elems) := by
  simp only [GW.roundOp, Group.resultV_eq, Group.raiseFlags_eq, List.foldl_append]
/-- Outside MODE 5 an instruction that rounds is a lane instruction (R145). -/
theorem GW.roundOp_of_ne (w : GW) (d : BitVec 8) (wide : Bool) (eff : Mask) (lat : Nat) (rm : BitVec 3) (elems : Nat)
    (f : Nat → BitVec 64 × Flags) (h : rm ≠ 5) : w.roundOp d wide eff lat rm elems f = w.laneOp d wide eff lat f := by
  simp only [GW.roundOp, GW.laneOp, Group.stepFb, if_neg h]
theorem mismatches_unprotected (lanes : Mask) (p : Nat → BitVec 64) : mismatches false lanes p = [] := rfl
/-- Without PROTECT nothing is compared (R388). -/
theorem GW.compared_of_unprotected (w : GW) (lanes : Mask) (p : Nat → BitVec 64) (k : State) (h : w.protect = false) :
    w.compared lanes p k = k := by simp [GW.compared, h, mismatches_unprotected]
/-- A compare without PROTECT leaves exactly its mask and its flags pending. -/
theorem GW.maskOp_eq (w : GW) (d : BitVec 8) (eff : Mask) (lat : Nat) (f : Nat → Bool × Flags) (h : w.protect = false) :
    w.maskOp d eff lat f =
      w.gives (⟨.m d.toNat, eff, [(maskBy (fun l => eff.getLsbD l && (f l).1)).setWidth 64], w.g.clk + lat⟩ ::
        flagPends (orFlags (eff &&& ~~~w.helpers) (fun l => (f l).2)) (w.g.clk + lat)) := by
  simp only [GW.maskOp, GW.compared_of_unprotected _ _ _ _ h, Group.resultM_eq, Group.raiseFlags_eq, GW.gives, List.foldl_cons]
theorem GW.grpOp_true (w : GW) (k : State) : w.grpOp true k = k := rfl
theorem GW.grpOp_false (w : GW) (k : State) : w.grpOp false k = w.s := rfl

/-- Waiting results touch one group's record and nothing else. -/
@[simp] theorem GW.gives_group (w : GW) (ps : List Pend) :
    (w.gives ps).group w.key = some { w.g with pend := ps.foldl pendInsert w.g.pend } := by simp [GW.gives, GW.put]
theorem GW.put_group_ne (w : GW) (g : Group) {k : GKey} (h : GKey.num k ≠ GKey.num w.key) : (w.put g).group k = w.s.group k :=
  State.group_setGroup_ne w.s g h
@[simp] theorem GW.put_mem (w : GW) (g : Group) : (w.put g).mem = w.s.mem := rfl
@[simp] theorem GW.put_scr (w : GW) (g : Group) : (w.put g).scr = w.s.scr := rfl
@[simp] theorem GW.put_vlt (w : GW) (g : Group) : (w.put g).vlt = w.s.vlt := rfl

/-! ## What a result does when its cycle comes (R25, R35, R153) -/

/-- `g0`, `m0` and `gp0` discard what is written to them. -/
theorem Regs.land_g0 (p : Bool) (rs : Regs) (m : Mask) (vs : List (BitVec 64)) (d : Nat) : rs.land p ⟨.g 0, m, vs, d⟩ = rs := rfl
theorem Regs.land_m0 (p : Bool) (rs : Regs) (m : Mask) (vs : List (BitVec 64)) (d : Nat) : rs.land p ⟨.m 0, m, vs, d⟩ = rs := rfl
theorem Regs.land_gp0 (p : Bool) (rs : Regs) (m : Mask) (vs : List (BitVec 64)) (d : Nat) : rs.land p ⟨.gp 0, m, vs, d⟩ = rs := rfl
/-- A result of a group register leaves every other register file alone. -/
theorem Regs.land_g_frame (p : Bool) (rs : Regs) (r : Nat) (m : Mask) (vs : List (BitVec 64)) (d : Nat) :
    (rs.land p ⟨.g r, m, vs, d⟩).v = rs.v ∧ (rs.land p ⟨.g r, m, vs, d⟩).m = rs.m ∧ (rs.land p ⟨.g r, m, vs, d⟩).gp = rs.gp ∧
      (rs.land p ⟨.g r, m, vs, d⟩).fpflags = rs.fpflags ∧ (rs.land p ⟨.g r, m, vs, d⟩).srseed = rs.srseed := by
  simp only [Regs.land]
  split <;> simp
/-- A lane result leaves every other register file alone. -/
theorem Regs.land_v_frame (p : Bool) (rs : Regs) (r : Nat) (m : Mask) (vs : List (BitVec 64)) (d : Nat) :
    (rs.land p ⟨.v r, m, vs, d⟩).g = rs.g ∧ (rs.land p ⟨.v r, m, vs, d⟩).m = rs.m ∧ (rs.land p ⟨.v r, m, vs, d⟩).gp = rs.gp ∧
      (rs.land p ⟨.v r, m, vs, d⟩).fpflags = rs.fpflags ∧ (rs.land p ⟨.v r, m, vs, d⟩).srseed = rs.srseed := ⟨rfl, rfl, rfl, rfl, rfl⟩
/-- Landing results writes registers, and of the rest of the group only what damaged registers ask for. -/
theorem Group.landAll_eq (p : Bool) (g : Group) (ps : List Pend) :
    g.landAll p ps = { g with
      regs := ps.foldl (Regs.land p) g.regs, badRegs := cleanRegs g.badRegs ps
      badState := g.badState || !((mergesBad g.badRegs ps).map (fun r => (0, r))).isEmpty
      errs := g.errs ++ (mergesBad g.badRegs ps).map (fun r => (0, r)) } := rfl
@[simp] theorem Group.landAll_nil (p : Bool) (g : Group) : (g.landAll p []).regs = g.regs := rfl
/-- After landing up to a cycle, what still waits is due later. -/
theorem Group.landUpTo_pend (p : Bool) (g : Group) (t : Nat) : ∀ q ∈ (g.landUpTo p t).pend, t < q.due := by
  intro q h
  simpa using (List.mem_filter.1 h).2
theorem Group.landUpTo_none (p : Bool) (g : Group) (t : Nat) (h : ∀ q ∈ g.pend, t < q.due) : (g.landUpTo p t).regs = g.regs := by
  have : g.pend.filter (fun q => decide (q.due ≤ t)) = [] := by
    simp only [List.filter_eq_nil_iff, decide_eq_true_eq, Nat.not_le]
    exact h
  simp [Group.landUpTo, this, Group.landAll, Group.consume, mergesBad]
/-- With nothing pending a register reads as it stands. -/
theorem Group.readV_none (g : Group) (n r l : Nat) (h : g.pend = []) : g.readV n r l = Store.read g.regs.v (32 * r + l) := by
  simp [Group.readV, h]
theorem Group.readG_none (g : Group) (n r : Nat) (h : g.pend = []) : g.readG n r = if r = 0 then 0 else Store.read g.regs.g r := by
  simp [Group.readG, h]
theorem Group.readM_none (g : Group) (n r : Nat) (h : g.pend = []) : g.readM n r = if r = 0 then ~~~0 else Store.read g.regs.m r := by
  simp [Group.readM, h]
theorem Group.readG_zero (g : Group) (n : Nat) : g.readG n 0 = 0 := rfl
theorem Group.readM_zero (g : Group) (n : Nat) : g.readM n 0 = ~~~0 := rfl
theorem Group.readGp_zero (g : Group) (n : Nat) : g.readGp n 0 = true := rfl

/-! ## Exceptions (R299, R371) -/

/-- A trap that stands is kept (R371). -/
theorem Group.raise_of_some (g : Group) (t u : TrapInfo) (h : g.trap = some u) : g.raise t = g := by simp [Group.raise, h]
/-- The first trap is taken, and the clause issues no further word. -/
theorem Group.raise_of_none (g : Group) (t : TrapInfo) (h : g.trap = none) :
    g.raise t = { g with trap := some t, issuing := g.issuing.map (fun i => { i with halted := true }) } := by
  simp [Group.raise, h]
/-- After a trap a trap stands. -/
theorem Group.raise_trap (g : Group) (t : TrapInfo) : (g.raise t).trap.isSome = true := by
  unfold Group.raise
  split <;> simp_all
/-- A trap leaves the registers, the tasks, the control state and the results that wait. -/
theorem Group.raise_frame (g : Group) (t : TrapInfo) :
    (g.raise t).regs = g.regs ∧ (g.raise t).tasks = g.tasks ∧ (g.raise t).ctl = g.ctl ∧ (g.raise t).pend = g.pend := by
  unfold Group.raise
  split <;> simp
theorem GW.trapWith_group (w : GW) (t : TrapInfo) :
    (w.trapWith t).group w.key = some (w.g.raise { t with lanes := t.word.recs t.lanes }) := by simp [GW.trapWith, GW.put]
theorem GW.trapWith_mem (w : GW) (t : TrapInfo) :
    (w.trapWith t).mem = w.s.mem ∧ (w.trapWith t).scr = w.s.scr ∧ (w.trapWith t).vlt = w.s.vlt := ⟨rfl, rfl, rfl⟩
/-- A Starter fault stops the context with its registers as they stood, names the fault and raises the host's
Starter interrupt. -/
theorem State.starterFault_eq (s : State) (cl j : Nat) (cause sub kind : BitVec 8) (addr : BitVec 64) (core : BitVec 3)
    (pos : BitVec 14) :
    ∃ x, (s.starterFault cl j cause sub kind addr core pos).starter cl j = x ∧ x.stopped = true ∧ x.fvalid = true ∧
      x.cause = cause ∧ x.sub = sub ∧ x.kind = kind ∧ x.fpc = (s.starter cl j).pc ∧ x.pc = (s.starter cl j).pc ∧
      x.s = (s.starter cl j).s ∧ (s.starterFault cl j cause sub kind addr core pos).host.intstat.getLsbD 2 = true := by
  refine ⟨_, rfl, ?_⟩
  have h : (s.starterFault cl j cause sub kind addr core pos).starter cl j =
      (((s.setStarter cl j _).hostInt 2).starter cl j) := rfl
  have hi : ∀ t : State, (t.hostInt 2).starter cl j = t.starter cl j := fun t => rfl
  rw [h, hi, State.starter_setStarter]
  refine ⟨rfl, rfl, rfl, rfl, rfl, rfl, rfl, rfl, ?_⟩
  simp [State.starterFault, State.hostInt]

/-! ## Tasks and batches (R122, R365) -/

/-- The open task changes and the closed ones stay. -/
theorem modLast_append {α : Type} (f : α → α) (xs : List α) (x : α) : modLast f (xs ++ [x]) = xs ++ [f x] := by
  induction xs with
  | nil => rfl
  | cons y ys ih =>
    cases ys with
    | nil => rfl
    | cons z zs => simpa [modLast] using ih
theorem length_modLast {α : Type} (f : α → α) (xs : List α) : (modLast f xs).length = xs.length := by
  rcases List.eq_nil_or_concat xs with rfl | ⟨ys, y, rfl⟩
  · rfl
  · simp [modLast_append]
/-- An effect joins those of the open task, in order. -/
theorem Group.addEff_tasks (g : Group) (e : Eff) (ts : List Task) (t : Task) (h : g.tasks = ts ++ [t]) :
    (g.addEff e).tasks = ts ++ [{ t with effs := t.effs ++ [e] }] := by simp [Group.addEff, Group.modOpen, h, modLast_append]
/-- An operation joins its class's open batch behind those that are outstanding. -/
theorem Group.joinBatch_ops (g : Group) (cls id : Nat) : (g.joinBatch cls id).ops = g.ops ++ [⟨cls, g.closedOf cls + 1, id⟩] := rfl
/-- DONE never stands above CLOSED (R122). -/
theorem Group.doneOf_le (g : Group) (cls : Nat) : g.doneOf cls ≤ g.closedOf cls := by
  unfold Group.doneOf
  generalize (g.ops.filter (fun o => o.cls == cls)).map BatchOp.batch = bs
  have : ∀ (bs : List Nat) (n : Nat), bs.foldl (fun n b => min n (b - 1)) n ≤ n := by
    intro bs
    induction bs with
    | nil => intro n; exact Nat.le_refl n
    | cons b bs ih => intro n; exact Nat.le_trans (ih _) (Nat.min_le_left _ _)
  exact this bs _

end Sys2Proof.Machine
end

