-- ==== Sys2Proof/Laws/Updates.lean ====
section
/-! SUPPORT. What results that land, writes of team registers and damaged units change, and that nothing else does. -/
namespace Sys2Proof.Machine
open Sys2Proof

theorem State.ripen_rest (s : State) (k : GKey) : { s.ripen k with groups := s.groups } = s := State.modGroup_rest s k _
@[simp] theorem State.group_ripen (s : State) (k : GKey) :
    (s.ripen k).group k = (s.group k).map (Group.landDue (s.protect k) (s.core (s.coreOf k)).cycles) := State.group_modGroup s k _

@[simp] theorem State.team_keepTeam (s : State) (core tm due n : Nat) : (s.keepTeam core tm due).team core n = s.team core n := by
  simp [State.keepTeam, State.team]
theorem State.tmOld_keepTeam (s : State) (core tm due : Nat) :
    Tbl.find ((s.keepTeam core tm due).core core).tmOld tm = some (s.team core tm, due) := by
  simp [State.keepTeam, State.team]
theorem State.keepTeam_rest (s : State) (core tm due : Nat) : { s.keepTeam core tm due with cores := s.cores } = s := rfl
theorem GW.group_writesTeam (w : GW) (tm : Nat) : (w.writesTeam tm).group w.key = some (w.g.result (.tm tm) 0 [] 2) :=
  State.group_setGroup w.s w.key _

/-- A unit that is damaged keeps its bytes. -/
theorem State.damage_bytes (s : State) (l : Loc) :
    (s.damage l).mem = s.mem ∧ (s.damage l).scr = s.scr ∧ (s.damage l).vlt = s.vlt := by
  have h (s : State) (l : Loc) : (s.poison l).mem = s.mem ∧ (s.poison l).scr = s.scr ∧ (s.poison l).vlt = s.vlt := by
    cases l <;> exact ⟨rfl, rfl, rfl⟩
  have hf (f : Nat → Loc) (is : List Nat) (s : State) :
      let t := is.foldl (fun s i => s.poison (f i)) s
      t.mem = s.mem ∧ t.scr = s.scr ∧ t.vlt = s.vlt := by
    induction is generalizing s with
    | nil => exact ⟨rfl, rfl, rfl⟩
    | cons i is ih =>
      obtain ⟨a, b, c⟩ := ih (s.poison (f i))
      obtain ⟨d, e, g⟩ := h s (f i)
      exact ⟨a.trans d, b.trans e, c.trans g⟩
  exact hf _ _ s

end Sys2Proof.Machine
end

