-- ==== Sys2Proof/Tests/Slice0.lean ====
section
/-! SUPPORT. Tests of the decoder and of a few steps, each expected value taken from the spec, and for every statement of
the obligations a concrete state that meets its hypotheses. -/
namespace Sys2Proof.Tests
open Sys2Proof Sys2Proof.Machine Sys2Proof.Claims
set_option maxRecDepth 20000
set_option Elab.async false

/-! ## Decoding: one word for every encoded row, written out from R31 and R37 to R55 -/

theorem test_decode_01 : [
   (0x040010203000E710, .vadd ⟨4, 8, 12, 0, 3, 1, 7, 0, 1⟩),
   (0x040410203000E710, .vsub ⟨4, 8, 12, 0, 3, 1, 7, 0, 1⟩),
   (0x040810203000E700, .vmin ⟨4, 8, 12, 0, 3, 1, 7, 0, 0⟩),
   (0x040C10203000E700, .vmax ⟨4, 8, 12, 0, 3, 1, 7, 0, 0⟩),
   (0x041010200000E710, .vabs ⟨4, 8, 0, 0, 3, 1, 7, 0, 1⟩),
   (0x041410200000E710, .vneg ⟨4, 8, 0, 0, 3, 1, 7, 0, 1⟩),
   (0x041810203000E710, .vabsd ⟨4, 8, 12, 0, 3, 1, 7, 0, 1⟩),
   (0x041C10203000E700, .vavg ⟨4, 8, 12, 0, 3, 1, 7, 0, 0⟩)].all (fun (p : Nat × Instr) => decodeTableWord 64 p.1 == some p.2) = true := by
  decide +kernel

theorem test_decode_02 : [
   (0x080010203000E700, .vand ⟨4, 8, 12, 0, 3, 1, 7, 0, 0⟩),
   (0x080410203000E700, .vor ⟨4, 8, 12, 0, 3, 1, 7, 0, 0⟩),
   (0x080810203000E700, .vxor ⟨4, 8, 12, 0, 3, 1, 7, 0, 0⟩),
   (0x080C10203000E700, .vandn ⟨4, 8, 12, 0, 3, 1, 7, 0, 0⟩),
   (0x081010200000E700, .vnot ⟨4, 8, 0, 0, 3, 1, 7, 0, 0⟩),
   (0x081410203000E700, .vshl ⟨4, 8, 12, 0, 3, 1, 7, 0, 0⟩),
   (0x081810203000E700, .vshr ⟨4, 8, 12, 0, 3, 1, 7, 0, 0⟩),
   (0x081C10203000E700, .vsra ⟨4, 8, 12, 0, 3, 1, 7, 0, 0⟩),
   (0x082010203000E700, .vrol ⟨4, 8, 12, 0, 3, 1, 7, 0, 0⟩),
   (0x082410203000E700, .vbext ⟨4, 8, 12, 0, 3, 1, 7, 0, 0⟩),
   (0x082810203040E700, .vbins ⟨4, 8, 12, 16, 3, 1, 7, 0, 0⟩),
   (0x082C10200000E700, .vpopc ⟨4, 8, 0, 0, 3, 1, 7, 0, 0⟩),
   (0x083010200000E700, .vclz ⟨4, 8, 0, 0, 3, 1, 7, 0, 0⟩),
   (0x083410200000E700, .vbrev ⟨4, 8, 0, 0, 3, 1, 7, 0, 0⟩),
   (0x083810203040E600, .vperm ⟨4, 8, 12, 16, 3, 1, 6, 0, 0⟩)].all (fun (p : Nat × Instr) => decodeTableWord 64 p.1 == some p.2) = true := by
  decide +kernel

theorem test_decode_03 : [
   (0x0C0014203000E700, .vceq ⟨5, 8, 12, 0, 3, 1, 7, 0, 0⟩),
   (0x0C0414203000E700, .vcne ⟨5, 8, 12, 0, 3, 1, 7, 0, 0⟩),
   (0x0C0814203000E700, .vclt ⟨5, 8, 12, 0, 3, 1, 7, 0, 0⟩),
   (0x0C0C14203000E700, .vcle ⟨5, 8, 12, 0, 3, 1, 7, 0, 0⟩),
   (0x0C1014203000E700, .vcgt ⟨5, 8, 12, 0, 3, 1, 7, 0, 0⟩),
   (0x0C1414203000E700, .vcge ⟨5, 8, 12, 0, 3, 1, 7, 0, 0⟩),
   (0x0C1814203000E700, .vtest ⟨5, 8, 12, 0, 3, 1, 7, 0, 0⟩)].all (fun (p : Nat × Instr) => decodeTableWord 64 p.1 == some p.2) = true := by
  decide +kernel

theorem test_decode_04 : [
   (0x100010203000E710, .vmul ⟨4, 8, 12, 0, 3, 1, 7, 0, 1⟩),
   (0x100410203000E700, .vmulhi ⟨4, 8, 12, 0, 3, 1, 7, 0, 0⟩),
   (0x100810203040E710, .vmad ⟨4, 8, 12, 16, 3, 1, 7, 0, 1⟩),
   (0x100C10203040E700, .vmadhi ⟨4, 8, 12, 16, 3, 1, 7, 0, 0⟩),
   (0x101010203000E600, .vmulw ⟨4, 8, 12, 0, 3, 1, 6, 0, 0⟩),
   (0x101410203040E600, .vmadw ⟨4, 8, 12, 16, 3, 1, 6, 0, 0⟩),
   (0x101810203000E700, .vdiv ⟨4, 8, 12, 0, 3, 1, 7, 0, 0⟩),
   (0x101C10203000E700, .vrem ⟨4, 8, 12, 0, 3, 1, 7, 0, 0⟩),
   (0x102010203040E410, .vdot4 ⟨4, 8, 12, 16, 3, 1, 4, 0, 1⟩)].all (fun (p : Nat × Instr) => decodeTableWord 64 p.1 == some p.2) = true := by
  decide +kernel

theorem test_decode_05 : [
   (0x1400408300000012, .vaddi ⟨4, 8, 3, 18⟩),
   (0x1410408300000012, .vandi ⟨4, 8, 3, 18⟩),
   (0x1420408300000012, .vori ⟨4, 8, 3, 18⟩),
   (0x1430408300000012, .vxori ⟨4, 8, 3, 18⟩),
   (0x1440408300000003, .vshli ⟨4, 8, 3, 3⟩),
   (0x1450408300000003, .vshri ⟨4, 8, 3, 3⟩),
   (0x1460408300000003, .vsrai ⟨4, 8, 3, 3⟩),
   (0x1470408300000012, .vminiI32 ⟨4, 8, 3, 18⟩),
   (0x1480408300000012, .vmaxiI32 ⟨4, 8, 3, 18⟩),
   (0x1490408300000012, .vminiN32 ⟨4, 8, 3, 18⟩),
   (0x14A0408300000012, .vmaxiN32 ⟨4, 8, 3, 18⟩),
   (0x14B0408300000012, .vmuli ⟨4, 8, 3, 18⟩),
   (0x14C0400300000012, .vmovi ⟨4, 0, 3, 18⟩),
   (0x14D0508300000012, .vceqi ⟨5, 8, 3, 18⟩),
   (0x14E0508300000012, .vcltiI32 ⟨5, 8, 3, 18⟩),
   (0x14F0508300000012, .vcltiN32 ⟨5, 8, 3, 18⟩),
   (0x1500508300000012, .vcgtiI32 ⟨5, 8, 3, 18⟩),
   (0x1510508300000012, .vcgtiN32 ⟨5, 8, 3, 18⟩)].all (fun (p : Nat × Instr) => decodeTableWord 64 p.1 == some p.2) = true := by
  decide +kernel

theorem test_decode_08 : [
   (0x200010203000EA40, .vfadd ⟨4, 8, 12, 0, 3, 1, 10, 2, 0⟩),
   (0x200410203000EA40, .vfsub ⟨4, 8, 12, 0, 3, 1, 10, 2, 0⟩),
   (0x200810203000EA40, .vfmul ⟨4, 8, 12, 0, 3, 1, 10, 2, 0⟩),
   (0x200C10203040EA40, .vfma ⟨4, 8, 12, 16, 3, 1, 10, 2, 0⟩),
   (0x201010203000EA00, .vfmin ⟨4, 8, 12, 0, 3, 1, 10, 0, 0⟩),
   (0x201410203000EA00, .vfmax ⟨4, 8, 12, 0, 3, 1, 10, 0, 0⟩),
   (0x201810200000EA00, .vfabs ⟨4, 8, 0, 0, 3, 1, 10, 0, 0⟩),
   (0x201C10200000EA00, .vfneg ⟨4, 8, 0, 0, 3, 1, 10, 0, 0⟩),
   (0x202010200000EA40, .vfrnd ⟨4, 8, 0, 0, 3, 1, 10, 2, 0⟩)].all (fun (p : Nat × Instr) => decodeTableWord 64 p.1 == some p.2) = true := by
  decide +kernel

theorem test_decode_09 : [
   (0x240014203000EA00, .vfceq ⟨5, 8, 12, 0, 3, 1, 10, 0, 0⟩),
   (0x240414203000EA00, .vfcne ⟨5, 8, 12, 0, 3, 1, 10, 0, 0⟩),
   (0x240814203000EA00, .vfclt ⟨5, 8, 12, 0, 3, 1, 10, 0, 0⟩),
   (0x240C14203000EA00, .vfcle ⟨5, 8, 12, 0, 3, 1, 10, 0, 0⟩),
   (0x241014203000EA00, .vfcgt ⟨5, 8, 12, 0, 3, 1, 10, 0, 0⟩),
   (0x241414203000EA00, .vfcge ⟨5, 8, 12, 0, 3, 1, 10, 0, 0⟩),
   (0x241814203000EA00, .vfcun ⟨5, 8, 12, 0, 3, 1, 10, 0, 0⟩),
   (0x241C10200000EA00, .vfclass ⟨4, 8, 0, 0, 3, 1, 10, 0, 0⟩)].all (fun (p : Nat × Instr) => decodeTableWord 64 p.1 == some p.2) = true := by
  decide +kernel

theorem test_decode_0A : [
   (0x282010200000EA40, .vcvt 8 ⟨4, 8, 0, 0, 3, 1, 10, 2, 0⟩),
   (0x284010203000E950, .vpack2 ⟨4, 8, 12, 0, 3, 1, 9, 2, 1⟩),
   (0x284410200000E410, .vpack4 ⟨4, 8, 0, 0, 3, 1, 4, 0, 1⟩),
   (0x284810600000ED40, .vpack8 ⟨4, 24, 0, 0, 3, 1, 13, 2, 0⟩),
   (0x284C10200004EF00, .vunpk ⟨4, 8, 0, 1, 3, 1, 15, 0, 0⟩),
   (0x285010200000EF00, .vmxscale ⟨4, 8, 0, 0, 3, 1, 15, 0, 0⟩)].all (fun (p : Nat × Instr) => decodeTableWord 64 p.1 == some p.2) = true := by
  decide +kernel

theorem test_decode_0B : [
   (0x2C0010200000EA00, .vrcp ⟨4, 8, 0, 0, 3, 1, 10, 0, 0⟩),
   (0x2C0410200000EA00, .vrsq ⟨4, 8, 0, 0, 3, 1, 10, 0, 0⟩),
   (0x2C0810200000EA40, .vsqrt ⟨4, 8, 0, 0, 3, 1, 10, 2, 0⟩),
   (0x2C0C10200000EA00, .vexp2 ⟨4, 8, 0, 0, 3, 1, 10, 0, 0⟩),
   (0x2C1010200000EA00, .vlog2 ⟨4, 8, 0, 0, 3, 1, 10, 0, 0⟩),
   (0x2C1410200000EA00, .vsin ⟨4, 8, 0, 0, 3, 1, 10, 0, 0⟩),
   (0x2C1810200000EA00, .vcos ⟨4, 8, 0, 0, 3, 1, 10, 0, 0⟩),
   (0x2C1C10200000EA00, .vtanh ⟨4, 8, 0, 0, 3, 1, 10, 0, 0⟩),
   (0x2C2010200000EA00, .vsigm ⟨4, 8, 0, 0, 3, 1, 10, 0, 0⟩),
   (0x2C2410203000EA40, .vfdiv ⟨4, 8, 12, 0, 3, 1, 10, 2, 0⟩)].all (fun (p : Nat × Instr) => decodeTableWord 64 p.1 == some p.2) = true := by
  decide +kernel

theorem test_decode_0C : [
   (0x3000408300000012, .vfaddi ⟨4, 8, 3, 18⟩),
   (0x3010408300000012, .vfmuli ⟨4, 8, 3, 18⟩),
   (0x3020408300000012, .vfmini ⟨4, 8, 3, 18⟩),
   (0x3030408300000012, .vfmaxi ⟨4, 8, 3, 18⟩),
   (0x3040400300000012, .vfmovi ⟨4, 0, 3, 18⟩)].all (fun (p : Nat × Instr) => decodeTableWord 64 p.1 == some p.2) = true := by
  decide +kernel

theorem test_decode_10 : [
   (0x400010200000E000, .vqxh ⟨4, 8, 0, 0, 3, 1, 0, 0, 0⟩),
   (0x400410200000E000, .vqxv ⟨4, 8, 0, 0, 3, 1, 0, 0, 0⟩),
   (0x400810200000E000, .vqxd ⟨4, 8, 0, 0, 3, 1, 0, 0, 0⟩),
   (0x400C10200004E000, .vqbc ⟨4, 8, 0, 1, 3, 1, 0, 0, 0⟩),
   (0x401010203000E000, .vshfl ⟨4, 8, 12, 0, 3, 1, 0, 0, 0⟩),
   (0x401410200004E000, .vshup ⟨4, 8, 0, 1, 3, 1, 0, 0, 0⟩),
   (0x401810200004E000, .vshdn ⟨4, 8, 0, 1, 3, 1, 0, 0, 0⟩),
   (0x401C10200004E000, .vshxor ⟨4, 8, 0, 1, 3, 1, 0, 0, 0⟩),
   (0x402010200004E000, .vbcast ⟨4, 8, 0, 1, 3, 1, 0, 0, 0⟩),
   (0x402410203024E700, .vsel ⟨4, 8, 12, 9, 3, 1, 7, 0, 0⟩)].all (fun (p : Nat × Instr) => decodeTableWord 64 p.1 == some p.2) = true := by
  decide +kernel

theorem test_decode_11 : [
   (0x440014181C00E000, .mand ⟨5, 6, 7, 0, 3, 1, 0, 0, 0⟩),
   (0x440414181C00E000, .mor ⟨5, 6, 7, 0, 3, 1, 0, 0, 0⟩),
   (0x440814181C00E000, .mxor ⟨5, 6, 7, 0, 3, 1, 0, 0, 0⟩),
   (0x440C14181C00E000, .mandn ⟨5, 6, 7, 0, 3, 1, 0, 0, 0⟩),
   (0x441014180000E000, .mnot ⟨5, 6, 0, 0, 3, 1, 0, 0, 0⟩),
   (0x441414180000E000, .mmov ⟨5, 6, 0, 0, 3, 1, 0, 0, 0⟩),
   (0x441814200000E000, .mfromv ⟨5, 8, 0, 0, 3, 1, 0, 0, 0⟩),
   (0x441C10180000E000, .mtov ⟨4, 6, 0, 0, 3, 1, 0, 0, 0⟩),
   (0x442014200000E000, .mfromg ⟨5, 8, 0, 0, 3, 1, 0, 0, 0⟩),
   (0x442410180000E000, .mtog ⟨4, 6, 0, 0, 3, 1, 0, 0, 0⟩),
   (0x442810180000E000, .mpopc ⟨4, 6, 0, 0, 3, 1, 0, 0, 0⟩),
   (0x442C10180000E000, .mffs ⟨4, 6, 0, 0, 3, 1, 0, 0, 0⟩)].all (fun (p : Nat × Instr) => decodeTableWord 64 p.1 == some p.2) = true := by
  decide +kernel

theorem test_decode_12 : [
   (0x480010203000E000, .gadd ⟨4, 8, 12, 0, 3, 1, 0, 0, 0⟩),
   (0x480410203000E000, .gsub ⟨4, 8, 12, 0, 3, 1, 0, 0, 0⟩),
   (0x480810203000E000, .gand ⟨4, 8, 12, 0, 3, 1, 0, 0, 0⟩),
   (0x480C10203000E000, .gor ⟨4, 8, 12, 0, 3, 1, 0, 0, 0⟩),
   (0x481010203000E000, .gxor ⟨4, 8, 12, 0, 3, 1, 0, 0, 0⟩),
   (0x481410203000E000, .gshl ⟨4, 8, 12, 0, 3, 1, 0, 0, 0⟩),
   (0x481810203000E000, .gshr ⟨4, 8, 12, 0, 3, 1, 0, 0, 0⟩),
   (0x481C10203000E000, .gsra ⟨4, 8, 12, 0, 3, 1, 0, 0, 0⟩),
   (0x482010203000E000, .gmin ⟨4, 8, 12, 0, 3, 1, 0, 0, 0⟩),
   (0x482410203000E000, .gmax ⟨4, 8, 12, 0, 3, 1, 0, 0, 0⟩),
   (0x482810203000E000, .gminn ⟨4, 8, 12, 0, 3, 1, 0, 0, 0⟩),
   (0x482C10203000E000, .gmaxn ⟨4, 8, 12, 0, 3, 1, 0, 0, 0⟩),
   (0x483010200000E000, .gmov ⟨4, 8, 0, 0, 3, 1, 0, 0, 0⟩),
   (0x483410203000E000, .gsel ⟨4, 8, 12, 0, 3, 1, 0, 0, 0⟩),
   (0x483810203000E000, .gmul ⟨4, 8, 12, 0, 3, 1, 0, 0, 0⟩),
   (0x483C10203000E000, .gmulhi ⟨4, 8, 12, 0, 3, 1, 0, 0, 0⟩),
   (0x484010203000E000, .gdiv ⟨4, 8, 12, 0, 3, 1, 0, 0, 0⟩),
   (0x484410203000E000, .gdivn ⟨4, 8, 12, 0, 3, 1, 0, 0, 0⟩),
   (0x484810203000E000, .grem ⟨4, 8, 12, 0, 3, 1, 0, 0, 0⟩),
   (0x484C10203000E000, .gremn ⟨4, 8, 12, 0, 3, 1, 0, 0, 0⟩)].all (fun (p : Nat × Instr) => decodeTableWord 64 p.1 == some p.2) = true := by
  decide +kernel

theorem test_decode_13 : [
   (0x4C00408300000012, .gaddi ⟨4, 8, 3, 18⟩),
   (0x4C10408300000012, .gandi ⟨4, 8, 3, 18⟩),
   (0x4C20408300000012, .gori ⟨4, 8, 3, 18⟩),
   (0x4C30408300000012, .gxori ⟨4, 8, 3, 18⟩),
   (0x4C40408300000003, .gshli ⟨4, 8, 3, 3⟩),
   (0x4C50408300000003, .gshri ⟨4, 8, 3, 3⟩),
   (0x4C60408300000003, .gsrai ⟨4, 8, 3, 3⟩),
   (0x4C70408300000012, .gmini ⟨4, 8, 3, 18⟩),
   (0x4C80408300000012, .gmaxi ⟨4, 8, 3, 18⟩),
   (0x4C90400300000012, .gmovi ⟨4, 0, 3, 18⟩),
   (0x4CA0400300000012, .gmovhi ⟨4, 0, 3, 18⟩),
   (0x4CB0408300000012, .gmuli ⟨4, 8, 3, 18⟩)].all (fun (p : Nat × Instr) => decodeTableWord 64 p.1 == some p.2) = true := by
  decide +kernel

theorem test_decode_14 : [
   (0x500014203000E000, .gceq ⟨5, 8, 12, 0, 3, 1, 0, 0, 0⟩),
   (0x500414203000E000, .gcne ⟨5, 8, 12, 0, 3, 1, 0, 0, 0⟩),
   (0x500814203000E000, .gclt ⟨5, 8, 12, 0, 3, 1, 0, 0, 0⟩),
   (0x500C14203000E000, .gcle ⟨5, 8, 12, 0, 3, 1, 0, 0, 0⟩),
   (0x501014203000E000, .gcltn ⟨5, 8, 12, 0, 3, 1, 0, 0, 0⟩),
   (0x501414203000E000, .gclen ⟨5, 8, 12, 0, 3, 1, 0, 0, 0⟩),
   (0x501814181C00E000, .gpand ⟨5, 6, 7, 0, 3, 1, 0, 0, 0⟩),
   (0x501C14181C00E000, .gpor ⟨5, 6, 7, 0, 3, 1, 0, 0, 0⟩),
   (0x502014181C00E000, .gpxor ⟨5, 6, 7, 0, 3, 1, 0, 0, 0⟩),
   (0x502414180000E000, .gpnot ⟨5, 6, 0, 0, 3, 1, 0, 0, 0⟩),
   (0x502814180000E000, .gpany ⟨5, 6, 0, 0, 3, 1, 0, 0, 0⟩),
   (0x502C14180000E000, .gpall ⟨5, 6, 0, 0, 3, 1, 0, 0, 0⟩)].all (fun (p : Nat × Instr) => decodeTableWord 64 p.1 == some p.2) = true := by
  decide +kernel

theorem test_decode_15 : [
   (0x5400102000040000, .vtog ⟨4, 8, 0, 1, 0, 0, 0, 0, 0⟩),
   (0x540410200004E000, .gtov ⟨4, 8, 0, 1, 3, 1, 0, 0, 0⟩),
   (0x540810200000E710, .vredadd ⟨4, 8, 0, 0, 3, 1, 7, 0, 1⟩),
   (0x540C10200000E700, .vredmin ⟨4, 8, 0, 0, 3, 1, 7, 0, 0⟩),
   (0x541010200000E700, .vredmax ⟨4, 8, 0, 0, 3, 1, 7, 0, 0⟩),
   (0x541410200000E700, .vredand ⟨4, 8, 0, 0, 3, 1, 7, 0, 0⟩),
   (0x541810200000E700, .vredor ⟨4, 8, 0, 0, 3, 1, 7, 0, 0⟩),
   (0x541C10200000E700, .vredxor ⟨4, 8, 0, 0, 3, 1, 7, 0, 0⟩),
   (0x542010200000E710, .vscanadd ⟨4, 8, 0, 0, 3, 1, 7, 0, 1⟩),
   (0x542410200000EA40, .vfredadd ⟨4, 8, 0, 0, 3, 1, 10, 2, 0⟩),
   (0x542810200000EA00, .vfredmin ⟨4, 8, 0, 0, 3, 1, 10, 0, 0⟩),
   (0x542C10200000EA00, .vfredmax ⟨4, 8, 0, 0, 3, 1, 10, 0, 0⟩)].all (fun (p : Nat × Instr) => decodeTableWord 64 p.1 == some p.2) = true := by
  decide +kernel

theorem test_decode_18 : [
   (0x6000A0B469000008, .vld ⟨10, 11, 2, 3, 2, 1, 8⟩),
   (0x6010A0B469000008, .vldx ⟨10, 11, 2, 3, 2, 1, 8⟩)].all (fun (p : Nat × Instr) => decodeTableWord 64 p.1 == some p.2) = true := by
  decide +kernel

theorem test_decode_19 : [
   (0x6400A0B469000008, .vst ⟨10, 11, 2, 3, 2, 1, 8⟩)].all (fun (p : Nat × Instr) => decodeTableWord 64 p.1 == some p.2) = true := by
  decide +kernel

theorem test_decode_1A : [
   (0x6800A0B068000008, .vsld ⟨10, 11, 0, 3, 2, 0, 8⟩),
   (0x6810A0B068000008, .vsldx ⟨10, 11, 0, 3, 2, 0, 8⟩),
   (0x6820A0B068000008, .vsst ⟨10, 11, 0, 3, 2, 0, 8⟩),
   (0x6830A0B068000008, .vvld ⟨10, 11, 0, 3, 2, 0, 8⟩),
   (0x6840A0B068000008, .vvldx ⟨10, 11, 0, 3, 2, 0, 8⟩),
   (0x6850A0B068000008, .vvst ⟨10, 11, 0, 3, 2, 0, 8⟩)].all (fun (p : Nat × Instr) => decodeTableWord 64 p.1 == some p.2) = true := by
  decide +kernel

theorem test_decode_1B : [
   (0x6C00A0C069000008, .gld ⟨10, 12, 0, 3, 2, 1, 8⟩),
   (0x6C10A0C069000008, .gst ⟨10, 12, 0, 3, 2, 1, 8⟩),
   (0x6C20A0C068000008, .gsld ⟨10, 12, 0, 3, 2, 0, 8⟩),
   (0x6C30A0C068000008, .gsst ⟨10, 12, 0, 3, 2, 0, 8⟩),
   (0x6C40A0C068000008, .gvld ⟨10, 12, 0, 3, 2, 0, 8⟩),
   (0x6C50A0C068000008, .gvst ⟨10, 12, 0, 3, 2, 0, 8⟩)].all (fun (p : Nat × Instr) => decodeTableWord 64 p.1 == some p.2) = true := by
  decide +kernel

theorem test_decode_1C : [
   (0x700000B400000008, .xlat ⟨0, 11, 2, 0, 0, 0, 8⟩),
   (0x7010000400000000, .xrel ⟨0, 0, 2, 0, 0, 0, 0⟩),
   (0x7020A00404000000, .xget ⟨10, 0, 2, 0, 1, 0, 0⟩),
   (0x7030A0B000000000, .tlbinv ⟨10, 11, 0, 0, 0, 0, 0⟩)].all (fun (p : Nat × Instr) => decodeTableWord 64 p.1 == some p.2) = true := by
  decide +kernel

theorem test_decode_1D : [
   (0x740000B469000008, .vpf ⟨0, 11, 2, 3, 2, 1, 8⟩),
   (0x741000C001000008, .gpf ⟨0, 12, 0, 0, 0, 1, 8⟩),
   (0x7420000000000000, .l1inv ⟨0, 0, 0, 0, 0, 0, 0⟩)].all (fun (p : Nat × Instr) => decodeTableWord 64 p.1 == some p.2) = true := by
  decide +kernel

theorem test_decode_20 : [
   (0x8000203040000000, .cpy ⟨8, 12, 16, 0, 0, 0⟩),
   (0x8004203040050000, .cpy2d ⟨8, 12, 16, 0, 20, 0⟩),
   (0x8008203040000000, .cpyfill ⟨8, 12, 16, 0, 0, 0⟩),
   (0x800C203040000000, .cpyadd ⟨8, 12, 16, 0, 0, 0⟩),
   (0x8010203040000000, .cpyxor ⟨8, 12, 16, 0, 0, 0⟩)].all (fun (p : Nat × Instr) => decodeTableWord 64 p.1 == some p.2) = true := by
  decide +kernel

theorem test_decode_21 : [
   (0x8400000000000001, .bfence ⟨0, 0, 0, 1⟩),
   (0x8410000000000002, .bwait ⟨0, 0, 0, 2⟩),
   (0x8420400000000002, .bget ⟨4, 0, 0, 2⟩)].all (fun (p : Nat × Instr) => decodeTableWord 64 p.1 == some p.2) = true := by
  decide +kernel

theorem test_decode_22 : [
   (0x8800003000000001, .bcinit ⟨0, 12, 0, 0, 0, 1⟩),
   (0x8804003040000001, .bcexpect ⟨0, 12, 16, 0, 0, 1⟩),
   (0x8808003040000001, .bcarrive ⟨0, 12, 16, 0, 0, 1⟩),
   (0x880C003040000001, .bcwait ⟨0, 12, 16, 0, 0, 1⟩),
   (0x8810203000000003, .bctest ⟨8, 12, 0, 0, 0, 3⟩)].all (fun (p : Nat × Instr) => decodeTableWord 64 p.1 == some p.2) = true := by
  decide +kernel

theorem test_decode_24 : [
   (0x9008402080800000, .vmma 2 0 ⟨16, 8, 32, 2, 0, 0⟩),
   (0x9088402080800000, .vmmaz 2 0 ⟨16, 8, 32, 2, 0, 0⟩)].all (fun (p : Nat × Instr) => decodeTableWord 64 p.1 == some p.2) = true := by
  decide +kernel

theorem test_decode_25 : [
   (0x9400200000800000, .vouts ⟨8, 0, 0, 2, 0, 0⟩)].all (fun (p : Nat × Instr) => decodeTableWord 64 p.1 == some p.2) = true := by
  decide +kernel

theorem test_decode_26 : [
   (0x9800003000800000, .tmset ⟨0, 12, 0, 2, 0, 0⟩),
   (0x9804000000800000, .tmclr ⟨0, 0, 0, 2, 0, 0⟩),
   (0x9808200000800000, .tmget ⟨8, 0, 0, 2, 0, 0⟩)].all (fun (p : Nat × Instr) => decodeTableWord 64 p.1 == some p.2) = true := by
  decide +kernel

theorem test_decode_28 : [
   (0xA000203000120000, .vaadd ⟨8, 12, 0, 0, 72, 0⟩),
   (0xA004203000120000, .vaand ⟨8, 12, 0, 0, 72, 0⟩),
   (0xA008203000120000, .vaor ⟨8, 12, 0, 0, 72, 0⟩),
   (0xA00C203000120000, .vaxor ⟨8, 12, 0, 0, 72, 0⟩),
   (0xA010203000120000, .vamin ⟨8, 12, 0, 0, 72, 0⟩),
   (0xA014203000120000, .vamax ⟨8, 12, 0, 0, 72, 0⟩),
   (0xA018203000120000, .vaminn ⟨8, 12, 0, 0, 72, 0⟩),
   (0xA01C203000120000, .vamaxn ⟨8, 12, 0, 0, 72, 0⟩),
   (0xA020203000120000, .vaxchg ⟨8, 12, 0, 0, 72, 0⟩),
   (0xA024203040120000, .vacas ⟨8, 12, 16, 0, 72, 0⟩),
   (0xA028203000120000, .vafadd ⟨8, 12, 0, 0, 72, 0⟩)].all (fun (p : Nat × Instr) => decodeTableWord 64 p.1 == some p.2) = true := by
  decide +kernel

theorem test_decode_29 : [
   (0xA400203000120000, .vradd ⟨8, 12, 0, 0, 72, 0⟩),
   (0xA404203000120000, .vrand ⟨8, 12, 0, 0, 72, 0⟩),
   (0xA408203000120000, .vror ⟨8, 12, 0, 0, 72, 0⟩),
   (0xA40C203000120000, .vrxor ⟨8, 12, 0, 0, 72, 0⟩),
   (0xA410203000120000, .vrmin ⟨8, 12, 0, 0, 72, 0⟩),
   (0xA414203000120000, .vrmax ⟨8, 12, 0, 0, 72, 0⟩),
   (0xA418203000120000, .vrminn ⟨8, 12, 0, 0, 72, 0⟩),
   (0xA41C203000120000, .vrmaxn ⟨8, 12, 0, 0, 72, 0⟩),
   (0xA420203000120000, .vrfadd ⟨8, 12, 0, 0, 72, 0⟩),
   (0xA480203040120000, .vraddArv ⟨8, 12, 16, 0, 72, 0⟩),
   (0xA484203040120000, .vrandArv ⟨8, 12, 16, 0, 72, 0⟩),
   (0xA488203040120000, .vrorArv ⟨8, 12, 16, 0, 72, 0⟩),
   (0xA48C203040120000, .vrxorArv ⟨8, 12, 16, 0, 72, 0⟩),
   (0xA490203040120000, .vrminArv ⟨8, 12, 16, 0, 72, 0⟩),
   (0xA494203040120000, .vrmaxArv ⟨8, 12, 16, 0, 72, 0⟩),
   (0xA498203040120000, .vrminnArv ⟨8, 12, 16, 0, 72, 0⟩),
   (0xA49C203040120000, .vrmaxnArv ⟨8, 12, 16, 0, 72, 0⟩),
   (0xA4A0203040120000, .vrfaddArv ⟨8, 12, 16, 0, 72, 0⟩)].all (fun (p : Nat × Instr) => decodeTableWord 64 p.1 == some p.2) = true := by
  decide +kernel

theorem test_decode_2A : [
   (0xA800000300000000, .txbegin ⟨0, 0, 3, 0⟩),
   (0xA810500000000000, .txend ⟨5, 0, 0, 0⟩),
   (0xA820000300000003, .txabort ⟨0, 0, 3, 3⟩),
   (0xA830400300000000, .txstat ⟨4, 0, 3, 0⟩)].all (fun (p : Nat × Instr) => decodeTableWord 64 p.1 == some p.2) = true := by
  decide +kernel

theorem test_decode_2B : [
   (0xAC00001418000002, .waitw ⟨0, 5, 6, 0, 0, 2⟩),
   (0xAC04000000000003, .barblk ⟨0, 0, 0, 0, 0, 3⟩),
   (0xAC08000000000003, .bargng ⟨0, 0, 0, 0, 0, 3⟩)].all (fun (p : Nat × Instr) => decodeTableWord 64 p.1 == some p.2) = true := by
  decide +kernel

theorem test_decode_2C : [
   (0xB000203040000000, .harp ⟨8, 12, 16, 0, 0, 0⟩)].all (fun (p : Nat × Instr) => decodeTableWord 64 p.1 == some p.2) = true := by
  decide +kernel

theorem test_decode_30 : [
   (0xC003A80900000006, .bra ⟨3, 1, 2, 1, 9, 6⟩),
   (0xC010280900000006, .brau ⟨0, 0, 2, 1, 9, 6⟩),
   (0xC020000900000000, .join ⟨0, 0, 0, 0, 9, 0⟩),
   (0xC033800900000000, .brk ⟨3, 1, 0, 0, 9, 0⟩),
   (0xC043800900000000, .cont ⟨3, 1, 0, 0, 9, 0⟩),
   (0xC050000900000006, .call ⟨0, 0, 0, 0, 9, 6⟩),
   (0xC060000900000000, .ret ⟨0, 0, 0, 0, 9, 0⟩),
   (0xC073800000000000, .exit ⟨3, 1, 0, 0, 0, 0⟩)].all (fun (p : Nat × Instr) => decodeTableWord 64 p.1 == some p.2) = true := by
  decide +kernel

theorem test_decode_31 : [
   (0xC400000000000000, .tmark ⟨0, 0, 0, 0⟩),
   (0xC40000000000000B, .gfenceRel ⟨0, 0, 0, 11⟩),
   (0xC400000000000013, .gfenceAcq ⟨0, 0, 0, 19⟩),
   (0xC40000000000001B, .gfenceAcqrel ⟨0, 0, 0, 27⟩)].all (fun (p : Nat × Instr) => decodeTableWord 64 p.1 == some p.2) = true := by
  decide +kernel

theorem test_decode_32 : [
   (0xC800000300000003, .trap ⟨0, 0, 3, 3⟩),
   (0xC810000000000000, .yield ⟨0, 0, 0, 0⟩),
   (0xC820000300000003, .dbgbrk ⟨0, 0, 3, 3⟩),
   (0xC830000000000000, .nop (.clause ⟨0, 0, 0, 0⟩))].all (fun (p : Nat × Instr) => decodeTableWord 64 p.1 == some p.2) = true := by
  decide +kernel

theorem test_decode_33 : [
   (0xCC00400300000008, .vsr ⟨4, 0, 3, 8⟩),
   (0xCC10400300000006, .gsr ⟨4, 0, 3, 6⟩),
   (0xCC2000830000000C, .gsw ⟨0, 8, 3, 12⟩),
   (0xCC2000830000000D, .srseed ⟨0, 8, 3, 13⟩)].all (fun (p : Nat × Instr) => decodeTableWord 64 p.1 == some p.2) = true := by
  decide +kernel

theorem test_decode_34 : [
   (0xD000400300000003, .affcnt ⟨4, 0, 3, 3⟩),
   (0xD011000000000000, .affpop ⟨16, 0, 0, 0⟩),
   (0xD020000300000000, .affwait ⟨0, 0, 3, 0⟩)].all (fun (p : Nat × Instr) => decodeTableWord 64 p.1 == some p.2) = true := by
  decide +kernel

theorem test_decode_35 : [
   (0xD400400300000000, .tkpool ⟨4, 0, 3, 0⟩),
   (0xD410400300000000, .tkstat ⟨4, 0, 3, 0⟩)].all (fun (p : Nat × Instr) => decodeTableWord 64 p.1 == some p.2) = true := by
  decide +kernel

theorem test_decode_38 : [
   (0xE000310000000040, .ld8 ⟨3, 4, 0, 64⟩),
   (0xE004310000000040, .ld16 ⟨3, 4, 0, 64⟩),
   (0xE008310000000040, .ld32 ⟨3, 4, 0, 64⟩),
   (0xE00C310000000040, .ld64 ⟨3, 4, 0, 64⟩),
   (0xE010310000000040, .ldx8 ⟨3, 4, 0, 64⟩),
   (0xE014310000000040, .ldx16 ⟨3, 4, 0, 64⟩),
   (0xE018310000000040, .ldx32 ⟨3, 4, 0, 64⟩),
   (0xE020010500000040, .st8 ⟨0, 4, 5, 64⟩),
   (0xE024010500000040, .st16 ⟨0, 4, 5, 64⟩),
   (0xE028010500000040, .st32 ⟨0, 4, 5, 64⟩),
   (0xE02C010500000040, .st64 ⟨0, 4, 5, 64⟩),
   (0xE040010500000040, .beq ⟨0, 4, 5, 64⟩),
   (0xE044010500000040, .bne ⟨0, 4, 5, 64⟩),
   (0xE048010500000040, .blt ⟨0, 4, 5, 64⟩),
   (0xE04C010500000040, .bltn ⟨0, 4, 5, 64⟩),
   (0xE050010500000040, .bge ⟨0, 4, 5, 64⟩),
   (0xE054010500000040, .bgen ⟨0, 4, 5, 64⟩),
   (0xE058300000000040, .jal ⟨3, 0, 0, 64⟩),
   (0xE05C310000000040, .jalr ⟨3, 4, 0, 64⟩),
   (0xE060000000000000, .fence ⟨0, 0, 0, 0⟩),
   (0xE064300000000021, .csrr ⟨3, 0, 0, 33⟩),
   (0xE06801000000000E, .csrw ⟨0, 4, 0, 14⟩),
   (0xE06801000000000D, .strEnd ⟨0, 4, 0, 13⟩)].all (fun (p : Nat × Instr) => decodeTableWord 64 p.1 == some p.2) = true := by
  decide +kernel

theorem test_decode_39 : [
   (0xE400010500000001, .emit ⟨0, 4, 5, 1⟩),
   (0xE404010500000001, .emitm ⟨0, 4, 5, 1⟩),
   (0xE408310500000040, .patch ⟨3, 4, 5, 64⟩)].all (fun (p : Nat × Instr) => decodeTableWord 64 p.1 == some p.2) = true := by
  decide +kernel

theorem test_decode_3A : [
   (0xE800310500000000, .segopen ⟨3, 4, 5, 0⟩),
   (0xE804310500000000, .segstrm ⟨3, 4, 5, 0⟩),
   (0xE808010000000000, .seal ⟨0, 4, 0, 0⟩),
   (0xE80C010000000000, .segfree ⟨0, 4, 0, 0⟩),
   (0xE810310500000000, .ccfind ⟨3, 4, 5, 0⟩),
   (0xE814010500000000, .ccput ⟨0, 4, 5, 0⟩)].all (fun (p : Nat × Instr) => decodeTableWord 64 p.1 == some p.2) = true := by
  decide +kernel

theorem test_decode_3B : [
   (0xEC00310000000000, .launch ⟨3, 4, 0, 0⟩),
   (0xEC04310500000004, .greplay ⟨3, 4, 5, 4⟩),
   (0xEC08310500000001, .release ⟨3, 4, 5, 1⟩)].all (fun (p : Nat × Instr) => decodeTableWord 64 p.1 == some p.2) = true := by
  decide +kernel

theorem test_decode_3E : [
   (0xFBCEA00000000000, .clauseHeader ⟨15, 3, 1, 0, 1, 0, 1, 0, 0⟩)].all (fun (p : Nat × Instr) => decodeTableWord 64 p.1 == some p.2) = true := by
  decide +kernel

theorem test_decode_starter_group : decodeStarter 0x4800310500000000 = .ok (.starterGroupOp 0 0 ⟨3, 4, 5, 0⟩) := by rfl

/-- R54: `gmovi s5, 1` on the Starter; R56: word 0, an unassigned opcode, a set reserved bit and a false function. -/
theorem test_decode_starter_gmovi : decodeStarter 0x4C24500000000001 = .ok (.starterGroupOp 1 9 ⟨5, 0, 0, 1⟩) := by rfl
theorem test_decode_zero : decodeWord 0 = .error .illegalZero := by rfl
theorem test_decode_illegal : decodeWord 0x1C00000000000000 = .error .illegalOpcode := by rfl
theorem test_decode_reserved : decodeWord 0x0400242404000201 = .error .reservedField := by rfl

/-! ## Ill-formed terms: one for each check -/


theorem test_refused_illegal : [
   .vcvt 2 ⟨4, 8, 0, 0, 0, 0, 2, 0, 0⟩, .vmma 0 1 ⟨16, 8, 32, 2, 0, 0⟩, .vmmaz 0 1 ⟨16, 8, 32, 2, 0, 0⟩,
   .vldx ⟨10, 3, 0, 0, 3, 0, 0⟩, .vsldx ⟨10, 3, 0, 0, 4, 0, 0⟩, .vvldx ⟨10, 3, 0, 0, 3, 0, 0⟩,
   .vafadd ⟨8, 12, 0, 0, 12, 0⟩, .vrfadd ⟨8, 12, 0, 0, 12, 0⟩, .vrfaddArv ⟨8, 12, 3, 0, 13, 0⟩, .gsr ⟨5, 0, 0, 0⟩,
   .gsw ⟨0, 5, 0, 1⟩, .gsw ⟨0, 5, 0, 0x00D⟩, .srseed ⟨0, 5, 0, 0x00C⟩, .strEnd ⟨0, 5, 0, 0x00E⟩,
   .csrw ⟨0, 5, 0, 0x00C⟩, .starterGroupOp 0 0x14 ⟨5, 0, 0, 0⟩, .starterGroupOp 1 0x0C ⟨5, 0, 0, 0⟩,
   .vadd ⟨4, 8, 12, 0, 0, 0, 10, 0, 0⟩].all
  (fun (i : Instr) => !wellFormed i && i.check == some .illegalOpcode) = true := by decide +kernel

theorem test_refused_reserved_lane : [
   .vadd ⟨5, 8, 12, 0, 0, 0, 7, 0, 0⟩, .vadd ⟨4, 8, 12, 1, 0, 0, 2, 0, 0⟩, .vadd ⟨4, 8, 12, 0, 0, 0, 2, 1, 0⟩,
   .vand ⟨4, 8, 12, 0, 0, 0, 6, 0, 1⟩, .vadd ⟨4, 8, 12, 0, 0, 0, 16, 0, 0⟩, .vceq ⟨16, 8, 12, 0, 0, 0, 2, 0, 0⟩,
   .vfadd ⟨4, 8, 12, 0, 0, 0, 10, 6, 0⟩, .vqbc ⟨4, 8, 0, 4, 0, 0, 0, 0, 0⟩, .gadd ⟨64, 8, 12, 0, 0, 0, 0, 0, 0⟩,
   .gadd ⟨4, 8, 12, 0, 8, 0, 0, 0, 0⟩, .gceq ⟨8, 8, 12, 0, 0, 0, 0, 0, 0⟩, .vtog ⟨4, 8, 0, 0, 1, 0, 0, 0, 0⟩,
   .vpack8 ⟨4, 9, 0, 0, 0, 0, 13, 0, 0⟩, .vpack4 ⟨4, 8, 0, 0, 0, 0, 4, 1, 0⟩, .vunpk ⟨4, 8, 0, 4, 0, 0, 11, 0, 0⟩,
   .vcvt 10 ⟨20, 4, 1, 0, 0, 0, 11, 0, 0⟩, .vshli ⟨4, 8, 0, 32⟩, .vmovi ⟨4, 8, 0, 1⟩, .gshli ⟨4, 8, 0, 64⟩,
   .vsr ⟨4, 0, 0, 0x12⟩, .vsr ⟨5, 0, 0, 6⟩, .affpop ⟨17, 0, 0, 0⟩].all
  (fun (i : Instr) => !wellFormed i && i.check == some .reservedField) = true := by decide +kernel

theorem test_refused_reserved_memory : [
   .vld ⟨11, 3, 0, 0, 3, 0, 0⟩, .vldx ⟨10, 3, 0, 0, 5, 0, 0⟩, .vst ⟨10, 3, 0, 0, 4, 0, 0⟩,
   .vsld ⟨10, 3, 1, 0, 2, 0, 0⟩, .vsldx ⟨10, 3, 0, 0, 1, 1, 0⟩, .vsst ⟨10, 3, 2, 0, 2, 0, 0⟩,
   .vvld ⟨10, 3, 1, 0, 2, 0, 0⟩, .vvldx ⟨10, 3, 1, 0, 1, 0, 0⟩, .vvst ⟨10, 3, 0, 0, 2, 2, 0⟩,
   .gld ⟨64, 3, 0, 0, 2, 0, 0⟩, .gst ⟨10, 3, 1, 0, 2, 0, 0⟩, .gsld ⟨10, 3, 0, 0, 2, 1, 0⟩,
   .gsst ⟨10, 3, 0, 0, 4, 0, 0⟩, .gvld ⟨10, 64, 0, 0, 2, 0, 0⟩, .gvst ⟨10, 3, 0, 0, 2, 3, 0⟩,
   .xlat ⟨1, 3, 1, 0, 0, 0, 0⟩, .xrel ⟨0, 0, 1, 0, 0, 0, 8⟩, .xget ⟨5, 0, 1, 0, 4, 0, 0⟩,
   .tlbinv ⟨5, 6, 1, 0, 0, 0, 0⟩, .vpf ⟨1, 3, 0, 0, 2, 0, 0⟩, .gpf ⟨0, 5, 1, 0, 0, 0, 0⟩,
   .l1inv ⟨0, 0, 0, 0, 0, 0, 1⟩].all
  (fun (i : Instr) => !wellFormed i && i.check == some .reservedField) = true := by decide +kernel

theorem test_refused_reserved_engines : [
   .cpy ⟨1, 2, 3, 0, 4, 0⟩, .cpy2d ⟨1, 2, 3, 0, 0, 0⟩, .cpyfill ⟨1, 2, 3, 0, 0, 64⟩, .cpyadd ⟨1, 2, 3, 0, 0, 80⟩,
   .cpyxor ⟨1, 2, 3, 0, 0, 16⟩, .bfence ⟨5, 0, 0, 3⟩, .bwait ⟨0, 5, 0, 4⟩, .bget ⟨5, 0, 0, 8⟩,
   .bcinit ⟨0, 5, 0, 0, 0, 2⟩, .bcexpect ⟨1, 5, 6, 0, 0, 0⟩, .bcarrive ⟨0, 5, 64, 0, 0, 0⟩,
   .bcwait ⟨0, 5, 6, 1, 0, 0⟩, .bctest ⟨5, 6, 0, 0, 0, 4⟩, .vmma 2 0 ⟨17, 8, 32, 2, 0, 0⟩,
   .vmmaz 2 0 ⟨16, 24, 32, 2, 0, 0⟩, .vouts ⟨16, 64, 0, 2, 0, 0⟩, .tmset ⟨0, 5, 1, 2, 0, 0⟩,
   .tmclr ⟨1, 0, 0, 2, 0, 0⟩, .tmget ⟨64, 0, 0, 2, 0, 0⟩, .harp ⟨5, 6, 7, 1, 0, 0⟩].all
  (fun (i : Instr) => !wellFormed i && i.check == some .reservedField) = true := by decide +kernel

theorem test_refused_reserved_atomics : [
   .vacas ⟨8, 12, 17, 0, 12, 0⟩, .vaadd ⟨8, 12, 1, 0, 8, 0⟩, .vaand ⟨8, 12, 1, 0, 8, 0⟩, .vaor ⟨8, 12, 1, 0, 8, 0⟩,
   .vaxor ⟨8, 12, 1, 0, 8, 0⟩, .vamin ⟨8, 12, 1, 0, 8, 0⟩, .vamax ⟨8, 12, 1, 0, 8, 0⟩, .vaminn ⟨8, 12, 1, 0, 8, 0⟩,
   .vamaxn ⟨8, 12, 1, 0, 8, 0⟩, .vaxchg ⟨8, 12, 1, 0, 8, 0⟩, .vafadd ⟨8, 12, 1, 0, 8, 0⟩,
   .vradd ⟨8, 12, 1, 0, 8, 0⟩, .vrand ⟨8, 12, 1, 0, 8, 0⟩, .vror ⟨8, 12, 1, 0, 8, 0⟩, .vrxor ⟨8, 12, 1, 0, 8, 0⟩,
   .vrmin ⟨8, 12, 1, 0, 8, 0⟩, .vrmax ⟨8, 12, 1, 0, 8, 0⟩, .vrminn ⟨8, 12, 1, 0, 8, 0⟩,
   .vrmaxn ⟨8, 12, 1, 0, 8, 0⟩, .vrfadd ⟨8, 12, 1, 0, 8, 0⟩, .vraddArv ⟨8, 12, 64, 0, 8, 0⟩,
   .vrandArv ⟨8, 12, 64, 0, 8, 0⟩, .vrorArv ⟨8, 12, 64, 0, 8, 0⟩, .vrxorArv ⟨8, 12, 64, 0, 8, 0⟩,
   .vrminArv ⟨8, 12, 64, 0, 8, 0⟩, .vrmaxArv ⟨8, 12, 64, 0, 8, 0⟩, .vrminnArv ⟨8, 12, 64, 0, 8, 0⟩,
   .vrmaxnArv ⟨8, 12, 64, 0, 8, 0⟩, .vrfaddArv ⟨8, 12, 64, 0, 8, 0⟩, .vaadd ⟨8, 12, 0, 0, 200, 0⟩,
   .vaadd ⟨8, 12, 0, 0, 4, 0⟩, .vaadd ⟨8, 12, 0, 0, 11, 0⟩, .vaadd ⟨8, 12, 0, 1, 9, 0⟩, .waitw ⟨0, 5, 6, 0, 0, 1⟩,
   .barblk ⟨0, 0, 0, 0, 0, 16⟩, .bargng ⟨1, 0, 0, 0, 0, 3⟩].all
  (fun (i : Instr) => !wellFormed i && i.check == some .reservedField) = true := by decide +kernel

theorem test_refused_reserved_control : [
   .bra ⟨0, 0, 0, 0, 0, 4⟩, .brau ⟨1, 0, 0, 0, 1, 4⟩, .join ⟨0, 0, 0, 0, 1, 4⟩, .brk ⟨0, 0, 0, 0, 0, 4⟩,
   .cont ⟨0, 0, 0, 0, 0, 4⟩, .call ⟨0, 1, 0, 0, 1, 4⟩, .ret ⟨0, 0, 0, 0, 1, 4⟩, .exit ⟨0, 0, 0, 0, 1, 0⟩,
   .tmark ⟨0, 0, 0, 1⟩, .gfenceRel ⟨0, 0, 0, 14⟩, .gfenceAcq ⟨0, 0, 0, 8⟩, .gfenceAcqrel ⟨0, 1, 0, 24⟩,
   .nop (.clause ⟨0, 0, 0, 1⟩), .clauseHeader ⟨9, 0, 0, 0, 0, 0, 0, 0, 0⟩].all
  (fun (i : Instr) => !wellFormed i && i.check == some .reservedField) = true := by decide +kernel

theorem test_refused_reserved_starter : [
   .nop (.starter ⟨0, 0, 0, 1⟩), .ld8 ⟨32, 4, 0, 8⟩, .ld16 ⟨32, 4, 0, 8⟩, .ld32 ⟨32, 4, 0, 8⟩, .ld64 ⟨32, 4, 0, 8⟩,
   .ldx8 ⟨32, 4, 0, 8⟩, .ldx16 ⟨32, 4, 0, 8⟩, .ldx32 ⟨32, 4, 0, 8⟩, .st8 ⟨1, 4, 5, 8⟩, .st16 ⟨1, 4, 5, 8⟩,
   .st32 ⟨1, 4, 5, 8⟩, .st64 ⟨1, 4, 5, 8⟩, .beq ⟨1, 4, 5, 8⟩, .bne ⟨1, 4, 5, 8⟩, .blt ⟨1, 4, 5, 8⟩,
   .bltn ⟨1, 4, 5, 8⟩, .bge ⟨1, 4, 5, 8⟩, .bgen ⟨1, 4, 5, 8⟩, .jal ⟨3, 1, 0, 8⟩, .jalr ⟨3, 4, 1, 8⟩,
   .fence ⟨0, 0, 0, 1⟩, .csrr ⟨3, 0, 0, 0xF⟩, .csrw ⟨1, 4, 0, 0xE⟩, .strEnd ⟨1, 4, 0, 0xD⟩, .emit ⟨0, 4, 5, 512⟩,
   .emitm ⟨0, 4, 5, 256⟩, .patch ⟨32, 4, 5, 1⟩, .segopen ⟨3, 4, 5, 1⟩, .segstrm ⟨3, 4, 5, 1⟩, .seal ⟨1, 4, 0, 0⟩,
   .segfree ⟨0, 4, 1, 0⟩, .ccfind ⟨3, 4, 5, 1⟩, .ccput ⟨1, 4, 5, 0⟩, .launch ⟨3, 4, 1, 0⟩, .greplay ⟨3, 4, 5, 257⟩,
   .release ⟨3, 4, 5, 256⟩, .starterGroupOp 0 0 ⟨3, 4, 5, 1⟩, .starterGroupOp 1 4 ⟨3, 4, 0, 64⟩].all
  (fun (i : Instr) => !wellFormed i && i.check == some .reservedField) = true := by decide +kernel

/-! ## States that meet the hypotheses of the statements -/

/-- A launch of one block of two groups with 32 granules, 256 KiB of scratch and a stack of 4 entries. -/
def tRec : LRec :=
  { lrecEmpty with blocks := 1, shape := 0x0480003F, args := [1, 2, 3, 4, 5, 6, 7, 8] }
def tRecProtect : LRec := { tRec with policy := 0x1000 }
def tLaunch (r : LRec) : Launch := { fetchLaunch with rec_ := r }
/-- Page tables: 2^48 maps to page 6, writable; the page behind it is swapped out, the next is not mapped. -/
def tMem : Store 8 :=
  [(0x1008, 0x01), (0x1009, 0x20), (0x2000, 0x01), (0x2001, 0x30), (0x3000, 0x01), (0x3001, 0x40), (0x4000, 0x01),
    (0x4001, 0x50), (0x5000, 0x47), (0x5001, 0x60), (0x5008, 0x10)]
/-- `v8` holds 16 times the lane, `v9` the lane, `v10` twice the lane's pair; `g5` is 2^48, `g6` and `g7` scratch
addresses, `g9` is 32; `m5` holds lanes 0 to 3, `m7` lane 0; `x1` has the base 2^48 and no bytes. -/
def tRegs : Regs :=
  { v := ((List.range 31).map (fun i => (32 * 8 + i + 1, BitVec.ofNat 32 (16 * (i + 1))))) ++
      ((List.range 31).map (fun i => (32 * 9 + i + 1, BitVec.ofNat 32 (i + 1)))) ++
      ((List.range 30).map (fun i => (32 * 10 + i + 2, BitVec.ofNat 32 ((i + 2) / 2 * 2))))
    g := [(5, 0x1000000000000), (6, 64), (7, 128), (9, 32), (10, 3), (11, 0x1000000002000), (12, 0x8000000000000)]
    m := [(5, 0xF), (6, 0x5), (7, 0x1)], gp := [(1, 1)], x := [(1, { XReg.start 0 with b := 0x1000000000000 })], fb := []
    fpflags := 0, srseed := 0, mxflags := 1 }
def tIss (slot : Nat) : Issuing := { fetchIssuing 0 with slot }
def tGroup (gi : Nat) : Group :=
  { Group.start tRec 0 0 0 { fetchSched with slot := gi, pipe := gi } with issuing := if gi = 0 then some (tIss 0) else none, regs := tRegs }
def tBlock : Block := { fetchBlock with slots := [(0, 0), (1, 0)] }
/-- READY, with the launch's block on core 0 and group 0 inside a clause. -/
def tState (r : LRec) (f : Group → Group) : State :=
  { State.reset with
    mem := tMem, host := { HostDie.reset with state := 2 }, launches := [(0, tLaunch r)], blocks := [(0, tBlock)]
    groups := [(0, f (tGroup 0)), (1, tGroup 1)], ctxs := [(0, { Ctx.reset with root := 1, en := true })]
    clusters := [(0, { Cluster.reset with
      descs := [(0, { fetchDesc 0 with refs := 1 })]
      ring := { Ring.reset with pool := 1000, newPool := 1000, bundle := 900, buckets := [(0, 50), (8, 50)] } })]
    cur := some (.grp fetchKey) }
/-- The word of group 0 that issues, after changes to the launch record, the group and the state. -/
def tWord (r : LRec) (f : Group → Group) (h : State → State) : GW :=
  { s := h (tState r f), key := fetchKey, g := f (tGroup 0), iss := tIss 0 }
/-- The plain case. -/
def tw : GW := tWord tRec id id
/-- Under PROTECT, with pairs that agree in `v10` and differ in `v8` and `v9`. -/
def twp : GW := tWord tRecProtect id id
def setG (r : Nat) (x : BitVec 64) (g : Group) : Group := { g with regs := { g.regs with g := Store.write g.regs.g r x } }

theorem tw_issues : tw.Issues := ⟨by decide +kernel, by decide +kernel, by decide +kernel⟩
theorem twp_issues : twp.Issues := ⟨by decide +kernel, by decide +kernel, by decide +kernel⟩
/-- Numbers, a zero, an infinity and a NaN; the values behind them. -/
theorem wit_FloatArithmetic_values : finite (fDecode 10 0x3F800000) ∧ 0 < val (fDecode 10 0x3F800000) ∧
    (finite (fDecode 10 0x80000000) ∧ val (fDecode 10 0x80000000) = 0 ∧ fNeg (fDecode 10 0x80000000) = true) ∧
    fDecode 10 0xFF800000 = .inf true ∧ fIsSNaN (fDecode 10 0x7F800001) = true ∧ fDecode 15 255 = .nan false := by
  have h1 : fDecode 10 0x3F800000 = .fin false 0x800000 (-23) := by decide
  have h2 : fDecode 10 0x80000000 = .fin true 0 (-149) := by decide
  rw [h1, h2]
  exact ⟨⟨_, _, _, rfl⟩, by norm_num [val, rat], ⟨⟨_, _, _, rfl⟩, by norm_num [val, rat], rfl⟩, by decide, by decide, by decide⟩
/-- A canonical code of each kind, and two neighbours with a value between them. -/
theorem wit_ConversionsAndPacks_ts8 : Canonical 0 ∧ Canonical 0x20 ∧ Canonical 0x23 ∧ Canonical 0x1C ∧ ¬Canonical 0x1A ∧
    ts8 0x1C < 0.9 ∧ (0.9 : ℝ) < ts8 0x10 ∧ finite (fDecode 14 0x1A) := by
  refine ⟨by unfold Canonical; decide, by unfold Canonical; decide, by unfold Canonical; decide, by unfold Canonical; decide,
    by unfold Canonical; decide, ?_, ?_, ⟨_, _, _, rfl⟩⟩ <;> norm_num [ts8, ts8Part, signed]
/-- Three float lanes for a sum in a group whose lane registers hold small integers. -/
theorem wit_TransfersAndReductions : tw.Issues ∧ PairsSame tw (tw.eff 5 0 &&& ~~~tw.helpers) (fun _ _ => True) ∧
    ((List.range 32).filter (fun l => (tw.eff 5 0).getLsbD l && !tw.helpers.getLsbD l && !(tw.protect && l % 2 == 1))) ≠ [] ∧
    (List.range 32).all (fun l => fIsNaN (tw.fval ⟨9, 8, 0, 0, 5, 0, 10, 0, 0⟩ 8 l) == false) = true :=
  ⟨tw_issues, fun _ h => absurd h.1 (by decide +kernel), by decide +kernel, by decide +kernel⟩
/-- A saturate bit on words that take none. -/
theorem wit_IntegerArithmetic_sat : let f (t : BitVec 5) : V3 := ⟨8, 8, 8, 0, 0, 0, t, 0, 1⟩
    (List.range 8).all (fun t => (Instr.vmin (f (BitVec.ofNat 5 t))).check == some .reservedField &&
      (Instr.vshl (f (BitVec.ofNat 5 t))).check == some .reservedField) = true := by decide +kernel


/-! ### Loads and stores -/

theorem allOk_of (w : GW) (rs : List LaneChk)
    (h : (visible w rs).all (fun r => match r.2.2 with | .ok _ _ => true | _ => false) = true) : AllOk w rs := by
  intro r hr
  have := List.all_eq_true.mp h r hr
  split at this
  · exact ⟨_, _, by assumption⟩
  · exact absurd this (by simp)
/-- A place of a check that passes. -/
def okAt (r : List LaneChk) : Option (BitVec 64 × Loc × Attr) :=
  match r with
  | [(0, a, .ok l t)] => some (a, l, t)
  | _ => none
theorem okAt_eq {r : List LaneChk} {a : BitVec 64} {l : Loc} {t : Attr} (h : okAt r = some (a, l, t)) :
    r = [(0, a, .ok l t)] := by
  unfold okAt at h
  split at h
  · simp_all
  · exact absurd h (by simp)

/-- Lanes of `v8` in scratch, in global memory by `x1`, a width of 4 bytes; lanes 0 to 3, or lane 0. -/
def fScr : M := ⟨12, 8, 0, 5, 2, 0, 0⟩
def fMem : M := ⟨12, 8, 1, 7, 2, 0, 0⟩
/-- The same with an address that is no multiple of 4. -/
def fOdd : M := ⟨12, 8, 0, 5, 2, 0, 2⟩

theorem wit_LaneAccessesIssue_loads : tw.Issues ∧ AllOk tw (laneRun tw 1 fScr false).2 ∧
    places tw (laneRun tw 1 fScr false).2 ≠ [] ∧ AllOk tw (laneRun tw 0 fMem false).2 ∧
    places tw (laneRun tw 0 fMem false).2 ≠ [] ∧ (laneRun tw 0 fMem false).1.g.tx = none ∧
    places tw (laneRun tw 1 { fScr with mask := 3 } false).2 = [] :=
  ⟨tw_issues, allOk_of _ _ (by decide +kernel), by decide +kernel, allOk_of _ _ (by decide +kernel), by decide +kernel,
    by decide +kernel, by decide +kernel⟩
theorem wit_LaneAccessesIssue_stores : let c := laneRun tw 0 fMem true
    PairsAgree tw 0 fMem ∧ AllOk tw c.2 ∧ c.1.g.tx = none ∧ places tw c.2 ≠ [] ∧
    c.1.s.wheyFull tw.key c.1.g (accLines (places tw c.2)) = false ∧ c.1.g.openTask.isSome = true :=
  ⟨by unfold PairsAgree; decide +kernel, allOk_of _ _ (by decide +kernel), by decide +kernel, by decide +kernel, by decide +kernel, by decide +kernel⟩
/-- The page of device registers, on which the group holds a store to the load's bytes of lane 0. -/
def twDev : GW := tWord tRec (fun g => { g with tasks := g.tasks.map (fun t => { t with
    devs := [(⟨0, .mem 0x6000, 0x1000000000000, ⟨true, false, true, 0⟩, 0x11223344⟩, 4)] }) })
  (fun s => { s with mem := Store.write s.mem 0x5001 0x64 })
theorem wit_LaneAccessesIssue_held : let c := laneRun twDev 0 fMem false
    twDev.Issues ∧ AllOk twDev c.2 ∧ (places twDev c.2).any (fun o => o.2.2.1 == .mem 0x6000 && o.2.2.2.dev) = true ∧
    c.1.g.heldByte 0x6001 = some 0x33 :=
  ⟨⟨by decide +kernel, by decide +kernel, by decide +kernel⟩, allOk_of _ _ (by decide +kernel), by decide +kernel, by decide +kernel⟩
theorem wit_LaneAccessTraps : ¬ PairsAgree twp 1 fScr ∧ twp.g.trap = none ∧
    (laneRun tw 1 fOdd true).1.g.trap = none ∧ PairsAgree tw 1 fOdd ∧
    ((visible tw (laneRun tw 1 fOdd true).2).find? (fun q => match q.2.2 with | .bad _ _ => true | _ => false)).any
      (fun q => match q.2.2 with | .bad c _ => c == Cause.align | _ => false) = true := by
  unfold PairsAgree; decide +kernel

/-- Lane 0 meets a page that is swapped out. Below, its page is the last below 2^49 and sound, and lane 2 meets a region that
is swapped out. -/
def fFar : M := ⟨12, 8, 1, 7, 2, 0, 4096⟩
def tEdge : GW := tWord tRec (fun g => { g with regs := { g.regs with x := [(1, { XReg.start 0 with b := 0x1FFFFFFFFFFE0 })] } })
  (fun s => { s with mem := [(0x1008, 0x01), (0x1009, 0x20), (0x1010, 0x10), (0x2FF8, 0x01), (0x2FF9, 0x30), (0x3FF8, 0x01),
    (0x3FF9, 0x40), (0x4FF8, 0x01), (0x4FF9, 0x50), (0x5FF8, 0x47), (0x5FF9, 0x60)] })
/-- The hypotheses of a word that parks, with as many lanes that perform as `n`. -/
def parks (w : GW) (f : M) (n : Nat) : Bool := [false, true].all (fun st =>
  let c := laneRun w 0 f st
  c.1.s.wheyFull w.key c.1.g (accLines (places w c.2)) == false && c.1.g.tx == none && c.1.g.park == none &&
    (visible w c.2).all (fun q => match q.2.2 with | .bad _ _ => false | _ => true) &&
    (visible w c.2).any (fun q => match q.2.2 with | .demand _ => true | _ => false) &&
    (places w c.2).length == n && (places w c.2).all (fun o => !o.2.2.2.dev))
theorem wit_LaneAccessTraps_park : PairsAgree tw 0 fFar ∧ parks tw fFar 0 = true ∧ PairsAgree tEdge 0 ⟨12, 8, 1, 6, 2, 0, 0⟩ ∧
    parks tEdge ⟨12, 8, 1, 6, 2, 0, 0⟩ 1 = true :=
  ⟨by unfold PairsAgree; decide +kernel, by decide +kernel, by unfold PairsAgree; decide +kernel, by decide +kernel⟩

def fG (r : BitVec 8) : M := ⟨12, r, 0, 0, 3, 0, 0⟩
theorem wit_GroupLoadsAndStoresIssue : tw.predBits 8 = false ∧ tw.predBits (fG 6).mask = true ∧
    okAt (tw.grpCheck 1 (tw.opdG 6) 8 false).2 = some (64, .scr 64, ⟨true, false, false, 0⟩) ∧
    okAt (tw.grpCheck 0 (tw.opdG 5) 8 true).2 = some (0x1000000000000, .mem 0x6000, ⟨true, false, false, 0⟩) ∧
    (let w := (tw.grpCheck 0 (tw.opdG 5) 8 true).1
     w.s.wheyFull w.key w.g (accLines [(0, 0x1000000000000, .mem 0x6000, ⟨true, false, false, 0⟩)]) = false) := by
  decide +kernel

/-- A load and a store in flight, to scratch and to memory. -/
def tOp (kind : MemKind) (l : Loc) : MemOp := ⟨0, kind, 12, 2, 0, [⟨3, l, 64, ⟨true, false, false, 0⟩, 0x12345678⟩], ~~~0, 0, 0, 0, 0xFFFFFFFF, none⟩
def tFly (r : LRec) (o : MemOp) : State := tState r (fun g => { g with memq := [o], nextId := 1 })
/-- The access may perform: nothing holds it back, with its peers. -/
def mayLoad (s : State) (o : MemOp) : Bool :=
  let a := o.accs.headD default
  match (s.ripen fetchKey).group fetchKey with
  | none => false
  | some g => Store.wf g.regs.v && g.memq.find? (fun p => p.id == o.id) == some o && decide (o.accs.map Acc.lane).Nodup &&
      o.accs.find? (fun b => b.lane == a.lane) == some a && decide (a.lane < 32) && (o.peers a).all (fun b => g.blocked o b == false) &&
      s.heldBack 0 o.issued == false
theorem wit_MemoryOperationsPerform : [tRec, tRecProtect].all (fun r => [Loc.scr 64, .vlt 64].all (fun l =>
      let o := tOp (.load false) l
      mayLoad (tFly r o) o && (tFly r o).poisoned l (szBytes o.size) == false)) = true ∧
    (tFly tRecProtect (tOp .store (.scr 64))).protect fetchKey = true := by decide +kernel
/-- From memory: the sector has an entry, and its data comes. -/
theorem wit_MemoryOperationsPerform_global : [tRec, tRecProtect].all (fun r =>
    let o := tOp (.load false) (.mem 0x6000)
    let a := o.accs.headD default
    let s := { tFly r o with cores := [(0, { Core.reset with misses := [(sectorOf 0x6000, ())] })] }
    mayLoad s o && o.peers a == [a] &&
      (match (s.ripen fetchKey).missEntry fetchKey o a, (s.ripen fetchKey).group fetchKey with
        | (s1, true), some g => (s1.loadAcc fetchKey g o a).2.2.2 == false &&
            decide ((s1.loadAcc fetchKey g o a).2.2.1 < 2 ^ (8 * szBytes o.size))
        | _, _ => false)) = true := by decide +kernel
/-- The returns of the other kinds: one of each stands in the queue, and its access may perform. -/
theorem wit_MemoryOperationsPerform_returns :
    [MemKind.word 7, .maskVal 3, .txstat, .gword, .gload].all (fun kd => [Loc.scr 64, .vlt 64].all (fun l =>
      let o := tOp kd l
      let a := o.accs.headD default
      (match ((tFly tRec o).ripen fetchKey).group fetchKey with
        | none => false
        | some g => Store.wf g.regs.g && Store.wf g.regs.m && Store.wf g.regs.v &&
            g.memq.find? (fun p => p.id == o.id) == some o && o.accs == [a] && g.blocked o a == false &&
            (g.tasks.takeWhile (fun t => t.tseq != o.tseq)).all (fun x => x.txend.isNone)) &&
        (tFly tRec o).heldBack 0 o.issued == false && (tFly tRec o).poisoned l (szBytes o.size) == false)) = true ∧
    (let o := tOp .gload (.mem 0x6000)
     let s := { tFly tRec o with cores := [(0, { Core.reset with misses := [(sectorOf 0x6000, ())] })] }
     match (s.ripen fetchKey).missEntry fetchKey o (o.accs.headD default), (s.ripen fetchKey).group fetchKey with
      | (s1, true), some g => (s1.loadAcc fetchKey g o (o.accs.headD default)).2.2.2 == false
      | _, _ => false) = true := by decide +kernel
theorem wit_MemoryOperationsPerform_store : [Loc.scr 64, .vlt 64, .mem 0x6000].all (fun l =>
    let o := tOp .store l
    let a := o.accs.headD default
    match (tFly tRec o).group fetchKey with
    | none => false
    | some g => Store.wf (tFly tRec o).mem && Store.wf (tFly tRec o).scr && Store.wf (tFly tRec o).vlt &&
        o.accs.find? (fun b => b.lane == a.lane) == some a && g.blocked o a == false && (tFly tRec o).heldBack 0 o.issued == false &&
          g.tasks.any (fun b => b.tseq == o.tseq)) =
      true := by decide +kernel

/-- Two pages in wait, and a fault queue with room, or of 16 places with none. -/
def tWait (tail : BitVec 16) : State :=
  (tState tRec id).setCtx 0 { (tState tRec id).ctx 0 with
    waiting := [(0x1000000001, 0, 0, 0), (0x1000000003, 1, 0, 0)], fqBase := 0x20, fqTail := tail }
def tInval : State := (tState tRec id).setCtx 0 { (tState tRec id).ctx 0 with invals := [⟨7, 0x1000000000000, 4096, true⟩] }
theorem wit_TranslationAndPrefetch : (tw.s.xlatBase tw.ctx (.core tw.core) (tw.opdG 5) 600).2.isLeft = true ∧
    tw.opdG 0 = 0 ∧ canonical (tw.opdG 5) = true ∧ canonical (tw.opdG 12) = true ∧
    (((tFly tRec (tOp (.xlat 2 (XReg.start 0)) (.scr 0))).ripen fetchKey).group fetchKey).isSome = true ∧
    ((tInval.ctx 0).invals.find? (fun j => j.id == 7)).isSome = true ∧
    tInval.keys.all (fun k => ((tInval.group k).map Group.pendingAccs).getD [] == []) = true ∧
    ((tWait 0).ctx 0).waiting ≠ [] ∧ Store.wf (tWait 0).mem = true ∧
    (((tWait 0).ctx 0).fqTail.toNat + 1) % 16 ≠ ((tWait 0).ctx 0).fqHead.toNat % 16 ∧
    (((tWait 15).ctx 0).fqTail.toNat + 1) % 16 = ((tWait 15).ctx 0).fqHead.toNat % 16 := by decide +kernel

/-- SpecialFunctions: f32 inputs of each kind: NaN, infinity, zero, negative, whole and fractional quarter turns, near 1. -/
theorem wit_SpecialFunctions : (fIsNaN (fDecode 10 0x7FC00000) = true ∧ fDecode 10 0xFF800000 = .inf true) ∧
    (finite (fDecode 10 0x80000000) ∧ val (fDecode 10 0x80000000) = 0) ∧
    (finite (fDecode 10 0xBF800000) ∧ val (fDecode 10 0xBF800000) < 0) ∧
    (finite (fDecode 10 0x3E800000) ∧ 4 * val (fDecode 10 0x3E800000) = ((1 : ℤ) : ℝ)) ∧
    (finite (fDecode 10 0x3F000000) ∧ 1 / 2 ≤ val (fDecode 10 0x3F000000) ∧ val (fDecode 10 0x3F000000) ≤ 2) ∧
    (finite (fDecode 10 0x3E000000) ∧ 0 < val (fDecode 10 0x3E000000) ∧
      ∀ q : ℤ, 4 * val (fDecode 10 0x3E000000) ≠ q) := by
  have h1 : fDecode 10 0x80000000 = .fin true 0 (-149) := by decide
  have h2 : fDecode 10 0xBF800000 = .fin true 0x800000 (-23) := by decide
  have h3 : fDecode 10 0x3E800000 = .fin false 0x800000 (-25) := by decide
  have h4 : fDecode 10 0x3F000000 = .fin false 0x800000 (-24) := by decide
  have h5 : fDecode 10 0x3E000000 = .fin false 0x800000 (-26) := by decide
  rw [h1, h2, h3, h4, h5]
  refine ⟨⟨by decide, by decide⟩, ⟨⟨_, _, _, rfl⟩, by norm_num [val, rat]⟩, ⟨⟨_, _, _, rfl⟩, by norm_num [val, rat]⟩,
    ⟨⟨_, _, _, rfl⟩, by norm_num [val, rat]⟩, ⟨⟨_, _, _, rfl⟩, by norm_num [val, rat], by norm_num [val, rat]⟩,
    ⟨_, _, _, rfl⟩, by norm_num [val, rat], fun q h => ?_⟩
  have h6 : (4 : ℝ) * val (.fin false 0x800000 (-26)) = 1 / 2 := by norm_num [val, rat]
  rw [h6] at h
  have h7 : (1 : ℤ) = 2 * q := by exact_mod_cast (by linarith : (1 : ℝ) = 2 * q)
  omega


/-- IntegerArithmetic; LogicShiftsAndBitfields; MultiplyAndDivide; FloatArithmetic; ConversionsAndPacks; LaneMovement;
MasksGroupArithmeticAndPredicates: a word issues, without and with PROTECT, in an integer type. -/
theorem wit_register_words : tw.Issues ∧ IntType ⟨4, 8, 9, 0, 0, 0, 2, 0, 0⟩ ∧ tw.protect = false ∧ twp.Issues ∧
    twp.protect = true ∧ tw.predV3 ⟨4, 8, 9, 0, 0, 0, 2, 0, 0⟩ = true ∧ tw.predV3 ⟨4, 8, 9, 0, 0, 1, 2, 0, 0⟩ = false ∧
    tw.predBits 0 = true ∧ tw.predBits 8 = false :=
  ⟨tw_issues, Nat.lt_of_sub_eq_succ rfl, by decide +kernel, twp_issues, by decide +kernel, by decide +kernel, by decide +kernel, by decide +kernel, by decide +kernel⟩

/-- IntegerCompare, ImmediateForms, FloatMinMaxAndCompare, MasksGroupArithmeticAndPredicates: pairs that agree, and pairs that do not. -/
theorem wit_pairs : PairsSame tw (~~~0) (fun l m => tw.opd1 9 l = tw.opd1 9 m) ∧
    PairsSame twp (~~~0) (fun l m => twp.opd1 10 l = twp.opd1 10 m) ∧
    PairDiffers twp (~~~0) (fun l m => twp.opd1 9 l = twp.opd1 9 m) 3 :=
  ⟨fun _ h => absurd h.1 (by decide +kernel),
   fun i h => h.2.2.2 ⟨by
     have : ∀ i : Fin 16, ((~~~0 : Mask).getLsbD (2 * i) = (~~~0 : Mask).getLsbD (2 * i + 1)) := by decide
     exact this ⟨i, h.2.1⟩, by
     have : ∀ i : Fin 16, twp.opd1 10 (2 * i) = twp.opd1 10 (2 * i + 1) := by decide +kernel
     exact this ⟨i, h.2.1⟩⟩,
   ⟨by decide +kernel, by decide, by decide, fun h => absurd h.2 (by decide +kernel)⟩⟩

/-- IntegerCompare: a result for `m0`, and one that leaves a lane of `m5`. -/
theorem wit_mask_land : (⟨.m 0, 1, [1], 0⟩ : Pend).dest = .m 0 ∧ Store.wf tRegs.m = true ∧
    (⟨.m 5, 1, [1], 0⟩ : Pend).lanes.getLsbD 1 = false := by decide

/-- FloatMinMaxAndCompare: f32 operands for each case. -/
theorem wit_float_order : let d := fDecode 10
    fIsSNaN (d 0x7F800001) = true ∧ fIsSNaN (d 0x7FC00000) = false ∧ fIsNaN (d 0x7FC00000) = true ∧
    fIsNaN (d 0x3F800000) = false ∧ below (d 0xFF800000) (d 0x3F800000) ∧ below (d 0x3F800000) (d 0x7F800000) ∧
    alike (d 0x80000000) (d 0) ∧ fNeg (d 0x80000000) = true ∧ fNeg (d 0) = false := by
  have h1 : fDecode 10 0x3F800000 = .fin false 8388608 (-23) := by decide +kernel
  have h2 : fDecode 10 0x80000000 = .fin true 0 (-149) := by decide +kernel
  have h3 : fDecode 10 0 = .fin false 0 (-149) := by decide +kernel
  have h4 : fDecode 10 0xFF800000 = .inf true := by decide +kernel
  have h5 : fDecode 10 0x7F800000 = .inf false := by decide +kernel
  refine ⟨by decide +kernel, by decide +kernel, by decide +kernel, by decide +kernel, ?_, ?_, ?_, by decide +kernel, by decide +kernel⟩
  · rw [h1, h4]; rfl
  · rw [h1, h5]; rfl
  · rw [h2, h3]; simp [alike, below, rat, fIsNaN]

/-- TransfersAndReductions: both halves of a `g` register, a lane within the visible ones, floating types, and sets S with
and without a signalling NaN. -/
theorem wit_reductions : ((⟨4, 8, 0, 0, 0, 0, 10, 0, 0⟩ : V3).c = 0) ∧ ((⟨4, 8, 0, 1, 0, 0, 10, 0, 0⟩ : V3).c = 1) ∧
    twp.opd1 10 6 = twp.opd1 10 7 ∧ twp.opd1 9 6 ≠ twp.opd1 9 7 ∧
    tw.eff 5 0 = 0xF ∧ tw.eff 5 0 &&& ~~~tw.helpers ≠ 0 ∧ tw.eff 0 1 = 0 ∧
    fIsNaN (fDecode 10 0) = false := by decide +kernel

/-- TransfersAndReductions: an only lane that holds a signalling NaN, or a quiet one. -/
def tNan (x : BitVec 32) : GW :=
  tWord tRec (fun g => { g with regs := { g.regs with v := [(32 * 12, x)], m := [(5, 1)] } }) id
theorem wit_reductions_nan : (tNan 0x7F800001).eff 5 0 = 1 ∧
    fIsSNaN ((tNan 0x7F800001).fval ⟨4, 12, 0, 0, 5, 0, 10, 0, 0⟩ 12 0) = true ∧
    fIsSNaN ((tNan 0x7FC00000).fval ⟨4, 12, 0, 0, 5, 0, 10, 0, 0⟩ 12 0) = false ∧
    fIsNaN ((tNan 0x7FC00000).fval ⟨4, 12, 0, 0, 5, 0, 10, 0, 0⟩ 12 0) = true := by decide +kernel

/-! ### Copies, batches, the matrix unit, the Harp engine -/

/-- A copy of 32 bytes from scratch 128 to scratch 64; the same to an address above scratch. -/
def fCpy : X := ⟨6, 7, 9, 0, 0, 5⟩
def fCpyBad : X := ⟨5, 7, 9, 0, 0, 5⟩
def tCopy (f : X) : Copy :=
  { id := tw.g.nextId, key := tw.key, ctx := tw.ctx, fn := 0, dst := tw.opdG f.f1, src := tw.opdG f.f2, count := (tw.opdG f.f3).toNat, nrow := 1
    dpitch := 0, spitch := 0, opts := f.imm, bar := none, waits := none, started := false, aside := [], pieces := []
    stopped := false, wait := none, word := tw.at_ }
theorem tCopy_is (f : X) (h : copyArv f.imm = false) : CopyIs tw 0 f (tCopy f) :=
  ⟨⟨rfl, rfl, rfl, rfl, rfl⟩, ⟨rfl, rfl, rfl⟩, fun _ => ⟨rfl, rfl, rfl⟩, fun h => absurd h (by omega),
    ⟨fun h => absurd h (by simp [tCopy]), fun h' => absurd h' (by simp [h])⟩, ⟨rfl, rfl, rfl, rfl, rfl⟩⟩
theorem wit_Copies_issue : CopyIs tw 0 fCpy (tCopy fCpy) ∧ tw.copyBad (tCopy fCpy) (copyBar tw 0 fCpy) = none ∧
    CopyIs tw 0 fCpyBad (tCopy fCpyBad) ∧ tw.g.trap = none ∧
    tw.copyBad (tCopy fCpyBad) (copyBar tw 0 fCpyBad) = some (Cause.range, Kind.scratch) :=
  ⟨tCopy_is _ (by decide), by decide +kernel, tCopy_is _ (by decide), by decide +kernel, by decide +kernel⟩

/-- Copies in the queue of core 0: one that waits to start, one that moves, one that is done, and one that is stopped. -/
def tQueue (cs : List Copy) : State := { tState tRec id with cores := [(0, { Core.reset with copies := cs })] }
def tMoving : Copy := { tCopy fCpy with started := true }
theorem wit_Copies_run :
    ((tQueue [tCopy fCpy]).group tw.key).all (fun g => g.committed none && g.localDone 0) = true ∧
    tMoving.piece 0 = some (0, 0, 32) ∧ tMoving.overlapped 0 = false ∧ copySsp tMoving.opts = 1 ∧ copyDsp tMoving.opts = 1 ∧
    (List.range 33).all (fun n => n = 0 || (match (tQueue [tMoving]).scratchRange tMoving.key 128 n, (tQueue [tMoving]).scratchRange tMoving.key 64 n with
      | .ok l _, .ok k _ => l = .scr 128 && k = .scr 64
      | _, _ => false)) = true ∧ ((tQueue [tMoving]).core 0).copies[0]? = some tMoving ∧
    Store.wf (tQueue [tMoving]).mem = true ∧ { tMoving with pieces := [(0, 32)] }.allDone = true := by decide +kernel

/-- A step of each member, from scratch to scratch and to global memory, finds its source and its place. -/
theorem wit_Copies_pieces : [(0, (5 : BitVec 14), (64 : BitVec 64)), (0, 4, 0x1000000000000), (2, 5, 64), (3, 5, 64), (4, 5, 64)].all (fun q =>
    let c : Copy := { tMoving with fn := q.1, opts := q.2.1, dst := q.2.2 }
    let s := tQueue [c]
    let u := copyUnit c.fn c.opts
    (s.core 0).copies[0]? == some c && c.piece 0 == some (0, 0, 32) && !c.overlapped 0 &&
      c.dst.toNat % u == 0 && c.src.toNat % u == 0 && c.count % u == 0 &&
      (List.range 32).all (fun m =>
        (match (if c.fn = 2 then (s, .inl []) else State.copyRead (m + 2) s c.key c.ctx (.core 0) (copySsp c.opts) c.src (m + 1) 100) with
          | (s1, .inl _) => (match s1.copyPlace c.key c.ctx (.core 0) (copyDsp c.opts) c.dst (m + 1) true 50 with
              | (_, .ok l _) => l == (if q.2.2 = 64 then .scr 64 else .mem 0x6000)
              | _ => false)
          | _ => false))) = true := by decide +kernel

/-- Byte-count words: register 6 holds a barrier's address, 9 a count, 12 one of 2^48 and more. -/
def fBar : X := ⟨14, 6, 9, 0, 0, 0⟩
def tBars (e : Eff) (scr : Store 8) : State :=
  { tState tRec (fun g => { g with effq := [e] }) with scr }
theorem wit_BatchesAndByteCounts : tw.Issues ∧
    okAt [(0, 0, tw.s.barAddr tw.key 1 (tw.opdG 6))] = some (0, .scr 64, ⟨true, false, false, 0⟩) ∧
    (tw.opdG 9).toNat < 2 ^ 48 ∧ 2 ^ 48 ≤ (tw.opdG 12).toNat ∧ tw.g.trap = none ∧
    ((tBars (.bcArrive 0 (.scr 64) 32) []).group tw.key).any (fun g => bcNext g.effq == [0]) = true ∧
    ((tBars (.bcArrive 0 (.scr 64) 32) []).readBar (.scr 64)).arrived + 32 < 2 ^ 48 ∧
    ((tBars (.bcPost 0 (.scr 64) 32) []).readBar (.scr 64)).posted = false ∧
    ((tBars (.bcPost 0 (.scr 64) 32) []).group tw.key).isSome = true ∧
    bcNext [.bcPost 0 (.scr 64) 3, .bcInit 0 (.scr 64), .bcArrive 1 (.scr 64) 3] = [0, 2] ∧
    Store.wf (tBars (.bcInit 0 (.scr 64)) []).mem = true := by
  refine ⟨tw_issues, ?_⟩
  decide +kernel

/-- A team of the block's two groups, in team register 0. -/
def tTeam : Team :=
  { list := 0x200000020, launch := 0, block := 0, broken := false, ac := [], rc := 0, outl := [], held := [], matched := false }
def tTeams (t : Team) (s : State) : State := { s with cores := [(0, { Core.reset with tms := [(0, t)] })] }
def twTeam (t : Team) : GW := tWord tRec (setG 13 0x200000020) (tTeams t)
theorem wit_TeamsAndArrivals : (twTeam tTeam).Issues ∧ teamListOk (tw.opdG 0) 2 = false ∧
    teamListOk ((twTeam tTeam).opdG 13) ((twTeam tTeam).s.lrec 0).groups = true ∧ tw.team 0 = none ∧
    (twTeam tTeam).team 0 = some tTeam ∧ (twTeam tTeam).teamNow 0 = some (tTeam, 0) ∧ tTeam.owned tw.key = true ∧ { tTeam with block := 1 }.owned tw.key = false ∧
    Tbl.sorted ((twTeam tTeam).s.core 0).tms = true ∧ tw.g.trap = none ∧ (twTeam tTeam).teamOk 0 = some (tTeam, 0) ∧
    (twTeam { tTeam with broken := true }).teamOk 0 = none ∧ ((twTeam tTeam).opdG 10).toNat ≤ 32 ∧
    ((twTeam tTeam).opdG 0).toNat = 0 ∧ 32 < ((twTeam tTeam).opdG 12).toNat ∧ Tbl.sorted tTeam.outl = true ∧
    (twTeam { tTeam with outl := [(0, ⟨3, 8⟩)] }).teamOk 0 = some ({ tTeam with outl := [(0, ⟨3, 8⟩)] }, 0) := by
  refine ⟨⟨?_, ?_, ?_⟩, ?_⟩ <;> decide +kernel

/-- An arrival behind a `tmclr` of the cycle before: the team it may still find, and an empty register. -/
theorem wit_TeamsAndArrivals_late : let w := tWord tRec id (fun s => { s with cores := [(0, { Core.reset with tmOld := [(0, (some tTeam, 2))] })] })
    w.Issues ∧ w.teamNow 0 = none ∧ Tbl.find (w.s.core w.core).tmOld 0 = some (some tTeam, 2) ∧ w.g.clk < 2 ∧
    (tTeam.member w.key).isSome = true :=
  ⟨⟨by decide +kernel, by decide +kernel, by decide +kernel⟩, by decide +kernel⟩

def tArr (m : Nat) (fn : BitVec 8) : Arrival := ⟨m, 1, fn, 16, 8, 12, 0, none, m, ⟨0, 0, 0, 0, 0, 0⟩⟩
def tMet (a b : BitVec 8) : Team := { tTeam with held := [tArr 0 a, tArr 1 b] }
/-- A team met in the same function, in two, and one whose operation waits for its tokens. -/
theorem wit_Rendezvous_latch :
    [tMet 2 2, tMet 2 3].all (fun t => t.held.filter (fun a => a.num == t.rc + 1) == t.held && teamCount t.list == 2) = true ∧
    ((tTeams { tMet 2 2 with matched := true } (tState tRec id)).takeTokens 0 0 4 (tMet 2 2).charge 0).isSome = true := by
  decide +kernel
/-- The oldest matched operation of core 0, in int8 (type 4), before it runs and with its results waiting. -/
def tOp0 (ran : Bool) : MxOp := ⟨0, 0, 0, 0x200000020, 1, [tArr 0 4, tArr 1 4], ran, if ran then [0, 0] else []⟩
def tMatched (ran : Bool) : State :=
  let s := tState tRec (fun g => { g with issuing := none })
  let p (g : Group) : Group := { g with pend := if ran then mxPends 16 (fun i n => BitVec.ofNat 32 (i + n)) else [] }
  { s with
    cores := [(0, { Core.reset with matched := [.team (tOp0 ran)] })]
    groups := s.groups.map (fun x => (x.1, p x.2)) }
theorem wit_Rendezvous_operation : [false, true].all (fun r => let o := tOp0 r
      ((tMatched r).core 0).matched == [.team o] && o.ran == r &&
      o.arrs.find? (fun a => a.member == 0) == some (tArr 0 4) && decide (o.arrs.map o.key).Nodup &&
      (!r || o.flags.length == o.arrs.length) &&
      o.arrs.all (fun a => ((tMatched r).group (o.key a)).any (fun g => g.badRegs == [] && Store.wf g.regs.v &&
        (!r || g.pend.filter (fun p => p.due == mxDue) == mxPends a.c (fun i n => BitVec.ofNat 32 (i + n)))))) = true := by
  decide +kernel

/-- Each input type, with one outlier pending: a member and its lead with sound registers. -/
theorem wit_MatrixElements : [0, 1, 2, 3, 4, 5, 6, 7].all (fun t =>
    let v : MxView := ⟨t, 0, tGroup 0, { tArr 0 (BitVec.ofNat 8 t) with outl := some ⟨1, 9⟩ }, some (tGroup 0), tArr 0 (BitVec.ofNat 8 t)⟩
    mxTypes[v.ty]?.isSome && v.grp.badRegs == [] && v.lead == some (tGroup 0) && (tGroup 0).badRegs == []) = true := by decide +kernel

/-- A record of a pass over one vertex with one layer of one output and no edges: row pointers at vault 0, the output row
at vault 64, an arrival of 4 bytes at the barrier in scratch 64 if asked for. -/
def tRec256 (ctl : Nat) (out : Nat := 64) : List Byte :=
  natLE 40 0 ++ natLE 8 out ++ natLE 8 64 ++ natLE 4 1 ++ natLE 16 0 ++ natLE 2 1 ++ natLE 4 0 ++ natLE 2 ctl ++ natLE 12 0 ++
    natLE 16 0 ++ natLE 2 1 ++ natLE 142 0
def tPass : Pass :=
  { id := 0, key := fetchKey, ctx := 0, core := 0, recAddr := 0x1000000000000, first := 0, count := 1, waits := none, started := false, rec_ := none
    rows := [], bought := 0, begun := 0, lost := [], damaged := [], dying := false, flags := 0, halted := false, wait := none, word := ⟨0, 0, 0, 0, 0, 0⟩ }
/-- The engine of cluster 0 with one pass. -/
def tHarp (p : Pass) (edges : Nat) : State :=
  let s := tState tRec id
  { (s.setCluster 0 { s.cluster 0 with harp := [p], vltScr := 1 }) with
    mem := Store.putBytes tMem 0x6000 (tRec256 0x4401), vlt := Store.putBytes [] 4 (natLE 4 edges) }
def tRun (ctl : Nat) (out : Nat := 64) : Pass := { tPass with started := true, rec_ := some (recOf (tRec256 ctl out)) }

theorem wit_HarpPasses_issue : let w := tWord tRec (setG 14 0x1000000000080) id
    (w.opdG 9).toNat < 2 ^ 32 ∧ canonical (w.opdG 5) = true ∧ (w.opdG 5).toNat % 256 = 0 ∧ (w.opdG 14).toNat % 256 ≠ 0 ∧
    canonical (w.opdG 14) = true ∧ 2 ^ 32 ≤ (w.opdG 5).toNat ∧ w.g.trap = none := by decide +kernel
theorem wit_HarpPasses_start : let s := tHarp tPass 0
    s.headPass 0 = some tPass ∧ Store.wf s.mem = true ∧ Store.wf s.vlt = true ∧
    (s.group tPass.key).all (fun g => g.committed none && g.localDone 0) = true ∧
    (match State.copyRead 2 s tPass.key tPass.ctx (.chiplet 0) 0 tPass.recAddr 256 200 with
      | (s1, .inl bs) => s1.headPass 0 == some tPass && bs.map (fun b => b.1) == tRec256 0x4401 &&
          s1.recBad tPass.key tPass (recOf (bs.map (fun b => b.1))) == none
      | _ => false) = true := by decide +kernel
theorem wit_HarpPasses_tile : ((tHarp (tRun 0x4401) 1).nextTile 0).any
    (fun p => p.1 == tRun 0x4401 && ((tHarp (tRun 0x4401) 1).takeTokens 0 8 0 p.2.2 0).isSome) = true := by decide +kernel
/-- A vertex without edges, its row in the vault; the same in memory with an arrival. -/
def tRow (ctl out : Nat) : HRun × List Byte × State × (List (Loc × List Byte) ⊕ HStop) :=
  let p := tRun ctl out
  let r := recOf (tRec256 ctl out)
  let h1 := HRun.rowPtr ((tHarp p 0).harpRun 0 p) p.key r p.first
  let h2 := h1.1.rowPtr p.key r 0
  let h3 := h2.1.rowPtr p.key r 1
  let h4 := h3.1.vertex p.key r 0 h2.2 h3.2
  let w := State.rowPlaces 5 h4.1.s p.key 0 p.ctx (r.spc 5) (rowAddr r.obase r.opitch 0) h4.2.1
  (if h1.2 = 0 ∧ h2.2 = 0 ∧ h3.2 = 0 ∧ h3.1.bad.isNone = true then h4.1 else { h4.1 with bad := some (.page 0 false) }, h4.2.1, w.1, w.2)
theorem wit_HarpPasses_row : [(0x4401, 64, Loc.vlt 64), (0x0481, 0x1000000000800, .mem 0x6800)].all (fun q =>
    match tRow q.1 q.2.1 with
    | (h, bs, s1, .inl ws) => h.bad.isNone && h.damaged == [] && bs == [0, 0, 0, 0] && ws == [(q.2.2, bs)] &&
        (let r := recOf (tRec256 q.1 q.2.1)
         r.arv == (q.1 == 0x0481) && (!r.arv || okAt [(0, 0, s1.barFor fetchKey 0 r.bsp r.baraddr)] ==
           some (0, .scr 64, ⟨true, false, false, 0⟩)))
    | _ => false) = true := by decide +kernel
/-- A vertex whose edge's tile operation has been bought and has run; one that still stands in a matrix unit. -/
theorem wit_HarpPasses_tiles : let p : Pass := { tRun 0x4401 with bought := 1 }
    let r := recOf (tRec256 0x4401)
    r.opsTo 0 1 ≤ p.bought ∧ (tHarp p 1).tilesOut 0 p (r.opsTo 0 1) = false ∧
    ((tHarp p 1).setCore 3 { Core.reset with matched := [.tile p.key p.id 0] }).tilesOut 0 p (r.opsTo 0 1) = true := by
  decide +kernel
/-- A pass of a killed gang: its second vertex stays, its first, begun, does not. -/
theorem wit_HarpPasses_dying : let p : Pass := { tRun 0x4401 with count := 2, begun := 1, dying := true }
    (tHarp p 0).headPass 0 = some p ∧ p.halted = false ∧ p.wait = none ∧ p.stays 0 = false ∧ p.stays 1 = true := by decide +kernel
/-- A row in memory of a pass of a killed gang, whose arrival is at scratch. -/
theorem wit_HarpPasses_freed : let p : Pass := { tRun 0x0481 0x1000000000800 with begun := 1, dying := true }
    (tHarp p 0).headPass 0 = some p ∧ p.stays 0 = false ∧ (p.rec_.any (fun r => r.arv && r.bsp == 1)) = true := by decide +kernel
theorem wit_HarpPasses_end : let p : Pass := { tRun 0x4401 with rows := [(0, ())] }
    p.started = true ∧ p.rows.length = p.count ∧ Tbl.find tPass.rows 0 = none := by decide +kernel

/-! ### Atomics, reductions, transactions -/

/-- Four bytes for lanes 0 and 1 by `v8` in scratch, and for lane 0 in global memory, in the words' fields. -/
def fAtom (space : BitVec 2) : X := ⟨12, 8, 6, if space = 0 then 1 else 0, 8 + space.setWidth 8, 0⟩
/-- Lane 0 alone is active. -/
def twOne : GW :=
  let i : Issuing := { tIss 0 with act := 1, m := 1 }
  let g (x : Group) : Group := { x with issuing := some i }
  { s := tState tRec g, key := fetchKey, g := g (tGroup 0), iss := i }
theorem twOne_issues : twOne.Issues := ⟨by decide +kernel, by decide +kernel, by decide +kernel⟩
theorem wit_Atomics_issue : twOne.atomDiffs (fAtom 1) true = [] ∧ AllOk twOne (twOne.atomChecks (fAtom 1)).2 ∧
    places twOne (twOne.atomChecks (fAtom 1)).2 ≠ [] ∧ (fAtom 1).scope < 2 ∧ twOne.g.openTask.isSome = true ∧
    AllOk twOne (twOne.atomChecks (fAtom 0)).2 ∧ places twOne (twOne.atomChecks (fAtom 0)).2 ≠ [] :=
  ⟨by decide +kernel, allOk_of _ _ (by decide +kernel), by decide +kernel, by decide +kernel, by decide +kernel,
    allOk_of _ _ (by decide +kernel), by decide +kernel⟩
/-- The same with the scopes of a gang, a chiplet, the package and the system: its checks do not look at the scope. -/
theorem wit_Atomics_scope : [2, 3, 4, 5].all (fun n => let f := { fAtom 0 with f5 := (fAtom 0).f5 + 32 * BitVec.ofNat 8 n }
    let c := twOne.atomChecks f
    f.scope == n && twOne.atomDiffs f true == [] && places twOne c.2 != [] &&
      (visible twOne c.2).all (fun r => match r.2.2 with | .ok _ _ => true | _ => false)) = true := by decide +kernel
/-- The last lane of an addition of 5 to the four bytes at scratch 64. -/
def tAtom : Atomic := ⟨0, 0, 2, 0, 12, [(⟨0, .scr 64, 64, ⟨true, false, false, 0⟩, 5⟩, 0)], 0, ~~~0, 0⟩
theorem wit_Atomics_perform : [tRec, tRecProtect].all (fun r =>
    let s := tState r (fun g => { g with effq := [.atomic tAtom] })
    Store.wf s.mem && Store.wf s.scr && Store.wf s.vlt && s.poisonScr == [] &&
      ((s.ripen fetchKey).group fetchKey).any (fun g => Store.wf g.regs.v && g.effq == [.atomic tAtom])) = true := by decide +kernel
/-- The addition in f32 in scratch; both at the page of global memory, of scope `.grp` and `.gng`. -/
theorem wit_Atomics_places : [(0, Loc.scr 64, 0), (10, .scr 64, 0), (0, .mem 0x6000, 0), (10, .mem 0x6000, 2)].all (fun q =>
    let a : Atomic := { tAtom with fn := q.1, scope := q.2.2, accs := tAtom.accs.map (fun x => ({ x.1 with loc := q.2.1 }, x.2)) }
    let s := tState tRec (fun g => { g with effq := [.atomic a] })
    s.cores == [] && Tbl.sorted s.cores && s.poisonMem == [] && s.heldBack (s.coreOf fetchKey) a.issued == false &&
      Store.wf s.mem && Store.wf s.scr && Store.wf s.vlt &&
      ((s.ripen fetchKey).group fetchKey).any (fun g => Store.wf g.regs.v && g.effq == [.atomic a])) = true ∧ szBytes 2 ∣ 0x6000 := by decide +kernel
/-- A task that holds one update of global memory: of a page without SA, with it, and with a barrier in the vault. -/
theorem wit_MemoryReductions_commit : [(false, none), (true, none), (false, some (Loc.vlt 64))].all (fun q => [0, 8].all (fun m =>
    let r : Red := ⟨m, 2, 3, ⟨0, .mem 0x6000, 0x1000000000000, ⟨true, false, q.1, 0⟩, 5⟩, q.2⟩
    let s := tState tRec (fun g => { g with tasks := g.tasks.map (fun t => { t with closed := true, reds := [r] }), issuing := none })
    s.cores == [] && (s.ctx (s.lctx 0)).preq == false &&
      (s.group fetchKey).any (fun g => !g.saveWanted && !g.ended && (match g.tasks with
        | x :: _ => s.commitReady fetchKey g x && x.txend.isNone && x.reds == [r] && x.ver == [] && x.effs == [] &&
            x.devs == [] && x.marks == [] && !x.save
        | [] => false)) &&
      decide ((s.readBar (.vlt 64)).arrived + 4 < 2 ^ 48))) = true := by decide +kernel
theorem wit_MemoryReductions_issue : twOne.atomDiffs (fAtom 1) false = [] ∧
    okAt [(0, 0, (twOne.atomChecks (fAtom 1)).1.s.barAddr twOne.key 1 ((twOne.atomChecks (fAtom 1)).1.opdG 6))] =
      some (0, .scr 64, ⟨true, false, false, 0⟩) ∧
    [0, 1].all (fun n => let c := twOne.atomChecks (fAtom n)
      c.1.s.wheyFull twOne.key c.1.g (accLines (places twOne c.2)) == false && c.1.g.openTask.isSome) = true := by decide +kernel
/-- The same reduction with a barrier at scratch 96. -/
theorem wit_MemoryReductions_barrier : let o := tOp (.red 0 (some (.scr 96))) (.scr 64)
    ((tFly tRec o).group fetchKey).any (fun g => g.memq.find? (fun p => p.id == o.id) == some o &&
      g.blocked o (o.accs.headD default) == false) = true ∧ 64 + szBytes o.size ≤ 96 ∧
    ((tFly tRec o).readBar (.scr 96)).arrived + szBytes o.size < 2 ^ 48 := by decide +kernel
theorem wit_MemoryReductions_perform : let o := tOp (.red 0 none) (.scr 64)
    ((tFly tRec o).group fetchKey).any (fun g => g.memq.find? (fun p => p.id == o.id) == some o &&
      g.blocked o (o.accs.headD default) == false && (tFly tRec o).heldBack 0 o.issued == false) = true ∧ Store.wf (tFly tRec o).mem = true ∧
    (o.accs.headD default).val.toNat < 2 ^ (8 * szBytes o.size) := by decide +kernel

def tTx (depth : Nat) : Tx := ⟨0, depth, [⟨0, [], [], none⟩, ⟨1, [], [], some 8⟩]⟩
def twTx (depth : Nat) : GW := tWord tRec (fun g => { g with tx := some (tTx depth) }) id
/-- Without a transaction, in one, in a nested one and in one eight deep; lane 1 is not in the mask `m7`. -/
theorem wit_Transactions : tw.g.tx = none ∧ [1, 2, 8].all (fun n => (twTx n).g.tx == some (tTx n) &&
      (twTx n).s.cur == some (.grp (twTx n).key) && (twTx n).s.group (twTx n).key == some (twTx n).g &&
      (twTx n).g.issuing == some (twTx n).iss && (twTx n).g.openTask.isSome) = true ∧
    ((twTx 1).eff 7 0).getLsbD 0 = true ∧ ((twTx 1).eff 7 0).getLsbD 1 = false := by decide +kernel

/-! ### Waits and barriers, control flow -/

/-- A wait on the word at 2^48 for a value that it has (register 0) and for one that differs (register 9). -/
theorem wit_WaitsAndBarriers_waitw : [(⟨0, 5, 0, 0, 0, 2⟩ : X), ⟨0, 5, 9, 0, 0, 2⟩].map (fun f =>
    match tw.grpCheck 0 (tw.opdG f.f2) 4 false with
    | (w', [(0, va, .ok l t)]) =>
      (match w'.s.monitorRead ⟨0, l, va, t, 0⟩ 2 with
        | (_, v, false) => !t.dev && (v.toNat % 2 ^ 32 == (tw.opdG f.f3).toNat % 2 ^ 32)
        | _ => false, true)
    | _ => (false, false)) = [(true, true), (false, true)] := by decide +kernel
def tHold : Hold := .waitw ⟨0, .mem 0x6000, 0x1000000000000, ⟨true, false, false, 0⟩, 0⟩ 2 32
theorem wit_WaitsAndBarriers_wake : let s := tState tRec (fun g => { g with holds := [⟨tHold, ⟨0, 0, 0, 0, 0, 0⟩, 0⟩] })
    (match s.monitorRead ⟨0, .mem 0x6000, 0x1000000000000, ⟨true, false, false, 0⟩, 0⟩ 2 with
      | (_, v, false) => decide (v.toNat % 2 ^ 32 ≠ 32)
      | _ => false) = true ∧ (s.group fetchKey).any (fun g => !g.saved && g.holds == [⟨tHold, ⟨0, 0, 0, 0, 0, 0⟩, 0⟩]) = true := by decide +kernel
/-- Group 0 arrives at block barrier 3 before group 1, and after it. -/
theorem wit_WaitsAndBarriers_barrier :
    [([], true), ([GKey.num ⟨0, 0, 1⟩], false)].all (fun q =>
      let s := tState tRec (fun g => { g with effq := [.bar false 3 0 0] })
      let s := { s with blocks := [(0, { tBlock with bars := if q.2 then [] else [(3, ⟨0, q.1, []⟩)] })] }
      (s.bar fetchKey false 3).arrived == q.1 && (s.bar fetchKey false 3).next == [] &&
        ((s.block (GKey.bkey fetchKey)).map Block.st == some .live) && (s.group ⟨0, 0, 1⟩).isSome &&
        (q.2 || (s.blockGroups 0 0).all (fun k => !s.away k && (k == fetchKey || q.1.contains (GKey.num k))))) = true := by decide +kernel

/-- A branch of lanes by `m5` to 8 headers ahead, under token 3, from header 0 on slot 0, where lane pairs agree. -/
def fBra (m : BitVec 4) : B := ⟨m, 0, 0, 0, 3, 8⟩
def tPath : Path := ⟨0, 0xFFFFFFFF, 0⟩
theorem wit_ControlWords : tw.g.ctl.slot 0 = some tPath ∧ (tw.s.segOf tw.key).kind ≠ .stream ∧
    controlRows.all (fun r => (r.2.1 (tw.s.stk tw.key tw.g.q) (ctlWord tw tPath (fBra 5)) tw.g.ctl).any
      (fun x => x.pushed == [])) = true ∧
    PairsSame tw tPath.m (fun l m => (tw.cond (fBra 5)).getLsbD l = (tw.cond (fBra 5)).getLsbD m) ∧
    twp.g.ctl.slot 0 = some tPath ∧
    PairDiffers twp tPath.m (fun l m => (twp.cond (fBra 7)).getLsbD l = (twp.cond (fBra 7)).getLsbD m) 0 :=
  ⟨by decide +kernel, by decide +kernel, by decide +kernel, fun _ h => absurd h.1 (by decide +kernel), by decide +kernel,
    ⟨by decide +kernel, by decide, by decide, fun h => absurd h.2 (by decide +kernel)⟩⟩
/-- A branch whose new path finds both slots taken: at a boundary depth of 0 the entry is written, at one of 1 held. -/
theorem wit_ControlWords_push : [0, 1].all (fun d =>
    let c (g : Group) : Ctl := { g.ctl with slot1 := some ⟨40, 0, 9⟩ }
    let w := tWord tRec (fun g => { g with ctl := c g, tasks := g.tasks.map (fun t =>
      { t with snap := { t.snap with ctl := { t.snap.ctl with depth := d } } }) }) id
    w.g.ctl.slot 0 == some tPath && Tbl.sorted w.g.ctl.held && w.g.pushWaits 0 == false && w.g.openTask.isSome &&
      Store.wf w.s.mem && Store.wf w.s.scr && Store.wf w.s.vlt &&
      (ctlBra (w.s.stk w.key w.g.q) (ctlWord w tPath (fBra 5)) w.g.ctl).any (fun x => x.pushed == [0])) = true := by decide +kernel
/-- A streaming segment of 4 positions: the target 8 headers ahead lies outside its window. -/
theorem wit_ControlWords_stream : let w := tWord tRec id (fun s => s.setCluster 0 { s.cluster 0 with
      descs := [(0, { fetchDesc 0 with refs := 1, kind := .stream, len := 4 })] })
    Outside w (ctlWord w tPath (fBra 5)) ∧ tPath.m &&& (ctlWord w tPath (fBra 5)).cond ≠ 0 ∧ w.g.trap = none := by
  unfold Outside; decide +kernel
/-- A record table without room: a branch whose lanes differ overflows. -/
def tFull : Ctl := { (tGroup 0).ctl with recs := (List.range 16).map (fun i => ⟨BitVec.ofNat 11 (i + 100), false, ~~~0, 0, 0, none, 0⟩) }
theorem wit_ControlWords_overflow : let w := tWord tRec (fun g => { g with ctl := tFull }) id
    ctlBra (w.s.stk w.key w.g.q) (ctlWord w tPath (fBra 5)) w.g.ctl = none ∧ w.g.trap = none := by decide +kernel

def tCW (p : Path) (cond : Mask) : CW := { i := 0, p, next := 2, tgt := 8, tok := 3, cond }
def tCtl (p : Path) (recs : List Rec) : Ctl := { slot0 := some p, slot1 := none, exited := 0, recs, depth := 0, held := [], last := 0 }
theorem tPlain (p : Path) (cond : Mask) (recs : List Rec) (h : ∀ r ∈ recs, r.arr ≠ r.exp ∧ r.exp ≠ 0) (n : recs.length < 16) :
    Plain (tCW p cond) (tCtl p recs) := ⟨.inl ⟨rfl, rfl, rfl⟩, rfl, h, n⟩
/-- Branches: no lane, every lane, some lanes; joins: of no record, before the last path, and the last. -/
theorem wit_BranchesAndJoins : let p : Path := ⟨0, 0xF, 3⟩
    let r : Rec := ⟨3, false, 0xFF, 0, 0, none, 0⟩
    Plain (tCW p 0) (tCtl p []) ∧ Plain (tCW p 0xF) (tCtl p []) ∧ Plain (tCW p 3) (tCtl p [r]) ∧ (tCW p 3).tgt ≠ (tCW p 3).next ∧
    p.m &&& (0 : Mask) = 0 ∧ p.m &&& ~~~(0xF : Mask) = 0 ∧ p.m &&& (3 : Mask) ≠ 0 ∧ p.m &&& ~~~(3 : Mask) ≠ 0 ∧
    (tCW ⟨0, 0xF, 5⟩ 0).p.t ≠ (tCW p 3).tok ∧ r.exp &&& p.m = p.m ∧ r.arr ||| p.m ≠ r.exp ∧
    Plain (tCW p 3) (tCtl p [{ r with arr := 0xF0 }]) ∧ (0xF0 : Mask) ||| p.m = r.exp := by
  refine ⟨tPlain _ _ _ (by decide) (by decide), tPlain _ _ _ (by decide) (by decide), tPlain _ _ _ (by decide) (by decide), ?_⟩
  refine ⟨by decide, by decide, by decide, by decide, by decide, by decide, by decide, by decide, tPlain _ _ _ (by decide) (by decide), by decide⟩
/-- `break` and `cont` of two of four lanes; a call; the return of its lanes; an exit. -/
theorem wit_CallsBreaksAndExits : let p : Path := ⟨0, 0xF, 3⟩
    let r : Rec := ⟨3, true, 0xF, 0, 0, some 20, 0⟩
    Plain (tCW p 3) (tCtl p [r]) ∧ Plain (tCW p 0xF) (tCtl p [r]) ∧ Plain (tCW p 0xF) (tCtl p []) ∧ p.m &&& ~~~(3 : Mask) ≠ 0 ∧
    p.m &&& (3 : Mask) ≠ 0 ∧ r.arr ||| (p.m &&& 3) ≠ r.exp ∧ r.exp &&& p.m = p.m ∧ r.arr &&& p.m = 0 ∧ p.m &&& (0xF : Mask) = p.m := by
  refine ⟨tPlain _ _ _ (by decide) (by decide), tPlain _ _ _ (by decide) (by decide), tPlain _ _ _ (by decide) (by decide), ?_⟩
  decide
/-- An exit of two of the four lanes of a path, whose one record expects all four. -/
theorem wit_CallsBreaksAndExits_exit : let p : Path := ⟨0, 0xF, 3⟩
    let r : Rec := ⟨3, false, 0xF, 0, 0, none, 0⟩
    Plain (tCW p 3) (tCtl p [r]) ∧ p.t ≠ 0 ∧ r.tok = p.t ∧ r.pt = 0 ∧ r.exp &&& p.m = p.m ∧ p.m &&& ~~~(3 : Mask) ≠ 0 ∧
    r.arr ≠ r.exp &&& ~~~(p.m &&& 3) := by
  refine ⟨tPlain _ _ _ (by decide) (by decide), ?_⟩
  decide

/-! ### Task control, special registers, Affinage and power words -/

theorem wit_TaskAndSystemWords : (tw.s.ctx tw.ctx).dbgen = false ∧ tw.eff 5 0 &&& ~~~tw.helpers ≠ 0 ∧
    (let w := tWord tRec (fun g => { g with regs := { g.regs with m := [] } }) id
     w.eff 5 0 &&& ~~~w.helpers = 0) ∧ tw.g.trap = none ∧ tw.g.openTask.isSome = true ∧
    (let w := tWord tRec id (fun s => s.setCtx 0 { s.ctx 0 with dbgen := true })
     (w.s.ctx w.ctx).dbgen = true ∧ w.s.cur = some (.grp w.key) ∧ w.s.group w.key = some w.g ∧ w.g.issuing = some w.iss) := by
  decide +kernel
/-- SpecialRegistersAffinageAndPower: the word issues, predicated true and false, with nothing pending. -/
theorem wit_SpecialRegistersAffinageAndPower : tw.Issues ∧ tw.predBits 0 = true ∧ tw.predBits 8 = false ∧ tw.g.pend = [] ∧
    ((tw.eff 5 0).getLsbD 0 = true) ∧ (⟨12, 0, 0, 0x11⟩ : VI).imm.toNat < 4096 := by
  refine ⟨tw_issues, ?_⟩
  decide +kernel

/-! ### The Starter -/

/-- Context 0 of cluster 0: `s1` holds the handle of its open segment 1, `s2` a word, `s3` a length, `s4` a mask, `s5` an
address in memory, `s6` one that is no multiple of 8, `s7` (0) the handle of the sealed segment 0. -/
def tCtx : SCtx :=
  { SCtx.reset with
    launch := some 0, pc := 0x1000000000800, refs := [(0, 2), (1, 1)]
    s := [(1, 1), (2, 0x123456789), (3, 64), (4, 0xFF), (5, 0x1000000000000), (6, 0x1000000000001)] }
/-- An open segment of 64 words whose first `e` words are a header and a word of its clause. -/
def tOpen (e : Nat) : Desc :=
  { Desc.reset with
    used := true, mask := 1, offset := 32, len := 64, e, owner := some 0, refs := 1
    words := [(0, ⟨0xF800000000000000, 0, false⟩), (1, ⟨0x0400242404000200, 0, false⟩)] }
def tStr (e : Nat) (f : Cluster → Cluster) : State :=
  let s := tState tRec id
  let c := s.cluster 0
  { s with
    cur := some (.str 0 0)
    clusters := [(0, f { c with sctx := [(0, tCtx)], descs := [(0, { fetchDesc 0 with refs := 2 }), (1, tOpen e)] })] }
def tsw (e : Nat) (f : Cluster → Cluster) : SW := ⟨tStr e f, 0, 0, tCtx⟩
theorem tsw_runs : (tsw 2 id).Runs ∧ Store.wf (tsw 2 id).c.s = true := ⟨⟨by decide +kernel, by decide +kernel⟩, by decide +kernel⟩

/-- StarterArithmetic and StarterControl: the context runs, with registers in order and no launch waiting for it. -/
theorem wit_StarterControl : (tsw 2 id).Runs ∧ Store.wf (tsw 2 id).c.s = true ∧ ((tsw 2 id).s.cluster 0).unbound = [] :=
  ⟨tsw_runs.1, tsw_runs.2, by decide +kernel⟩
/-- Loads and stores at `s5`; an access at `s6` is misaligned. -/
theorem wit_StarterLoadsAndStores : let w := tsw 2 id
    [1, 2, 4, 8].all (fun n =>
      (match w.s.strRead w.ctx w.ch (w.rd 5) n 4000 with
        | (s', .ok bs) => bs.length == n && Store.wf (ctxAt w s').s
        | _ => false) &&
      (match w.s.strCheck w.ctx w.ch (w.rd 5) n true 4000 with
        | (s', .ok (.mem key) a) => key == 0x6000 && !a.dev && a.rnode == 0 && Store.wf s'.mem && Store.wf s'.scr && Store.wf s'.vlt
        | _ => false) && (n == 1 || decide ((w.rd 6).toNat % n ≠ 0))) = true := by decide +kernel

theorem pickOne_only (n d : Nat) : pickOne n [d] = some d := by simp [pickOne, Nat.mod_one]
/-- Cluster 0 with every descriptor in use but number 31, each with an empty run; and with every one in use. -/
def tUsed (n : Nat) (c : Cluster) : Cluster :=
  { c with descs := (List.range n).map (fun d => (d, { Desc.reset with used := true, mask := 1, offset := 0, len := 0 })) }
theorem wit_Segments_open : (∃ d o, (tsw 2 (tUsed 31)).s.segRoom 64 0 0xFF 64 = some ((tsw 2 (tUsed 31)).s, d, o) ∧ d < 32) ∧
    (tsw 2 (tUsed 32)).s.segRoom 64 0 0xFF 64 = none ∧ ((tsw 2 id).rd 4).toNat = (((tsw 2 id).rd 4).setWidth 8).toNat ∧
    ((tsw 2 id).rd 3).toNat = 64 := by
  refine ⟨?_, by decide +kernel, by decide +kernel, by decide +kernel⟩
  have h : (List.range 32).filter (fun d => !(((tsw 2 (tUsed 31)).s.cluster 0).desc d).used) = [31] := by decide +kernel
  have h0 : ((tsw 2 (tUsed 31)).s.cluster 0).fits 0xFF 0 64 = true := by decide +kernel
  unfold State.segRoom Cluster.room
  rw [h, pickOne_only]
  simp only [Option.bind_some, List.find?_cons, h0]
  cases ((tsw 2 (tUsed 31)).s.cluster 0).fits 0xFF ((Config.free (tsw 2 (tUsed 31)).s.now 67).toNat % 16384) 64
  · exact ⟨31, 0, rfl, by decide⟩
  · exact ⟨31, (Config.free (tsw 2 (tUsed 31)).s.now 67).toNat % 16384, rfl, by decide⟩
theorem wit_Segments_emit : let w := tsw 2 id
    w.own (w.rd 1) = some (1, tOpen 2) ∧ outside (coresOf 0 (tOpen 2)) (tOpen 2).mask = false ∧ (tOpen 2).kind = .static ∧
    (tOpen 2).e < (tOpen 2).len ∧ (w.rd 5).toNat % 8 = 0 ∧ w.c.part = 0 ∧
    (match w.s.strRead w.ctx w.ch (w.rd 5) 8 4200 with
      | (s1, .ok _) => s1.desc 0 1 == tOpen 2 && ctxAt w s1 == w.c
      | _ => false) = true ∧ (w.rd 0 + 1).toNat < (tOpen 2).e ∧ (Tbl.find (tOpen 2).words 1).isSome = true ∧
    w.own (w.rd 7) = none := by decide +kernel
theorem wit_SealFreeCacheRelease : let w := tsw 2 id
    (tOpen 2).sealBad = none ∧ (tOpen 1).sealBad = some (0, 0) ∧ (tsw 1 id).own ((tsw 1 id).rd 1) = some (1, tOpen 1) ∧
    w.cluster.named (w.rd 7) = some (0, { fetchDesc 0 with refs := 2 }) ∧ Tbl.find w.c.refs 0 = some 2 ∧
    w.cluster.cc.find? (fun p => w.keyIs (w.rd 5) (w.rd 4) p.2) = none ∧ w.cluster.cc = [] ∧
    (let v := tsw 2 (fun c => { c with cc := [(0, ⟨0, 0, 0, 0x123456789, 0xFF, 0, 0⟩)] })
     (v.cluster.cc.find? (fun p => v.keyIs (v.rd 2) (v.rd 4) p.2)).isSome = true) ∧
    Tbl.sorted w.s.blocks = true := by decide +kernel
/-- A block that core 0 holds and that has not been released. -/
theorem wit_SealFreeCacheRelease_release : let s := { tStr 2 id with blocks := [(0, { tBlock with st := .held })] }
    s.blocks.filter (fun b => b.1 / 2 ^ 32 == 0 && b.2.st == BlockSt.held && clusterOf b.2.core == 0 &&
      (coresOf 0 (fetchDesc 0)).getLsbD (b.2.core % 8)) ≠ [] ∧ outside (coresOf 0 (fetchDesc 0)) (fetchDesc 0).mask = false ∧
    Tbl.sorted s.blocks = true := by decide +kernel

theorem wit_ChildLaunches_launch : let w := tsw 2 id
    (w.rd 5).toNat % 128 = 0 ∧ w.cluster.children.length < 16 ∧
    (match w.s.strRead w.ctx w.ch (w.rd 5) 128 4000 with
      | (s1, .ok _) => s1.cluster 0 == w.cluster
      | _ => false) = true ∧ (w.rd 6).toNat % 128 ≠ 0 ∧
    16 ≤ (tsw 2 (fun c => { c with children := List.range 16 })).cluster.children.length ∧ (w.rd 6).toNat % 64 ≠ 0 := by
  decide +kernel

/-- A context that runs a word that does not decode, at a page without X; one held back at an emit. -/
theorem wit_StarterEvents : let s := tStr 2 id
    s.strRuns 0 0 = true ∧
    (match s.strFetch 0 0 with
      | (_, .word w) => strReject w == some Reject.illegalZero
      | _ => false) = true ∧
    (let s := { s with ctxs := [] }
     s.strRuns 0 0 = true ∧ (match s.strFetch 0 0 with
      | (_, .fault _ _) => true
      | _ => false) = true) ∧ s.launch 0 = some (tLaunch tRec) ∧ (tLaunch tRec).ended = none ∧ (s.cluster 0).unbound = [] := by
  decide +kernel
/-- The groups of the block stand at position 64 of a stream of 64 words that is full, and the context at an `emit`. -/
noncomputable def tDead : State :=
  let s := tStr 2 (fun c => { c with descs := [(1, { tOpen 64 with kind := .stream })] })
  let g (x : Group) : Group := { x with issuing := none, ctl := { x.ctl with slot0 := some ⟨64, ~~~0, 0⟩ } }
  { s with
    mem := Store.putBytes tMem 0x6800 (natLE 8 (encode (.emit ⟨0, 1, 2, 0⟩)).toNat)
    blocks := [(0, { tBlock with seg := 1 })], groups := [(0, g (tGroup 0)), (1, g (tGroup 1))] }
theorem wit_StarterEvents_deadlock : tDead.strRuns 0 0 = true ∧ (tDead.strPrep 0 0).2 = true ∧ (tDead.starter 0 0).dlcyc ≠ 0 ∧ tDead.emitHeld 0 0 = some 1 ∧
    (tDead.holders 0 1).all (fun g => tDead.starved 0 0 g.1 g.2) = true ∧ (tDead.holders 0 1).length = 2 := by decide +kernel

/-! ### A graph replay: accesses whose course the walker's caches (R92) do not change -/

/-- Answers that hold whether or not a cached entry is used. -/
def entryS (s : State) (ctx ch lvl : Nat) (va : BitVec 64) (tbl : BitVec 52) : Option (State × Option (BitVec 64)) :=
  let n := (va.extractLsb' 0 57).toNat / 2 ^ (12 + 9 * (lvl - 1))
  let r := s.homeRead (tbl.toNat + 8 * (n % 512)) 8
  let m : State × Option (BitVec 64) := (r.1, some (BitVec.ofNat 64 (leNat r.2)))
  if s.paKind tbl = .dram then
    match (s.chiplet ch).cachedEntry ctx lvl n with
    | none => some m
    | some e => if m = (s, some e) then some m else none
  else none
theorem entryS_eq {s : State} {ctx ch lvl : Nat} {va : BitVec 64} {tbl : BitVec 52} {r : State × Option (BitVec 64)} (k : Nat)
    (h : entryS s ctx ch lvl va tbl = some r) : s.tableEntry ctx ch lvl va tbl k false = r := by
  unfold entryS at h
  unfold State.tableEntry
  dsimp only at h ⊢
  split at h
  · rename_i hd
    split at h
    · rename_i hc
      simp_all
    · rename_i e hc
      split at h
      · rename_i hm
        cases hk : s.coin (k + lvl) <;> simp_all
      · exact absurd h (by simp)
  · exact absurd h (by simp)
def walkS (lvl : Nat) (s : State) (ctx ch : Nat) (va : BitVec 64) (tbl : BitVec 52) : Option (State × Tlb) :=
  match lvl with
  | 0 => none
  | n + 1 =>
    match entryS s ctx ch (n + 1) va tbl with
    | some (s, some e) =>
      let key := tbl.toNat + 8 * ((va.extractLsb' 0 57).toNat / 2 ^ (12 + 9 * n) % 512)
      if !e.getLsbD 0 || e.getLsbD 8 || e.getLsbD 5 then none
      else if n = 0 then some (s, leafUnit ctx 1 va e key)
      else if e.getLsbD 3 then none
      else walkS n (s.cacheEntry ctx ch (n + 1) va e) ctx ch va (BitVec.ofNat 52 ((e.extractLsb' 12 40).toNat * 4096))
    | _ => none
theorem walkS_eq {lvl : Nat} : ∀ {s : State} {ctx ch : Nat} {va : BitVec 64} {tbl : BitVec 52} {r : State × Tlb} (k : Nat),
    walkS lvl s ctx ch va tbl = some r → walk lvl s ctx ch va tbl k false = (r.1, .ok r.2) := by
  induction lvl with
  | zero => intro s ctx ch va tbl r k h; exact absurd h (by simp [walkS])
  | succ n ih =>
    intro s ctx ch va tbl r k h
    unfold walkS at h
    split at h
    · rename_i s2 e he
      unfold walk
      rw [entryS_eq k he]
      dsimp only at h ⊢
      split at h
      · exact absurd h (by simp)
      · rename_i h1
        simp only [Bool.or_eq_true, Bool.not_eq_true', not_or, Bool.not_eq_false, Bool.not_eq_true] at h1
        simp only [h1.1.1, h1.1.2, h1.2, Bool.not_true, Bool.or_false, Bool.false_eq_true, if_false]
        split at h
        · rename_i hn
          rw [if_pos hn]
          cases h; rfl
        · rename_i hn
          rw [if_neg hn]
          split at h
          · exact absurd h (by simp)
          · rename_i h3
            rw [if_neg h3]
            exact ih k h
    · exact absurd h (by simp)
def useS (s : State) (ch : Nat) (t : Tlb) : State × Tlb :=
  if t.acc then (s, t)
  else
    let s := s.orEntry t.leaf 0x40
    let t' := { t with acc := true }
    let c := s.chiplet ch
    (s.setChiplet ch { c with tlb := c.tlb.map (fun x => if x = t then t' else x) }, t')
theorem useS_eq (s : State) (ch : Nat) (t : Tlb) :
    s.tlbUse (.chiplet ch) .access t = ((useS s ch t).1, .ok (useS s ch t).2) := by
  unfold State.tlbUse useS
  cases h : t.acc <;> simp [State.tlbL1, Asker.ch]
def xlateS (s : State) (ctx ch : Nat) (va : BitVec 64) : Option (State × Tlb) :=
  if !canonical va || !(s.ctx ctx).en then none
  else
    match walkS 5 s ctx ch va ((s.ctx ctx).root ++ (0 : BitVec 12)) with
    | none => none
    | some (s1, t) =>
      let c := s1.chiplet ch
      let r := useS (s1.setChiplet ch { c with tlb := tlbPut t 16384 c.tlb }) ch t
      match (s.chiplet ch).tlb.find? (fun t => t.covers ctx va) with
      | none => some r
      | some u => if r = useS s ch u then some r else none
theorem xlateS_eq {s : State} {ctx ch : Nat} {va : BitVec 64} {r : State × Tlb} (k : Nat) (h : xlateS s ctx ch va = some r) :
    s.xlate ctx (.chiplet ch) va k .access = (r.1, .ok r.2) := by
  unfold xlateS at h
  split at h
  · exact absurd h (by simp)
  · rename_i h1
    simp only [Bool.or_eq_true, Bool.not_eq_true', not_or, Bool.not_eq_false] at h1
    split at h
    · exact absurd h (by simp)
    · rename_i s1 t hw
      have hr : (XFor.access == XFor.register) = false := rfl
      unfold State.xlate
      simp only [h1.1, h1.2, Bool.not_true, Bool.false_eq_true, if_false, hr, Bool.false_and, Bool.not_false, Bool.and_true,
        Asker.ch, useS_eq]
      rw [walkS_eq k hw]
      dsimp only at h ⊢
      split at h
      · rename_i hf
        rw [hf]
        cases h; rfl
      · rename_i u hf
        rw [hf]
        split at h
        · rename_i he
          cases h
          cases s.coin (k + 6)
          · rfl
          · rw [he]
        · exact absurd h (by simp)
/-- The place of an access of a Starter context, and the bytes it reads there. -/
def placeS (s : State) (c ch : Nat) (va : BitVec 64) (n : Nat) (st : Bool) : Option (State × Loc × Attr) :=
  if va.toNat % n ≠ 0 || !canonical va then none
  else
    match xlateS s c ch va with
    | some (s, t) =>
      match s.place c (t.pa + (va - t.va).setWidth 52) t.attr n st t.leaf with
      | (s, .ok l a) => some (s, l, a)
      | _ => none
    | none => none
theorem placeS_eq {s : State} {c ch : Nat} {va : BitVec 64} {n : Nat} {st : Bool} {r : State × Loc × Attr} (k : Nat)
    (h : placeS s c ch va n st = some r) : s.strCheck c ch va n st k = (r.1, .ok r.2.1 r.2.2) := by
  unfold placeS at h
  split at h
  · exact absurd h (by simp)
  · rename_i h1
    simp only [ne_eq, Bool.or_eq_true, decide_eq_true_eq, Bool.not_eq_true', not_or, not_not, Bool.not_eq_false] at h1
    split at h
    · rename_i s1 t hx
      unfold State.strCheck State.accessVa
      simp only [h1.1, h1.2, ne_eq, not_true_eq_false, Bool.not_true, Bool.false_eq_true, if_false, xlateS_eq k hx]
      split at h
      · rename_i hp
        cases h
        exact hp
      · exact absurd h (by simp)
    · exact absurd h (by simp)
def readS (s : State) (c ch : Nat) (va : BitVec 64) (n : Nat) : Option (State × List Byte) :=
  (placeS s c ch va n false).bind (fun r =>
    match r.1.strBytes r.2.1 r.2.2 n with
    | (s, .ok bs) => some (s, bs)
    | _ => none)
theorem readS_eq {s : State} {c ch : Nat} {va : BitVec 64} {n : Nat} {r : State × List Byte} (k : Nat)
    (h : readS s c ch va n = some r) : s.strRead c ch va n k = (r.1, .ok r.2) := by
  unfold readS at h
  cases hp : placeS s c ch va n false with
  | none => rw [hp] at h; exact absurd h (by simp)
  | some p =>
    rw [hp] at h
    unfold State.strRead
    rw [placeS_eq k hp]
    simp only [Option.bind_some] at h ⊢
    split at h
    · rename_i hb
      cases h
      exact hb
    · exact absurd h (by simp)
def placesS (bs : List Byte) (w : SW) (s : State) (va : BitVec 64) : Option (State × List (Loc × Attr × Byte)) :=
  match bs with
  | [] => some (s, [])
  | b :: r =>
    match placeS s w.ctx w.ch va 1 true with
    | some (s, l, a) => (placesS r w s (va + 1)).map (fun q => (q.1, (l, a, b) :: q.2))
    | none => none
theorem placesS_eq {bs : List Byte} {w : SW} : ∀ {s : State} {va : BitVec 64} {r : State × List (Loc × Attr × Byte)} (k : Nat),
    placesS bs w s va = some r → checkPlaces bs w s va k = some r := by
  induction bs with
  | nil => intro s va r k h; exact h
  | cons b t ih =>
    intro s va r k h
    unfold placesS at h
    split at h
    · rename_i s1 l a hp
      unfold checkPlaces
      rw [placeS_eq k hp]
      dsimp only
      cases hq : placesS t w s1 (va + 1) with
      | none => rw [hq] at h; exact absurd h (by simp)
      | some q =>
        rw [hq] at h
        rw [ih (k + 16) hq]
        exact h
    · exact absurd h (by simp)
theorem some_getD {α : Type} {x : Option α} (d : α) (h : x.isSome = true) : x = some (x.getD d) := by cases x <;> simp_all

/-- A graph object at 2^48 with a parameter block of 8 bytes behind it, one slot and one record. -/
def tGraph : State :=
  let s := tStr 2 id
  { s with mem := Store.putBytes tMem 0x6000 (natLE 8 0x1000000000100 ++ natLE 4 8 ++ natLE 4 1 ++ natLE 8 0x1000000000300 ++
      natLE 8 0x1000000000200 ++ natLE 4 1 ++ natLE 4 7) }
def tgw : SW := ⟨tGraph, 0, 0, tCtx⟩
def tG1 : State × List Byte := (readS tGraph 0 0 0x1000000000000 64).getD (tGraph, [])
def tG3 : State × List Byte := (readS tG1.1 0 0 0x1000000000100 8).getD (tGraph, [])
def tG4 : State × List (Loc × Attr × Byte) := (placesS tG3.2 tgw tG3.1 0x1000000000200).getD (tGraph, [])
def tG5 : State × List (Loc × Attr × Byte) := (placesS (natLE 4 8) tgw tG4.1 0x1000000000024).getD (tGraph, [])
theorem wit_ChildLaunches_replay : let ob := tG1.2
    tgw.Runs ∧ (tgw.rd 5).toNat % 64 = 0 ∧ tgw.s.strRead tgw.ctx tgw.ch (tgw.rd 5) 64 4000 = (tG1.1, .ok ob) ∧ graphOk ob = true ∧
    readWords (2 * 0) tgw tG1.1 (tgw.rd 0) 4200 = some (tG1.1, []) ∧
    readWords (recBytesAt ob 8 4 / 8) tgw tG1.1 (BitVec.ofNat 64 (recBytesAt ob 0 8)) 16384 = some tG3 ∧
    patchAll 0 tG3.2 [] = some tG3.2 ∧
    pickOne (Config.free tG3.1.now 69).toNat ((List.range (recBytesAt ob 32 4)).filter (fun i =>
      !((Tbl.find tG3.1.graphs (tgw.ctx * 2 ^ 64 + (tgw.rd 5).toNat)).getD []).any (fun r => r.slot == i))) = some 0 ∧
    checkPlaces tG3.2 tgw tG3.1 (BitVec.ofNat 64 (recBytesAt ob 24 8 + 0 * recBytesAt ob 8 4)) 32768 = some tG4 ∧
    checkPlaces (natLE 4 (recBytesAt ob 36 4 + 1)) tgw tG4.1 (tgw.rd 5 + 36) 131072 = some tG5 ∧ ctxAt tgw tG5.1 = tgw.c := by
  have h1 : readS tGraph 0 0 0x1000000000000 64 = some tG1 := some_getD _ (by decide +kernel)
  have h3 : readS tG1.1 0 0 0x1000000000100 8 = some tG3 := some_getD _ (by decide +kernel)
  have h4 : placesS tG3.2 tgw tG3.1 0x1000000000200 = some tG4 := some_getD _ (by decide +kernel)
  have h5 : placesS (natLE 4 8) tgw tG4.1 0x1000000000024 = some tG5 := some_getD _ (by decide +kernel)
  have e1 : recBytesAt tG1.2 8 4 = 8 ∧ recBytesAt tG1.2 0 8 = 0x1000000000100 ∧ recBytesAt tG1.2 32 4 = 1 ∧
    recBytesAt tG1.2 24 8 = 0x1000000000200 ∧ recBytesAt tG1.2 36 4 = 7 := by decide +kernel
  have e2 : tgw.ctx = 0 ∧ tgw.ch = 0 ∧ tgw.rd 5 = 0x1000000000000 := by decide +kernel
  have e3 : (List.range 1).filter (fun i =>
      !((Tbl.find tG3.1.graphs (0 * 2 ^ 64 + (0x1000000000000 : BitVec 64).toNat)).getD []).any (fun r => r.slot == i)) = [0] := by
    decide +kernel
  dsimp only
  rw [e1.1, e1.2.1, e1.2.2.1, e1.2.2.2.1, e1.2.2.2.2, e2.1, e2.2.1, e2.2.2, e3]
  refine ⟨⟨by decide +kernel, by decide +kernel⟩, by decide, readS_eq 4000 h1, by decide +kernel, rfl, ?_, rfl, pickOne_only _ 0,
    placesS_eq _ h4, placesS_eq _ h5, by decide +kernel⟩
  have h := readS_eq 16384 h3
  simp only [Nat.reduceDiv, readWords, e2.1, e2.2.1]
  rw [show BitVec.ofNat 64 281474976710912 = (0x1000000000100 : BitVec 64) from rfl, h]
  simp

/-! ### Clauses and tasks -/

/-- ClauseSelection: a clause that nothing holds back, one that waits for its loads, and one of a wrong price. -/
theorem wit_ClauseSelection : let h : Hdr := ⟨0, 0, 0, 0, 0, 0, 0, 0, 0⟩
    let at_ (w : GW) (h : Hdr) : GW := { w with iss := { w.iss with hdr := h } }
    let v := tWord tRec (fun g => { g with memq := [tOp (.load false) (.scr 64)] }) id
    tw.Issues ∧ (at_ tw h).stopTrap.isNone = true ∧ (at_ tw h).selectable = true ∧ (at_ tw h).choice = .orig ∧
    (at_ v { h with wld := 1 }).stopTrap.isNone = true ∧ (at_ v { h with wld := 1 }).selectable = false ∧
    (at_ tw { h with price := 3 }).stopTrap.isSome = true ∧ tw.g.trap = none := by
  refine ⟨tw_issues, ?_⟩
  decide +kernel

/-- Group 0 with tasks: a closed one that wrote two bytes, and the open one. -/
def tClosed : Task := { Task.fresh 0 ((tGroup 0).snapshot false []) with closed := true, ver := [(0x6000, 0xAB), (0x6001, 0xCD)] }
def tTasks : State := tState tRec (fun g => { g with issuing := none, tasks := tClosed :: g.tasks })
theorem wit_TasksCommit : tTasks.Canonical ∧ (tTasks.group fetchKey).any (fun g => tTasks.commitReady fetchKey g tClosed &&
      !g.saveWanted && !g.ended && g.tasks.head? == some tClosed) = true ∧ (tTasks.ctx 0).preq = false ∧
    tTasks.cores.all (fun c => c.2.ulines == [] && c.2.la == []) = true ∧ Tbl.sorted tClosed.ver = true ∧
    tClosed.ver.all (fun p => decide (p.1 < 2 ^ 52)) = true := by
  unfold State.Canonical; decide +kernel
/-- A remote part on its way, and an `affpop` that takes a record, or finds none. -/
theorem wit_TasksCommit_effects : let r : Remote := ⟨[(2 ^ 52 + 0x40, 0x11)], []⟩
    let s := tState tRec (fun g => { g with remote := [r], effq := [.affpop 20 0] })
    let t := s.setCtx 0 { s.ctx 0 with rqBase := 1, rqTail := 1 }
    s.Canonical ∧ ((s.ripen fetchKey).group fetchKey).any (fun g => g.remote == [r] && g.effq == [.affpop 20 0] && Store.wf g.regs.g) = true ∧
    (s.ctx 0).queued = 0 ∧ (t.ctx 0).queued = 1 ∧ Tbl.sorted r.ver = true ∧ s.tails = [] ∧
    s.unreachable [r] = true ∧ { s with host := { s.host with routes := [(1, 3)], up := 2 } }.unreachable [r] = false := by
  unfold State.Canonical; decide +kernel

/-! ### Traps, kills, pre-emption -/

def tTrap (head : BitVec 8) : State :=
  let s := tState tRec (fun g => { g with issuing := none, trap := some (trapOf Cause.range ⟨0, 0, 0, 0, 0, 0⟩) })
  s.setCtx 0 { s.ctx 0 with tqBase := 1, tqTail := 128, tqHead := head }
theorem wit_TrapsAndResumes_trap : [5, 0].map (fun h => ((tTrap h).ctx 0).tqRoom) = [true, false] ∧ (tTrap 5).Canonical ∧
    [5, 0].all (fun h => ((tTrap h).group fetchKey).any (fun g => g.trap.isSome && !g.saved && g.openTask.isSome && !g.reportDue &&
      (tTrap h).cutBusy fetchKey g.last false == false)) = true ∧ (tTrap 5).fatal = none ∧
    [5, 0].all (fun h => (((tTrap h).modGroup fetchKey (fun g => { g with reportDue := true })).group fetchKey).any (fun g =>
      g.reportDue && g.trap.isSome)) = true ∧
    ((tTrap 5).launch 0).any (fun l => l.ended == none) = true ∧ (tTrap 5).doomed fetchKey = false ∧
    ((tTrap 5).modGroup ⟨0, 0, 1⟩ (fun g => { g with linkDown := true })).doomed fetchKey = true := by
  unfold State.Canonical; decide +kernel
/-- Group 0 stopped with report 3; tasks behind it as `f` says. -/
def tStopped (f : Group → Group) : State :=
  let s := tState tRec (fun g => f { g with issuing := none, stopped := some 3 })
  s.setCtx 0 { s.ctx 0 with tqBase := 1, reports := [(3, fetchKey)] }
/-- Every lane or lanes 8 to 31 may go on; the group ends with or without closed tasks; its launch ends. -/
theorem wit_TrapsAndResumes_resume : [0x3000000FF, 0x3FFFFFFFF].all (fun val =>
      ((tStopped id).reported 0 val).any (fun x =>
        (ctlKill ((tStopped id).stk x.1 x.2.q) (killLanes false (BitVec.extractLsb' 0 32 val)) x.2.ctl).any (fun y => y.pushed == []) &&
        x.2.tasks.filter Task.closed == [] && x.2.fallen == false && x.2.effq == [] && x.2.remote == [])) = true ∧ (tStopped id).Canonical ∧
    Tbl.sorted (tStopped id).groups = true ∧
    ((tStopped (fun g => { g with tasks := tClosed :: g.tasks })).reported 0 0x300000000).any
      (fun x => x.2.tasks.filter Task.closed != []) = true ∧
    ((tStopped (fun g => { g with linkDown := true })).reported 0 0x300000000).any (fun x => x.2.fallen) = true ∧ ((tStopped id).launch 0).any (fun l => l.ended == none) = true := by
  unfold State.Canonical; decide +kernel

def tBad (r : LRec) : State := tState r (fun g => { g with issuing := none, badState := true })
theorem wit_KillsAndFatalErrors : [tRec, { tRec with policy := 0x800 }].all (fun r =>
      ((tBad r).group fetchKey).any (fun g => g.badState) && (tBad r).fatal == none && ((tBad r).launch 0).any (fun l => l.ended == none) &&
      ((tBad r).block 0).isSome && Tbl.sorted (tBad r).groups && decide (0 < r.blocks.toNat) &&
      ((tBad r).gangBlocks 0 ((tBad r).gangNo 0 0)).all (fun n => ((tBad r).blockGroups 0 n).all (fun q =>
        ((tBad r).group q).all (fun x => x.issuing == none)))) = true ∧
    (tRec.relaunch, ({ tRec with policy := 0x800 } : LRec).relaunch) = (false, true) ∧ ((tBad tRec).ctx 0).tqRoom = true ∧
    (((tBad tRec).setCtx 0 { (tBad tRec).ctx 0 with tqTail := 128 }).ctx 0).tqRoom = false ∧ ((tBad tRec).ctx 0).lateReports = [] ∧
    ((Tbl.find (tBad tRec).gangs ((tBad tRec).gangKey fetchKey)).getD ⟨[], 0⟩).relaunches < ((tBad tRec).ctx 0).rlmax.toNat ∧
    { tBad tRec with fatal := some 1 }.fatal ≠ none := by decide +kernel

/-- Both groups have issued since their boundary. -/
def tBusy : State :=
  let f (g : Group) : Group := { g with issuing := none, tasks := g.tasks.map (fun (x : Task) => { x with used := true }) }
  { tState tRec id with groups := [(0, f (tGroup 0)), (1, f (tGroup 1))] }
theorem wit_PreemptionAndAnswers_request : (tBusy.ctx 0).preq = false ∧ (tBusy.setCtx 0 { tBusy.ctx 0 with preq := true }).ctx 0 ≠ tBusy.ctx 0 ∧
    tBusy.keys.all (fun k => (tBusy.group k).all (fun g => g.openTask.all (fun x => x.used))) = true := by decide +kernel
/-- A cut at core 0 that has begun, with one group unsaved and a save area. -/
def tCut : State :=
  let s := { tBusy with groups := [(0, { tGroup 0 with issuing := none })] }
  s.setCtx 0 { s.ctx 0 with cut := [(0, true)], sbase := 1, ssize := 16 }
/-- A free place for an image: the one the machine's choice names, or the area's start. -/
theorem imageAddr_isSome (s : State) (k : GKey) (hs : s.keys.all (fun q => (s.group q).all (fun g => !g.saved)) = true)
    (hn : imageSize (s.lrec k.launch).gran ≤ (s.ctx (s.lctx k.launch)).saveArea) : (s.imageAddr k).isSome = true := by
  have ht (f : GKey → Option (Nat × Nat)) (h : ∀ q ∈ s.keys, f q = none) : s.keys.filterMap f = [] :=
    List.filterMap_eq_nil_iff.mpr h
  unfold State.imageAddr
  dsimp only
  rw [ht _ (fun q hq => by
    have hq := List.all_eq_true.mp hs q hq
    cases hg : s.group q with
    | none => rfl
    | some g => simp_all)]
  simp only [List.all_nil, Bool.and_true, List.map_nil]
  split
  · rfl
  · simp [hn, pickOne, Nat.mod_one]
/-- What `State.saveReady` asks for beside a place. -/
def restReady (s : State) (k : GKey) (g : Group) : Bool :=
  !g.saved && (g.trap.isNone || g.reportDue) && !g.ended && decide (g.tasks.length ≤ 1) && g.effq.isEmpty &&
    !((s.lrec k.launch).commitHold && !g.audits.isEmpty) && !s.cutBusy k g.last true &&
    g.memq.all MemOp.versioned && !g.fallen && !s.doomed k
theorem saveReady_of {s : State} {k : GKey} {g : Group} (h : restReady s k g = true) (ha : (s.imageAddr k).isSome = true) :
    s.saveReady k g = true := by
  unfold State.saveReady
  rw [ha, Bool.and_true]
  exact h
def tAlone : Group := { tGroup 0 with issuing := none }
theorem wit_PreemptionAndAnswers_ready : tCut.group fetchKey = some tAlone ∧ tCut.saveReady fetchKey tAlone = true :=
  ⟨by decide +kernel, saveReady_of (by decide +kernel) (imageAddr_isSome _ _ (by decide +kernel) (by decide +kernel))⟩
theorem wit_PreemptionAndAnswers_cut : tCut.fatal = none ∧ tCut.cutDue 0 0 = true ∧ Tbl.find (tCut.ctx 0).cut 0 = some true ∧
    tCut.unsaved 0 0 = [fetchKey] ∧
    tBusy.cutDue 0 0 = false := by decide +kernel
/-- Group 0 parked for whey space, or for a page. -/
def tPark (page : Option Nat) : State :=
  tState tRec (fun g => { g with park := some ⟨⟨0, 0, 0, 0, 0, 0⟩, [(0, ⟨0x1000000001000, page, false⟩)], []⟩ })
theorem wit_PreemptionAndAnswers_answers : (tPark none).parkedIn 0 ParkLane.whey = [fetchKey] ∧
    (tPark (some 0x1000000001)).parkedIn 0 (ParkLane.on 1) = [fetchKey] ∧
    ((tPark none).group fetchKey).any (fun g => g.issuing != none && g.trap == none) = true ∧
    (let s := { tPark none with clusters := [(0, { Cluster.reset with sctx := [(0, { SCtx.reset with launch := some 0, wait := some 0x1000000001000 })] })] }
     (s.starter 0 0).wait = some 0x1000000001000 ∧ (s.starter 0 0).launch = some 0 ∧ s.lctx 0 = 0 ∧ answers 1 0x1000000001 = true) := by
  decide +kernel

/-! ### Launches, power, Affinage -/

/-- Context 0 with records at the port: the page of 2^48 holds a legal record, or one of no blocks. -/
def tPort (n : Nat) (va : BitVec 64) (blocks : Nat) : State :=
  let s := tState tRec id
  { (s.setCtx 0 { s.ctx 0 with lport := List.replicate n va }) with
    mem := Store.putBytes tMem 0x6000 (natLE 48 0 ++ natLE 4 blocks ++ natLE 4 0x0480003F ++ natLE 72 0) }
theorem wit_LaunchPort : (tPort 1 0 1).host.state = 2 ∧ ((tPort 1 0 1).ctx 0).lport.length < 64 ∧
    64 ≤ ((tPort 64 0 1).ctx 0).lport.length ∧
    (let s := tPort 1 0x1000000000000 1
     s.fatal = none ∧ s.dueGraph 0 = none ∧ (match s.readRecord 0 0 0x1000000000000 with
      | (_, .ok bs) => (lrecOf bs).err == none
      | _ => false) = true) ∧
    (match (tPort 1 0 0).readRecord 0 0 0x1000000000000 with
      | (_, .ok bs) => (lrecOf bs).err == some 3
      | _ => false) = true ∧
    (match (tPort 1 0 0).readRecord 0 0 0x1000000002000 with
      | (_, .bad) => true
      | _ => false) = true ∧
    (match (tPort 1 0 0).readRecord 0 0 0x1000000001000 with
      | (_, .wait _) => true
      | _ => false) = true := by decide +kernel

/-- One launch of one block that no core has claimed. -/
def tPull : State := { State.reset with launches := [(0, { tLaunch tRec with next := 0 })] }
theorem wit_BlocksAndLaunches_pull : let x : Launch := { tLaunch tRec with next := 0 }
    tPull.fatal = none ∧ (tPull.chiplet (chipletOf 0)).off = false ∧ (tPull.cluster (clusterOf 0)).therm.allow ≠ 0 ∧
    tPull.launches = [(0, x)] ∧ (tPull.ctx x.ctx).preq = false ∧ (tPull.ctx x.ctx).cut = [] ∧ (tPull.restoreOn 0 0).isNone = true ∧
    x.ended = none ∧ x.checked = true ∧ x.returns = [] ∧ Tbl.has (tPull.chiplet (chipletOf 0)).stops 0 = false ∧
    x.rec_.gang = 1 ∧ x.next < x.rec_.blocks.toNat ∧ tPull.fits 0 0 = true := by decide +kernel
/-- A launch of higher priority whose block no core may take, and the block of the other on core 0 with both groups at rest. -/
def tCrowd : State :=
  let s := tState tRec id
  { (s.setCtx 0 { s.ctx 0 with sbase := 1, ssize := 16 }) with
    launches := [(0, tLaunch tRec), (1, { tLaunch { tRec with policy := 7 } with next := 0 })]
    groups := [(0, { tGroup 0 with issuing := none }), (1, { tGroup 1 with issuing := none })]
    chiplets := (List.range 8).map (fun c => (c, { Chiplet.reset with stops := [(1, ())] })) }
theorem wit_BlocksAndLaunches_evict : (tCrowd.crowded 0).any (fun x => x.1 == 1 && (tCrowd.victims 0 1).any (fun ks =>
      ks != []) && (tCrowd.ctx 0).preq == false && tCrowd.fatal == none &&
      tCrowd.blocks.all (fun b => b.2.st == .live && decide ((tCrowd.lrec (b.1 / 2 ^ 32)).prio < x.2.rec_.prio) &&
        (tCrowd.lrec (b.1 / 2 ^ 32)).strict == x.2.rec_.strict)) = true := by decide +kernel
/-- The launch of higher priority needs the room of one group: the younger one leaves. -/
def tCrowd1 : State :=
  { tCrowd with launches := [(0, tLaunch tRec), (1, { tLaunch { tRec with policy := 7, shape := 0x040001DF } with next := 0 })] }
def tYoung : Group := { tGroup 1 with issuing := none }
theorem wit_BlocksAndLaunches_victims : tCrowd1.victims 0 1 = some [⟨0, 0, 1⟩] ∧ (tCrowd1.crowded 0).any (fun x => x.1 == 1) = true := by decide +kernel
theorem blockSaved_of_unsaved (s : State) (l b : Nat) (k : GKey) (g : Group) (hk : k ∈ s.blockGroups l b) (hg : s.group k = some g)
    (hs : g.saved = false) : s.blockSaved l b = s := by
  unfold State.blockSaved
  dsimp only
  cases hb : s.block (bkeyOf l b) with
  | none => rfl
  | some x =>
    dsimp only
    rw [if_neg]
    intro h
    simp only [Bool.and_eq_true, List.all_eq_true] at h
    have := h.2 k hk
    rw [hg] at this
    simp [hs] at this
def tKey1 : GKey := ⟨0, 0, 1⟩
theorem wit_BlocksAndLaunches_saves : ∃ t, tCrowd1.saveAll [tKey1] = some t := by
  have hg : tCrowd1.group tKey1 = some tYoung := by decide +kernel
  have ha : (tCrowd1.imageAddr tKey1).isSome = true := imageAddr_isSome _ _ (by decide +kernel) (by decide +kernel)
  have hr : tCrowd1.readyToSave [tKey1] = true := by
    have h1 : tCrowd1.imagesFit (tCrowd1.lctx tKey1.launch) (fun q _ => [tKey1].contains q) = true := by decide +kernel
    have h2 : tCrowd1.saveReady tKey1 tYoung = true := saveReady_of (by decide +kernel) ha
    unfold State.readyToSave
    simp only [List.all_cons, List.all_nil, Bool.and_true, h1, hg, h2]
  obtain ⟨a, ha⟩ := Option.isSome_iff_exists.mp ha
  have hs : ((tCrowd1.saveGroup tKey1).group tKey1).any (fun g => g.saved) = true := by
    unfold State.saveGroup
    rw [hg, ha]
    dsimp only
    generalize hb : ((tCrowd1.cutBack tKey1 tYoung.last).takePasses tKey1).modGroup tKey1 _ = b
    have h0 : b.group fetchKey = some tAlone := by rw [← hb]; decide +kernel
    have h1 : (b.group tKey1).any (fun g => g.stopped == none) = true := by rw [← hb]; decide +kernel
    clear hb
    obtain ⟨g1, h1, h1s⟩ := (Option.any_eq_true _ _).mp h1
    have h1s : g1.stopped = none := by simpa using h1s
    have e := (State.atHome_laWritebackCore b (b.coreOf tKey1)).eq
    generalize b.laWritebackCore (b.coreOf tKey1) = c at e ⊢
    have hc (q : GKey) : c.group q = b.group q := by rw [e]; rfl
    rw [hc, h1]
    dsimp only
    rw [h1s]
    dsimp only
    have e2 := (c.atHome_homeWrite a (c.imageBytes tKey1 g1 (BitVec.ofNat 64 a) false)).eq
    generalize c.homeWrite a (c.imageBytes tKey1 g1 (BitVec.ofNat 64 a) false) = d at e2 ⊢
    have hd : d.group fetchKey = some tAlone := by rw [e2, ← h0, ← hc]; rfl
    have key (G : Group) (hG : G.saved = true) : (((d.setGroup tKey1 G).blockSaved 0 0).group tKey1).any (fun g => g.saved) = true := by
      have hq : (d.setGroup tKey1 G).group fetchKey = some tAlone := by rw [State.group_setGroup_ne _ _ (by decide), hd]
      rw [blockSaved_of_unsaved _ _ _ fetchKey tAlone
        (List.mem_filter.mpr ⟨List.mem_map.mpr ⟨0, by decide, rfl⟩, by rw [hq]; rfl⟩) hq rfl]
      simp [hG]
    exact key _ rfl
  refine ⟨tCrowd1.saveGroup tKey1, ?_⟩
  unfold State.saveAll
  rw [hr]
  simp only [Bool.not_true, Bool.false_eq_true, if_false, List.foldl_cons, List.foldl_nil, List.all_cons, List.all_nil, Bool.and_true]
  rw [if_pos]
  cases h : (tCrowd1.saveGroup tKey1).group tKey1 with
  | none => rw [h] at hs; exact absurd hs (by simp)
  | some g => rw [h] at hs; exact hs
/-- Cluster 0 is hot, cluster 1 the one cooler cluster that is not. -/
def tHot : State :=
  { tCrowd with
    launches := [(0, tLaunch tRec)]
    clusters := (List.range 24).map (fun c => (c, { tCrowd.cluster c with
      therm := { Thermal.reset with hot := decide (c ≠ 1), tdie := if c = 1 then 50 else 90, tdram := if c = 1 then 50 else 90 } }))
    chiplets := (List.range 8).map (fun c => (c, { Chiplet.reset with off := decide (c ≠ 0), reftime := 3000000 })) }
theorem wit_BlocksAndLaunches_migrate : (tHot.cluster 0).therm.hot = true ∧ tHot.market.allhot = false ∧
    (tHot.cluster 0).therm.sent = false ∧ tHot.fatal = none ∧ tHot.resides 0 = some (0, 0) ∧ tHot.gangBlocks 0 (tHot.gangNo 0 0) = [0] ∧
    tHot.block 0 = some tBlock ∧ (List.range 192).filter (tHot.cooler 0 0 [(0, tBlock)]) = [1] ∧
    tBlock.st = .live ∧ (tHot.ctx 0).preq = false ∧ (tHot.ctx 0).cut = [] := by decide +kernel
/-- A launch whose block has ended. -/
theorem wit_BlocksAndLaunches_complete : let s := { tState tRec id with blocks := [(0, { tBlock with st := .ended })], groups := [] }
    (s.launch 0).any (fun x => s.completes 0 x && x.ended != some 7) = true ∧ s.fatal = none ∧ Tbl.sorted s.launches = true ∧
    ({ tLaunch tRec with ended := some 7 } : Launch).ended = some 7 := by decide +kernel

/-- A ring with held tokens, a requester that has starved, a reservation that is met, and a pool that shrinks or grows. -/
def tRing : Ring :=
  { Ring.reset with
    pool := 1000, newPool := 900, bundle := 850, buckets := [(0, 50), (8, 50)], held := [⟨4, 0, 30, false, false⟩]
    want := [(1, (80, 0))], starved := [(1, 16)], resvs := [⟨0, 2, 20, 20, false⟩] }
theorem wit_TokenRing : ((withRing (tState tRec id) 0 tRing).cluster 0).ring = tRing ∧ Tbl.sorted tRing.buckets = true ∧
    (tRing.resvs.map (fun x => (x.st, x.req))).Nodup ∧ (tRing.held.find? (fun x => x.id == 4)).isSome = true ∧
    (tRing.wants 0).find? (fun x => x.1 == 1) = some (1, 80, 0) ∧ 16 ≤ (Tbl.find tRing.starved (stageKey 0 1)).getD 0 ∧
    tRing.resv 0 1 = none ∧ ({ tRing with resvs := [⟨0, 4, 20, 5, false⟩] } : Ring).resv 0 4 = some ⟨0, 4, 20, 5, false⟩ ∧
    (tState tRec (fun g => { g with issuing := none })).inClause 0 = [] ∧ (tState tRec id).inClause 0 = [0] ∧
    tRing.resvs.find? (fun y => y.st == tRing.pos && !y.complete && y.got == y.amount) = some ⟨0, 2, 20, 20, false⟩ ∧
    tRing.newPool ≤ tRing.pool ∧ { tRing with newPool := 1100 }.pool < { tRing with newPool := 1100 }.newPool ∧ tRing.pos = 0 ∧
    { tRing with newPool := 1100, pos := 3 }.pos ≠ 0 := by decide +kernel
/-- A changed pool of a cluster whose first core counts 20 cycles, nine since the clearing, applies with the next visit. -/
theorem wit_TokenRing_due : let s := withRing ((tState tRec (fun g => { g with issuing := none })).setCore 0 { Core.reset with cycles := 20 }) 0 { tRing with since := [0] }
    ∃ x ∈ (s.cluster 0).ring.since.zip ((s.tickRing 0).counts 0), x.1 + 9 ≤ x.2 := by
  intro s
  have h : ((s.tickRing 0).core 0).cycles = max 20 (20 + 1 + (Config.free 0 2000).toNat) := by
    unfold State.tickRing State.tickCluster State.poolDue
    dsimp only
    split
    · rfl
    · split <;> rfl
  refine ⟨(0, ((s.tickRing 0).core 0).cycles), ?_, by rw [h]; omega⟩
  have : (s.cluster 0).ring.since = [0] := by decide +kernel
  rw [this]
  exact .head _
theorem wit_MarketAndDroop : let s := tState tRec id
    s.host.state = 2 ∧ s.fatal = none ∧ (s.chiplet 0).phok.getLsbD 3 = true ∧ (s.cluster 0).therm.stretched = false ∧
    (let c : Cluster := { s.cluster 0 with therm := { Thermal.reset with stretched := true } }
     ((s.setCluster 0 c).cluster 0).therm.stretched = true) ∧
    86 ≤ (Sample.mk 90 50).tdram.toNat ∧ (Sample.mk 50 50).tdram.toNat ≤ 83 := by decide +kernel

/-- A clause that adds two registers; as candidates the same word, and one of the sum with its operands swapped and of
their difference. -/
def tOrig : List Word := [0xF800000000000000, 0x0400242404000200]
def tOther : List Word := [0xF800000000000000, 0x0404242404000200]
def tExec : Exec := { v := [(9, [7]), (1, [5])], g := [], m := [], gp := [], act := 1, help := 0, out := [], flags := 0 }
def tAff (st : SubSt) (cand : List Word) (audit : Bool) (ex : Exec) : State :=
  let s := tState tRec id
  let c := s.cluster 0
  let x : SubSlot := { SubSlot.reset with st, orig := tOrig, cand, samples := List.replicate 16 tExec }
  { s with
    clusters := [(0, { c with slots := [(0, x)], ring := { c.ring with buckets := (List.range 9).map (fun i => (i, 600)), spare := (List.range 8).map (fun i => (i, [])) } })]
    cores := [(0, { Core.reset with guard := [⟨0, audit, ex, fetchKey, 9, 5⟩] })] }
def tRuns (cand : List Word) : Exec :=
  (tAff .mature cand true tExec).runOut fetchKey tExec (tOrig.drop 1) (joinRW (liveOf (tOrig.drop 1)) (liveOf (cand.drop 1)))
theorem all_mod8 {p : Nat → Bool} (h : (List.range 8).all p = true) (n : Nat) : p (n % 8) = true :=
  List.all_eq_true.mp h _ (List.mem_range.mpr (Nat.mod_lt _ (by decide)))
/-- A search runs a candidate that agrees with the next sample, and one that does not, on whichever core has an idle turn. -/
theorem wit_AffinageRuns_search (n : Nat) : [(tOrig, true), (tOther, false)].all (fun q =>
    let s := tAff .search q.1 false tExec
    let x := (s.cluster 0).slot 0
    x.cand != [] && x.samples[x.agree]? == some tExec && Tbl.sorted (s.cluster 0).slots &&
      (s.buyRun 0 (n % 8) (clauseCost (q.1.drop 1)).1).any (fun s1 =>
        s1.agrees ⟨x.launch, 0, 0⟩ tExec (tOrig.drop 1) (q.1.drop 1) == q.2)) = true :=
  all_mod8 (p := fun m => [(tOrig, true), (tOther, false)].all (fun q =>
    let s := tAff .search q.1 false tExec
    let x := (s.cluster 0).slot 0
    x.cand != [] && x.samples[x.agree]? == some tExec && Tbl.sorted (s.cluster 0).slots &&
      (s.buyRun 0 m (clauseCost (q.1.drop 1)).1).any (fun s1 =>
        s1.agrees ⟨x.launch, 0, 0⟩ tExec (tOrig.drop 1) (q.1.drop 1) == q.2))) (by decide +kernel) n
theorem wit_AffinageRuns : let a := fun (st : SubSt) (cand : List Word) (audit : Bool) (ex : Exec) => tAff st cand audit ex
    ((a .sampling [] false tExec).cluster 0).slot 0 = { SubSlot.reset with st := .sampling, orig := tOrig, samples := List.replicate 16 tExec } ∧
    ((a .search [] false tExec).cluster 0).slot 0 ≠ SubSlot.reset ∧ Tbl.sorted ((a .search [] false tExec).cluster 0).slots = true ∧
    (let x : SubSlot := { SubSlot.reset with st := .search, orig := tOrig, cand := tOrig, agree := 16, samples := List.replicate 16 tExec }
     let s := (a .search [] false tExec).setSlot 0 0 x
     (s.cluster 0).slot 0 = x ∧ x.samples.length ≤ x.agree ∧ Tbl.sorted (s.cluster 0).slots = true) ∧
    [(tOrig, true), (tOther, false)].all (fun q =>
      let s := a .ripening q.1 false tExec
      ((s.core 0).guard.find? (fun e => !e.audit)).any (fun e => (s.buyRun 0 0 (clauseCost (q.1.drop 1)).1).any (fun s1 =>
        (s1.dropGuardEnt 0 e).agrees e.key e.ex (tOrig.drop 1) (q.1.drop 1) == q.2))) = true ∧
    [(tRuns tOrig, true), (tExec, false)].all (fun q =>
      let s := a .mature tOrig true q.1
      ((s.core 0).guard.find? (fun e => e.audit)).any (fun e => (s.buyRun 0 0 (clauseCost (tOrig.drop 1)).1).any (fun s1 =>
        let y := s1.runOut e.key e.ex (tOrig.drop 1) (joinRW (liveOf (tOrig.drop 1)) (liveOf (tOrig.drop 1)))
        (y.out == e.ex.out && y.flags == e.ex.flags) == q.2 && s1.cullReady 0 e.slot &&
          (s.group e.key).any (fun g => g.tasks.all (fun x => x.tseq != e.tseq))))) = true := by decide +kernel

/-! ### Registers, outside accesses, rinds, bring-up -/

theorem wit_RegisterWrites : let s := tState tRec id
    (3 % 8 ≠ 0) ∧ State.reset.host.state ≠ 2 ∧ s.host.state = 2 ∧ s.host.inv.getLsbD 0 = false ∧
    ({ s.host with inv := 1 } : HostDie).inv.getLsbD 0 = true ∧ (1 : BitVec 64).getLsbD 0 = true ∧ s.host.ago = false ∧
    (0x7C1 : BitVec 64).extractLsb' 6 5 = 31 ∧ (0x1001 : BitVec 64).extractLsb' 6 5 ≠ 31 ∧ s.clusterInUse 0 = true ∧
    s.clusterInUse 1 = false ∧ ((3 : BitVec 64).extractLsb' 0 3 ≠ (s.cluster 1).vltScr) ∧
    progressFloor ≤ budget ((0x00C8044C : BitVec 64).extractLsb' 0 16).toNat ((0x00C8044C : BitVec 64).extractLsb' 16 16).toNat s.market.tkw.toNat 8 ∧
    (List.range 8).all (fun ch => ((s.chiplet ch).fit 16).isSome) = true ∧ Tbl.sorted (s.cluster 1).slots = true ∧
    Store.wf s.mem = true ∧ Store.wf s.scr = true ∧ Store.wf s.vlt = true := by decide +kernel

/-- Bytes of memory, scratch, vault, a word of the Vat and a lane register with errors, one on each of five chiplet levels. -/
def tErr : State :=
  let s := tState tRec id
  let c : Chiplet := { Chiplet.reset with rels := (List.range 7).map (fun l => (l, { RelLog.reset with scrub := 1, lbase := 2 })) }
  { s with chiplets := [(0, c)], poisonMem := [(0x40, ())], host := { s.host with up := 3, fails := [(1, 16)] } }
theorem wit_OutsideAccesses : let a : HostAccess := ⟨1, 0x6000, 2, 5, 0⟩
    let x : HostAccess := ⟨1, 0x800000000108, 3, 5, 0⟩
    tErr.cores.all (fun c => c.2.ulines == []) = true ∧ tErr.paKind a.pa = .dram ∧ a.size < 4 ∧ a.pa.toNat % szBytes a.size = 0 ∧
    tErr.fatal = none ∧ tErr.paKind x.pa = .window ∧ x.size = 3 ∧ x.pa.toNat % 8 = 0 ∧ tErr.host.up.getLsbD 1 = true ∧
    16 ≤ (Tbl.find tErr.host.fails 1).getD 0 ∧ Tbl.sorted tErr.host.fails = true ∧ ((tErr.chiplet 0).rel 6).scrub ≠ 0 ∧
    tErr.host.state = 2 ∧ tErr.damaged 0 2 = [] ∧ (tErr.damaged 0 6).length = 1 ∧ ((tErr.chiplet 0).rel 6).uecnt ≠ ~~~0 ∧
    (((tErr.chiplet 0).rel 6).tail - ((tErr.chiplet 0).rel 6).head).toNat < 2 ^ (((tErr.chiplet 0).rel 6).lsize.toNat + 8) ∧
    Store.wf tErr.mem = true ∧ Store.wf tErr.scr = true ∧ Store.wf tErr.vlt = true := by decide +kernel

def tRindBytes : List Byte :=
  let h (crc : Nat) : List Byte := natLE 4 0x444E4952 ++ natLE 4 1 ++ natLE 8 4 ++ natLE 8 64 ++ natLE 8 crc ++ natLE 4 5 ++ natLE 28 0
  h (crc64 (h 0)).toNat
/-- A rind of context 5 at 0x7000 that holds one saved group, and a context that is to be restored from it. -/
def tRind : Rind :=
  { ctx := 5, gen := 4, groups := [(64 * 2 ^ 32, { tGroup 0 with saved := true, issuing := none })], blocks := [], gangs := []
    launches := [], graphs := [], scr := [], vlt := [], poisonScr := [], poisonVlt := [], vcfg := [(3, 0, 0)], sctx := [], descs := []
    subs := [], marks := [], rqTail := 0, rqHead := 0, bytes := tRindBytes }
def tRestore (bs : List Byte) : State :=
  let s := { State.reset with mem := Store.putBytes [] 0x7000 bs, rinds := [tRind] }
  s.setCtx 1 { s.ctx 1 with rbase := 7, preq := true }
def tTake (s : State) : State := (s.preempt 0).setCtx 0 { (s.preempt 0).ctx 0 with busy := true, rindOp := 1 }
theorem wit_Rinds_take : tBusy.fatal = none ∧ (tBusy.ctx 0).busy = false ∧ (tBusy.ctx 0).preq = false ∧
    (tTake tBusy).ctxSaved 0 = false ∧ (tTake State.reset).ctxSaved 0 = true := by decide +kernel
theorem wit_Rinds_restore : ((tRestore tRindBytes).ctx 1).busy = false ∧
    (match (tRestore (natLE 64 0)).rindCheck 1 with
      | .inl n => n == 1
      | _ => false) = true ∧
    (match (tRestore tRindBytes).rindCheck 1 with
      | .inr (g, bs) => g == 4 && (tRestore tRindBytes).rinds.find? (fun q => q.bytes == bs) == some tRind
      | _ => false) = true ∧
    tRind.vcfg.all (fun v => ((tRestore tRindBytes).cluster v.1).vltCtx == v.2.1 && ((tRestore tRindBytes).cluster v.1).vltScr == v.2.2) = true ∧
    (tRestore tRindBytes).anyResident 1 = false ∧ ((tRestore tRindBytes).clearCtx 1).rindRoom tRind = true ∧
    ((tRestore tRindBytes).ctx 1).preq = true ∧ ((tRestore tRindBytes).ctx 1).rindOp ≠ 8 ∧ Tbl.sorted tRind.groups = true ∧
    (tRestore tRindBytes).fatal = none := by decide +kernel
/-- The fused minimum is open: a good image carries it as its own SVN, a bad one fails a signature. -/
theorem wit_BringUp : let good : FwImage := ⟨5, true, true, Config.fusedSvn⟩
    good.ed25519 = true ∧ good.mldsa = true ∧ Config.fusedSvn.toNat ≤ good.svn.toNat ∧
    ({ good with mldsa := false } : FwImage).mldsa = false := ⟨rfl, rfl, Nat.le_refl _, rfl⟩

/-! ### Encodings, the step, results -/

theorem wit_EncodingRoundTrip : (WellFormed (.vadd ⟨9, 9, 1, 0, 0, 0, 2, 0, 0⟩) ∧ (Instr.vadd ⟨9, 9, 1, 0, 0, 0, 2, 0, 0⟩).body ≠ .ev) ∧
    WellFormed (.nop (.starter ⟨0, 0, 0, 0⟩)) ∧ WellFormed (.starterGroupOp 1 9 ⟨5, 0, 0, 1⟩) := by
  unfold WellFormed; decide +kernel
/-- The machine on which a clause word, a header or a Starter word comes to run; an event on the agenda. -/
def tPlaced (w : Nat) : State := State.reset.withFetchWord 64 w
theorem wit_StepRunsTheWord_word : let s := tPlaced 0x0400242404000200
    s.agenda = [.word fetchKey] ∧ (let s0 : State := { s with agenda := [] }
     (s0.group fetchKey).any (fun g => g.issuing.any (fun i => s0.wordTurn fetchKey g i &&
       (match decodeWord (i.words.getD i.k i.head).w with
         | .ok x => x == .vadd ⟨9, 9, 1, 0, 0, 0, 2, 0, 0⟩
         | _ => false))) = true) ∧
    (let g : Group := { tGroup 0 with issuing := some { tIss 0 with words := [⟨0, 0, 0, 0, 0, 0⟩, ⟨0, 0, 0, 0, 0, 0⟩] } }
     g.trap = none ∧ g.park = none ∧ 0 + 1 < 2 ∧ g.issuing.any (fun i => i.halted == false && i.words.length == 2) = true) := by
  decide +kernel
theorem wit_StepRunsTheWord_starter : let s := tPlaced 0xE808010000000000
    s.agenda = [.starter 0 0] ∧ ({ s with agenda := [] } : State).strRival 0 0 = false ∧
    (match (({ s with agenda := [] } : State).tickCluster 0 1).strPrep 0 0 with
      | (s1, true) => (match s1.strFetch 0 0 with
        | (s2, .word w) => (match decodeStarter w with
          | .ok _ => !(s1.chiplet (chipletOfCl 0)).disablesStr w && s2.fatal == none
          | _ => false)
        | _ => false)
      | _ => false) = true := by decide +kernel
theorem wit_StepRunsTheWord_issue : let s := tPlaced 0xF800000000000000
    s.agenda = [.issue fetchKey 0] ∧ (let s0 : State := { s with agenda := [] }
     (s0.group fetchKey).bind Group.issuing = none ∧ ((((s0.freshWants (clusterOf (s0.coreOf fetchKey))).turn fetchKey 0).group fetchKey).bind Group.issuing).isSome = true ∧
     (s0.group fetchKey).any (fun g => (s0.cursor fetchKey g 0).any (fun i => (g.ctl.slot 0).any (fun p =>
       ((s0.segOf fetchKey).word (s0.coreOf fetchKey % 8) p.pc).any (fun h => (match decodeHeader h.w with
         | .ok x => x == .clauseHeader i.hdr
         | _ => false))))) = true) := by decide +kernel
theorem wit_StepRunsTheWord_event : (Instr.heatDecay 0).body = .ev ∧ { tState tRec id with agenda := [.event (.heatDecay 0)] }.fatal = none ∧
    (tState tRec id).agenda = [] ∧ State.reset.wheyUsed = [] := by decide +kernel
/-- StepsKeepCanonicalMemory, MemoryOperationsPerform, OutsideAccesses: reset and the states of these tests are canonical. -/
theorem wit_Inv : State.reset.Inv ∧ tTasks.Inv := by
  unfold State.Inv State.Canonical; decide +kernel
/-- ResultsLand: registers in order; a result that is due before another, with it, and one that is not due. -/
theorem wit_ResultsLand : Store.wf tRegs.v = true ∧ Store.wf tRegs.g = true ∧ Store.wf tRegs.m = true ∧ Store.wf tRegs.gp = true ∧
    (⟨.v 8, 3, [1, 2], 4⟩ : Pend).due ≤ 4 ∧ 3 < (⟨.v 8, 3, [1, 2], 4⟩ : Pend).due ∧ (⟨.g 8, 0, [1], 4⟩ : Pend).dest ≠ .fpflags ∧
    (⟨.g 8, 0, [1], 3⟩ : Pend).due < (⟨.g 8, 0, [1], 4⟩ : Pend).due := by decide
/-- RegisterWordsFrame: every register word completes on a group of the tests. -/
theorem wit_RegisterWordsFrame : tw.Issues ∧ ∀ r ∈ registerWords ⟨12, 8, 10, 0, 0, 0, 2, 0, 0⟩ ⟨12, 8, 0, 5⟩, ∃ t, exec r.1 tw.s = .next t := by
  refine ⟨tw_issues, fun r hr => ?_⟩
  have h : (registerWords ⟨12, 8, 10, 0, 0, 0, 2, 0, 0⟩ ⟨12, 8, 0, 5⟩).all (fun r => match exec r.1 tw.s with
    | .next _ => true
    | _ => false) = true := by decide +kernel
  have h := List.all_eq_true.mp h r hr
  split at h
  · exact ⟨_, by assumption⟩
  · exact absurd h (by simp)

/-! ## Worked examples of the spec -/

/-- The first lanes' results that a register word leaves pending, in order of destination, and the flags it raises. -/
def tGives (o : Out) (lanes : List Nat) : List (List (BitVec 64)) :=
  match o with
  | .next t => ((t.group fetchKey).map (fun g => g.pend.map (fun p => if p.dest = .flags then p.vals else lanes.map (fun l => p.vals.getD l 0)))).getD []
  | _ => []
/-- A word on a group whose lane registers hold the given words, by 32 times the register and the lane. -/
def twRegs (v : List (Nat × BitVec 32)) : State := (tWord tRec (fun g => { g with regs := { g.regs with v } }) id).s

/-- R156: `vabs.i32` of -2^31 is -2^31, with `.sat` 2^31 - 1 with `$fpflags` bit 5. -/
theorem test_vabs : let s := twRegs [(32 * 1, 0x80000000)]
    tGives (exec (.vabs ⟨2, 1, 0, 0, 7, 0, 2, 0, 0⟩) s) [0] = [[0x80000000]] ∧
    tGives (exec (.vabs ⟨2, 1, 0, 0, 7, 0, 2, 0, 1⟩) s) [0] = [[0x7FFFFFFF], [0x20]] := by decide +kernel
/-- R156: `vneg.n32` of 5 is 2^32 - 5, with `.sat` 0. -/
theorem test_vneg : let s := twRegs [(32 * 1, 5)]
    tGives (exec (.vneg ⟨2, 1, 0, 0, 7, 0, 6, 0, 0⟩) s) [0] = [[0xFFFFFFFB]] ∧
    tGives (exec (.vneg ⟨2, 1, 0, 0, 7, 0, 6, 0, 1⟩) s) [0] = [[0], [0x20]] := by decide +kernel
/-- R170: lanes 4 to 7 hold 1.0, 2.0, 4.0 and 8.0; `vqxh` exchanges the pairs. -/
theorem test_vqxh : tGives (exec (.vqxh ⟨3, 2, 0, 0, 0, 0, 0, 0, 0⟩) (twRegs [(68, 0x3F800000), (69, 0x40000000), (70, 0x40800000), (71, 0x41000000)]))
    [4, 5, 6, 7] = [[0x40000000, 0x3F800000, 0x41000000, 0x40800000]] := by decide +kernel
/-- R170: then `vfsub.f32` leaves 1.0, -1.0, 4.0 and -4.0. -/
theorem test_vfsub : tGives (exec (.vfsub ⟨4, 3, 2, 0, 0, 0, 10, 0, 0⟩) (twRegs [(68, 0x3F800000), (69, 0x40000000), (70, 0x40800000), (71, 0x41000000),
      (100, 0x40000000), (101, 0x3F800000), (102, 0x41000000), (103, 0x40800000)])) [4, 5, 6, 7] =
    [[0x3F800000, 0xBF800000, 0x40800000, 0xC0800000]] := by decide +kernel
/-- R178: 2^24, 1.0, 1.0 and -2^24 in the lanes of `m5` sum to 2.0 with no flag. -/
theorem test_vfredadd : tGives (exec (.vfredadd ⟨10, 1, 0, 0, 5, 0, 10, 0, 0⟩)
    (twRegs [(32, 0x4B800000), (33, 0x3F800000), (34, 0x3F800000), (35, 0xCB800000)])) [0] = [[0x40000000]] := by decide +kernel
/-- R182: `.team pair, 0, 1` and `.team quad, 4, 0, 1, 2`, the latter of a block of five groups. -/
theorem test_team_lists : teamListOk 0x0000000200000020 2 = true ∧ teamListOk 0x0000000400010404 5 = true ∧
    (List.range 4).map (teamMember 0x400010404) = [4, 0, 1, 2] := by decide +kernel
/-- The worked `vmmaz.bf16`: 16.0, inexact. -/
theorem test_matrix_runs : let a (k : Nat) : BitVec 32 := if k = 0 then 0x3F804580 else 0x3F803F80
    let v := (List.range 8).map (fun k => (32 * (8 + k), a k)) ++ [(32 * 8 + 16, 0x0000C580)]
    let b := (List.range 8).map (fun k => (32 * (32 + k), a k)) ++ [(32 * 40, 0x00004580)]
    let g : Group := { tGroup 0 with regs := { (tGroup 0).regs with v := v.filter (fun p => p.1 % 32 == 0 && p.1 != 0) } }
    let v := (v.take 1) ++ [(32 * 8 + 16, 0x0000C580)] ++ (v.take 8).drop 1 ++ b
    let g := { g with regs := { g.regs with v } }
    let arr : Arrival := ⟨0, 1, 0x20, 16, 8, 32, 0, none, 0, ⟨0, 0, 0, 0, 0, 0⟩⟩
    (MxView.mk 0 0 g arr g arr).fElem true 0 0 = (0x41800000, flInexact) := by decide +kernel
/-- R379: the CRC's check value over the characters 1 to 9 (the parameters are the spec's; the value is CRC-64/XZ's). -/
theorem test_crc64 : crc64 ((List.range 9).map (fun i => BitVec.ofNat 8 (0x31 + i))) = 0x995DC9BBDF1939FA := by decide +kernel
/-- R105: a signed byte 0x80 comes back sign-extended; R107: a store's bytes stand lowest first. -/
theorem test_load_byte : (match exec (.loadReturn fetchKey 0 8) { tFly tRec { tOp (.load true) (.scr 64) with size := 0 } with scr := [(64, 0x80)] } with
    | .next t => (t.group fetchKey).map (fun g => Store.read g.regs.v (32 * 12 + 3))
    | _ => none) = some 0xFFFFFF80 := by decide +kernel
theorem test_store_word : (match exec (.storePerform fetchKey 0 8) (tFly tRec (tOp .store (.scr 64))) with
    | .next t => t.scr
    | _ => []) = [(64, 0x78), (65, 0x56), (66, 0x34), (67, 0x12)] := by decide +kernel
/-- R92: the worked 2 MiB leaf of a run of 16, and the physical address of 0x80_8064_5678. -/
theorem test_leaf : let t := leafUnit 0 2 0x8080645678 0x000000300C60084B 0
    t.va = 0x8080000000 ∧ t.size = 0x2000000 ∧ t.pa = 0x300C000000 ∧ t.pa + (0x8080645678 - t.va).setWidth 52 = 0x300C645678 := by
  decide +kernel
end Sys2Proof.Tests
end

section
/-! Shapes of lane instructions: what a lane operation and a compare leave pending, and SHADOW_MISMATCH. -/
namespace Sys2Proof

/-! ## Tables made key by key -/

/-- A list of entries under their own keys holds at a listed key what that key gives. -/
theorem Tbl.find_filterMap_key {α : Type} (g : Nat → Option α) (ls : List Nat) (k : Nat) (h : k ∈ ls) :
    Tbl.find (ls.filterMap (fun l => (g l).map (Prod.mk l))) k = g k := by
  have absent (ls : List Nat) (h : g k = none) : Tbl.find (ls.filterMap (fun l => (g l).map (Prod.mk l))) k = none := by
    induction ls with
    | nil => rfl
    | cons l ls ih =>
      by_cases e : k = l
      · simp [← e, h, ih]
      · cases hg : g l <;> simp [hg, Tbl.find, e, ih]
  induction ls with
  | nil => simp at h
  | cons l ls ih =>
    by_cases e : k = l
    · subst e
      cases hg : g k with
      | none => exact absent _ hg
      | some r => simp [hg, Tbl.find]
    · have hm : k ∈ ls := by simpa [e] using h
      cases hg : g l <;> simp [hg, Tbl.find, e, ih hm]

/-- A list of keys with one entry holds it at each. -/
theorem Tbl.find_map_const {α : Type} (ls : List Nat) (x : α) (k : Nat) (h : k ∈ ls) :
    Tbl.find (ls.map (fun l => (l, x))) k = some x := by
  induction ls with
  | nil => simp at h
  | cons l ls ih =>
    by_cases e : k = l
    · simp [Tbl.find, e]
    · simp [Tbl.find, e, ih (by simpa [e] using h)]

end Sys2Proof

namespace Sys2Proof.Machine
open Sys2Proof Sys2Proof.Claims

/-! ## Lanes and their flags -/

@[simp] theorem mem_lanesOf {m : Mask} {l : Nat} : l ∈ lanesOf m ↔ l < 32 ∧ m.getLsbD l = true := by
  simp [lanesOf]

/-- Flags that no lane raises are none. -/
@[simp] theorem orFlags_zero (m : Mask) : orFlags m (fun _ => 0) = 0 := by simp [orFlags]

/-- One flag is raised together where some lane of the mask raises it. -/
theorem orFlags_flagIf (m : Mask) (b : Nat → Bool) (fl : Flags) :
    orFlags m (fun l => flagIf (b l) fl) = flagIf ((lanesOf m).any b) fl := by
  have step (c d : Bool) : flagIf c fl ||| flagIf d fl = flagIf (c || d) fl := by
    cases c <;> cases d <;> simp [flagIf]
  have fold (ls : List Nat) (c : Bool) :
      ls.foldl (fun a l => a ||| flagIf (b l) fl) (flagIf c fl) = flagIf (c || ls.any b) fl := by
    induction ls generalizing c with
    | nil => simp
    | cons l ls ih => simp only [List.foldl_cons, step, ih, List.any_cons, Bool.or_assoc]
  exact fold (lanesOf m) false

/-- A mask made of the lanes of a list. -/
theorem getLsbD_foldl_laneBits (ls : List Nat) (m : Mask) (i : Nat) (hi : i < 32) :
    (ls.foldl (fun m l => m ||| ((1 : Mask) <<< l)) m).getLsbD i = (m.getLsbD i || decide (i ∈ ls)) := by
  induction ls generalizing m with
  | nil => simp
  | cons l ls ih =>
    rw [List.foldl_cons, ih]
    have bit : ((1 : Mask) <<< l).getLsbD i = decide (i = l) := by
      rw [BitVec.getLsbD_shiftLeft]
      by_cases h : i < l
      · simp [h]; omega
      · by_cases e : i = l
        · simp [e]; omega
        · have : i - l ≠ 0 := by omega
          simp [BitVec.getLsbD_one, hi, h, e, this]
    rw [BitVec.getLsbD_or, bit]
    by_cases e : i = l <;> simp [e]

/-- Bit `i` of a mask made from a condition on lanes is the condition. -/
@[simp] theorem getLsbD_maskBy (p : Nat → Bool) {i : Nat} (hi : i < 32) : (maskBy p).getLsbD i = p i := by
  unfold maskBy maskOf
  rw [getLsbD_foldl_laneBits _ _ _ hi]
  cases h : p i <;> simp [h, hi]

/-! ## Lane operations -/

/-- A word that a group issues is its meaning `o`, which is a group's word. -/
theorem exec_of_grp {w : GW} (hw : w.Issues) {i : Instr} {o : Out} {k : GW → State} {t : State} (hi : exec i w.s = o)
    (ho : o = grp w.s k) (hk : k w = t) : exec i w.s = .next t := by
  rw [hi, ho, grp_of_issues w hw, hk]

/-- What a lane operation computes in the lanes of `eff`, and the flags of those that are no helpers, are its result. -/
theorem laneResult_of_laneOp {w : GW} {i : Instr} {d : BitVec 8} {wide : Bool} {eff : Mask} {lat : Nat}
    {f : Nat → BitVec 64 × Flags} {P : Nat → BitVec 64 → Prop} {F : Flags → Prop}
    (h : exec i w.s = .next (w.laneOp d wide eff lat f)) (hP : ∀ l, eff.getLsbD l = true → P l (f l).1)
    (hF : F (orFlags (eff &&& ~~~w.helpers) (fun l => (f l).2))) : LaneResult w i d wide eff lat P F := by
  refine ⟨fun l => if eff.getLsbD l then (f l).1 else 0, _, h.trans (congrArg _ (GW.laneOp_eq ..)), fun l _ hl => ?_, hF⟩
  simpa [hl] using hP l hl

/-- A lane operation without flags. -/
theorem laneResult_of_laneOp_noFlag {w : GW} {i : Instr} {d : BitVec 8} {wide : Bool} {eff : Mask} {lat : Nat}
    {v : Nat → BitVec 64} {P : Nat → BitVec 64 → Prop} (h : exec i w.s = .next (w.laneOp d wide eff lat fun l => (v l, 0)))
    (hP : ∀ l, P l (v l)) : LaneResult w i d wide eff lat P (fun fl => fl = 0) :=
  laneResult_of_laneOp h (fun l _ => hP l) (orFlags_zero _)

/-! ## Lanes in pairs (R388) -/

/-- The record of lane `l` in a report: what `rs` says of it, with the lane's own flags; none where it is empty. -/
def WordAt.laneRec (a : WordAt) (rs : Tbl LaneRec) (l : Nat) : Option LaneRec :=
  let r := (Tbl.find rs l).getD ⟨0, 0, 0, 0, 0⟩
  let f := (if a.act.getLsbD l then 1 else 0) ||| (if a.help.getLsbD l then 2 else 0)
  if { r with flags := r.flags ||| f } = (⟨0, 0, 0, 0, 0⟩ : LaneRec) then none else some { r with flags := r.flags ||| f }

theorem WordAt.recs_eq (a : WordAt) (rs : Tbl LaneRec) :
    a.recs rs = (List.range 32).filterMap (fun l => (a.laneRec rs l).map (Prod.mk l)) := by
  refine List.filterMap_congr fun l _ => ?_
  simp only [WordAt.laneRec, apply_ite (Option.map (Prod.mk l))]
  rfl

/-- A lane's record with a cause stands in the report under that cause (R374). -/
theorem WordAt.find_recs (a : WordAt) (rs : Tbl LaneRec) (l : Nat) (hl : l < 32) (r : LaneRec)
    (hr : Tbl.find rs l = some r) (hc : r.cause ≠ 0) : ∃ r', Tbl.find (a.recs rs) l = some r' ∧ r'.cause = r.cause := by
  rw [WordAt.recs_eq, Tbl.find_filterMap_key _ _ _ (List.mem_range.2 hl)]
  simp only [WordAt.laneRec, hr, Option.getD_some, LaneRec.mk.injEq]
  rw [if_neg (fun h => hc h.2.2.1)]
  exact ⟨_, rfl, rfl⟩

/-- The pairs that disagree under PROTECT are those that differ in what is compared (R388). -/
theorem mem_mismatches {w : GW} {lanes : Mask} {p : Nat → BitVec 64} {l : Nat} :
    l ∈ mismatches w.protect lanes p ↔ ∃ i, l = 2 * i ∧ PairDiffers w lanes (fun a b => p a = p b) i := by
  unfold mismatches PairDiffers
  by_cases hp : w.protect = true
  · simp only [hp, if_true, List.mem_filter, List.mem_map, List.mem_range, Bool.and_eq_true, Bool.or_eq_true, bne_iff_ne]
    constructor
    · rintro ⟨⟨i, hi, rfl⟩, hor, hne⟩
      exact ⟨i, rfl, trivial, hi, hor, by tauto⟩
    · rintro ⟨i, rfl, -, hi, hor, hne⟩
      exact ⟨⟨i, hi, rfl⟩, hor, by tauto⟩
  · simp [hp]

/-- Nothing disagrees where no pair differs. -/
theorem mismatches_eq_nil_iff {w : GW} {lanes : Mask} {p : Nat → BitVec 64} :
    mismatches w.protect lanes p = [] ↔ PairsSame w lanes (fun a b => p a = p b) := by
  rw [List.eq_nil_iff_forall_not_mem]
  unfold PairsSame
  constructor
  · exact fun h i hi => h (2 * i) (mem_mismatches.2 ⟨i, rfl, hi⟩)
  · exact fun h l hl => let ⟨i, _, hi⟩ := mem_mismatches.1 hl; h i hi

theorem GW.compared_of_same {w : GW} {lanes : Mask} {p : Nat → BitVec 64} (k : State)
    (h : PairsSame w lanes (fun a b => p a = p b)) : w.compared lanes p k = k := by
  unfold GW.compared
  rw [mismatches_eq_nil_iff.2 h]

theorem GW.compared_of_differ {w : GW} {lanes : Mask} {p : Nat → BitVec 64} (k : State)
    (h : ¬PairsSame w lanes (fun a b => p a = p b)) :
    w.compared lanes p k = w.trapShadow (mismatches w.protect lanes p) := by
  rw [← mismatches_eq_nil_iff] at h
  unfold GW.compared
  split
  · contradiction
  · rfl

/-- SHADOW_MISMATCH names every pair that differs (R388). -/
theorem shadowTrap_of_trapShadow {w : GW} {i : Instr} {ls : List Nat} {differs : Nat → Prop}
    (h : exec i w.s = .next (w.trapShadow ls)) (hd : ∀ k, differs k → k < 16 ∧ 2 * k ∈ ls) : ShadowTrap w i differs := by
  intro hnone
  refine ⟨_, h, ⟨_, ?_, Group.raise_of_none _ _ hnone⟩, ?_⟩
  · rfl
  intro t ht k hk
  obtain ⟨hk16, hmem⟩ := hd k hk
  rw [Group.raise_of_none _ _ hnone] at ht
  obtain rfl := Option.some.inj ht
  exact WordAt.find_recs _ _ _ (by omega) ⟨0, 0, Cause.shadowMismatch, 0, 0⟩ (Tbl.find_map_const _ _ _ hmem) (by decide)

/-- An instruction that compares the pairs' values first runs where no pair differs, and traps elsewhere (R388). -/
theorem compared_of_exec {w : GW} {i : Instr} {lanes : Mask} {p : Nat → BitVec 64} {k : State} {same : Nat → Nat → Prop}
    {runs : Prop} (h : exec i w.s = .next (w.compared lanes p k)) (hp : ∀ a b, p a = p b ↔ same a b)
    (hr : exec i w.s = .next k → runs) : Compared w i lanes same runs := by
  obtain rfl : (fun a b => p a = p b) = same := by
    funext a b
    exact propext (hp a b)
  constructor
  · intro hs
    exact hr (h.trans (congrArg _ (GW.compared_of_same k hs)))
  · intro hs
    refine shadowTrap_of_trapShadow (h.trans (congrArg _ (GW.compared_of_differ k hs))) fun j hj => ?_
    obtain ⟨-, hj16, -⟩ := id hj
    exact ⟨hj16, mem_mismatches.2 ⟨j, rfl, hj⟩⟩

/-- What a compare computes in the lanes of `eff` is its mask. -/
theorem maskResult_of_maskOp {w : GW} {i : Instr} {d : BitVec 8} {eff : Mask} {f : Nat → Bool × Flags} {P : Nat → Prop}
    {F : Flags → Prop} (h : exec i w.s = .next (w.maskOp d eff 2 f)) (hP : ∀ l, (f l).1 = true ↔ P l)
    (hF : F (orFlags (eff &&& ~~~w.helpers) (fun l => (f l).2))) : MaskResult w i d eff P F := by
  refine compared_of_exec h (fun a b => ?_) fun hk => ?_
  · rw [← hP, ← hP]
    cases (f a).1 <;> cases (f b).1 <;> simp
  · refine ⟨maskBy fun l => eff.getLsbD l && (f l).1, _, hk.trans ?_, fun l hl he => ?_, hF⟩
    · simp only [Group.resultM_eq, Group.raiseFlags_eq, GW.gives, List.foldl_cons]
    · rw [getLsbD_maskBy _ hl, he, Bool.true_and, hP]

end Sys2Proof.Machine
end

section
/-! Integer types: what a register holds of an exact result (R130, R131). -/
namespace Sys2Proof.Machine
open Sys2Proof Sys2Proof.Claims

/-! ## Types (R39) -/

theorem tyWidth_pos (ty : Nat) : 0 < tyWidth ty := by unfold tyWidth; split <;> decide

/-- The width of a type of a word, by its code. -/
theorem is64_eq (ty : BitVec 5) : is64 ty = decide (tyWidth ty.toNat = 64) := by revert ty; decide

/-- The widths of the types. -/
theorem tyWidth_cases (ty : Nat) : tyWidth ty = 4 ∨ tyWidth ty = 8 ∨ tyWidth ty = 16 ∨ tyWidth ty = 32 ∨ tyWidth ty = 64 := by
  unfold tyWidth
  split <;> simp

/-- A register of 32 bits holds every type that is not a pair. -/
theorem tyWidth_le_32 {ty : Nat} (h : tyWidth ty ≠ 64) : tyWidth ty ≤ 32 := by
  have := tyWidth_cases ty
  omega

theorem tyWidth_le (ty : Nat) : tyWidth ty ≤ 64 := by
  have := tyWidth_cases ty
  omega

/-- 2^w is twice 2^(w-1). -/
theorem two_pow_tyWidth (ty : Nat) : (2 : Int) ^ tyWidth ty = 2 * 2 ^ (tyWidth ty - 1) := by
  rw [← pow_succ', Nat.sub_add_cancel (tyWidth_pos ty)]

/-! ## The value of a type that is congruent to an integer (R131) -/

/-- The number of a type that is congruent to `x` modulo 2^w. -/
def wrapInt (ty : Nat) (x : Int) : Int :=
  if tySigned ty && 2 ^ (tyWidth ty - 1) ≤ x % 2 ^ tyWidth ty then x % 2 ^ tyWidth ty - 2 ^ tyWidth ty
  else x % 2 ^ tyWidth ty

theorem wrapInt_bounds (ty : Nat) (x : Int) : minOf ty ≤ wrapInt ty x ∧ wrapInt ty x ≤ maxOf ty := by
  have hp := two_pow_tyWidth ty
  have h0 : (0 : Int) < 2 ^ (tyWidth ty - 1) := by positivity
  have h1 := Int.emod_nonneg x (b := 2 ^ tyWidth ty) (by omega)
  have h2 := Int.emod_lt_of_pos x (b := 2 ^ tyWidth ty) (by omega)
  unfold wrapInt minOf maxOf
  cases tySigned ty <;> simp only [Bool.false_and, Bool.true_and, decide_eq_true_eq, if_true, Bool.false_eq_true, if_false]
  · omega
  · split <;> omega

theorem dvd_sub_wrapInt (ty : Nat) (x : Int) : (2 ^ tyWidth ty : Int) ∣ x - wrapInt ty x := by
  have h : (2 ^ tyWidth ty : Int) ∣ x - x % 2 ^ tyWidth ty := Int.dvd_self_sub_emod
  unfold wrapInt
  split
  · rw [show x - (x % 2 ^ tyWidth ty - 2 ^ tyWidth ty) = x - x % 2 ^ tyWidth ty + 2 ^ tyWidth ty by ring]
    exact dvd_add h dvd_rfl
  · exact h

/-- A number of the type is its own representative. -/
theorem wrapInt_of_bounds {ty : Nat} {x : Int} (hl : minOf ty ≤ x) (hu : x ≤ maxOf ty) : wrapInt ty x = x := by
  obtain ⟨hl', hu'⟩ := wrapInt_bounds ty x
  have hp := two_pow_tyWidth ty
  have hspan : maxOf ty - minOf ty < 2 ^ tyWidth ty := by
    unfold minOf maxOf
    cases tySigned ty
    · simp
    · simp
      omega
  have := Int.eq_zero_of_abs_lt_dvd (dvd_sub_wrapInt ty x) (by rw [abs_lt]; omega)
  omega

theorem minOf_le_maxOf (ty : Nat) : minOf ty ≤ maxOf ty :=
  let ⟨hl, hu⟩ := wrapInt_bounds ty 0
  hl.trans hu

/-- What a register holds of the type's width reads back as the congruent number. -/
theorem readInt_eq (ty : Nat) (raw : BitVec 64) : readInt ty raw = wrapInt ty raw.toNat := by
  simp only [readInt, wrapInt, Nat.cast_pow, Nat.cast_ofNat, Int.natCast_emod]

theorem readInt_bounds (ty : Nat) (raw : BitVec 64) : minOf ty ≤ readInt ty raw ∧ readInt ty raw ≤ maxOf ty := by
  rw [readInt_eq]
  exact wrapInt_bounds ty _

theorem ofInt_sub_two_pow (w : Nat) (x : Int) : BitVec.ofInt w (x - 2 ^ w) = BitVec.ofInt w x := by
  apply BitVec.eq_of_toInt_eq
  rw [BitVec.toInt_ofInt, BitVec.toInt_ofInt]
  exact_mod_cast Int.sub_bmod_right x (2 ^ w)

/-- A register takes of an exact result the congruent number of its type (R130, R131). -/
theorem writeInt_eq (ty : BitVec 5) (x : Int) : writeInt ty.toNat x = holdsInt ty (wrapInt ty.toNat x) := by
  unfold writeInt holdsInt wrapInt
  rw [is64_eq]
  by_cases h : tyWidth ty.toNat = 64
  · simp only [h, if_true, decide_true]
    split
    · exact (ofInt_sub_two_pow 64 _).symm
    · rfl
  · simp only [h, if_false, decide_false, Bool.false_eq_true]

/-- A number of the type is held as it is. -/
theorem writeInt_of_bounds {ty : BitVec 5} {x : Int} (hl : minOf ty.toNat ≤ x) (hu : x ≤ maxOf ty.toNat) :
    writeInt ty.toNat x = holdsInt ty x := by
  rw [writeInt_eq, wrapInt_of_bounds hl hu]

theorem clampI_eq {lo hi : Int} (x : Int) (h : lo ≤ hi) : clampI x lo hi = max lo (min hi x) := by
  unfold clampI
  split
  · omega
  · split <;> omega

/-- A result with or without `.sat` is the exact one brought into the type (R156). -/
theorem narrowed_fitInt (ty : BitVec 5) (sat : Bool) (x : Int) : Narrowed ty sat x (fitInt ty.toNat sat x).1 := by
  have hle := minOf_le_maxOf ty.toNat
  cases sat with
  | true =>
    have hc := clampI_eq x hle
    refine ⟨clampI x (minOf ty.toNat) (maxOf ty.toNat), by omega, by omega, writeInt_of_bounds (by omega) (by omega),
      fun _ => hc, fun h => absurd h (by decide)⟩
  | false =>
    obtain ⟨hl, hu⟩ := wrapInt_bounds ty.toNat x
    exact ⟨_, hl, hu, writeInt_eq ty x, fun h => absurd h (by decide), fun _ => dvd_sub_wrapInt _ x⟩

/-- The clamp changes what lies outside the type. -/
theorem fitInt_changes_iff (ty : Nat) (sat : Bool) (x : Int) :
    (fitInt ty sat x).2 = true ↔ sat = true ∧ (x < minOf ty ∨ maxOf ty < x) := by
  have hle := minOf_le_maxOf ty
  cases sat with
  | true =>
    have hc := clampI_eq x hle
    simp only [fitInt, if_true, bne_iff_ne, true_and]
    omega
  | false => simp [fitInt]

/-- The flag of results that clamp: raised where the clamp changes a lane that is no helper (R154, R156). -/
theorem satFlag_orFlags (w : GW) (ty : BitVec 5) (sat : Bool) (eff : Mask) (x : Nat → Int) :
    SatFlag w ty sat eff x (orFlags (eff &&& ~~~w.helpers) fun l => flagIf (fitInt ty.toNat sat (x l)).2 flIntSat) := by
  rw [orFlags_flagIf]
  have key : (lanesOf (eff &&& ~~~w.helpers)).any (fun l => (fitInt ty.toNat sat (x l)).2) = true ↔
      sat = true ∧ ∃ l, l < 32 ∧ eff.getLsbD l = true ∧ w.helpers.getLsbD l = false ∧
        (x l < minOf ty.toNat ∨ maxOf ty.toNat < x l) := by
    simp only [List.any_eq_true, mem_lanesOf, fitInt_changes_iff, BitVec.getLsbD_and, BitVec.getLsbD_not, Bool.and_eq_true,
      Bool.not_eq_true', decide_eq_true_eq]
    constructor
    · rintro ⟨l, ⟨hl, he, -, hh⟩, hs, hx⟩
      exact ⟨hs, l, hl, he, hh, hx⟩
    · rintro ⟨hs, l, hl, he, hh, hx⟩
      exact ⟨l, ⟨hl, he, hl, hh⟩, hs, hx⟩
  unfold SatFlag
  rw [← key]
  cases (lanesOf (eff &&& ~~~w.helpers)).any (fun l => (fitInt ty.toNat sat (x l)).2)
  · exact ⟨.inl rfl, by decide⟩
  · exact ⟨.inr rfl, by decide⟩

/-- A lane operation that wraps or clamps the exact result `x`, with its flag. -/
theorem laneResult_of_fitInt {w : GW} {i : Instr} {d : BitVec 8} {wide : Bool} {eff : Mask} {lat : Nat} {ty : BitVec 5}
    {sat : Bool} {x : Nat → Int} (h : exec i w.s = .next (w.laneOp d wide eff lat fun l =>
      ((fitInt ty.toNat sat (x l)).1, flagIf (fitInt ty.toNat sat (x l)).2 flIntSat))) :
    LaneResult w i d wide eff lat (fun l v => Narrowed ty sat (x l) v) (SatFlag w ty sat eff x) :=
  laneResult_of_laneOp h (fun l _ => narrowed_fitInt ty sat (x l)) (satFlag_orFlags ..)

end Sys2Proof.Machine
end

section
/-! Fields that a row of the map does not take are reserved (R40), and the integer arithmetic of R156. -/
namespace Sys2Proof.Machine
open Sys2Proof Sys2Proof.Claims

/-! ## Rejections (R40, R56, R57) -/

theorem check_of_reserved {i : Instr} (hi : i.illegal = false) (hr : i.reserved = true) : i.check = some .reservedField := by
  simp [Instr.check, hi, hr]

/-- A row of the V3 format that the generic checks judge, and that takes neither a saturate bit nor a rounding mode. -/
def PlainRow (i : Instr) (f : V3) : Prop :=
  i.illegal = (i.sig.types != 0 && f.ty.toNat < 16 && !i.sig.types.getLsbD f.ty.toNat) ∧ i.reserved = f.reserved i.sig ∧
    i.sig.sat = false ∧ i.sig.rm = .zero

/-- Such a word of an accepted type, with a saturate bit or a rounding mode, is rejected (R40). -/
theorem PlainRow.check {i : Instr} {f : V3} (hi : PlainRow i f) (ht : i.sig.types.getLsbD f.ty.toNat = true)
    (h : f.sat ≠ 0 ∨ f.rm ≠ 0) : i.check = some .reservedField := by
  obtain ⟨hill, hres, hsat, hrm⟩ := hi
  refine check_of_reserved (by simp [hill, ht]) ?_
  rw [hres]
  unfold V3.reserved
  rcases h with hf | hf
  · simp only [hsat, bne_iff_ne.2 hf, Bool.not_false, Bool.and_true, Bool.or_true, Bool.true_or]
  · simp only [hrm, Rnd.bad, bne_iff_ne.2 hf, Bool.or_true, Bool.true_or]

/-- A row of integer types accepts every integer type (R39). -/
theorem tyI_accepts {f : V3} (h : IntType f) : tyI.getLsbD f.ty.toNat = true := by
  have all : ∀ ty : BitVec 5, ty.toNat < 8 → tyI.getLsbD ty.toNat = true := by decide
  exact all f.ty h

/-! ## Integer arithmetic (R156) -/

/-- Each row is the exact result of its function number. -/
theorem exec_intRows : ∀ r ∈ intRows,
    ∃ fn, (∀ f s, exec (r.1 f) s = execAdd1 fn f s) ∧ ∀ a b, addExact fn a b = r.2 a b := by
  simp only [intRows, List.forall_mem_cons]
  exact ⟨⟨0, fun _ _ => rfl, fun _ _ => rfl⟩, ⟨1, fun _ _ => rfl, fun _ _ => rfl⟩, ⟨2, fun _ _ => rfl, fun _ _ => rfl⟩,
    ⟨3, fun _ _ => rfl, fun _ _ => rfl⟩, ⟨4, fun _ _ => rfl, fun _ _ => rfl⟩, ⟨5, fun _ _ => rfl, fun _ _ => rfl⟩,
    ⟨6, fun _ _ => rfl, fun _ _ => rfl⟩, ⟨7, fun _ _ => rfl, fun _ _ => rfl⟩, List.forall_mem_nil _⟩

/-- Settles O1: each row is `addExact` of its function number, wrapped or clamped by `fitInt`; the rows that take no
`.sat` reject it. -/
theorem integerArithmetic : Obligations.IntegerArithmetic := by
  refine ⟨fun w f hw _ r hr => ?_, fun f hf hs => ?_⟩
  · obtain ⟨fn, hexec, hx⟩ := exec_intRows r hr
    simp only [← hx]
    exact laneResult_of_fitInt (exec_of_grp hw (hexec f w.s) rfl rfl)
  · have plain : ∀ i ∈ [Instr.vmin f, .vmax f, .vavg f], PlainRow i f ∧ i.sig.types = tyI := by
      simp only [List.forall_mem_cons]
      exact ⟨⟨⟨rfl, rfl, rfl, rfl⟩, rfl⟩, ⟨⟨rfl, rfl, rfl, rfl⟩, rfl⟩, ⟨⟨rfl, rfl, rfl, rfl⟩, rfl⟩, List.forall_mem_nil _⟩
    intro i hi
    obtain ⟨hrow, hty⟩ := plain i hi
    exact hrow.check (hty ▸ tyI_accepts hf) (.inl (by simp [hs]))

end Sys2Proof.Machine
end

section
/-! Logic, shifts and bitfields, bit by bit (R157). -/
namespace Sys2Proof.Machine
open Sys2Proof Sys2Proof.Claims

/-! ## Bit patterns of a type (R130) -/

theorem readNat_lt (ty : Nat) (raw : BitVec 64) : readNat ty raw < 2 ^ tyWidth ty := Nat.mod_lt _ (by positivity)
theorem GW.nat_lt (w : GW) (f : V3) (r : BitVec 8) (l : Nat) : w.nat f r l < 2 ^ wOf f := readNat_lt _ _

theorem ofInt_toNat_emod {n k : Nat} (y : Int) (h : k ≤ n) : ((BitVec.ofInt n y).toNat : Int) % 2 ^ k = y % 2 ^ k := by
  have hpos : (0 : Int) < 2 ^ n := by positivity
  have hn := Int.emod_nonneg y hpos.ne'
  rw [BitVec.toNat_ofInt, Nat.cast_pow, Nat.cast_ofNat, Int.toNat_of_nonneg hn, Int.emod_emod_of_dvd _ (pow_dvd_pow 2 h)]

/-- The low bits of a register are congruent to the number it holds. -/
theorem holdsInt_toNat_emod (ty : BitVec 5) (y : Int) :
    ((holdsInt ty y).toNat : Int) % 2 ^ tyWidth ty.toNat = y % 2 ^ tyWidth ty.toNat := by
  unfold holdsInt
  rw [is64_eq]
  by_cases h : tyWidth ty.toNat = 64
  · simp only [h, decide_true, if_true]
    exact ofInt_toNat_emod y le_rfl
  · simp only [h, decide_false, Bool.false_eq_true, if_false]
    rw [BitVec.toNat_setWidth, Nat.mod_eq_of_lt (by have := (BitVec.ofInt 32 y).isLt; omega)]
    exact ofInt_toNat_emod y (tyWidth_le_32 h)

theorem wrapInt_emod (ty : Nat) (x : Int) : wrapInt ty x % 2 ^ tyWidth ty = x % 2 ^ tyWidth ty :=
  (Int.emod_eq_emod_iff_emod_sub_eq_zero.2 (Int.emod_eq_zero_of_dvd (dvd_sub_wrapInt ty x))).symm

/-- A pattern that a register takes reads back. -/
theorem readNat_writeNat (ty : BitVec 5) (n : Nat) : readNat ty.toNat (writeNat ty.toNat n) = n % 2 ^ tyWidth ty.toNat := by
  have h := holdsInt_toNat_emod ty (wrapInt ty.toNat n)
  rw [wrapInt_emod, ← writeInt_eq] at h
  exact_mod_cast h

theorem writeNat_mod (ty : BitVec 5) (n : Nat) : writeNat ty.toNat (n % 2 ^ tyWidth ty.toNat) = writeNat ty.toNat n := by
  simp [writeNat, writeInt]

/-- A lane operation whose result is a pattern, bit by bit. -/
theorem laneResult_of_pattern {w : GW} {i : Instr} {f : V3} {d : BitVec 8} {eff : Mask} {lat : Nat} {k : Nat → Nat}
    {B : Nat → Nat → Bool} (h : exec i w.s = .next (w.laneOp d (is64 f.ty) eff lat fun l => (writeNat f.ty.toNat (k l), 0)))
    (hk : ∀ l i, i < wOf f → (k l).testBit i = B l i) :
    LaneResult w i d (is64 f.ty) eff lat (fun l v => v = writeNat f.ty.toNat (readNat f.ty.toNat v) ∧
      ∀ i, i < wOf f → (readNat f.ty.toNat v).testBit i = B l i) (fun fl => fl = 0) := by
  refine laneResult_of_laneOp_noFlag h fun l => ⟨?_, fun i hi => ?_⟩
  · rw [readNat_writeNat, writeNat_mod]
  · have hi' : i < tyWidth f.ty.toNat := hi
    rw [readNat_writeNat, Nat.testBit_mod_two_pow, decide_eq_true hi', Bool.true_and, hk l i hi]

/-! ## The rows, bit by bit -/

theorem testBit_of_width_le {w a j : Nat} (ha : a < 2 ^ w) (h : w ≤ j) : a.testBit j = false :=
  Nat.testBit_lt_two_pow (ha.trans_le (Nat.pow_le_pow_right (by decide) h))

theorem div_two_pow_lt {w a k : Nat} (ha : a < 2 ^ w) (hk : k ≤ w) : a / 2 ^ k < 2 ^ (w - k) := by
  rw [Nat.div_lt_iff_lt_mul (by positivity), ← pow_add, Nat.sub_add_cancel hk]
  exact ha

/-- The top bit decides whether a pattern is at least half of its range. -/
theorem testBit_top {w a : Nat} (hw : 0 < w) (ha : a < 2 ^ w) : a.testBit (w - 1) = decide (2 ^ (w - 1) ≤ a) := by
  by_cases h : 2 ^ (w - 1) ≤ a
  · simpa [h] using Nat.testBit_of_two_pow_le_and_two_pow_add_one_gt h (by rwa [Nat.sub_add_cancel hw])
  · simpa [h] using Nat.testBit_lt_two_pow (Nat.lt_of_not_le h)

section Bits
variable {w i : Nat} (hi : i < w) (n : Nat) {a : Nat}

include hi

theorem testBit_complement (ha : a < 2 ^ w) : (2 ^ w - 1 - a).testBit i = !a.testBit i := by
  rw [Nat.sub_sub, Nat.add_comm, Nat.testBit_two_pow_sub_succ ha]
  simp [hi]

theorem testBit_shlNat : (shlNat w a n).testBit i = (decide (n ≤ i) && a.testBit (i - n)) := by
  unfold shlNat
  split
  · have : ¬n ≤ i := by omega
    simp [this]
  · simp [Nat.testBit_mul_two_pow, hi]

omit hi in
theorem testBit_shrNat (ha : a < 2 ^ w) : (shrNat w a n).testBit i = (decide (i + n < w) && a.testBit (i + n)) := by
  unfold shrNat
  split
  · have : ¬i + n < w := by omega
    simp [this]
  · rw [Nat.testBit_div_two_pow]
    by_cases h : i + n < w
    · simp [h]
    · simp [h, testBit_of_width_le ha (Nat.le_of_not_lt h)]

theorem testBit_sraNat (ha : a < 2 ^ w) :
    (sraNat w a n).testBit i = if i + n < w then a.testBit (i + n) else a.testBit (w - 1) := by
  have hk : min n w ≤ w := Nat.min_le_right n w
  have hlt := div_two_pow_lt ha hk
  have hsplit : 2 ^ w - 2 ^ (w - min n w) = 2 ^ (w - min n w) * (2 ^ min n w - 1) := by
    rw [Nat.mul_sub, ← pow_add, Nat.sub_add_cancel hk, Nat.mul_one]
  have htop := testBit_top (by omega) ha
  unfold sraNat
  by_cases h : 2 ^ (w - 1) ≤ a
  · simp only [h, decide_true, if_true, hsplit, Nat.testBit_two_pow_mul_add _ hlt, Nat.testBit_two_pow_sub_one,
      Nat.testBit_div_two_pow] at htop ⊢
    by_cases hin : i + n < w
    · rw [if_pos hin, if_pos (by omega), Nat.min_eq_left (by omega)]
    · rw [if_neg hin, if_neg (by omega), htop]
      exact decide_eq_true (by omega)
  · simp only [h, decide_false, Bool.false_eq_true, if_false, Nat.testBit_div_two_pow] at htop ⊢
    by_cases hin : i + n < w
    · rw [if_pos hin, Nat.min_eq_left (by omega)]
    · rw [if_neg hin, htop, testBit_of_width_le ha (by omega)]

theorem testBit_rolNat (ha : a < 2 ^ w) : (rolNat w a n).testBit i = a.testBit ((i + w - n % w) % w) := by
  have hk : n % w < w := Nat.mod_lt _ (by omega)
  have hlt : a / 2 ^ (w - n % w) < 2 ^ (n % w) := by
    have := div_two_pow_lt ha (Nat.sub_le w (n % w))
    rwa [Nat.sub_sub_self hk.le] at this
  unfold rolNat
  generalize n % w = k at hk hlt
  simp only [Nat.testBit_mod_two_pow, hi, decide_true, Bool.true_and, Nat.mul_comm a, Nat.testBit_two_pow_mul_add _ hlt,
    Nat.testBit_div_two_pow]
  by_cases hik : i < k
  · rw [if_pos hik, Nat.mod_eq_of_lt (by omega), Nat.add_sub_assoc hk.le]
  · rw [if_neg hik, show i + w - k = i - k + w by omega, Nat.add_mod_right, Nat.mod_eq_of_lt (by omega)]

omit hi in
theorem testBit_bextNat : (bextNat w a n).testBit i =
    (decide (i < n / 256 % 256) && (decide (i + n % 256 < w) && a.testBit (i + n % 256))) := by
  unfold bextNat fieldOf
  by_cases h : w ≤ n % 256
  · have : ¬i + n % 256 < w := by omega
    simp [h, this, Nat.mod_one]
  · simp only [h, if_false, Nat.testBit_mod_two_pow, Nat.testBit_div_two_pow, ← Bool.and_assoc, ← Bool.decide_and]
    congr 2
    apply propext
    omega

omit hi in
/-- A field of `k` bits at `p` replaced by the low bits of `a`. -/
theorem testBit_replaceField (p k c : Nat) : (c - c / 2 ^ p % 2 ^ k * 2 ^ p + a % 2 ^ k * 2 ^ p).testBit i =
    if p ≤ i ∧ i < p + k then a.testBit (i - p) else c.testBit i := by
  have hlow : c % 2 ^ p < 2 ^ p := Nat.mod_lt _ (by positivity)
  have hfield : a % 2 ^ k < 2 ^ k := Nat.mod_lt _ (by positivity)
  have hc : c - c / 2 ^ p % 2 ^ k * 2 ^ p + a % 2 ^ k * 2 ^ p =
      2 ^ p * (2 ^ k * (c / 2 ^ p / 2 ^ k) + a % 2 ^ k) + c % 2 ^ p := by
    have h1 := Nat.div_add_mod c (2 ^ p)
    have h2 := Nat.div_add_mod (c / 2 ^ p) (2 ^ k)
    have h3 : 2 ^ p * (2 ^ k * (c / 2 ^ p / 2 ^ k)) + c / 2 ^ p % 2 ^ k * 2 ^ p + c % 2 ^ p = c := by
      calc _ = 2 ^ p * (2 ^ k * (c / 2 ^ p / 2 ^ k) + c / 2 ^ p % 2 ^ k) + c % 2 ^ p := by ring
        _ = c := by rw [h2, h1]
    rw [Nat.mul_add, Nat.mul_comm (2 ^ p) (a % 2 ^ k)]
    omega
  rw [hc, Nat.testBit_two_pow_mul_add _ hlow, Nat.testBit_two_pow_mul_add _ hfield]
  simp only [Nat.testBit_mod_two_pow, Nat.testBit_div_two_pow]
  by_cases h1 : i < p
  · simp [h1, Nat.not_le.2 h1]
  · by_cases h2 : i < p + k
    · have : i - p < k := by omega
      simp [h1, h2, this, Nat.not_lt.1 h1]
    · have : ¬i - p < k := by omega
      simp only [h1, h2, this, if_false, and_false]
      congr 1
      omega

theorem testBit_binsNat (c : Nat) : (binsNat w a n c).testBit i =
    if n % 256 ≤ i ∧ i < n % 256 + n / 256 % 256 then a.testBit (i - n % 256) else c.testBit i := by
  unfold binsNat fieldOf
  by_cases h : w ≤ n % 256
  · have : ¬n % 256 ≤ i := by omega
    simp [h, this, Nat.mod_one]
  · simp only [h, if_false, testBit_replaceField]
    congr 1
    apply propext
    omega

end Bits

/-- The bits reversed so far: those of the places from the top down. -/
theorem testBit_foldl_reversed (w a m i : Nat) (hm : m ≤ w) :
    let r := (List.range m).foldl (fun r i => if a.testBit i then r + 2 ^ (w - 1 - i) else r) 0
    2 ^ (w - m) ∣ r ∧ r.testBit i = (decide (w - m ≤ i ∧ i < w) && a.testBit (w - 1 - i)) := by
  induction m with
  | zero =>
    refine ⟨dvd_zero _, ?_⟩
    simp
  | succ m ih =>
    obtain ⟨⟨q, hq⟩, hb⟩ := ih (by omega)
    have hlt : 2 ^ (w - 1 - m) < 2 ^ (w - m) := Nat.pow_lt_pow_right (by decide) (by omega)
    have hdvd : 2 ^ (w - (m + 1)) ∣ 2 ^ (w - m) := pow_dvd_pow 2 (by omega)
    simp only [List.range_succ, List.foldl_append, List.foldl_cons, List.foldl_nil]
    split
    case isTrue ham =>
      rw [show w - (m + 1) = w - 1 - m by omega] at hdvd ⊢
      refine ⟨dvd_add (hdvd.trans ⟨q, hq⟩) dvd_rfl, ?_⟩
      rw [hq] at hb ⊢
      rw [Nat.two_pow_add_eq_or_of_lt hlt, Nat.testBit_or, hb, Nat.testBit_two_pow]
      by_cases hi : i = w - 1 - m
      · have : w - 1 - (w - 1 - m) = m := by omega
        have : w - 1 - m < w := by omega
        simp [*]
      · rw [decide_eq_false (Ne.symm hi), Bool.or_false,
          decide_eq_decide.2 (show (w - m ≤ i ∧ i < w) ↔ (w - 1 - m ≤ i ∧ i < w) by omega)]
    case isFalse ham =>
      refine ⟨hdvd.trans ⟨q, hq⟩, hb.trans ?_⟩
      by_cases hi : i = w - 1 - m
      · have : w - 1 - (w - 1 - m) = m := by omega
        simp [*]
      · rw [decide_eq_decide.2 (show (w - m ≤ i ∧ i < w) ↔ (w - (m + 1) ≤ i ∧ i < w) by omega)]

theorem testBit_brevNat {w i : Nat} (hi : i < w) (a : Nat) : (brevNat w a).testBit i = a.testBit (w - 1 - i) := by
  have := (testBit_foldl_reversed w a w i le_rfl).2
  simpa [brevNat, hi] using this

end Sys2Proof.Machine
end

section
/-! Logic, shifts, bitfields, counts and byte permute as instructions (R157). -/
namespace Sys2Proof.Machine
open Sys2Proof Sys2Proof.Claims

/-- Each row is a pattern with the row's bits. -/
theorem exec_bitRows : ∀ r ∈ bitRows, ∃ k : GW → V3 → Nat → Nat, (∀ f s, exec (r.1 f) s = execPat f s fun w l => k w f l) ∧
    ∀ w f l i, i < wOf f → (k w f l).testBit i = r.2 (bitsOf w f l) i := by
  simp only [bitRows, List.forall_mem_cons]
  refine ⟨⟨fun w f l => logicNat 0 (wOf f) (w.nat f f.a l) (w.nat f f.b l), fun _ _ => rfl, fun w f l i _ => ?_⟩,
    ⟨fun w f l => logicNat 1 (wOf f) (w.nat f f.a l) (w.nat f f.b l), fun _ _ => rfl, fun w f l i _ => ?_⟩,
    ⟨fun w f l => logicNat 2 (wOf f) (w.nat f f.a l) (w.nat f f.b l), fun _ _ => rfl, fun w f l i _ => ?_⟩,
    ⟨fun w f l => logicNat 3 (wOf f) (w.nat f f.a l) (w.nat f f.b l), fun _ _ => rfl, fun w f l i hi => ?_⟩,
    ⟨fun w f l => logicNat 4 (wOf f) (w.nat f f.a l) (w.nat f f.b l), fun _ _ => rfl,
      fun w f l i hi => testBit_complement hi (w.nat_lt f f.a l)⟩,
    ⟨fun w f l => shlNat (wOf f) (w.nat f f.a l) (w.opd1 f.b l).toNat, fun _ _ => rfl,
      fun w f l i hi => testBit_shlNat hi _⟩,
    ⟨fun w f l => shrNat (wOf f) (w.nat f f.a l) (w.opd1 f.b l).toNat, fun _ _ => rfl,
      fun w f l i _ => testBit_shrNat _ (w.nat_lt f f.a l)⟩,
    ⟨fun w f l => sraNat (wOf f) (w.nat f f.a l) (w.opd1 f.b l).toNat, fun _ _ => rfl,
      fun w f l i hi => testBit_sraNat hi _ (w.nat_lt f f.a l)⟩,
    ⟨fun w f l => rolNat (wOf f) (w.nat f f.a l) (w.opd1 f.b l).toNat, fun _ _ => rfl,
      fun w f l i hi => testBit_rolNat hi _ (w.nat_lt f f.a l)⟩,
    ⟨fun w f l => bextNat (wOf f) (w.nat f f.a l) (w.opd1 f.b l).toNat, fun _ _ => rfl, fun w f l i _ => testBit_bextNat _⟩,
    ⟨fun w f l => binsNat (wOf f) (w.nat f f.a l) (w.opd1 f.b l).toNat (w.nat f f.c l), fun _ _ => rfl,
      fun w f l i hi => testBit_binsNat hi _ _⟩,
    ⟨fun w f l => brevNat (wOf f) (w.nat f f.a l), fun _ _ => rfl, fun w f l i hi => testBit_brevNat hi _⟩,
    List.forall_mem_nil _⟩
  · exact Nat.testBit_and ..
  · exact Nat.testBit_or ..
  · exact Nat.testBit_xor ..
  · exact (Nat.testBit_and ..).trans (congrArg _ (testBit_complement hi (w.nat_lt f f.b l)))

/-! ## Counts and the byte permute -/

/-- An instruction whose result is a number below 2^32. -/
theorem laneResult_of_pat32 {w : GW} {f : V3} {i : Instr} {k : GW → Nat → Nat} {P : Nat → BitVec 64 → Prop} (hw : w.Issues)
    (h : exec i w.s = execPat32 f w.s k) (hlt : ∀ l, k w l < 2 ^ 32) (hP : ∀ l v, v.toNat = k w l → P l v) :
    LaneResult w i f.d false (w.eff f.mask f.neg) 2 P (fun fl => fl = 0) := by
  refine laneResult_of_laneOp_noFlag (exec_of_grp hw h rfl rfl) fun l => hP l _ ?_
  rw [BitVec.toNat_ofNat, Nat.mod_eq_of_lt ((hlt l).trans (by decide))]

theorem popcNat_le (n : Nat) : popcNat n ≤ 64 := by
  simpa [popcNat] using List.length_filter_le n.testBit (List.range 64)

/-- The leading zeros: a number of `w` bits lies below 2^(w-z) and, if it is not 0, not below half of that. -/
theorem clzNat_spec {w n : Nat} (h : n < 2 ^ w) :
    clzNat w n ≤ w ∧ n < 2 ^ (w - clzNat w n) ∧ (clzNat w n < w → 2 ^ (w - clzNat w n - 1) ≤ n) := by
  unfold clzNat bitLen
  by_cases hn : n = 0
  · simp [hn]
  · have hlog := (Nat.log2_lt hn).2 h
    have hself : n < 2 ^ (n.log2 + 1) := Nat.lt_log2_self
    have hle : 2 ^ n.log2 ≤ n := Nat.log2_self_le hn
    simp only [hn, if_false]
    rw [Nat.sub_sub_self hlog]
    exact ⟨Nat.sub_le .., hself, fun _ => hle⟩

/-- Result byte `i` of the byte permute (R157). -/
def permByte (a b c i : Nat) : Nat :=
  let sel := b / 16 ^ i % 16
  if 8 ≤ sel then 0 else if sel < 4 then a / 256 ^ sel % 256 else c / 256 ^ (sel - 4) % 256

theorem permByte_lt (a b c i : Nat) : permByte a b c i < 256 := by
  simp only [permByte]
  split
  · decide
  · split <;> omega

/-- One step of the byte permute adds its byte. -/
theorem permNat_step (a b c r i : Nat) :
    (let sel := b / 2 ^ (4 * i) % 16
     let src := if sel % 8 < 4 then a / 256 ^ (sel % 8) % 256 else c / 256 ^ (sel % 8 - 4) % 256
     if 8 ≤ sel then r else r + src * 256 ^ i) = r + permByte a b c i * 256 ^ i := by
  rw [pow_mul, show (2 : Nat) ^ 4 = 16 from rfl]
  unfold permByte
  generalize b / 16 ^ i % 16 = sel
  by_cases h8 : 8 ≤ sel
  · simp only [h8, if_true, Nat.zero_mul, Nat.add_zero]
  · simp only [h8, if_false, Nat.mod_eq_of_lt (Nat.lt_of_not_le h8)]

/-- Bytes put one above the other, the lowest first. -/
theorem foldl_bytes (B : Nat → Nat) (hB : ∀ i, B i < 256) (n : Nat) :
    let s := (List.range n).foldl (fun r i => r + B i * 256 ^ i) 0
    s < 256 ^ n ∧ ∀ i, i < n → s / 256 ^ i % 256 = B i := by
  induction n with
  | zero => simp
  | succ n ih =>
    obtain ⟨hlt, hbyte⟩ := ih
    simp only [List.range_succ, List.foldl_append, List.foldl_cons, List.foldl_nil]
    generalize (List.range n).foldl (fun r i => r + B i * 256 ^ i) 0 = s at hlt hbyte
    refine ⟨?_, fun i hi => ?_⟩
    · calc s + B n * 256 ^ n < 256 ^ n + B n * 256 ^ n := Nat.add_lt_add_right hlt _
        _ = (B n + 1) * 256 ^ n := by ring
        _ ≤ 256 * 256 ^ n := Nat.mul_le_mul_right _ (hB n)
        _ = 256 ^ (n + 1) := (Nat.pow_succ' ..).symm
    · have hpos : 0 < 256 ^ i := Nat.pow_pos (by decide)
      rcases Nat.lt_succ_iff_lt_or_eq.1 hi with hi | rfl
      · have hsplit : B n * 256 ^ n = 256 ^ i * (256 * (B n * 256 ^ (n - i - 1))) := by
          rw [show n = i + 1 + (n - i - 1) by omega, pow_add, pow_succ]
          simp only [Nat.add_sub_cancel_left, Nat.sub_sub]
          ring
        rw [hsplit, Nat.add_mul_div_left _ _ hpos, Nat.add_mul_mod_self_left, hbyte i hi]
      · rw [Nat.add_mul_div_right _ _ hpos, Nat.div_eq_of_lt hlt, Nat.zero_add, Nat.mod_eq_of_lt (hB i)]

theorem permNat_eq (a b c : Nat) :
    permNat a b c = (List.range 4).foldl (fun r i => r + permByte a b c i * 256 ^ i) 0 := by
  unfold permNat
  congr 1
  funext r i
  exact permNat_step a b c r i

theorem permNat_lt (a b c : Nat) : permNat a b c < 2 ^ 32 := by
  rw [permNat_eq, show 2 ^ 32 = 256 ^ 4 by norm_num]
  exact (foldl_bytes _ (permByte_lt a b c) 4).1

theorem byte_permNat (a b c : Nat) {i : Nat} (hi : i < 4) : permNat a b c / 256 ^ i % 256 = permByte a b c i := by
  rw [permNat_eq]
  exact (foldl_bytes _ (permByte_lt a b c) 4).2 i hi

/-! ## Reserved fields (R40) -/

theorem shifts_plain (f : V3) : ∀ i ∈ [Instr.vshl f, .vshr f, .vsra f, .vrol f], PlainRow i f ∧ i.sig.types = tyI := by
  simp only [List.forall_mem_cons]
  exact ⟨⟨⟨rfl, rfl, rfl, rfl⟩, rfl⟩, ⟨⟨rfl, rfl, rfl, rfl⟩, rfl⟩, ⟨⟨rfl, rfl, rfl, rfl⟩, rfl⟩, ⟨⟨rfl, rfl, rfl, rfl⟩, rfl⟩,
    List.forall_mem_nil _⟩

/-- Every row of patterns and counts is plain and accepts the integer types, or the logical ones. -/
theorem bitRows_plain (f : V3) : ∀ i ∈ (bitRows.map fun r => r.1 f) ++ [Instr.vpopc f, .vclz f],
    PlainRow i f ∧ (i.sig.types = tyL ∨ i.sig.types = tyI) := by
  simp only [bitRows, List.map_cons, List.map_nil, List.cons_append, List.nil_append, List.forall_mem_cons]
  have logical {i : Instr} (h : PlainRow i f) (ht : i.sig.types = tyL) :
    PlainRow i f ∧ (i.sig.types = tyL ∨ i.sig.types = tyI) := ⟨h, .inl ht⟩
  have integer {i : Instr} (h : PlainRow i f) (ht : i.sig.types = tyI) :
    PlainRow i f ∧ (i.sig.types = tyL ∨ i.sig.types = tyI) := ⟨h, .inr ht⟩
  exact ⟨logical ⟨rfl, rfl, rfl, rfl⟩ rfl, logical ⟨rfl, rfl, rfl, rfl⟩ rfl, logical ⟨rfl, rfl, rfl, rfl⟩ rfl,
    logical ⟨rfl, rfl, rfl, rfl⟩ rfl, logical ⟨rfl, rfl, rfl, rfl⟩ rfl, integer ⟨rfl, rfl, rfl, rfl⟩ rfl,
    integer ⟨rfl, rfl, rfl, rfl⟩ rfl, integer ⟨rfl, rfl, rfl, rfl⟩ rfl, integer ⟨rfl, rfl, rfl, rfl⟩ rfl,
    logical ⟨rfl, rfl, rfl, rfl⟩ rfl, logical ⟨rfl, rfl, rfl, rfl⟩ rfl, logical ⟨rfl, rfl, rfl, rfl⟩ rfl,
    logical ⟨rfl, rfl, rfl, rfl⟩ rfl, logical ⟨rfl, rfl, rfl, rfl⟩ rfl, List.forall_mem_nil _⟩

theorem tyL_accepts {f : V3} (hf : f.ty = 6 ∨ f.ty = 7) : tyL.getLsbD f.ty.toNat = true := by
  rcases hf with e | e <;> rw [e] <;> decide
theorem tyN32_accepts {f : V3} (hf : f.ty = 6) : tyN32.getLsbD f.ty.toNat = true := by
  rw [hf]
  decide

/-- `n32` and `n64` are integer types. -/
theorem intType_of_logical {f : V3} (hf : f.ty = 6 ∨ f.ty = 7) : IntType f := by
  unfold IntType
  rcases hf with e | e <;> rw [e] <;> decide

/-- Settles O2: each pattern has the bits of its row, the counts and the byte permute fit 32 bits, and no row takes a
saturate bit or a rounding mode. -/
theorem logicShiftsAndBitfields : Obligations.LogicShiftsAndBitfields := by
  refine ⟨fun w f hw _ r hr => ?_, fun w f hw _ => ⟨?_, ?_, ?_⟩, fun f hres =>
    ⟨fun hf i hi => ?_, fun hf i hi => ?_, fun hf => ?_⟩⟩
  · obtain ⟨k, hexec, hk⟩ := exec_bitRows r hr
    exact laneResult_of_pattern (exec_of_grp hw (hexec f w.s) rfl rfl) (hk w f)
  · exact laneResult_of_pat32 hw (k := fun w l => popcNat (w.nat f f.a l)) rfl
      (fun _ => (popcNat_le _).trans_lt (by decide)) fun _ _ hv => hv
  · have spec (l : Nat) := clzNat_spec (w.nat_lt f f.a l)
    exact laneResult_of_pat32 hw (k := fun w l => clzNat (wOf f) (w.nat f f.a l)) rfl
      (fun l => (spec l).1.trans_lt ((tyWidth_le _).trans_lt (by decide))) fun l _ hv => hv ▸ spec l
  · exact laneResult_of_pat32 hw (k := fun w l => permNat (w.opd1 f.a l).toNat (w.opd1 f.b l).toNat (w.opd1 f.c l).toNat)
      rfl (fun _ => permNat_lt ..) fun l _ hv => hv ▸ ⟨permNat_lt .., fun i hi => byte_permNat _ _ _ hi⟩
  · obtain ⟨hrow, hty⟩ := shifts_plain f i hi
    exact hrow.check (hty ▸ tyI_accepts hf) hres
  · obtain ⟨hrow, hty⟩ := bitRows_plain f i hi
    rcases hty with hty | hty
    · exact hrow.check (hty ▸ tyL_accepts hf) hres
    · exact hrow.check (hty ▸ tyI_accepts (intType_of_logical hf)) hres
  · exact PlainRow.check ⟨rfl, rfl, rfl, rfl⟩ (tyN32_accepts hf) hres

end Sys2Proof.Machine
end

section
/-! Compares to a mask (R158), and multiply, divide and dot product (R159). -/
namespace Sys2Proof.Machine
open Sys2Proof Sys2Proof.Claims

/-! ## Compares (R158) -/

/-- Two patterns meet where some bit is set in both. -/
theorem land_ne_zero_iff (x y : Nat) : (x &&& y != 0) = true ↔ ∃ i, x.testBit i = true ∧ y.testBit i = true := by
  rw [bne_iff_ne, ne_eq, ← not_iff_not, not_not, Nat.eq_iff_testBit_eq]
  simp

/-- Each row is the comparison of its function number. -/
theorem exec_cmpRows : ∀ r ∈ cmpRows, ∃ fn, (∀ f s, exec (r.1 f) s = execCmp fn f s) ∧
    ∀ a b x y, cmpInt fn a b x y = true ↔ r.2 a b x y := by
  simp only [cmpRows, List.forall_mem_cons]
  exact ⟨⟨0, fun _ _ => rfl, fun _ _ _ _ => beq_iff_eq⟩, ⟨1, fun _ _ => rfl, fun _ _ _ _ => bne_iff_ne⟩,
    ⟨2, fun _ _ => rfl, fun _ _ _ _ => decide_eq_true_iff⟩, ⟨3, fun _ _ => rfl, fun _ _ _ _ => decide_eq_true_iff⟩,
    ⟨4, fun _ _ => rfl, fun _ _ _ _ => decide_eq_true_iff⟩, ⟨5, fun _ _ => rfl, fun _ _ _ _ => decide_eq_true_iff⟩,
    ⟨6, fun _ _ => rfl, fun _ _ x y => land_ne_zero_iff x y⟩, List.forall_mem_nil _⟩

/-- A result for `m0` is discarded (R25). -/
theorem Regs.land_of_m0 (pr : Bool) (rs : Regs) (p : Pend) (hp : p.dest = .m 0) : rs.land pr p = rs := by
  obtain ⟨dest, lanes, vals, due⟩ := p
  obtain rfl : dest = .m 0 := hp
  exact Regs.land_m0 ..

/-- A mask result leaves the bits outside its lanes as they were (R153). -/
theorem Regs.getLsbD_land_m (pr : Bool) (rs : Regs) (p : Pend) (d l : Nat) (hd : p.dest = .m d) (hw : Store.wf rs.m = true)
    (hl : p.lanes.getLsbD l = false) : (Store.read (rs.land pr p).m d).getLsbD l = (Store.read rs.m d).getLsbD l := by
  by_cases h0 : d = 0
  · rw [Regs.land_of_m0 pr rs p (h0 ▸ hd)]
  · simp only [Regs.land, hd, h0, if_false, Store.read_write_self _ _ _ hw, BitVec.getLsbD_or, BitVec.getLsbD_and,
      BitVec.getLsbD_not, hl, Bool.and_false, Bool.or_false, Bool.not_false, Bool.and_true]
    by_cases h32 : l < 32
    · rw [decide_eq_true h32, Bool.and_true]
    · rw [BitVec.getLsbD_of_ge _ _ (Nat.le_of_not_lt h32), Bool.false_and]

/-- Settles O3: each row is `cmpInt` of its function number in the lanes of the effective mask. -/
theorem integerCompare : Obligations.IntegerCompare := by
  refine ⟨fun w f hw r hr => ?_, fun pr rs p => ⟨Regs.land_of_m0 pr rs p, Regs.getLsbD_land_m pr rs p⟩⟩
  obtain ⟨fn, hexec, hcmp⟩ := exec_cmpRows r hr
  exact maskResult_of_maskOp (exec_of_grp hw (hexec f w.s) rfl rfl) (fun l => hcmp ..) (orFlags_zero _)

/-! ## Products (R159) -/

/-- The bounds of a type in terms of half its range. -/
theorem bounds_cases (ty : Nat) : let p : Int := 2 ^ (tyWidth ty - 1)
    (2 : Int) ^ tyWidth ty = 2 * p ∧ 0 < p ∧
      (ty < 4 ∧ minOf ty = -p ∧ maxOf ty = p - 1 ∨ ¬ty < 4 ∧ minOf ty = 0 ∧ maxOf ty = 2 * p - 1) := by
  refine ⟨two_pow_tyWidth ty, by positivity, ?_⟩
  unfold minOf maxOf tySigned
  by_cases h : ty < 4 <;> simp [h, two_pow_tyWidth]

/-- The high part of a product, with a summand or without, is a number of the type. -/
theorem hiInt_bounds {ty : Nat} {a b c : Int} (ha : minOf ty ≤ a ∧ a ≤ maxOf ty) (hb : minOf ty ≤ b ∧ b ≤ maxOf ty)
    (hc : minOf ty ≤ c ∧ c ≤ maxOf ty) : minOf ty ≤ hiInt ty (a * b + c) ∧ hiInt ty (a * b + c) ≤ maxOf ty := by
  obtain ⟨hw, hp, hcases⟩ := bounds_cases ty
  unfold hiInt
  rw [hw, Int.le_ediv_iff_mul_le (by omega), ← Int.lt_add_one_iff (a := (a * b + c) / _), Int.ediv_lt_iff_lt_mul (by omega)]
  generalize (2 : Int) ^ (tyWidth ty - 1) = p at hp hcases
  obtain ⟨ha1, ha2⟩ := ha
  obtain ⟨hb1, hb2⟩ := hb
  obtain ⟨hc1, hc2⟩ := hc
  rcases hcases with ⟨-, hmin, hmax⟩ | ⟨-, hmin, hmax⟩ <;>
    simp only [hmin, hmax] at ha1 ha2 hb1 hb2 hc1 hc2 ⊢
  · have hsq : |a * b| ≤ p * p := by
      rw [abs_mul]
      exact mul_le_mul (abs_le.2 ⟨ha1, by omega⟩) (abs_le.2 ⟨hb1, by omega⟩) (abs_nonneg b) hp.le
    obtain ⟨h1, h2⟩ := abs_le.1 hsq
    constructor <;> nlinarith
  · have h0 : 0 ≤ a * b := mul_nonneg ha1 hb1
    have h1 : a * b ≤ (2 * p - 1) * (2 * p - 1) := mul_le_mul ha2 hb2 hb1 (by omega)
    constructor <;> nlinarith

/-! ## Division (R159) -/

theorem divInt_eq (ty : BitVec 5) (a b : Int) : divInt ty.toNat a b = (quotient ty a b, remainder ty a b) := by
  have hover : (tySigned ty.toNat && a == minOf ty.toNat && b == -1) =
      decide (ty.toNat < 4 ∧ a = minOf ty.toNat ∧ b = -1) := by
    rw [Bool.decide_and, Bool.decide_and, Bool.and_assoc]
    rfl
  unfold divInt quotient remainder
  rw [hover]
  by_cases hb : b = 0
  · simp only [hb, if_true, tySigned, decide_eq_true_eq]
  · simp only [hb, if_false, decide_eq_true_eq]
    split
    · rfl
    · rw [Int.tmod_def, Int.mul_comm]

/-- A truncated quotient times its divisor is no longer than the dividend. -/
theorem abs_tdiv_mul_le (a b : Int) : |Int.tdiv a b| * |b| ≤ |a| := by
  rw [Int.abs_eq_natAbs, Int.abs_eq_natAbs, Int.abs_eq_natAbs, Int.natAbs_tdiv]
  exact_mod_cast Nat.div_mul_le_self _ _

theorem quotient_bounds {ty : BitVec 5} {a b : Int} (ha : minOf ty.toNat ≤ a ∧ a ≤ maxOf ty.toNat)
    (hb : minOf ty.toNat ≤ b) : minOf ty.toNat ≤ quotient ty a b ∧ quotient ty a b ≤ maxOf ty.toNat := by
  obtain ⟨hw, hp, hcases⟩ := bounds_cases ty.toNat
  unfold quotient
  rw [hw]
  generalize (2 : Int) ^ (tyWidth ty.toNat - 1) = p at hp hcases
  by_cases h0 : b = 0
  · simp only [h0, if_true]
    split <;> omega
  by_cases ho : ty.toNat < 4 ∧ a = minOf ty.toNat ∧ b = -1
  · rw [if_neg h0, if_pos ho]
    omega
  rw [if_neg h0, if_neg ho]
  have hmul := abs_tdiv_mul_le a b
  have hb1 : 1 ≤ |b| := Int.one_le_abs h0
  have hq : |Int.tdiv a b| ≤ |a| := by nlinarith [abs_nonneg (Int.tdiv a b)]
  rcases hcases with ⟨ht, hmin, hmax⟩ | ⟨ht, hmin, hmax⟩
  · have hap : |a| ≤ p := abs_le.2 ⟨by omega, by omega⟩
    obtain ⟨hql, hqu⟩ := abs_le.1 (hq.trans hap)
    refine ⟨by omega, ?_⟩
    by_contra hgt
    have hqp : Int.tdiv a b = p := by omega
    rw [hqp, abs_of_pos hp] at hq hmul
    have hap : a = -p := by
      rcases abs_cases a with ⟨h, _⟩ | ⟨h, _⟩ <;> omega
    have hb1 : b = 1 := by
      obtain ⟨h1, h2⟩ := abs_le.1 (show |b| ≤ 1 by nlinarith)
      omega
    rw [hb1, Int.tdiv_one] at hqp
    omega
  · have := Int.tdiv_nonneg (a := a) (b := b) (by omega) (by omega)
    rw [abs_of_nonneg this, abs_of_nonneg (by omega)] at hq
    omega

/-- A truncated remainder lies between zero and its dividend. -/
theorem tmod_between (a b : Int) :
    (0 ≤ a → 0 ≤ Int.tmod a b ∧ Int.tmod a b ≤ a) ∧ (a ≤ 0 → a ≤ Int.tmod a b ∧ Int.tmod a b ≤ 0) := by
  have habs : (Int.tmod a b).natAbs ≤ a.natAbs := by
    rw [Int.natAbs_tmod]
    exact Nat.mod_le ..
  have hneg := Int.tmod_nonneg (a := -a) b
  rw [Int.neg_tmod] at hneg
  refine ⟨fun h => ?_, fun h => ?_⟩
  · have := Int.tmod_nonneg b h
    omega
  · omega

/-- The remainder is the truncated one; the special cases of R159 agree with it. -/
theorem remainder_eq_tmod (ty : BitVec 5) (a b : Int) : remainder ty a b = Int.tmod a b := by
  unfold remainder
  split
  · next h => rw [h, Int.tmod_zero]
  split
  · next h => rw [h.2.2, Int.tmod_neg, Int.tmod_one]
  · rfl

theorem remainder_bounds {ty : BitVec 5} {a : Int} (b : Int) (ha : minOf ty.toNat ≤ a ∧ a ≤ maxOf ty.toNat) :
    minOf ty.toNat ≤ remainder ty a b ∧ remainder ty a b ≤ maxOf ty.toNat := by
  obtain ⟨-, hp, hcases⟩ := bounds_cases ty.toNat
  obtain ⟨hpos, hneg⟩ := tmod_between a b
  rw [remainder_eq_tmod]
  omega

/-! ## The instructions of R159 -/

/-- Each product row is its exact result. -/
theorem exec_mulRows : ∀ r ∈ mulRows, ∀ f s,
    exec (r.1 f) s = execMulAdd f s fun w l => r.2 (w.int f f.a l) (w.int f f.b l) (w.int f f.c l) := by
  simp only [mulRows, List.forall_mem_cons]
  exact ⟨fun _ _ => rfl, fun _ _ => rfl, List.forall_mem_nil _⟩

theorem exec_mulHiRows : ∀ r ∈ mulHiRows, ∀ f s,
    exec (r.1 f) s = execMulHi f s fun w l => r.2 (w.int f f.a l) (w.int f f.b l) (w.int f f.c l) := by
  simp only [mulHiRows, List.forall_mem_cons]
  exact ⟨fun _ _ => rfl, fun _ _ => rfl, List.forall_mem_nil _⟩

theorem GW.int_bounds (w : GW) (f : V3) (r : BitVec 8) (l : Nat) :
    minOf f.ty.toNat ≤ w.int f r l ∧ w.int f r l ≤ maxOf f.ty.toNat := readInt_bounds _ _

/-- The high part is held as it is: no row needs to wrap it. -/
theorem mulHiRows_bounds (w : GW) (f : V3) (l : Nat) : ∀ r ∈ mulHiRows,
    let x := hiInt f.ty.toNat (r.2 (w.int f f.a l) (w.int f f.b l) (w.int f f.c l))
    minOf f.ty.toNat ≤ x ∧ x ≤ maxOf f.ty.toNat := by
  have ha := w.int_bounds f f.a l
  have hb := w.int_bounds f f.b l
  have h0 : minOf f.ty.toNat ≤ 0 ∧ 0 ≤ maxOf f.ty.toNat := by
    obtain ⟨-, hp, hcases⟩ := bounds_cases f.ty.toNat
    omega
  simp only [mulHiRows, List.forall_mem_cons]
  exact ⟨by simpa using hiInt_bounds ha hb h0, hiInt_bounds ha hb (w.int_bounds f f.c l), List.forall_mem_nil _⟩

theorem exec_divRows : ∀ r ∈ divRows, ∀ f s, exec (r.1 f) s =
    grp s fun w => w.laneOp f.d (is64 f.ty) (w.eff f.mask f.neg) (latI f.ty 20 36) fun l =>
      (writeInt f.ty.toNat (r.2 f.ty (w.int f f.a l) (w.int f f.b l)), 0) := by
  simp only [divRows, List.forall_mem_cons]
  refine ⟨fun f s => ?_, fun f s => ?_, List.forall_mem_nil _⟩
  · change execVdiv f s = _
    simp only [execVdiv, divInt_eq]
  · change execVrem f s = _
    simp only [execVrem, divInt_eq]

theorem divRows_bounds (w : GW) (f : V3) (l : Nat) : ∀ r ∈ divRows,
    let x := r.2 f.ty (w.int f f.a l) (w.int f f.b l)
    minOf f.ty.toNat ≤ x ∧ x ≤ maxOf f.ty.toNat := by
  have ha := w.int_bounds f f.a l
  simp only [divRows, List.forall_mem_cons]
  exact ⟨quotient_bounds ha (w.int_bounds f f.b l).1, remainder_bounds _ ha, List.forall_mem_nil _⟩

/-- The dot product of four bytes is its sum. -/
theorem dot4_eq (ty : Nat) (a b : BitVec 64) (c : Int) : dot4 ty a b c =
    c + ((List.range 4).map fun i => readInt ty (a >>> (8 * i)) * readInt ty (b >>> (8 * i))).sum := by
  have fold (g : Nat → Int) (ls : List Nat) (c : Int) : ls.foldl (fun s i => s + g i) c = c + (ls.map g).sum := by
    induction ls generalizing c with
    | nil => simp
    | cons i ls ih => rw [List.foldl_cons, ih, List.map_cons, List.sum_cons, Int.add_assoc]
  exact fold _ _ c

/-- Settles O4: products by `fitInt` or in the pair, the high part and the quotient and remainder because they fit the type,
and the dot product as one sum. -/
theorem multiplyAndDivide : Obligations.MultiplyAndDivide := by
  intro w f hw _
  refine ⟨fun r hr => ?_, fun r hr => ?_, ?_, ?_, ?_, fun hty => ?_⟩
  · exact laneResult_of_fitInt (exec_of_grp hw (exec_mulRows r hr f w.s) rfl rfl)
  · refine laneResult_of_laneOp_noFlag (exec_of_grp hw (exec_mulHiRows r hr f w.s) rfl rfl) fun l => ?_
    obtain ⟨hl, hu⟩ := mulHiRows_bounds w f l r hr
    exact writeInt_of_bounds hl hu
  · intro r hr
    refine laneResult_of_laneOp_noFlag (exec_of_grp hw (exec_divRows r hr f w.s) rfl rfl) fun l => ?_
    obtain ⟨hl, hu⟩ := divRows_bounds w f l r hr
    exact writeInt_of_bounds hl hu
  · exact laneResult_of_laneOp_noFlag (exec_of_grp hw (o := execVmulw f w.s) rfl rfl rfl) fun l => rfl
  · refine laneResult_of_laneOp_noFlag (exec_of_grp hw (o := execVmadw f w.s) rfl rfl rfl) fun l => ?_
    rw [BitVec.ofInt_add, BitVec.ofInt_natCast, BitVec.ofNat_toNat, BitVec.setWidth_eq]
  · have ht : (f.ty + 2).toNat = f.ty.toNat + 2 := by
      rcases hty with h | h <;> rw [h] <;> rfl
    refine laneResult_of_fitInt (exec_of_grp hw (o := execVdot4 f w.s) rfl rfl ?_)
    simp only [ht, dot4_eq]

end Sys2Proof.Machine
end

section
/-! Immediate forms (R160, R169), and lane movement (R170). -/
namespace Sys2Proof.Machine
open Sys2Proof Sys2Proof.Claims

/-! ## Shifts and orders of words of any width -/

/-- Of two things of one value either is the lesser. -/
theorem lesserBy_le_eq_lt {α β : Type} [LinearOrder β] {v : α → β} (hv : v.Injective) (a b : α) :
    (if v a ≤ v b then a else b) = if v a < v b then a else b := by
  rcases lt_trichotomy (v a) (v b) with h | h | h
  · rw [if_pos h.le, if_pos h]
  · rw [hv h, ite_self, ite_self]
  · rw [if_neg h.not_ge, if_neg h.not_gt]
theorem greaterBy_le_eq_lt {α β : Type} [LinearOrder β] {v : α → β} (hv : v.Injective) (a b : α) :
    (if v a ≤ v b then b else a) = if v a < v b then b else a := by
  rcases lt_trichotomy (v a) (v b) with h | h | h
  · rw [if_pos h.le, if_pos h]
  · rw [hv h, ite_self, ite_self]
  · rw [if_neg h.not_ge, if_neg h.not_gt]

section Words
variable {w : Nat} (a b : BitVec w)

theorem ofNat_shlNat (n : Nat) : BitVec.ofNat w (shlNat w a.toNat n) = a <<< n := by
  apply BitVec.eq_of_getLsbD_eq
  intro i hi
  rw [BitVec.getLsbD_ofNat, testBit_shlNat hi, BitVec.getLsbD_shiftLeft, BitVec.testBit_toNat]
  by_cases h : i < n
  · simp [h, Nat.not_le.2 h]
  · simp [hi, h, Nat.not_lt.1 h]

theorem ofNat_shrNat (n : Nat) : BitVec.ofNat w (shrNat w a.toNat n) = a >>> n := by
  apply BitVec.eq_of_getLsbD_eq
  intro i hi
  rw [BitVec.getLsbD_ofNat, testBit_shrNat _ a.isLt, BitVec.getLsbD_ushiftRight, BitVec.testBit_toNat, Nat.add_comm n i]
  by_cases h : i + n < w
  · simp [hi, h]
  · simp [h, BitVec.getLsbD_of_ge _ _ (Nat.le_of_not_lt h)]

theorem ofNat_sraNat (n : Nat) : BitVec.ofNat w (sraNat w a.toNat n) = a.sshiftRight n := by
  apply BitVec.eq_of_getLsbD_eq
  intro i hi
  rw [BitVec.getLsbD_ofNat, testBit_sraNat hi _ a.isLt, BitVec.getLsbD_sshiftRight, Nat.add_comm n i]
  simp [hi, Nat.not_le.2 hi, BitVec.msb_eq_getLsbD_last, BitVec.testBit_toNat]

theorem minInt_eq : (if a.toInt ≤ b.toInt then a else b) = if a.slt b then a else b := by
  simpa only [BitVec.slt_iff_toInt_lt] using lesserBy_le_eq_lt (fun _ _ => BitVec.eq_of_toInt_eq) a b
theorem maxInt_eq : (if a.toInt ≤ b.toInt then b else a) = if a.slt b then b else a := by
  simpa only [BitVec.slt_iff_toInt_lt] using greaterBy_le_eq_lt (fun _ _ => BitVec.eq_of_toInt_eq) a b
theorem minNat_eq : (if a.toNat ≤ b.toNat then a else b) = if a < b then a else b := by
  simpa only [BitVec.lt_def] using lesserBy_le_eq_lt (fun _ _ => BitVec.eq_of_toNat_eq) a b
theorem maxNat_eq : (if a.toNat ≤ b.toNat then b else a) = if a < b then b else a := by
  simpa only [BitVec.lt_def] using greaterBy_le_eq_lt (fun _ _ => BitVec.eq_of_toNat_eq) a b

end Words

/-! ## Immediate forms -/

/-- Each row is its function of the register and the immediate. -/
theorem exec_immRows : ∀ r ∈ immRows, ∃ k, (∀ f s, exec (r.1 f) s = execImm r.2.1 f s k) ∧ ∀ a i, k a i = r.2.2 a i := by
  simp only [immRows, List.forall_mem_cons]
  exact ⟨⟨fun a i => a + i, fun _ _ => rfl, fun _ _ => rfl⟩, ⟨fun a i => a &&& i, fun _ _ => rfl, fun _ _ => rfl⟩,
    ⟨fun a i => a ||| i, fun _ _ => rfl, fun _ _ => rfl⟩, ⟨fun a i => a ^^^ i, fun _ _ => rfl, fun _ _ => rfl⟩,
    ⟨fun a i => BitVec.ofNat 32 (shlNat 32 a.toNat i.toNat), fun _ _ => rfl, fun a i => ofNat_shlNat a i.toNat⟩,
    ⟨fun a i => BitVec.ofNat 32 (shrNat 32 a.toNat i.toNat), fun _ _ => rfl, fun a i => ofNat_shrNat a i.toNat⟩,
    ⟨fun a i => BitVec.ofNat 32 (sraNat 32 a.toNat i.toNat), fun _ _ => rfl, fun a i => ofNat_sraNat a i.toNat⟩,
    ⟨fun a i => if a.toInt ≤ i.toInt then a else i, fun _ _ => rfl, minInt_eq⟩,
    ⟨fun a i => if a.toInt ≤ i.toInt then i else a, fun _ _ => rfl, maxInt_eq⟩,
    ⟨fun a i => if a.toNat ≤ i.toNat then a else i, fun _ _ => rfl, minNat_eq⟩,
    ⟨fun a i => if a.toNat ≤ i.toNat then i else a, fun _ _ => rfl, maxNat_eq⟩,
    ⟨fun a i => a * i, fun _ _ => rfl, fun _ _ => rfl⟩, ⟨fun _ i => i, fun _ _ => rfl, fun _ _ => rfl⟩,
    List.forall_mem_nil _⟩

theorem exec_cmpImmRows : ∀ r ∈ cmpImmRows, ∀ f s, exec (r.1 f) s = execCmpImm f s r.2 := by
  simp only [cmpImmRows, List.forall_mem_cons]
  exact ⟨fun _ _ => rfl, fun _ _ => rfl, fun _ _ => rfl, fun _ _ => rfl, fun _ _ => rfl, List.forall_mem_nil _⟩

theorem exec_floatImmRows : ∀ r ∈ floatImmRows, ∀ f s, exec (r.1 f) s = execFImm r.2.1 f s r.2.2 := by
  simp only [floatImmRows, List.forall_mem_cons]
  exact ⟨fun _ _ => rfl, fun _ _ => rfl, fun _ _ => rfl, fun _ _ => rfl, fun _ _ => rfl, List.forall_mem_nil _⟩

/-- A row whose immediate has five bits rejects a larger one (R160). -/
theorem shiftImm_check {i : Instr} {f : VI} (hi : i.illegal = false) (hr : i.reserved = f.reserved i.sig)
    (hs : i.sig.imm = .u 5) (h : 32 ≤ f.imm.toNat) : i.check = some .reservedField := by
  refine check_of_reserved hi ?_
  have : immBelow f.imm 5 = false := decide_eq_false (by omega)
  simp [hr, VI.reserved, hs, Imm.bad, this]

/-- A row that takes no `a` rejects one (R160, R169). -/
theorem noA_check {i : Instr} {f : VI} (hi : i.illegal = false) (hr : i.reserved = f.reserved i.sig)
    (hs : i.sig.a = .z) (h : f.a ≠ 0) : i.check = some .reservedField := by
  refine check_of_reserved hi ?_
  simp only [hr, VI.reserved, hs, Opd.bad, bne_iff_ne.2 h, Bool.or_true, Bool.true_or]

/-- Settles O8: each row is its function of the register and the immediate, and the checks of the format reject what it
does not take. -/
theorem immediateForms : Obligations.ImmediateForms := by
  refine ⟨fun w f hw => ⟨fun r hr _ => ?_, fun r hr => ?_⟩, fun w f hw r hr => ?_, fun f => ⟨fun himm => ?_, fun ha => ?_⟩⟩
  · obtain ⟨k, hexec, hk⟩ := exec_immRows r hr
    exact laneResult_of_laneOp_noFlag (exec_of_grp hw (hexec f w.s) rfl rfl) fun l => by rw [hk]
  · exact maskResult_of_maskOp (exec_of_grp hw (exec_cmpImmRows r hr f w.s) rfl rfl) (fun l => Iff.rfl) (orFlags_zero _)
  · exact laneResult_of_laneOp (exec_of_grp hw (exec_floatImmRows r hr f w.s) rfl rfl) (fun l _ => rfl) rfl
  · simp only [List.forall_mem_cons]
    exact ⟨shiftImm_check rfl rfl rfl himm, shiftImm_check rfl rfl rfl himm, shiftImm_check rfl rfl rfl himm,
      List.forall_mem_nil _⟩
  · exact ⟨noA_check rfl rfl rfl ha, noA_check rfl rfl rfl ha⟩

/-! ## Movement -/

/-- Each row reads from its source lane. -/
theorem exec_moveRows : ∀ r ∈ moveRows, ∃ k : V3 → Nat → Nat → Nat,
    (∀ f s, exec (r.1 f) s = execMove f s fun _ i n => k f i n) ∧ ∀ f i n, 0 < n → k f i n = r.2 f n i := by
  simp only [moveRows, List.forall_mem_cons]
  refine ⟨⟨fun _ i _ => i ^^^ 1, fun _ _ => rfl, fun _ _ _ _ => rfl⟩, ⟨fun _ i _ => i ^^^ 2, fun _ _ => rfl, fun _ _ _ _ => rfl⟩,
    ⟨fun _ i _ => i ^^^ 3, fun _ _ => rfl, fun _ _ _ _ => rfl⟩,
    ⟨fun f i _ => i / 4 * 4 + f.c.toNat, fun _ _ => rfl, fun _ _ _ _ => rfl⟩,
    ⟨fun f i _ => if i < f.c.toNat then i else i - f.c.toNat, fun _ _ => rfl, fun _ _ _ _ => rfl⟩,
    ⟨fun f i n => if n ≤ i + f.c.toNat then i else i + f.c.toNat, fun _ _ => rfl, fun f i n hn => ?_⟩,
    ⟨fun f i _ => i ^^^ f.c.toNat, fun _ _ => rfl, fun _ _ _ _ => rfl⟩,
    ⟨fun f _ _ => f.c.toNat, fun _ _ => rfl, fun _ _ _ _ => rfl⟩, List.forall_mem_nil _⟩
  have : n ≤ i + f.c.toNat ↔ i + f.c.toNat > n - 1 := by omega
  simp only [this]

/-- Settles O9: each row reads its source lane among 32 lanes, or among 16 visible ones under PROTECT. -/
theorem laneMovement : Obligations.LaneMovement := by
  intro w f hw
  have move : ∀ r ∈ moveRows, LaneResult w (r.1 f) f.d false (w.eff f.mask f.neg) 4
      (fun l v => v = w.opd1 f.a (srcLane w.protect (fun i n => r.2 f n i) l)) (fun fl => fl = 0) := by
    intro r hr
    obtain ⟨k, hexec, hk⟩ := exec_moveRows r hr
    refine laneResult_of_laneOp_noFlag (exec_of_grp hw (hexec f w.s) rfl rfl) fun l => ?_
    simp only [srcLane, hk _ _ 16 (by decide), hk _ _ 32 (by decide)]
  have shuffle : LaneResult w (.vshfl f) f.d false (w.eff f.mask f.neg) 4
      (fun l v => v = w.opd1 f.a (srcLane w.protect (fun _ n => (w.opd1 f.b l).toNat % n) l)) (fun fl => fl = 0) := by
    refine laneResult_of_laneOp_noFlag (exec_of_grp hw (o := execVshfl f w.s) rfl rfl rfl) fun l => ?_
    unfold srcLane
    split <;> rfl
  refine ⟨fun hp => ?_, fun hp => ?_, ?_⟩
  · rw [hp] at move shuffle
    exact ⟨move, shuffle⟩
  · rw [hp] at move shuffle
    exact ⟨move, shuffle⟩
  · exact laneResult_of_laneOp_noFlag (exec_of_grp hw (o := execVsel f w.s) rfl rfl rfl) fun l => rfl

end Sys2Proof.Machine
end

section
/-! The Starter's registers, and the group-wide functions on them (R175). -/
namespace Sys2Proof.Machine
open Sys2Proof Sys2Proof.Claims

/-! ## Starter registers (R25, R280) -/

/-- A register reads as it was written; `s0` discards (R25). -/
theorem SCtx.rd_wr (c : SCtx) (d r : BitVec 6) (v : BitVec 64) (h : Store.wf c.s = true) :
    (c.wr d v).rd r = if r = d ∧ d ≠ 0 then v else c.rd r := by
  unfold SCtx.wr SCtx.rd
  by_cases hd : d = 0
  · have : ¬(r = d ∧ d ≠ 0) := fun h => h.2 hd
    simp only [if_pos hd, if_neg this]
  by_cases hr : r = d
  · subst hr
    simp only [ne_eq, hd, not_false_eq_true, and_self, if_true, if_false, Store.read_write_self _ _ _ h]
  · have hn : r.toNat ≠ d.toNat := fun e => hr (BitVec.eq_of_toNat_eq e)
    have : ¬(r = d ∧ d ≠ 0) := fun h => hr h.1
    simp only [if_neg hd, if_neg this, Store.read_write_ne _ _ hn]

/-- A register write leaves the rest of the context. -/
theorem SCtx.wr_frame (c : SCtx) (d : BitVec 6) (v : BitVec 64) :
    (c.wr d v).launch = c.launch ∧ (c.wr d v).stopped = c.stopped ∧ (c.wr d v).refs = c.refs ∧
      (c.wr d v).dlcyc = c.dlcyc ∧ (c.wr d v).emitser = c.emitser := by
  unfold SCtx.wr
  split <;> exact ⟨rfl, rfl, rfl, rfl, rfl⟩

/-- A word that a Starter context executes is its meaning `o`, which is a Starter word. -/
theorem exec_of_str {w : SW} (hw : w.Runs) {i : Instr} {o : Out} {k : SW → State} {t : State} (hi : exec i w.s = o)
    (ho : o = str w.s k) (hk : k w = t) : exec i w.s = .next t := by
  rw [hi, ho, str_of_runs w hw, hk]

/-- A word that writes `v` to register `d` and passes the turn on is done (R280). -/
theorem starterDone_of_next {w : SW} {i : Instr} {s' : State} {d : BitVec 6} {v : BitVec 64}
    (h : exec i w.s = .next (w.next s' fun c => c.wr d v)) (hw : Store.wf (ctxAt w s').s = true) :
    StarterDone w i s' (w.c.pc + 8) d v := by
  obtain ⟨hlaunch, hstopped, hrefs, hdlcyc, hemitser⟩ := SCtx.wr_frame (ctxAt w s') d v
  exact ⟨{ (ctxAt w s').wr d v with pc := w.c.pc + 8, part := 0 }, h, rfl, fun r => SCtx.rd_wr _ d r v hw, hlaunch, hstopped,
    hrefs, hdlcyc, hemitser⟩

/-! ## Group-wide arithmetic on 64 bits (R172, R173) -/

theorem divInt_i64 (a b : Int) : divInt 3 a b = (quotient 3 a b, remainder 3 a b) := divInt_eq 3 a b
theorem divInt_n64 (a b : Int) : divInt 7 a b = (quotient 7 a b, remainder 7 a b) := divInt_eq 7 a b

theorem ofInt_tdiv (a b : BitVec 64) : BitVec.ofInt 64 (a.toInt.tdiv b.toInt) = a.sdiv b := by
  apply BitVec.eq_of_toInt_eq
  rw [BitVec.toInt_ofInt, BitVec.toInt_sdiv]

/-- Division of signed words: all ones by zero, truncated otherwise; the overflow of R159 wraps to itself. -/
theorem ofInt_quotient_signed (a b : BitVec 64) :
    BitVec.ofInt 64 (divInt 3 a.toInt b.toInt).1 = if b = 0 then ~~~0 else a.sdiv b := by
  rw [divInt_i64, ← ofInt_tdiv]
  unfold quotient
  by_cases hb : b = 0
  · rw [hb]
    rfl
  have hb' : b.toInt ≠ 0 := fun h => hb (BitVec.eq_of_toInt_eq h)
  simp only [hb, hb', if_false]
  split
  · next h =>
    obtain ⟨-, ha, hb1⟩ := h
    rw [ha, hb1]
    decide
  · rfl

theorem ofInt_remainder_signed (a b : BitVec 64) : BitVec.ofInt 64 (divInt 3 a.toInt b.toInt).2 = a.srem b := by
  rw [divInt_i64, remainder_eq_tmod, ← BitVec.toInt_srem, BitVec.ofInt_toInt]

theorem ofInt_quotient_unsigned (a b : BitVec 64) :
    BitVec.ofInt 64 (divInt 7 a.toNat b.toNat).1 = if b = 0 then ~~~0 else a / b := by
  rw [divInt_n64]
  unfold quotient
  by_cases hb : b = 0
  · rw [hb]
    rfl
  have hb' : (b.toNat : Int) ≠ 0 := fun h => hb (BitVec.eq_of_toNat_eq (by exact_mod_cast h))
  have hn : ¬((7 : BitVec 5).toNat < 4) := by decide
  simp only [hb, hb', hn, if_false, false_and]
  rw [← Int.ofNat_tdiv, BitVec.ofInt_natCast, ← BitVec.toNat_udiv, BitVec.ofNat_toNat, BitVec.setWidth_eq]

theorem ofInt_remainder_unsigned (a b : BitVec 64) : BitVec.ofInt 64 (divInt 7 a.toNat b.toNat).2 = a % b := by
  rw [divInt_n64, remainder_eq_tmod, ← Int.ofNat_tmod, BitVec.ofInt_natCast, ← BitVec.toNat_umod, BitVec.ofNat_toNat,
    BitVec.setWidth_eq]

/-- A shift left or right by the width or more leaves nothing. -/
theorem ofNat_shlNat_64 (a b : BitVec 64) :
    BitVec.ofNat 64 (shlNat 64 a.toNat b.toNat) = if b.toNat < 64 then a <<< b.toNat else 0 := by
  rw [ofNat_shlNat]
  split
  · rfl
  · exact BitVec.shiftLeft_eq_zero (by omega)
theorem ofNat_shrNat_64 (a b : BitVec 64) :
    BitVec.ofNat 64 (shrNat 64 a.toNat b.toNat) = if b.toNat < 64 then a >>> b.toNat else 0 := by
  rw [ofNat_shrNat]
  split
  · rfl
  · exact BitVec.ushiftRight_eq_zero (by omega)
/-- An arithmetic shift by more than the width is one by the width. -/
theorem ofNat_sraNat_64 (a b : BitVec 64) :
    BitVec.ofNat 64 (sraNat 64 a.toNat b.toNat) = a.sshiftRight (min b.toNat 64) := by
  rw [← ofNat_sraNat]
  simp only [sraNat, Nat.min_assoc, Nat.min_self]

/-- Each row of 0x12 is its function number; 13 is `gsel`, which has a statement of its own. -/
theorem gArith_rows : ∀ p ∈ gRows.zipIdx, ∀ a b d,
    gArith (BitVec.ofNat 8 (if p.2 < 13 then p.2 else p.2 + 1)).toNat a b d = p.1.2.2 a b := by
  simp only [gRows, List.zipIdx_cons, List.forall_mem_cons]
  exact ⟨fun _ _ _ => rfl, fun _ _ _ => rfl, fun _ _ _ => rfl, fun _ _ _ => rfl, fun _ _ _ => rfl,
    fun a b _ => ofNat_shlNat_64 a b, fun a b _ => ofNat_shrNat_64 a b, fun a b _ => ofNat_sraNat_64 a b,
    fun a b _ => minInt_eq a b, fun a b _ => maxInt_eq a b, fun a b _ => minNat_eq a b, fun a b _ => maxNat_eq a b,
    fun _ _ _ => rfl, fun _ _ _ => rfl, fun _ _ _ => rfl, fun a b _ => ofInt_quotient_signed a b,
    fun a b _ => ofInt_quotient_unsigned a b, fun a b _ => ofInt_remainder_signed a b,
    fun a b _ => ofInt_remainder_unsigned a b, List.forall_mem_nil _⟩

/-- A 32-bit amount in 64 bits is itself. -/
theorem toNat_setWidth_64 (i : BitVec 32) : (i.setWidth 64).toNat = i.toNat := by
  rw [BitVec.toNat_setWidth]
  exact Nat.mod_eq_of_lt (by have := i.isLt; omega)

/-- Each row of 0x13 is its function number. -/
theorem gImm_rows : ∀ p ∈ gImmRows.zipIdx, ∀ a d imm, gImm (BitVec.ofNat 8 p.2).toNat a d imm = p.1.2.2 a d imm := by
  simp only [gImmRows, List.zipIdx_cons, List.forall_mem_cons]
  refine ⟨fun _ _ _ => rfl, fun _ _ _ => rfl, fun _ _ _ => rfl, fun _ _ _ => rfl, fun a _ i => ?_, fun a _ i => ?_,
    fun a _ i => ?_, fun a _ i => minInt_eq a (i.signExtend 64), fun a _ i => maxInt_eq a (i.signExtend 64),
    fun _ _ _ => rfl, fun _ _ _ => rfl, fun _ _ _ => rfl, List.forall_mem_nil _⟩
  · exact (ofNat_shlNat a _).trans (by rw [toNat_setWidth_64])
  · exact (ofNat_shrNat a _).trans (by rw [toNat_setWidth_64])
  · exact (ofNat_sraNat a _).trans (by rw [toNat_setWidth_64])

/-- Settles O33: each function is that of the group-wide word on the context's registers. -/
theorem starterArithmetic : Obligations.StarterArithmetic := by
  intro w f hw hwf
  have hctx : Store.wf (ctxAt w w.s).s = true := by
    rwa [hw.2] at hwf
  have done (imm : BitVec 1) (fn : BitVec 8) (v : BitVec 64)
      (hv : (if imm = 0 then gArith fn.toNat (w.rd f.a) (w.rd f.b) (w.rd f.d)
        else gImm fn.toNat (w.rd f.a) (w.rd f.d) f.imm) = v) :
      StarterDone w (.starterGroupOp imm fn f) w.s (w.c.pc + 8) f.d v := by
    subst hv
    exact starterDone_of_next (exec_of_str hw (o := execStarterGroupOp imm fn f w.s) rfl rfl rfl) hctx
  refine ⟨fun p hp => done _ _ _ ?_, done _ _ _ rfl, fun p hp _ => done _ _ _ ?_⟩
  · exact gArith_rows p hp _ _ _
  · exact gImm_rows p hp _ _ _

end Sys2Proof.Machine
end
